-- ==== Sys2Proof/Word.lean ====
section
/-! DEFINITION. The machine's words (00_scope.md R7): data words, bytes, instruction words, program addresses. -/

namespace Sys2Proof

/-- A data word: 16 bits (R7). -/
abbrev Word := BitVec 16

/-- A data byte: 8 bits. -/
abbrev Byte := BitVec 8

/-- An instruction word: 24 bits (R7, R100). -/
abbrev ProgWord := BitVec 24

/-- A program address: 23 bits, two units to an instruction word (R30). -/
abbrev ProgAddr := BitVec 23

end Sys2Proof
end

