-- ==== Sys2Proof/Syntax.lean ====
section
/-! DEFINITION. The instructions: one constructor for each row P1 to P79 of the opcode table (30_encoding.md R103),
with the operand fields of that row. -/

namespace Sys2Proof

/-- A working register number, W0 to W15 (R106). -/
abbrev Reg := Fin 16

/-- The low register of an aligned pair W(2k+1):W(2k), as k (R29). -/
abbrev Pair := Fin 8

/-- A multiply's destination pair: any aligned pair except W15:W14 (R106, R180). -/
abbrev MulPair := Fin 7

/-- The `B` bit (R105). -/
inductive Size where
  | word | byte
  deriving DecidableEq, Repr

/-- The `D` bit of a file register instruction (R105): where its result goes. -/
inductive Dest where
  | wreg | file
  deriving DecidableEq, Repr

/-- The register indirect modes, codes 001 to 101 of R107. -/
inductive PtrMode where
  /-- 001, `[Wn]` -/
  | ind
  /-- 010, `[Wn--]` -/
  | postDec
  /-- 011, `[Wn++]` -/
  | postInc
  /-- 100, `[--Wn]` -/
  | preDec
  /-- 101, `[++Wn]` -/
  | preInc
  deriving DecidableEq, Repr

/-- The modes `ppp` and `qqq` of every format but MOVSD, codes 000 to 101 of R107. -/
inductive Mode where
  /-- 000, `Wn` -/
  | direct
  | ptr (p : PtrMode)
  deriving DecidableEq, Repr

/-- The modes `ggg` and `hhh` of format MOVSD, codes 000 to 111 of R107. Codes 110 and 111 are both `[Wn+Wb]`;
the constructor keeps which of the two the word holds. -/
inductive MoveMode where
  | direct
  | ptr (p : PtrMode)
  /-- 110, `[Wn+Wb]` -/
  | offset6
  /-- 111, `[Wn+Wb]` -/
  | offset7
  deriving DecidableEq, Repr

/-- The fourteen conditions of the conditional relative branches (R217 to R230). -/
inductive Cond where
  | ov | c | z | n | le | lt | leu | nov | nc | nz | nn | gt | ge | gtu
  deriving DecidableEq, Repr

/-- One constructor for each row of the opcode table. Operand names: `b` size, `d` destination select, `f` file register
address, `rs` Ws or Wns, `rd` Wd or Wnd, `rb` Wb, `p`/`g` source mode, `q`/`h` destination mode, `k` literal, `n`
displacement. -/
inductive Instr where
  /-- P1 `MOV{.B} f {,WREG}` -/
  | movF (b : Size) (d : Dest) (f : BitVec 13)
  /-- P2 `MOV{.B} WREG, f` -/
  | movWregF (b : Size) (f : BitVec 13)
  /-- P3 `MOV f, Wnd`; `f` is address<15:1> -/
  | movFWnd (f : BitVec 15) (rd : Reg)
  /-- P4 `MOV Wns, f`; `f` is address<15:1> -/
  | movWnsF (f : BitVec 15) (rs : Reg)
  /-- P5 `MOV.B #lit8, Wnd` -/
  | movBLit8 (k : BitVec 8) (rd : Reg)
  /-- P6 `MOV #lit16, Wnd` -/
  | movLit16 (k : BitVec 16) (rd : Reg)
  /-- P7 `MOV{.B} [Ws+Slit10], Wnd` -/
  | movOffLd (b : Size) (k : BitVec 10) (rd : Reg) (rs : Reg)
  /-- P8 `MOV{.B} Wns, [Wd+Slit10]` -/
  | movOffSt (b : Size) (k : BitVec 10) (rd : Reg) (rs : Reg)
  /-- P9 `MOV{.B} Ws, Wd` -/
  | movWsWd (b : Size) (rb : Reg) (h : MoveMode) (rd : Reg) (g : MoveMode) (rs : Reg)
  /-- P10 `MOV.D Ws, Wnd`; the destination pair is W(2 rd + 1):W(2 rd) -/
  | movDLd (rd : Pair) (p : Mode) (rs : Reg)
  /-- P11 `MOV.D Wns, Wd`; the source pair is W(2 rs + 1):W(2 rs) -/
  | movDSt (q : Mode) (rd : Reg) (rs : Pair)
  /-- P12 `PUSH Ws` -/
  | push (rb : Reg) (g : MoveMode) (rs : Reg)
  /-- P13 `POP Wd` -/
  | pop (rb : Reg) (h : MoveMode) (rd : Reg)
  /-- P14 `PUSH.S` -/
  | pushS
  /-- P15 `POP.S` -/
  | popS
  /-- P16 `LNK #lit14`; `k` is lit14<13:1> -/
  | lnk (k : BitVec 13)
  /-- P17 `ULNK` -/
  | ulnk
  /-- P18 `ADD{.B} f {,WREG}` -/
  | addF (b : Size) (d : Dest) (f : BitVec 13)
  /-- P19 `ADD{.B} #lit10, Wn` -/
  | addLit10 (b : Size) (k : BitVec 10) (rd : Reg)
  /-- P20 `ADD{.B} Wb, #lit5, Wd` -/
  | addLit5 (b : Size) (rb : Reg) (q : Mode) (rd : Reg) (k : BitVec 5)
  /-- P21 `ADD{.B} Wb, Ws, Wd` -/
  | addWs (b : Size) (rb : Reg) (q : Mode) (rd : Reg) (p : Mode) (rs : Reg)
  /-- P22 `BSET{.B} f, #bit4`; `j` is the bit of the byte at `f` -/
  | bsetF (j : BitVec 3) (f : BitVec 13)
  /-- P23 `BSET{.B} Ws, #bit4` -/
  | bsetWs (j : BitVec 4) (b : Size) (p : Mode) (rs : Reg)
  /-- P24 `BTSC{.B} f, #bit4`; `j` is the bit of the byte at `f` -/
  | btscF (j : BitVec 3) (f : BitVec 13)
  /-- P25 `BTSC Ws, #bit4` -/
  | btscWs (j : BitVec 4) (p : Mode) (rs : Reg)
  /-- P26 `MUL.SS Wb, Ws, Wnd` -/
  | mulSS (rb : Reg) (rd : MulPair) (p : Mode) (rs : Reg)
  /-- P27 `MUL.SU Wb, Ws, Wnd` -/
  | mulSU (rb : Reg) (rd : MulPair) (p : Mode) (rs : Reg)
  /-- P28 `MUL.SU Wb, #lit5, Wnd` -/
  | mulSULit (rb : Reg) (rd : MulPair) (k : BitVec 5)
  /-- P29 `MUL.US Wb, Ws, Wnd` -/
  | mulUS (rb : Reg) (rd : MulPair) (p : Mode) (rs : Reg)
  /-- P30 `MUL.UU Wb, Ws, Wnd` -/
  | mulUU (rb : Reg) (rd : MulPair) (p : Mode) (rs : Reg)
  /-- P31 `MUL.UU Wb, #lit5, Wnd` -/
  | mulUULit (rb : Reg) (rd : MulPair) (k : BitVec 5)
  /-- P32 `MUL{.B} f` -/
  | mulF (b : Size) (f : BitVec 13)
  /-- P33 `DIV.SW Wm, Wn`; `rm` the dividend, `rn` the divisor -/
  | divSW (rm : Reg) (rn : Reg)
  /-- P34 `DIV.SD Wm, Wn`; `rm` the dividend pair -/
  | divSD (rm : Pair) (rn : Reg)
  /-- P35 `DIV.UW Wm, Wn` -/
  | divUW (rm : Reg) (rn : Reg)
  /-- P36 `DIV.UD Wm, Wn` -/
  | divUD (rm : Pair) (rn : Reg)
  /-- P37 `ASR{.B} f {,WREG}` -/
  | asrF (b : Size) (d : Dest) (f : BitVec 13)
  /-- P38 `ASR{.B} Ws, Wd` -/
  | asrWs (b : Size) (q : Mode) (rd : Reg) (p : Mode) (rs : Reg)
  /-- P39 `ASR Wb, #lit4, Wnd` -/
  | asrLit (rb : Reg) (rd : Reg) (k : BitVec 4)
  /-- P40 `ASR Wb, Wns, Wnd` -/
  | asrWns (rb : Reg) (rd : Reg) (rs : Reg)
  /-- P41 `LSR{.B} f {,WREG}` -/
  | lsrF (b : Size) (d : Dest) (f : BitVec 13)
  /-- P42 `LSR{.B} Ws, Wd` -/
  | lsrWs (b : Size) (q : Mode) (rd : Reg) (p : Mode) (rs : Reg)
  /-- P43 `LSR Wb, #lit4, Wnd` -/
  | lsrLit (rb : Reg) (rd : Reg) (k : BitVec 4)
  /-- P44 `LSR Wb, Wns, Wnd` -/
  | lsrWns (rb : Reg) (rd : Reg) (rs : Reg)
  /-- P45 `SL{.B} f {,WREG}` -/
  | slF (b : Size) (d : Dest) (f : BitVec 13)
  /-- P46 `SL{.B} Ws, Wd` -/
  | slWs (b : Size) (q : Mode) (rd : Reg) (p : Mode) (rs : Reg)
  /-- P47 `SL Wb, #lit4, Wnd` -/
  | slLit (rb : Reg) (rd : Reg) (k : BitVec 4)
  /-- P48 `SL Wb, Wns, Wnd` -/
  | slWns (rb : Reg) (rd : Reg) (rs : Reg)
  /-- P49 `BRA Expr` -/
  | bra (n : BitVec 16)
  /-- P50 `BRA OV, Expr` -/
  | braOV (n : BitVec 16)
  /-- P51 `BRA C, Expr` -/
  | braC (n : BitVec 16)
  /-- P52 `BRA Z, Expr` -/
  | braZ (n : BitVec 16)
  /-- P53 `BRA N, Expr` -/
  | braN (n : BitVec 16)
  /-- P54 `BRA LE, Expr` -/
  | braLE (n : BitVec 16)
  /-- P55 `BRA LT, Expr` -/
  | braLT (n : BitVec 16)
  /-- P56 `BRA LEU, Expr` -/
  | braLEU (n : BitVec 16)
  /-- P57 `BRA NOV, Expr` -/
  | braNOV (n : BitVec 16)
  /-- P58 `BRA NC, Expr` -/
  | braNC (n : BitVec 16)
  /-- P59 `BRA NZ, Expr` -/
  | braNZ (n : BitVec 16)
  /-- P60 `BRA NN, Expr` -/
  | braNN (n : BitVec 16)
  /-- P61 `BRA GT, Expr` -/
  | braGT (n : BitVec 16)
  /-- P62 `BRA GE, Expr` -/
  | braGE (n : BitVec 16)
  /-- P63 `BRA GTU, Expr` -/
  | braGTU (n : BitVec 16)
  /-- P64 `RCALL Expr` -/
  | rcall (n : BitVec 16)
  /-- P65 `CALL Expr`; `t` is target<22:1> -/
  | call (t : BitVec 22)
  /-- P66 `GOTO Expr`; `t` is target<22:1> -/
  | goto (t : BitVec 22)
  /-- P67 `RETURN` -/
  | ret
  /-- P68 `RETFIE` -/
  | retfie
  /-- P69 `RETLW{.B} #lit10, Wn` -/
  | retlw (b : Size) (k : BitVec 10) (rd : Reg)
  /-- P70 `REPEAT #lit14` -/
  | repeatLit (k : BitVec 14)
  /-- P71 `REPEAT Wn` -/
  | repeatWn (rs : Reg)
  /-- P72 `NOP`; `x` is the don't-care field, bits 15:0 -/
  | nop (x : BitVec 16)
  /-- P73 `DISI #lit14` -/
  | disi (k : BitVec 14)
  /-- P74 `PWRSAV #lit1` -/
  | pwrsav (k : BitVec 1)
  /-- P75 `RESET` -/
  | reset
  /-- P76 `TBLRDL{.B} Ws, Wd` -/
  | tblrdl (b : Size) (q : Mode) (rd : Reg) (p : PtrMode) (rs : Reg)
  /-- P77 `TBLRDH{.B} Ws, Wd` -/
  | tblrdh (b : Size) (q : Mode) (rd : Reg) (p : PtrMode) (rs : Reg)
  /-- P78 `TBLWTL{.B} Ws, Wd` -/
  | tblwtl (b : Size) (q : PtrMode) (rd : Reg) (p : Mode) (rs : Reg)
  /-- P79 `TBLWTH{.B} Ws, Wd` -/
  | tblwth (b : Size) (q : PtrMode) (rd : Reg) (p : Mode) (rs : Reg)
  deriving DecidableEq, Repr

end Sys2Proof
end

