-- ==== Sys2Proof/Machine/Flags.lean ====
section
/-! DEFINITION. The arithmetic of the ALU, the multiplier, the divider and the shifter, with the flags it gives: pure functions
of the operands. A byte operand or result is a word whose high byte is zero. -/

namespace Sys2Proof.Machine

/-- The operand size in bytes, `size` of R105. -/
def sizeBytes : Size → Nat
  | .word => 2
  | .byte => 1

/-- The operand size in bits, `n` of R165 and R200. -/
def sizeBits : Size → Nat
  | .word => 16
  | .byte => 8

/-- The low `n` bits of a value of the size, the rest zero (R44). -/
def narrow (b : Size) (v : Nat) : Word := BitVec.ofNat 16 (v % 2 ^ sizeBits b)

/-- The most significant bit in the size (R38, R44). -/
def topBit (b : Size) (v : Word) : Bool := v.getLsbD (sizeBits b - 1)

/-- The low byte of a word, `v[7:0]`. -/
def lowByte (v : Word) : Byte := v.extractLsb' 0 8

/-- The high byte of a word, `v[15:8]`. -/
def highByte (v : Word) : Byte := v.extractLsb' 8 8

/-- `hi : lo`. -/
def joinBytes (hi lo : Byte) : Word := hi ++ lo

/-- A byte with a zero high byte. -/
def byteWord (v : Byte) : Word := v.setWidth 16

/-- What an addition gives (R165). -/
structure AddResult where
  res : Word
  dc : Bool
  n : Bool
  ov : Bool
  z : Bool
  c : Bool
  deriving DecidableEq, Repr

/-- `Add(x, y, size)` (R165). -/
def addFlags (b : Size) (x y : Word) : AddResult :=
  let bits := sizeBits b
  let half := bits / 2
  let xn := x.toNat % 2 ^ bits
  let yn := y.toNat % 2 ^ bits
  let sum := xn + yn
  let res := narrow b sum
  { res := res
    dc := decide (2 ^ half ≤ xn % 2 ^ half + yn % 2 ^ half)
    n := topBit b res
    ov := topBit b x == topBit b y && topBit b res != topBit b x
    z := res == 0
    c := decide (2 ^ bits ≤ sum) }

/-- The three shift operations (R200). -/
inductive ShiftOp where
  | asr | lsr | sl
  deriving DecidableEq, Repr

/-- What a single-bit shift gives (R200); OV is not among it, the rule leaves it open. -/
structure ShiftResult where
  res : Word
  n : Bool
  z : Bool
  c : Bool
  deriving DecidableEq, Repr

/-- `Shift1(op, x, size)` (R200). -/
def shift1 (op : ShiftOp) (b : Size) (x : Word) : ShiftResult :=
  let bits := sizeBits b
  let xn := x.toNat % 2 ^ bits
  let top := if topBit b x then 2 ^ (bits - 1) else 0
  let res : Word :=
    match op with
    | .asr => narrow b (top + xn / 2)
    | .lsr => narrow b (xn / 2)
    | .sl => narrow b (xn * 2)
  { res := res
    n := topBit b res
    z := res == 0
    c := match op with
      | .asr => x.getLsbD 0
      | .lsr => x.getLsbD 0
      | .sl => topBit b x }

/-- `ShiftN(op, x, k)` (R200), the result; the shifter's count is 0 to 15. -/
def shiftN (op : ShiftOp) (x : Word) (k : BitVec 4) : Word :=
  match op with
  | .asr => BitVec.ofInt 16 (x.toInt / 2 ^ k.toNat)
  | .lsr => BitVec.ofNat 16 (x.toNat / 2 ^ k.toNat)
  | .sl => BitVec.ofNat 16 (x.toNat * 2 ^ k.toNat)

/-- `Mul(a, a_signed, b, b_signed)` (R180). -/
def mulResult (a : Word) (aSigned : Bool) (b : Word) (bSigned : Bool) : BitVec 32 :=
  let x : Int := if aSigned then a.toInt else a.toNat
  let y : Int := if bSigned then b.toInt else b.toNat
  BitVec.ofInt 32 (x * y)

/-- `DivResult(signed, D, d)` (R188): quotient and remainder, if the divisor is not zero and the quotient fits. -/
def divResult (signed : Bool) (dividend : BitVec 32) (divisor : Word) : Option (Word × Word) :=
  if divisor = 0 then none
  else
    let x : Int := if signed then dividend.toInt else dividend.toNat
    let y : Int := if signed then divisor.toInt else divisor.toNat
    let q := Int.tdiv x y
    let r := x - q * y
    let fits := if signed then decide (-32768 ≤ q ∧ q ≤ 32767) else decide (q ≤ 65535)
    if fits then some (BitVec.ofInt 16 q, BitVec.ofInt 16 r) else none

end Sys2Proof.Machine
end

