-- ==== Sys2Proof/Config.lean ====
section
/-! DEFINITION. What the device fixes (the parameters of 00_scope.md R8) and the free values: the constants without a body
that stand for what the spec leaves UNSPECIFIED (00_scope.md R13). -/

namespace Sys2Proof

/-- The traps (60_exceptions.md R295, R308): the two that instructions raise, and the two that only a platform raises. -/
inductive Trap where
  /-- raised by the clock system, through the environment only (R295, R308) -/
  | oscillatorFailure
  /-- as a pending condition, raised by the environment only (R302); a CPU access that R298 speaks of is a model fault -/
  | addressError
  /-- `StackError` (R296) -/
  | stackError
  /-- `ArithmeticError` (R297) -/
  | arithmeticError
  deriving DecidableEq, Repr

/-- What an exception entry is for (60_exceptions.md R305, R306). -/
inductive ExcSource where
  | trap (t : Trap)
  | interrupt (source : Nat)
  deriving DecidableEq, Repr

/-- `SPLIM_SLACK` (R8, R300). -/
inductive SplimSlack where
  | zero | two
  deriving DecidableEq, Repr

/-- `MULWF_SRC` (R8, R187). -/
inductive MulwfSource where
  | w0 | w2
  deriving DecidableEq, Repr

/-- `SFR_ADDR` (R8, 10_state.md R23): where each core register stands in data space, counted in words from address 0. A
register has two bytes, the low one at the even address, and stands below 0x0800 (R23). -/
structure SfrMap where
  w : Vector (BitVec 10) 16
  splim : BitVec 10
  pcl : BitVec 10
  pch : BitVec 10
  tblpag : BitVec 10
  psvpag : BitVec 10
  rcount : BitVec 10
  sr : BitVec 10
  corcon : BitVec 10
  disicnt : BitVec 10
  deriving DecidableEq, Repr

/-- The device parameters (00_scope.md R8, 10_state.md R60). `State` carries them, so that the model is generic in them; no
step changes one. -/
structure Device where
  /-- `RAM_END`, the last implemented data RAM byte -/
  ramEnd : BitVec 16
  /-- `SFR_ADDR` -/
  sfr : SfrMap
  /-- `SPLIM_SLACK` -/
  splimSlack : SplimSlack
  /-- `MULWF_SRC` -/
  mulwfSource : MulwfSource
  /-- `VECTOR`, as far as it is given (R306) -/
  vectors : List (ExcSource × ProgAddr)
  /-- `N_IRQ`, how many interrupt sources there are -/
  nIrq : Nat
  deriving DecidableEq, Repr

namespace Config

/-- A free data word: the value drawn `n`-th. -/
opaque freeWord (n : Nat) : Word
/-- A free bit. -/
opaque freeBit (n : Nat) : Bool
/-- A free program word. -/
opaque freeProgWord (n : Nat) : ProgWord
/-- A free 14-bit value. -/
opaque freeCount (n : Nat) : BitVec 14
/-- A free number, from which a step's cycle count is taken (R268). -/
opaque freeCycles (n : Nat) : Nat
/-- What RAM byte `a` holds after power-on number `epoch` until it is written (R77). -/
opaque ramPowerOn (epoch : Nat) (a : Nat) : Byte

end Config

end Sys2Proof
end

