-- ==== Sys2Proof/Machine/Device.lean ====
section
/-! DEFINITION. The device parameters of `State.reset` (00_scope.md R8; 93_implementation_defined.md part 2). -/

namespace Sys2Proof.Machine

/-- `SFR_ADDR` with the addresses of 10_state.md R23, in words: W0 to W15 from 0x0000, SPLIM 0x0020, PCL 0x002E, PCH 0x0030,
TBLPAG 0x0032, PSVPAG 0x0034, RCOUNT 0x0036, SR 0x0042, CORCON 0x0044, DISICNT 0x0052. PRESUMED, log 2. -/
def defaultSfr : SfrMap :=
  { w := #v[0, 1, 2, 3, 4, 5, 6, 7, 8, 9, 10, 11, 12, 13, 14, 15]
    splim := 0x10, pcl := 0x17, pch := 0x18, tblpag := 0x19, psvpag := 0x1A, rcount := 0x1B
    sr := 0x21, corcon := 0x22, disicnt := 0x29 }

/-- The device parameters: SFR_ADDR as the spec's table has it, RAM_END as its vectors do, SPLIM_SLACK and MULWF_SRC at their
defaults. DESIGN CHOICE, log 6. -/
def Device.default : Device :=
  { ramEnd := 0x27FF, sfr := defaultSfr, splimSlack := .two, mulwfSource := .w0, vectors := [], nIrq := 118 }

end Sys2Proof.Machine
end

