-- ==== Sys2Proof/Machine/State.lean ====
section
/-! DEFINITION. The state of the machine (10_state.md R20, R58, R59), the reasons a step can stop, and the state right after
reset. Plain data only. -/

namespace Sys2Proof.Machine

/-- The STATUS register SR (R34). The unimplemented bits 15:9 read 0 and are not stored. -/
structure Sr where
  dc : Bool
  ipl : BitVec 3
  ra : Bool
  n : Bool
  ov : Bool
  z : Bool
  c : Bool
  deriving DecidableEq, Repr

/-- The core control register CORCON (R45). The unimplemented bits read 0 and are not stored. -/
structure Corcon where
  ipl3 : Bool
  psv : Bool
  deriving DecidableEq, Repr

/-- The shadow registers (R56): W0s to W3s and SRs. -/
structure Shadow where
  w0 : Word
  w1 : Word
  w2 : Word
  w3 : Word
  dc : Bool
  n : Bool
  ov : Bool
  z : Bool
  c : Bool
  deriving DecidableEq, Repr

/-- `PendingTraps` (R58, R302): a set holds a condition once (R296). -/
structure TrapSet where
  oscillatorFailure : Bool
  addressError : Bool
  stackError : Bool
  arithmeticError : Bool
  deriving DecidableEq, Repr

/-- An interrupt request as the core sees it: an element of `Pending` (R301, R302). -/
structure Request where
  source : Nat
  priority : BitVec 3
  deriving DecidableEq, Repr

/-- Whether the CPU executes or is stopped by `PWRSAV` (R269). -/
inductive Power where
  | running | sleep | idle
  deriving DecidableEq, Repr

/-- A write to a peripheral address, as R78 has it recorded. -/
structure PeriphWrite where
  addr : Word
  byteWrite : Bool
  value : Word
  deriving DecidableEq, Repr

/-- The four divide instructions (R188). -/
inductive DivKind where
  | sw | sd | uw | ud
  deriving DecidableEq, Repr

/-- What an iteration of a divide hands to the next one: the intermediate data in W1:W0, and N, Z and C (R188). -/
structure DivScratch where
  w0 : Word
  w1 : Word
  n : Bool
  z : Bool
  c : Bool
  deriving DecidableEq, Repr

/-- One divide in progress: what it divides, and what its last iteration left (R188). -/
structure DivEntry where
  kind : DivKind
  /-- the divisor's register and its value -/
  rn : Fin 16
  divisor : Word
  /-- the 32-bit dividend the first iteration read -/
  dividend : BitVec 32
  /-- RCOUNT at the start of the next iteration -/
  count : BitVec 14
  /-- what the last iteration left -/
  scratch : DivScratch
  deriving DecidableEq, Repr

/-- How the `REPEAT` loop under way stands with the divider (R188, R195). -/
inductive LoopDivide where
  /-- no divide iteration has run in it -/
  | fresh
  /-- a proper divide is in progress -/
  | running (e : DivEntry)
  /-- an iteration was improper, so every later one is -/
  | spoiled
  deriving DecidableEq, Repr

/-- A loop that an exception has interrupted (R188, R254). -/
structure Suspended where
  /-- its number: how many loops had been interrupted before it -/
  id : Nat
  /-- the target's address and RCOUNT -/
  pc : ProgAddr
  count : BitVec 14
  /-- how it stands with the divider -/
  loop : LoopDivide
  /-- W0, W1, N, Z and C as the exception found them -/
  scratch : DivScratch
  /-- a `RETFIE` has gone on with it -/
  returned : Bool
  /-- the address its frame was put at -/
  frame : Word
  /-- W15 has not come into its frame since, as it does when the frame is popped or dropped -/
  stacked : Bool
  deriving DecidableEq, Repr

/-- A place that can hold a byte: half of a W register, half of one of W0s to W3s, or a byte of RAM. -/
inductive ByteLoc where
  | reg (r : Fin 16) (high : Bool)
  | shadow (k : Fin 4) (high : Bool)
  | ram (a : Nat)
  deriving DecidableEq, Repr

/-- The divider. The model's own field: R188 fixes a divide's end result while everything in between is UNSPECIFIED. -/
structure Divider where
  /-- the loop under way -/
  loop : LoopDivide
  /-- the loops that exceptions have interrupted, the latest first -/
  suspended : List Suspended
  /-- the bytes that hold a byte of the frame stacked for an interrupted loop, with the number of the loop (log 26) -/
  origins : List (ByteLoc × Nat)
  deriving DecidableEq, Repr

/-- What the step under way has done that its end depends on. The model's own field; empty between steps. -/
structure StepNotes where
  /-- SPLIM was written through its address (R340) -/
  wroteSplim : Bool
  /-- DISICNT was loaded, so this step does not count it down (R268) -/
  wroteDisicnt : Bool
  /-- RCOUNT or SR was written through its address (R252) -/
  wroteLoop : Bool
  /-- a `DeviceReset` was performed instead of the instruction (R299) -/
  didReset : Bool
  /-- data reads made through the PSV window (R268) -/
  psvReads : Nat
  /-- the stores to RAM, address and number of bytes, the latest first (log 26) -/
  stores : List (Word × Nat)
  deriving DecidableEq, Repr

/-- The notes between steps. -/
def StepNotes.empty : StepNotes :=
  { wroteSplim := false, wroteDisicnt := false, wroteLoop := false, didReset := false, psvReads := 0
    stores := [] }

/-- The whole state of the machine. -/
structure State where
  /-- W0 to W15 (R21); bit 0 of W15 stays 0 (R26) -/
  w : Vector Word 16
  /-- Winit[0..14] (R28) -/
  winit : Vector Bool 15
  /-- PC<22:0> (R30) -/
  pc : ProgAddr
  /-- the PC has left 0 to 0x7FFFFE, so the next fetch faults (R33); the model's own -/
  pcOut : Bool
  sr : Sr
  corcon : Corcon
  /-- SPLIM (R50); bit 0 stays 0 -/
  splim : Word
  /-- SplimEn (R51) -/
  splimEn : Bool
  /-- SplimJustWritten (R51, R340) -/
  splimJustWritten : Bool
  tblpag : BitVec 8
  psvpag : BitVec 8
  rcount : BitVec 14
  disicnt : BitVec 14
  shadow : Shadow
  pendingTraps : TrapSet
  /-- Pending (R302); changed by the environment between steps -/
  pending : List Request
  /-- INTCON1.NSTDIS (R8, R40), an input -/
  nstdis : Bool
  power : Power
  /-- data RAM (R77): the bytes written since power-on, addresses strictly rising -/
  ram : List Host.Cell
  /-- which power-on the other bytes of RAM belong to; the model's own -/
  ramEpoch : Nat
  /-- program memory (R83, R84): the implemented words, addresses strictly rising -/
  prog : List (Nat × ProgWord)
  /-- writes to peripheral addresses, the newest first (R78) -/
  periphWrites : List PeriphWrite
  divider : Divider
  /-- how many free values have been drawn; the model's own -/
  free : Nat
  notes : StepNotes
  device : Device
  deriving DecidableEq, Repr

/-- Why a step stops with a fault. -/
inductive Fault where
  /-- Raised by a data access that is a word access at an odd address or an access to an unimplemented address (R74, R79,
  R298). Safe: the hardware goes on, by a trap the spec does not describe. -/
  | addressError (addr : Word)
  /-- Raised by a fetch from a program address outside PROG_IMPL (R84). Safe: the spec does not say what follows. -/
  | fetch (addr : Nat)
  /-- Raised by taking an exception whose handler's address VECTOR does not give: `Fault(e)` (R306, R319). Safe: the spec ends
  the run there. -/
  | noVector (e : ExcSource)
  /-- Raised by a fetch after the PC left 0 to 0x7FFFFE (R33). Safe: the spec does not say what follows. -/
  | pcRange
  deriving DecidableEq, Repr

/-- Why a step has no meaning. -/
inductive Refusal where
  /-- Raised by `exec` for an instruction that has no meaning yet. Safe. -/
  | notModelled (mnemonic : String)
  /-- Raised by decoding a word that matches no row (R113). Safe. -/
  | unknownWord (w : ProgWord)
  /-- Raised by decoding `CALL` or `GOTO` whose second word has bits 23:7 set (R234). Safe. -/
  | malformedSecondWord (w : ProgWord)
  /-- Raised by an instruction whose operands collide (R109, R139, R181, R237). Safe. -/
  | registerCollision
  /-- Raised by a byte-mode modification of W15 (R108). Safe. -/
  | byteModifyW15
  /-- Raised by a byte-mode `lit10` above 255 (R110). Safe. -/
  | lit10AboveByte
  /-- Raised by a shift by a register that holds more than 15 (R204, R208, R212). Safe. -/
  | shiftCountAbove15
  /-- Raised by a flag-setting instruction whose data destination is SR (R42). Safe. -/
  | srDestination
  /-- Raised by a data access to PCL or PCH (R32). Safe. -/
  | pcDataAccess
  /-- Raised by a data write into an open PSV window (R82). Safe. -/
  | psvWrite
  /-- Raised by `TBLWTL` and `TBLWTH` (R274, R275). Safe. -/
  | tableWrite
  /-- Raised by a table instruction whose pointer is W15 (R271). Safe. -/
  | tablePointerW15
  /-- Raised by a word table access at an odd address (R271). Safe. -/
  | tableMisaligned
  /-- Raised by an instruction that may not follow `REPEAT`, as the target of an active loop (R252, R257). Safe. -/
  | invalidRepeatTarget
  /-- Raised by a target of an active loop that writes RCOUNT or SR through its address (R252). Safe. -/
  | repeatTargetWrites
  deriving DecidableEq, Repr

/-- The kinds of reset (R330, R331). -/
inductive ResetCause where
  | powerOn | external | software | uninitW | other
  deriving DecidableEq, Repr

/-- The machine right after a power-on reset (R59, R330). SPLIM, RCOUNT, DISICNT and the shadow registers have no reset value
in the spec: zero, DESIGN CHOICE, log 5. Program memory is PROG_IMPL, loaded from outside (log 9). -/
def State.reset : State :=
  { w := (Vector.replicate 16 0).set 15 0x0800
    winit := Vector.replicate 15 false
    pc := 0
    pcOut := false
    sr := { dc := false, ipl := 0, ra := false, n := false, ov := false, z := false, c := false }
    corcon := { ipl3 := false, psv := false }
    splim := 0
    splimEn := false
    splimJustWritten := false
    tblpag := 0
    psvpag := 0
    rcount := 0
    disicnt := 0
    shadow := { w0 := 0, w1 := 0, w2 := 0, w3 := 0, dc := false, n := false, ov := false, z := false, c := false }
    pendingTraps :=
      { oscillatorFailure := false, addressError := false, stackError := false, arithmeticError := false }
    pending := []
    nstdis := false
    power := .running
    ram := []
    ramEpoch := 0
    prog := []
    periphWrites := []
    divider := { loop := .fresh, suspended := [], origins := [] }
    free := 0
    notes := .empty
    device := Device.default }

/-- What a step can answer. -/
abbrev Outcome := Host.Outcome State Fault Refusal

end Sys2Proof.Machine
end

