-- ==== Sys2Proof/Machine/Ops.lean ====
section
/-! DEFINITION. The named operations every meaning is made of: registers, the PC, free values, the stack check, data memory
with its memory-mapped core registers, program memory, pushes and pops, the device reset, and taking an exception and
returning from one. -/

namespace Sys2Proof.Machine

/-- Why an instruction does not run to its end: a device reset performed instead of it (R299), a fault or a refusal. -/
inductive Stop where
  | reset (c : ResetCause)
  | fault (f : Fault)
  | refuse (r : Refusal)
  deriving DecidableEq, Repr

/-- What an operation answers. -/
abbrev Res (α : Type) := Except Stop α

/-! ## Working registers -/

/-- `W[r]` (R11). -/
def State.reg (s : State) (r : Reg) : Word := s.w[r.val]

/-- What is stored when `v` is written to `W[r]`: W15<0> is fixed to 0 (R26). -/
def fixReg (r : Reg) (v : Word) : Word := if r = 15 then v &&& 0xFFFE else v

/-- A change of `W[r]` that says nothing of `Winit[r]`: a byte write or a pointer modification (R28, R108). -/
def State.setReg (r : Reg) (v : Word) (s : State) : State := { s with w := s.w.set r.val (fixReg r v) }

/-- `Winit[r] <- true`; W15 is always initialised (R28). -/
def State.markInit (r : Reg) (s : State) : State :=
  { s with winit := if h : r.val < 15 then s.winit.set r.val true else s.winit }

/-- A word write of `W[r]` (R28). -/
def State.writeReg (r : Reg) (v : Word) (s : State) : State := (s.setReg r v).markInit r

/-- A byte write of `W[r].lo` (R25, R28). -/
def State.writeRegLow (r : Reg) (v : Byte) (s : State) : State := s.setReg r (joinBytes (highByte (s.reg r)) v)

/-- A byte write of `W[r].hi` (R25, R28). -/
def State.writeRegHigh (r : Reg) (v : Byte) (s : State) : State := s.setReg r (joinBytes v (lowByte (s.reg r)))

/-- `Winit[r]`, true for W15 (R28). -/
def State.initialised (s : State) (r : Reg) : Bool := if h : r.val < 15 then s.winit[r.val] else true

/-- The value of a register-direct source (R109). -/
def State.regVal (s : State) (b : Size) (r : Reg) : Word :=
  match b with
  | .word => s.reg r
  | .byte => byteWord (lowByte (s.reg r))

/-- The write of a register-direct destination (R109). -/
def State.writeRegSized (b : Size) (r : Reg) (v : Word) (s : State) : State :=
  match b with
  | .word => s.writeReg r v
  | .byte => s.writeRegLow r (lowByte v)

/-- `W(2k)` of a pair (R29). -/
def pairLow (k : Pair) : Reg := ⟨2 * k.val, by omega⟩

/-- `W(2k+1)` of a pair (R29). -/
def pairHigh (k : Pair) : Reg := ⟨2 * k.val + 1, by omega⟩

/-- The register after `r`. Only `MOV.D` with a register-direct pair uses it, where `r` is even. -/
def nextReg (r : Reg) : Reg := r + 1

/-! ## The program counter -/

/-- `pc <- a`, for an address of 23 bits; PC<0> is 0 (R30). -/
def State.setPc (a : ProgAddr) (s : State) : State := { s with pc := a &&& 0x7FFFFE, pcOut := false }

/-- `pc <- t`, for a computed address that may lie outside 0 to 0x7FFFFE (R33, R215). -/
def State.goto (t : Int) (s : State) : State :=
  { s with pc := BitVec.ofInt 23 t &&& 0x7FFFFE, pcOut := decide (t < 0 ∨ 0x7FFFFE < t) }

/-- `pc <- PC + 2` (R31). -/
def State.advance (s : State) : State := s.goto (s.pc.toNat + 2)

/-- `RelTarget(n)` (R215). -/
def relTarget (s : State) (n : BitVec 16) : Int := s.pc.toNat + 2 + 2 * n.toInt

/-! ## Free values (log 7) -/

/-- Draw UNSPECIFIED_16. -/
def State.drawWord (s : State) : Word × State := (Config.freeWord s.free, { s with free := s.free + 1 })

/-- Draw UNSPECIFIED_1. -/
def State.drawBit (s : State) : Bool × State := (Config.freeBit s.free, { s with free := s.free + 1 })

/-- Draw UNSPECIFIED_14. -/
def State.drawCount (s : State) : BitVec 14 × State := (Config.freeCount s.free, { s with free := s.free + 1 })

/-- Draw UNSPECIFIED_24. -/
def State.drawProgWord (s : State) : ProgWord × State := (Config.freeProgWord s.free, { s with free := s.free + 1 })

/-! ## SR and CORCON -/

/-- SRL, `SR[7:0]` (R34). -/
def srl (r : Sr) : Byte :=
  r.ipl ++ BitVec.ofBool r.ra ++ BitVec.ofBool r.n ++ BitVec.ofBool r.ov ++ BitVec.ofBool r.z ++ BitVec.ofBool r.c

/-- The word a data read of SR returns (R42). -/
def srWord (r : Sr) : Word := joinBytes (0#7 ++ BitVec.ofBool r.dc) (srl r)

/-- A data write of SRL: RA is read-only, IPL is when NSTDIS = 1 (R42). -/
def writeSrl (nstdis : Bool) (v : Byte) (r : Sr) : Sr :=
  { r with
    ipl := if nstdis then r.ipl else v.extractLsb' 5 3
    n := v.getLsbD 3
    ov := v.getLsbD 2
    z := v.getLsbD 1
    c := v.getLsbD 0 }

/-- A data write of SRH: only DC is implemented (R42). -/
def writeSrh (v : Byte) (r : Sr) : Sr := { r with dc := v.getLsbD 0 }

/-- `SR[7:0] <- v` by `RETFIE`: every bit of SRL (R236). -/
def restoreSrl (v : Byte) (r : Sr) : Sr :=
  { r with
    ipl := v.extractLsb' 5 3
    ra := v.getLsbD 4
    n := v.getLsbD 3
    ov := v.getLsbD 2
    z := v.getLsbD 1
    c := v.getLsbD 0 }

/-- The word a data read of CORCON returns (R45). -/
def corconWord (r : Corcon) : Word := 0#12 ++ BitVec.ofBool r.ipl3 ++ BitVec.ofBool r.psv ++ 0#2

/-- A data write of CORCON's low byte: PSV is written, IPL3 can only be cleared (R45). -/
def writeCorconLow (v : Byte) (r : Corcon) : Corcon := { ipl3 := r.ipl3 && v.getLsbD 3, psv := v.getLsbD 2 }

/-- The five ALU flags of an addition (R165). -/
def State.setAddFlags (a : AddResult) (s : State) : State :=
  { s with sr := { s.sr with dc := a.dc, n := a.n, ov := a.ov, z := a.z, c := a.c } }

/-- N and Z (R130, R200). -/
def State.setNZ (n z : Bool) (s : State) : State := { s with sr := { s.sr with n := n, z := z } }

/-- N, Z and C of a single-bit shift, and an unspecified OV (R200). -/
def State.setShiftFlags (a : ShiftResult) (s : State) : State :=
  let (ov, s1) := s.drawBit
  { s1 with sr := { s1.sr with n := a.n, z := a.z, c := a.c, ov := ov } }

/-- `CPUIPL = CORCON.IPL3 : SR.IPL<2:0>` (R48). -/
def cpuIpl (s : State) : Nat := (if s.corcon.ipl3 then 8 else 0) + s.sr.ipl.toNat

/-! ## Traps raised by instructions -/

/-- The trap is in `PendingTraps`. -/
def TrapSet.has (t : TrapSet) : Trap → Bool
  | .oscillatorFailure => t.oscillatorFailure
  | .addressError => t.addressError
  | .stackError => t.stackError
  | .arithmeticError => t.arithmeticError

/-- `PendingTraps` with the trap put in or taken out. -/
def TrapSet.put (t : TrapSet) (e : Trap) (v : Bool) : TrapSet :=
  match e with
  | .oscillatorFailure => { t with oscillatorFailure := v }
  | .addressError => { t with addressError := v }
  | .stackError => { t with stackError := v }
  | .arithmeticError => { t with arithmeticError := v }

/-- No trap is pending. -/
def TrapSet.none : TrapSet :=
  { oscillatorFailure := false, addressError := false, stackError := false, arithmeticError := false }

/-- The highest pending trap, in the order of R308. -/
def TrapSet.highest (t : TrapSet) : Option Trap :=
  if t.oscillatorFailure then some .oscillatorFailure
  else if t.addressError then some .addressError
  else if t.stackError then some .stackError
  else if t.arithmeticError then some .arithmeticError
  else Option.none

/-- `raise e`: the trap is marked pending and the instruction goes on (R296, R297). -/
def State.raise (e : Trap) (s : State) : State := { s with pendingTraps := s.pendingTraps.put e true }

/-- `SPLIM_SLACK` as a number (R300). -/
def slackValue : SplimSlack → Nat
  | .zero => 0
  | .two => 2

/-- The wrap test of `StackCheck`: the address is past 0xFFFF, with the check enabled (R300). -/
def pastDataSpace (a : Int) (s : State) : Bool := s.splimEn && decide (0xFFFF < a)

/-- The limit comparison of `StackCheck`: the address is above the limit, with the check enabled (R300). -/
def overLimit (a : Int) (s : State) : Bool :=
  s.splimEn && decide ((s.splim.toNat : Int) + slackValue s.device.splimSlack < a)

/-- The limit comparison of one access. In the hazard of R340 that of a read is free, where the check is enabled (log 25). -/
def limitTest (isRead : Bool) (a : Int) (s : State) : Bool × State :=
  if isRead && s.splimJustWritten then
    let (hit, s1) := s.drawBit
    (s.splimEn && hit, s1)
  else (overLimit a s, s)

/-- `StackCheck(a)` (R300), for an address formed from W15 that a source operand uses (`isRead`) or a destination. -/
def stackCheck (isRead : Bool) (a : Int) (s : State) : State :=
  let (limit, s1) := limitTest isRead a s
  if decide (a < 0x0800) || pastDataSpace a s || limit then s1.raise .stackError else s1

/-! ## Lists by address, in one canonical form -/

/-- The entry at address `a`. -/
def assocGet {α : Type} : List (Nat × α) → Nat → Option α
  | [], _ => none
  | (k, v) :: m, a => if k = a then some v else assocGet m a

/-- The list with the entry at `a` set, addresses still rising. -/
def assocSet {α : Type} (a : Nat) (v : α) : List (Nat × α) → List (Nat × α)
  | [] => [(a, v)]
  | (k, x) :: m =>
    if a < k then (a, v) :: (k, x) :: m
    else if a = k then (a, v) :: m
    else (k, x) :: assocSet a v m

/-- The canonical form: addresses strictly rising. No entry equals what an unlisted address reads as, because an unlisted
address holds no value of the list's type that a program knows (log 8, log 9). -/
abbrev assocWf {α : Type} (m : List (Nat × α)) : Prop := m.Pairwise fun x y => x.1 < y.1

/-- The canonical form of data RAM: addresses strictly rising, all of them implemented RAM (R77). -/
abbrev Memory.wf (ramEnd : BitVec 16) (m : List Host.Cell) : Prop :=
  assocWf m ∧ ∀ x ∈ m, 0x0800 ≤ x.1 ∧ x.1 ≤ ramEnd.toNat

/-- The canonical form of program memory: addresses strictly rising, even, of 23 bits (R83). -/
abbrev Program.wf (m : List (Nat × ProgWord)) : Prop :=
  assocWf m ∧ ∀ x ∈ m, x.1 % 2 = 0 ∧ x.1 ≤ 0x7FFFFE

/-! ## Program memory -/

/-- The word at program address `a`, if it is in PROG_IMPL (R84). -/
def State.progWord (s : State) (a : Nat) : Option ProgWord := assocGet s.prog a

/-- The program word at `a` put in, as a loader does (log 9). -/
def State.loadProgWord (a : Nat) (w : ProgWord) (s : State) : State := { s with prog := assocSet a w s.prog }

/-- `ProgRead(a)` of a PSV or table read: UNSPECIFIED_24 outside PROG_IMPL (R84). -/
def progRead (a : ProgAddr) (s : State) : ProgWord × State :=
  match s.progWord a.toNat with
  | some w => (w, s)
  | none => s.drawProgWord

/-! ## Data memory -/

/-- The memory-mapped core registers (R23). -/
inductive CoreReg where
  | w (r : Reg)
  | splim | pcl | pch | tblpag | psvpag | rcount | sr | corcon | disicnt
  deriving DecidableEq, Repr

/-- The core registers, in the order of R23's table. -/
def coreRegs : List CoreReg :=
  (List.finRange 16).map .w ++ [.splim, .pcl, .pch, .tblpag, .psvpag, .rcount, .sr, .corcon, .disicnt]

/-- Where SFR_ADDR puts a core register, in words (R23). -/
def sfrIndex (m : SfrMap) : CoreReg → BitVec 10
  | .w r => m.w[r.val]
  | .splim => m.splim
  | .pcl => m.pcl
  | .pch => m.pch
  | .tblpag => m.tblpag
  | .psvpag => m.psvpag
  | .rcount => m.rcount
  | .sr => m.sr
  | .corcon => m.corcon
  | .disicnt => m.disicnt

/-- The core register that holds data byte `a` (R23; log 2). -/
def coreRegAt (m : SfrMap) (a : Word) : Option CoreReg :=
  if a.toNat < 0x0800 then coreRegs.find? fun c => sfrIndex m c == a.extractLsb' 1 10 else none

/-- The value of a core register as a word; PCL and PCH are refused (R75). -/
def coreWord (s : State) : CoreReg → Res Word
  | .w r => .ok (s.reg r)
  | .splim => .ok s.splim
  | .pcl => .error (.refuse .pcDataAccess)
  | .pch => .error (.refuse .pcDataAccess)
  | .tblpag => .ok (s.tblpag.setWidth 16)
  | .psvpag => .ok (s.psvpag.setWidth 16)
  | .rcount => .ok (s.rcount.setWidth 16)
  | .sr => .ok (srWord s.sr)
  | .corcon => .ok (corconWord s.corcon)
  | .disicnt => .ok (s.disicnt.setWidth 16)

/-- The address is odd. -/
def isOdd (a : Word) : Bool := a.getLsbD 0

/-- The half of a word that the address selects (R71). -/
def selectByte (a v : Word) : Byte := if isOdd a then highByte v else lowByte v

/-- `CoreRead(addr, n)` (R75). -/
def coreRead (b : Size) (a : Word) (r : CoreReg) (s : State) : Res Word :=
  match coreWord s r with
  | .error e => .error e
  | .ok v =>
    match b with
    | .word => .ok v
    | .byte => .ok (byteWord (selectByte a v))

/-- A note that SPLIM was written (R340). -/
def State.noteSplim (s : State) : State := { s with notes := { s.notes with wroteSplim := true } }
/-- A note that RCOUNT or SR was written (R252). -/
def State.noteLoop (s : State) : State := { s with notes := { s.notes with wroteLoop := true } }
/-- A note that DISICNT was loaded (log 29). -/
def State.noteDisicnt (s : State) : State := { s with notes := { s.notes with wroteDisicnt := true } }

/-- `CoreWrite(addr, 2, v)` (R76). -/
def coreWriteWord (r : CoreReg) (v : Word) (s : State) : Res State :=
  match r with
  | .w r => .ok (s.writeReg r v)
  | .splim => .ok { s with splim := v &&& 0xFFFE, splimEn := true }.noteSplim
  | .pcl => .error (.refuse .pcDataAccess)
  | .pch => .error (.refuse .pcDataAccess)
  | .tblpag => .ok { s with tblpag := lowByte v }
  | .psvpag => .ok { s with psvpag := lowByte v }
  | .rcount => .ok { s with rcount := v.extractLsb' 0 14 }.noteLoop
  | .sr => .ok { s with sr := writeSrh (highByte v) (writeSrl s.nstdis (lowByte v) s.sr) }.noteLoop
  | .corcon => .ok { s with corcon := writeCorconLow (lowByte v) s.corcon }
  | .disicnt => .ok { s with disicnt := v.extractLsb' 0 14 }.noteDisicnt

/-- `CoreWrite(addr, 1, v)` (R76); `hi` is the odd address. What a byte write of DISICNT leaves is free (log 29). -/
def coreWriteByte (hi : Bool) (r : CoreReg) (v : Byte) (s : State) : Res State :=
  match r with
  | .w r => .ok (if hi then s.writeRegHigh r v else s.writeRegLow r v)
  | .splim =>
    let x := if hi then joinBytes v (lowByte s.splim) else joinBytes (highByte s.splim) v
    .ok { s with splim := x &&& 0xFFFE }.noteSplim
  | .pcl => .error (.refuse .pcDataAccess)
  | .pch => .error (.refuse .pcDataAccess)
  | .tblpag => .ok (if hi then s else { s with tblpag := v })
  | .psvpag => .ok (if hi then s else { s with psvpag := v })
  | .rcount =>
    let x : BitVec 14 :=
      if hi then v.extractLsb' 0 6 ++ s.rcount.extractLsb' 0 8 else s.rcount.extractLsb' 8 6 ++ v
    .ok { s with rcount := x }.noteLoop
  | .sr => .ok { s with sr := if hi then writeSrh v s.sr else writeSrl s.nstdis v s.sr }.noteLoop
  | .corcon => .ok (if hi then s else { s with corcon := writeCorconLow v s.corcon })
  | .disicnt =>
    let (x, s1) := s.drawCount
    .ok { s1 with disicnt := x }.noteDisicnt

/-- `CoreWrite(addr, n, v)` (R76). -/
def coreWrite (b : Size) (a : Word) (r : CoreReg) (v : Word) (s : State) : Res State :=
  match b with
  | .word => coreWriteWord r v s
  | .byte => coreWriteByte (isOdd a) r (lowByte v) s

/-- What a data address reaches (R70). -/
inductive Region where
  | core (r : CoreReg)
  | psv | ram | peripheral | unimplemented
  deriving DecidableEq, Repr

/-- The dispatch of R72 and R73, after the alignment test. -/
def regionOf (s : State) (b : Size) (a : Word) : Region :=
  match coreRegAt s.device.sfr a with
  | some r => .core r
  | none =>
    if s.corcon.psv ∧ 0x8000 ≤ a.toNat then .psv
    else if 0x0800 ≤ a.toNat ∧ a.toNat + sizeBytes b - 1 ≤ s.device.ramEnd.toNat then .ram
    else if a.toNat ≤ 0x07FF then .peripheral
    else .unimplemented

/-- A word access at an odd address (R74). -/
def misaligned (b : Size) (a : Word) : Bool := b == .word && isOdd a

/-- One byte of RAM: the byte last written, else the byte it holds since power-on (R77, log 8). -/
def State.ramByte (s : State) (a : Nat) : Byte := (assocGet s.ram a).getD (Config.ramPowerOn s.ramEpoch a)

/-- One byte of RAM written. -/
def State.setRamByte (a : Nat) (v : Byte) (s : State) : State := { s with ram := assocSet a v s.ram }

/-- A RAM read, little-endian (R71, R77). -/
def ramRead (s : State) (b : Size) (a : Word) : Word :=
  match b with
  | .byte => byteWord (s.ramByte a.toNat)
  | .word => joinBytes (s.ramByte (a.toNat + 1)) (s.ramByte a.toNat)

/-- A note that RAM was stored to. -/
def State.noteStore (b : Size) (a : Word) (s : State) : State :=
  { s with notes := { s.notes with stores := (a, sizeBytes b) :: s.notes.stores } }

/-- A RAM write, little-endian (R71, R77). -/
def ramWrite (b : Size) (a v : Word) (s : State) : State :=
  (match b with
    | .byte => s.setRamByte a.toNat (lowByte v)
    | .word => (s.setRamByte a.toNat (lowByte v)).setRamByte (a.toNat + 1) (highByte v)).noteStore b a

/-- The program address of a PSV access: `(PSVPAG << 15) | (addr & 0x7FFE)` (R81). -/
def psvAddr (s : State) (a : Word) : ProgAddr := s.psvpag ++ (a &&& 0x7FFE).extractLsb' 0 15

/-- `PSVRead(addr, n)` (R81). -/
def psvRead (b : Size) (a : Word) (s : State) : Word × State :=
  let (w, s1) := progRead (psvAddr s a) s
  let s2 := { s1 with notes := { s1.notes with psvReads := s1.notes.psvReads + 1 } }
  let v : Word := w.extractLsb' 0 16
  match b with
  | .word => (v, s2)
  | .byte => (byteWord (selectByte a v), s2)

/-- A peripheral read: any value (R78, log 15). -/
def peripheralRead (b : Size) (s : State) : Word × State :=
  let (v, s1) := s.drawWord
  match b with
  | .word => (v, s1)
  | .byte => (byteWord (lowByte v), s1)

/-- A peripheral write: recorded (R78, log 15). -/
def peripheralWrite (b : Size) (a v : Word) (s : State) : State :=
  let value := match b with
    | .word => v
    | .byte => byteWord (lowByte v)
  { s with periphWrites := { addr := a, byteWrite := b == .byte, value := value } :: s.periphWrites }

/-- `MemRead(addr, n)` (R72). -/
def memRead (b : Size) (a : Word) (s : State) : Res (Word × State) :=
  if misaligned b a then .error (.fault (.addressError a))
  else
    match regionOf s b a with
    | .core r =>
      match coreRead b a r s with
      | .ok v => .ok (v, s)
      | .error e => .error e
    | .psv => .ok (psvRead b a s)
    | .ram => .ok (ramRead s b a, s)
    | .peripheral => .ok (peripheralRead b s)
    | .unimplemented => .error (.fault (.addressError a))

/-- `MemWrite(addr, n, v)` (R73). -/
def memWrite (b : Size) (a v : Word) (s : State) : Res State :=
  if misaligned b a then .error (.fault (.addressError a))
  else
    match regionOf s b a with
    | .core r => coreWrite b a r v s
    | .psv => .error (.refuse .psvWrite)
    | .ram => .ok (ramWrite b a v s)
    | .peripheral => .ok (peripheralWrite b a v s)
    | .unimplemented => .error (.fault (.addressError a))

/-! ## The stack -/

/-- An address as a mathematical integer, truncated to 16 bits (R10). -/
def trunc16 (a : Int) : Word := BitVec.ofInt 16 a

/-- `Push16(v)` (R152). -/
def push16 (v : Word) (s : State) : Res State :=
  let a := s.reg 15
  memWrite .word a v (stackCheck false a.toNat (s.setReg 15 (a + 2)))

/-- `Pop16()` (R152). -/
def pop16 (s : State) : Res (Word × State) :=
  let a : Int := (s.reg 15).toNat - 2
  memRead .word (trunc16 a) (stackCheck true a (s.setReg 15 (trunc16 a)))

/-- PC<15:0>. -/
def pcLow (a : ProgAddr) : Word := a.extractLsb' 0 16

/-- PC<22:16>. -/
def pcHigh (a : ProgAddr) : BitVec 7 := a.extractLsb' 16 7

/-- `PushPC(ret)` (R238). -/
def pushPc (ret : ProgAddr) (s : State) : Res State := do
  let s1 ← push16 (pcLow ret) s
  push16 (0#9 ++ pcHigh ret) s1

/-- The address that `hi[6:0] : lo[15:1] : 0` names (R238). -/
def joinPc (hi lo : Word) : ProgAddr := hi.extractLsb' 0 7 ++ lo.extractLsb' 1 15 ++ 0#1

/-- `PopPC()` (R238). -/
def popPc (s : State) : Res (ProgAddr × State) := do
  let (hi, s1) ← pop16 s
  let (lo, s2) ← pop16 s1
  return (joinPc hi lo, s2)

/-! ## Device reset -/

/-- `DeviceReset(cause)` (R330). What the rule leaves UNSPECIFIED is drawn; RAM changes on power-on only; program memory,
the device and what belongs to the environment stay (log 32). -/
def deviceReset (cause : ResetCause) (s : State) : State :=
  let k := s.free
  { w := (Vector.replicate 16 0).set 15 0x0800
    winit := Vector.replicate 15 false
    pc := 0
    pcOut := false
    sr := { dc := false, ipl := 0, ra := false, n := false, ov := false, z := false, c := false }
    corcon := { ipl3 := false, psv := false }
    splim := Config.freeWord k &&& 0xFFFE
    splimEn := false
    splimJustWritten := false
    tblpag := 0
    psvpag := 0
    rcount := Config.freeCount k
    disicnt := Config.freeCount (k + 1)
    shadow :=
      { w0 := Config.freeWord (k + 1), w1 := Config.freeWord (k + 2), w2 := Config.freeWord (k + 3)
        w3 := Config.freeWord (k + 4), dc := Config.freeBit k, n := Config.freeBit (k + 1)
        ov := Config.freeBit (k + 2), z := Config.freeBit (k + 3), c := Config.freeBit (k + 4) }
    pendingTraps := .none
    pending := []
    nstdis := s.nstdis
    power := .running
    ram := if cause = .powerOn then [] else s.ram
    ramEpoch := if cause = .powerOn then k + 1 else s.ramEpoch
    prog := s.prog
    periphWrites := s.periphWrites
    divider := { loop := .fresh, suspended := [], origins := [] }
    free := k + 5
    notes := { StepNotes.empty with didReset := true }
    device := s.device }

/-- The outcome of an instruction that began in `s`: a device reset is performed instead of it, so on `s` (R299). -/
def finish (s : State) (r : Res State) : Outcome :=
  match r with
  | .ok t => .next t
  | .error (.reset c) => .next (deviceReset c s)
  | .error (.fault f) => .fault f
  | .error (.refuse q) => .refused q

/-! ## Exceptions -/

/-- The CPU level of a trap (R308, log 12). -/
def trapLevel : Trap → Nat
  | .oscillatorFailure => 14
  | .addressError => 13
  | .stackError => 12
  | .arithmeticError => 11

/-- Where the family's vector table in program memory holds the handler's address (R306, log 10). -/
def vectorSlot : ExcSource → Nat
  | .trap .oscillatorFailure => 0x000006
  | .trap .addressError => 0x000008
  | .trap .stackError => 0x00000A
  | .trap .arithmeticError => 0x00000C
  | .interrupt n => 0x000014 + 2 * n

/-- The handler's address that the device's VECTOR gives for a source. -/
def vectorGiven (e : ExcSource) : List (ExcSource × ProgAddr) → Option ProgAddr
  | [] => none
  | (x, a) :: m => if x = e then some a else vectorGiven e m

/-- `VECTOR(e)` (R306): as the device gives it, else from the family's table in program memory (log 10), else none. -/
def vectorOf (s : State) (e : ExcSource) : Option ProgAddr :=
  match vectorGiven e s.device.vectors with
  | some a => some a
  | none => (s.progWord (vectorSlot e)).map fun w => w.extractLsb' 0 23

/-- The second word of an exception frame: `SR[7:0] : CORCON.IPL3 : PC<22:16>` (R305, log 13). -/
def frameHigh (s : State) : Word := srl s.sr ++ BitVec.ofBool s.corcon.ipl3 ++ pcHigh s.pc

/-- The CPU priority level of the exception put in (R305): an interrupt's priority, or 8 and above for a trap. -/
def raiseLevel (e : ExcSource) (priority : BitVec 3) (s : State) : State :=
  match e with
  | .interrupt _ => { s with sr := { s.sr with ipl := priority } }
  | .trap t =>
    { s with
      corcon := { s.corcon with ipl3 := true }
      sr := { s.sr with ipl := BitVec.ofNat 3 (trapLevel t - 8) } }

/-- The pending condition of a trap that is being entered is removed (R305). -/
def removePending (e : ExcSource) (s : State) : State :=
  match e with
  | .interrupt _ => s
  | .trap t => { s with pendingTraps := s.pendingTraps.put t false }

/-- W0, W1, N, Z and C as they are now (R188). -/
def State.divScratch (s : State) : DivScratch := { w0 := s.reg 0, w1 := s.reg 1, n := s.sr.n, z := s.sr.z, c := s.sr.c }

/-- W0, W1, N, Z, C, RCOUNT and the divisor are as the last iteration of the divide left them (R188). -/
def DivEntry.standsIn (e : DivEntry) (t : State) : Bool :=
  e.count == t.rcount && e.divisor == t.reg e.rn && e.scratch == t.divScratch

/-- All that the interrupted loop needs to resume correctly is in `t` as it was: the PC, RCOUNT, W0, W1, N, Z and C, and the
divisor of a divide in progress (R188, R254). -/
def Suspended.standsIn (x : Suspended) (t : State) : Bool :=
  x.pc == t.pc &&
    match x.loop with
    | .running e => e.standsIn t
    | .fresh => x.count == t.rcount && x.scratch == t.divScratch
    | .spoiled => x.count == t.rcount && x.scratch == t.divScratch

/-- How the interrupted loop stands when it goes on in `t`: with another PC or RCOUNT it is no sequence that began with
`REPEAT #17`, and a divide that was touched is improper (R188, R195). -/
def Suspended.loopIn (x : Suspended) (t : State) : LoopDivide :=
  match x.loop with
  | .fresh => if x.pc == t.pc && x.count == t.rcount then .fresh else .spoiled
  | .running e => if x.pc == t.pc && e.standsIn t then .running e else .spoiled
  | .spoiled => .spoiled

/-- The place that data byte `a` is, where it is half of a W register or a byte of RAM. -/
def byteLoc (s : State) (a : Word) : Option ByteLoc :=
  match regionOf s .byte a with
  | .core (.w r) => some (.reg r (isOdd a))
  | .core _ => none
  | .psv => none
  | .ram => some (.ram a.toNat)
  | .peripheral => none
  | .unimplemented => none

/-- The bytes of the exception frame that is put at `a` (R305). -/
def frameBytes (a : Word) (s : State) : List (Option ByteLoc) :=
  [byteLoc s a, byteLoc s (a + 1), byteLoc s (a + 2), byteLoc s (a + 3)]

/-- The number of the interrupted loop whose frame the byte comes from. -/
def Divider.originOf (d : Divider) (x : ByteLoc) : Option Nat := (d.origins.find? fun y => y.1 == x).map (·.2)

/-- The loop under way, put aside by an exception (log 26). -/
def suspendedLoop (s : State) : Suspended :=
  { id := s.divider.suspended.length, pc := s.pc, count := s.rcount, loop := s.divider.loop, scratch := s.divScratch
    returned := false, frame := s.reg 15, stacked := true }

/-- The divider across an exception entry in `s`: the frame is stored over what stood there, and the loop under way, if there is
one, is put aside (R305, R309; log 26). -/
def dividerInterrupted (s : State) : Divider :=
  let frame := frameBytes (s.reg 15) s
  let kept := s.divider.origins.filter fun x => !frame.contains (some x.1)
  if s.sr.ra then
    { loop := .fresh
      suspended := suspendedLoop s :: s.divider.suspended
      origins := (frame.filterMap fun x => x.map (·, (suspendedLoop s).id)) ++ kept }
  else { loop := .fresh, suspended := s.divider.suspended, origins := kept }

/-- The entries of `l` with the property `p`, where there is one; else all of `l`. -/
def prefer {α : Type} (p : α → Bool) (l : List α) : List α :=
  match l.filter p with
  | [] => l
  | x :: m => x :: m

/-- The loop is still to be returned to by its own frame, which stands on the stack as the exception pushed it. -/
def Suspended.waits (x : Suspended) (t : State) : Bool :=
  x.stacked && (frameBytes x.frame t).all fun b => b.bind t.divider.originOf == some x.id

/-- A byte of the frame at address `a` comes from that of the loop. -/
def Suspended.inFrame (a : Word) (t : State) (x : Suspended) : Bool :=
  (frameBytes a t).any fun b => b.bind t.divider.originOf == some x.id

/-- The loop is still to be returned to from the frame at address `a`, if that holds bytes of its own: it stands as it was, or no
`RETFIE` has gone on with it and its frame does not wait elsewhere. -/
def Suspended.claims (a : Word) (t : State) (x : Suspended) : Bool :=
  x.standsIn t || !(x.returned || x.waits t && x.frame != a)

/-- The loops among `l` that a frame may mean which software made anew at address `a`: the latest whose frame was put at that place
and into which no `RETFIE` has returned; where there is none, those at the PC, by preference those that no `RETFIE` has gone
on with, and among these those that do not wait to be returned to by their own frame. -/
def loopsRebuilt (a : Word) (t : State) (l : List Suspended) : List Suspended :=
  match l.find? fun x => !x.returned && x.frame == a with
  | some x => [x]
  | none =>
    prefer (fun x => !x.waits t) (prefer (fun x => !x.returned) (l.filter fun x => x.pc == t.pc))

/-- The interrupted loops that a `RETFIE` from the frame at address `a`, its stacked RA set, may go on with in `t` (R236, R254;
log 26): the named ones, whose frames its bytes come from, that claim it, by preference those that stand as they were. Where no
loop is named, R188 has the data tell: those that stand as they were, and where none does, whichever the frame may mean. Where
the named ones do not claim it, it means one that stands as it was and that no `RETFIE` has gone on with, if there is one. -/
def loopsMeant (a : Word) (t : State) : List Suspended :=
  let named := t.divider.suspended.filter fun x => x.inFrame a t
  match named.filter fun x => x.claims a t with
  | x :: m => prefer (fun x => x.standsIn t) (x :: m)
  | [] =>
    match named with
    | [] => loopsRebuilt a t (prefer (fun x => x.standsIn t) t.divider.suspended)
    | x :: m =>
      match t.divider.suspended.filter fun x => x.standsIn t && !x.returned with
      | [] => x :: m
      | y :: l => loopsRebuilt a t (y :: l)

/-- How the loop stands that goes on in `t` and is one of `l`: improper, where one of them was improper already; else as the ones
stand whose PC, RCOUNT and divide are as they were, where those agree; else improper, as a loop that no `REPEAT` began is
(R188, R195, D13). -/
def loopAmong (t : State) (l : List Suspended) : LoopDivide :=
  if l.any fun x => x.loop == .spoiled then .spoiled
  else
    match (l.map fun x => x.loopIn t).filter fun d => d != .spoiled with
    | [] => .spoiled
    | d :: m => if m.all fun y => y == d then d else .spoiled

/-- The loop numbered `n` is marked as gone on with. -/
def markReturned (n : Nat) (l : List Suspended) : List Suspended :=
  l.map fun x => if x.id = n then { x with returned := true } else x

/-- The divider across a `RETFIE` that leaves `t`, its frame having stood at address `a` (log 26). -/
def dividerResumed (a : Word) (t : State) : Divider :=
  if t.sr.ra then
    let meant := loopsMeant a t
    { t.divider with
      loop := loopAmong t meant
      suspended := match meant with
        | [] => t.divider.suspended
        | [x] => markReturned x.id t.divider.suspended
        | _ :: _ :: _ => t.divider.suspended }
  else { t.divider with loop := .fresh }

/-- `Enter(e)` (R305): taking an exception. `priority` is that of an interrupt. Without a VECTOR the run ends (R306, R319). -/
def enter (e : ExcSource) (priority : BitVec 3) (s : State) : Res State :=
  match vectorOf s e with
  | none => .error (.fault (.noVector e))
  | some handler => do
    let s1 ← push16 (pcLow s.pc) s
    let s2 ← push16 (frameHigh s1) s1
    let s3 := { s2 with
      sr := { s2.sr with ra := false }
      splimJustWritten := false
      notes := .empty
      divider := dividerInterrupted s }
    return (removePending e (raiseLevel e priority s3)).setPc handler

/-- The return from an exception (R236, R311): the inverse of `enter`. -/
def returnFromException (s : State) : Res State := do
  let (hi, s1) ← pop16 s
  let (lo, s2) ← pop16 s1
  let s3 := { s2 with sr := restoreSrl (highByte hi) s2.sr, corcon := { s2.corcon with ipl3 := hi.getLsbD 7 } }
  let s4 := s3.setPc (joinPc hi lo)
  return { s4 with divider := dividerResumed (s2.reg 15) s4 }

end Sys2Proof.Machine
end

