-- ==== Sys2Proof/Machine/Operands.lean ====
section
/-! DEFINITION. The operand forms: addressing modes, effective addresses, operand reads and writes (30_encoding.md R107 to
R109), file register operands (R111), and the register collisions (R109). -/

namespace Sys2Proof.Machine

/-- An operand with its registers: `Wn`, an indirect mode on `Wn`, or `[Wn+Wb]` (R107). -/
inductive Operand where
  | reg (r : Reg)
  | ptr (p : PtrMode) (r : Reg)
  | offset (r b : Reg)
  deriving DecidableEq, Repr

/-- The operand of a `ppp` or `qqq` mode (R107). -/
def modeOperand (m : Mode) (r : Reg) : Operand :=
  match m with
  | .direct => .reg r
  | .ptr p => .ptr p r

/-- The operand of a `ggg` or `hhh` mode, `b` being `wwww` (R107). -/
def moveOperand (m : MoveMode) (r b : Reg) : Operand :=
  match m with
  | .direct => .reg r
  | .ptr p => .ptr p r
  | .offset6 => .offset r b
  | .offset7 => .offset r b

/-- What `EA` answers (R108): a register, or a data address before its truncation to 16 bits. -/
inductive Place where
  | reg (r : Reg)
  | mem (a : Int)
  deriving DecidableEq, Repr

/-! ## Collisions -/

/-- The register the addressing mode modifies. -/
def Operand.modified : Operand → Option Reg
  | .ptr .ind _ => none
  | .ptr _ r => some r
  | .reg _ => none
  | .offset _ _ => none

/-- The register takes part in forming the operand's address. -/
def Operand.addresses (o : Operand) (r : Reg) : Bool :=
  match o with
  | .reg _ => false
  | .ptr _ x => x == r
  | .offset x y => x == r || y == r

/-- The operand is the register itself. -/
def Operand.isReg (o : Operand) (r : Reg) : Bool :=
  match o with
  | .reg x => x == r
  | .ptr _ _ => false
  | .offset _ _ => false

/-- The combinations of a source and a destination operand that R109 refuses (log 19). -/
def collides (src dst : Operand) : Bool :=
  (match src.modified with
    | some r => dst.isReg r || dst.addresses r
    | none => false) ||
  (match dst.modified with
    | some r => src.addresses r
    | none => false)

/-- `REFUSE(register collision)`, before anything is done (R109). -/
def refuseIf (hit : Bool) (r : Refusal) : Res Unit := if hit then .error (.refuse r) else .ok ()

/-! ## Effective addresses -/

/-- `Ptr(n)` (R108). -/
def ptrValue (s : State) (r : Reg) : Res Word :=
  if s.initialised r then .ok (s.reg r) else .error (.reset .uninitW)

/-- What an indirect mode leaves in the pointer, before truncation (R108). -/
def movedPtr (step : Nat) (p : PtrMode) (base : Word) : Int :=
  match p with
  | .ind => base.toNat
  | .postDec => base.toNat - step
  | .postInc => base.toNat + step
  | .preDec => base.toNat - step
  | .preInc => base.toNat + step

/-- The address of an indirect mode, before truncation (R108). -/
def ptrAddr (step : Nat) (p : PtrMode) (base : Word) : Int :=
  match p with
  | .ind => base.toNat
  | .postDec => base.toNat
  | .postInc => base.toNat
  | .preDec => base.toNat - step
  | .preInc => base.toNat + step

/-- The pointer modification of an indirect mode: it says nothing of `Winit` (R108). -/
def modifyPtr (step : Nat) (p : PtrMode) (r : Reg) (base : Word) (s : State) : State :=
  match p with
  | .ind => s
  | .postDec => s.setReg r (trunc16 (movedPtr step p base))
  | .postInc => s.setReg r (trunc16 (movedPtr step p base))
  | .preDec => s.setReg r (trunc16 (movedPtr step p base))
  | .preInc => s.setReg r (trunc16 (movedPtr step p base))

/-- `if n = 15: StackCheck(a)` (R108). -/
def stackCheckIf (r : Reg) (isRead : Bool) (a : Int) (s : State) : State :=
  if r = 15 then stackCheck isRead a s else s

/-- A byte-mode modification of W15 (R108). -/
def byteModifiesW15 (step : Nat) (o : Operand) : Bool := step == 1 && o.modified == some 15

/-- `EA(mode, n, size)` (R108); `step` is the size in bytes, `isRead` tells `EA_src` from `EA_dst`. -/
def ea (step : Nat) (isRead : Bool) (o : Operand) (s : State) : Res (Place × State) := do
  refuseIf (byteModifiesW15 step o) .byteModifyW15
  match o with
  | .reg r => return (.reg r, s)
  | .ptr p r =>
    let base ← ptrValue s r
    let a := ptrAddr step p base
    return (.mem a, stackCheckIf r isRead a (modifyPtr step p r base s))
  | .offset r b =>
    let base ← ptrValue s r
    let off ← ptrValue s b
    let a : Int := base.toNat + off.toInt
    return (.mem a, stackCheckIf r isRead a s)

/-- The address an operand names, before truncation to 16 bits (R108). -/
def Operand.addr (step : Nat) (o : Operand) (s : State) : Option Int :=
  match o with
  | .reg _ => none
  | .ptr p r => some (ptrAddr step p (s.reg r))
  | .offset r b => some ((s.reg r).toNat + (s.reg b).toInt)

/-- The register that is the operand. -/
def Operand.direct : Operand → List Reg
  | .reg r => [r]
  | .ptr _ _ => []
  | .offset _ _ => []

/-! ## Operand reads and writes -/

/-- The read half of `SrcVal` (R109). -/
def readPlace (b : Size) (p : Place) (s : State) : Res (Word × State) :=
  match p with
  | .reg r => .ok (s.regVal b r, s)
  | .mem a => memRead b (trunc16 a) s

/-- The write half of `DstWrite` (R109). -/
def writePlace (b : Size) (p : Place) (v : Word) (s : State) : Res State :=
  match p with
  | .reg r => .ok (s.writeRegSized b r v)
  | .mem a => memWrite b (trunc16 a) v s

/-- `SrcVal(mode, n, size)` (R109). -/
def srcVal (b : Size) (o : Operand) (s : State) : Res (Word × State) := do
  let (p, s1) ← ea (sizeBytes b) true o s
  readPlace b p s1

/-- `DstWrite(mode, n, size, v)` (R109). -/
def dstWrite (b : Size) (o : Operand) (v : Word) (s : State) : Res State := do
  let (p, s1) ← ea (sizeBytes b) false o s
  writePlace b p v s1

/-- A data address of SR (R42). -/
def isSrAddr (m : SfrMap) (a : Word) : Bool := coreRegAt m a == some .sr

/-- An access of the size at the place reaches SR (R42). A misaligned one does not: it is an address error, as any other (R74).
The spec does not say which of R42 and R74 comes first; DESIGN CHOICE, log 21. -/
def reachesSr (m : SfrMap) (b : Size) (p : Place) : Bool :=
  match p with
  | .reg _ => false
  | .mem a => !misaligned b (trunc16 a) && isSrAddr m (trunc16 a)

/-- `DstWrite` of an instruction that also sets flags: SR as destination is refused, after the alignment test (R42; log 21). -/
def dstWriteFlagged (b : Size) (o : Operand) (v : Word) (s : State) : Res State := do
  let (p, s1) ← ea (sizeBytes b) false o s
  refuseIf (reachesSr s.device.sfr b p) .srDestination
  writePlace b p v s1

/-! ## File register operands -/

/-- `zext_13(f)` (R111). -/
def fileAddr (f : BitVec 13) : Word := f.setWidth 16

/-- The destination `{,WREG}` of a file register instruction that sets flags (R105, R130, R166, R201). -/
def fileWriteFlagged (b : Size) (d : Dest) (f : BitVec 13) (v : Word) (s : State) : Res State :=
  match d with
  | .wreg => .ok (s.writeRegSized b 0 v)
  | .file => do
    refuseIf (reachesSr s.device.sfr b (.mem (fileAddr f).toNat)) .srDestination
    memWrite b (fileAddr f) v s

/-! ## The base plus signed 10-bit offset -/

/-- The byte offset of `Slit10` (R110). -/
def slit10Offset (b : Size) (k : BitVec 10) : Int :=
  match b with
  | .word => 2 * k.toInt
  | .byte => k.toInt

/-- `Ptr(n) + off`, with its stack check (R136, R137). -/
def eaSlit10 (b : Size) (isRead : Bool) (k : BitVec 10) (r : Reg) (s : State) : Res (Int × State) := do
  let base ← ptrValue s r
  let a : Int := base.toNat + slit10Offset b k
  return (a, stackCheckIf r isRead a s)

/-! ## Register pairs -/

/-- A word write of a register and of the register after it (R139, R140, R180). -/
def State.writeTwo (lo hi : Reg) (vlo vhi : Word) (s : State) : State := (s.writeReg lo vlo).writeReg hi vhi

/-- The pair number of a multiply's destination as a `Pair` (R106). -/
def pairOfMul (d : MulPair) : Pair := d.castSucc

/-- `WritePair(d, p)` (R180). -/
def State.writePair (d : Pair) (p : BitVec 32) (s : State) : State :=
  s.writeTwo (pairLow d) (pairHigh d) (p.extractLsb' 0 16) (p.extractLsb' 16 16)

end Sys2Proof.Machine
end

