-- ==== Sys2Proof/Machine/Alu.lean ====
section
/-! DEFINITION. The ALU and bit instructions (42_alu_bit.md). -/

namespace Sys2Proof.Machine

/-- P18 `ADD{.B} f {,WREG}` (R166). -/
def execAddF (b : Size) (d : Dest) (f : BitVec 13) (s : State) : Outcome :=
  finish s do
    let (x, s1) ← memRead b (fileAddr f) s
    let r := addFlags b x (s.regVal b 0)
    let s2 ← fileWriteFlagged b d f r.res s1
    return (s2.setAddFlags r).advance

/-- A `lit10` that its size does not admit (R110). -/
def lit10TooLarge (b : Size) (k : BitVec 10) : Bool := b == .byte && decide (255 < k.toNat)

/-- P19 `ADD{.B} #lit10, Wn` (R167). -/
def execAddLit10 (b : Size) (k : BitVec 10) (rd : Reg) (s : State) : Outcome :=
  finish s do
    refuseIf (lit10TooLarge b k) .lit10AboveByte
    let r := addFlags b (s.regVal b rd) (k.setWidth 16)
    return ((s.writeRegSized b rd r.res).setAddFlags r).advance

/-- P20 `ADD{.B} Wb, #lit5, Wd` (R168). -/
def execAddLit5 (b : Size) (rb : Reg) (q : Mode) (rd : Reg) (k : BitVec 5) (s : State) : Outcome :=
  finish s do
    let r := addFlags b (s.regVal b rb) (k.setWidth 16)
    let s1 ← dstWriteFlagged b (modeOperand q rd) r.res s
    return (s1.setAddFlags r).advance

/-- P21 `ADD{.B} Wb, Ws, Wd` (R169). -/
def execAddWs (b : Size) (rb : Reg) (q : Mode) (rd : Reg) (p : Mode) (rs : Reg) (s : State) : Outcome :=
  finish s do
    refuseIf (collides (modeOperand p rs) (modeOperand q rd)) .registerCollision
    let (y, s1) ← srcVal b (modeOperand p rs) s
    let r := addFlags b (s.regVal b rb) y
    let s2 ← dstWriteFlagged b (modeOperand q rd) r.res s1
    return (s2.setAddFlags r).advance

/-- `v | (1 << j)` (R170, R171). -/
def setBit (j : Nat) (v : Word) : Word := v ||| BitVec.ofNat 16 (2 ^ j)

/-- P22 `BSET{.B} f, #bit4` (R170); `j` is the bit of the byte at `f`. -/
def execBsetF (j : BitVec 3) (f : BitVec 13) (s : State) : Outcome :=
  finish s do
    let (v, s1) ← memRead .byte (fileAddr f) s
    let s2 ← memWrite .byte (fileAddr f) (setBit j.toNat v) s1
    return s2.advance

/-- P23 `BSET{.B} Ws, #bit4` (R171): one address computation serves the read and the write. -/
def execBsetWs (j : BitVec 4) (b : Size) (p : Mode) (rs : Reg) (s : State) : Outcome :=
  finish s do
    let (place, s1) ← ea (sizeBytes b) true (modeOperand p rs) s
    let (v, s2) ← readPlace b place s1
    let s3 ← writePlace b place (setBit j.toNat v) s2
    return s3.advance

/-- `Skip()` where the bit is clear, else on to the next instruction (R174; log 37). -/
def skipIfClear (bit : Bool) (s : State) : State := s.goto (s.pc.toNat + if bit then 2 else 4)

/-- P24 `BTSC{.B} f, #bit4` (R172); `j` is the bit of the byte at `f`. -/
def execBtscF (j : BitVec 3) (f : BitVec 13) (s : State) : Outcome :=
  finish s do
    let (v, s1) ← memRead .byte (fileAddr f) s
    return skipIfClear (v.getLsbD j.toNat) s1

/-- P25 `BTSC Ws, #bit4` (R173). -/
def execBtscWs (j : BitVec 4) (p : Mode) (rs : Reg) (s : State) : Outcome :=
  finish s do
    let (v, s1) ← srcVal .word (modeOperand p rs) s
    return skipIfClear (v.getLsbD j.toNat) s1

end Sys2Proof.Machine
end

