-- ==== Sys2Proof/Machine/Flow.lean ====
section
/-! DEFINITION. The flow instructions (45_flow.md). -/

namespace Sys2Proof.Machine

/-- The test of a conditional branch (R217 to R230). -/
def condHolds (cond : Cond) (r : Sr) : Bool :=
  match cond with
  | .ov => r.ov
  | .c => r.c
  | .z => r.z
  | .n => r.n
  | .le => r.z || r.n != r.ov
  | .lt => r.n != r.ov
  | .leu => !r.c || r.z
  | .nov => !r.ov
  | .nc => !r.c
  | .nz => !r.z
  | .nn => !r.n
  | .gt => !r.z && r.n == r.ov
  | .ge => r.n == r.ov
  | .gtu => r.c && !r.z

/-- A branch that is taken where the condition holds (R215, R217 to R230). -/
def branchIf (cond : Cond) (n : BitVec 16) (s : State) : State :=
  if condHolds cond s.sr then s.goto (relTarget s n) else s.advance

/-- P49 `BRA Expr` (R216). -/
def execBra (n : BitVec 16) (s : State) : Outcome := finish s (.ok (s.goto (relTarget s n)))
/-- P50 `BRA OV, Expr` (R217). -/
def execBraOV (n : BitVec 16) (s : State) : Outcome := finish s (.ok (branchIf .ov n s))
/-- P51 `BRA C, Expr` (R218). -/
def execBraC (n : BitVec 16) (s : State) : Outcome := finish s (.ok (branchIf .c n s))
/-- P52 `BRA Z, Expr` (R219). -/
def execBraZ (n : BitVec 16) (s : State) : Outcome := finish s (.ok (branchIf .z n s))
/-- P53 `BRA N, Expr` (R220). -/
def execBraN (n : BitVec 16) (s : State) : Outcome := finish s (.ok (branchIf .n n s))
/-- P54 `BRA LE, Expr` (R221). -/
def execBraLE (n : BitVec 16) (s : State) : Outcome := finish s (.ok (branchIf .le n s))
/-- P55 `BRA LT, Expr` (R222). -/
def execBraLT (n : BitVec 16) (s : State) : Outcome := finish s (.ok (branchIf .lt n s))
/-- P56 `BRA LEU, Expr` (R223). -/
def execBraLEU (n : BitVec 16) (s : State) : Outcome := finish s (.ok (branchIf .leu n s))
/-- P57 `BRA NOV, Expr` (R224). -/
def execBraNOV (n : BitVec 16) (s : State) : Outcome := finish s (.ok (branchIf .nov n s))
/-- P58 `BRA NC, Expr` (R225). -/
def execBraNC (n : BitVec 16) (s : State) : Outcome := finish s (.ok (branchIf .nc n s))
/-- P59 `BRA NZ, Expr` (R226). -/
def execBraNZ (n : BitVec 16) (s : State) : Outcome := finish s (.ok (branchIf .nz n s))
/-- P60 `BRA NN, Expr` (R227). -/
def execBraNN (n : BitVec 16) (s : State) : Outcome := finish s (.ok (branchIf .nn n s))
/-- P61 `BRA GT, Expr` (R228). -/
def execBraGT (n : BitVec 16) (s : State) : Outcome := finish s (.ok (branchIf .gt n s))
/-- P62 `BRA GE, Expr` (R229). -/
def execBraGE (n : BitVec 16) (s : State) : Outcome := finish s (.ok (branchIf .ge n s))
/-- P63 `BRA GTU, Expr` (R230). -/
def execBraGTU (n : BitVec 16) (s : State) : Outcome := finish s (.ok (branchIf .gtu n s))

/-- The address `PC + d` of a later instruction, as it is pushed (R238). -/
def returnAddr (s : State) (d : Nat) : ProgAddr := s.pc + BitVec.ofNat 23 d

/-- P64 `RCALL Expr` (R232). -/
def execRcall (n : BitVec 16) (s : State) : Outcome :=
  finish s do
    let s1 ← pushPc (returnAddr s 2) s
    return s1.goto (relTarget s n)

/-- P65 `CALL Expr` (R233); `t` is target<22:1>. -/
def execCall (t : BitVec 22) (s : State) : Outcome :=
  finish s do
    let s1 ← pushPc (returnAddr s 4) s
    return s1.setPc (t ++ 0#1)

/-- P66 `GOTO Expr` (R234); `t` is target<22:1>. -/
def execGoto (t : BitVec 22) (s : State) : Outcome := finish s (.ok (s.setPc (t ++ 0#1)))

/-- P67 `RETURN` (R235). -/
def execRet (s : State) : Outcome :=
  finish s do
    let (a, s1) ← popPc s
    return s1.setPc a

/-- P68 `RETFIE` (R236). -/
def execRetfie (s : State) : Outcome := finish s (returnFromException s)

/-- P69 `RETLW{.B} #lit10, Wn` (R237). Both refusals come before anything is done. Where a byte form has a literal above 255 and
names W15 too, the spec refuses it twice (R110; R237, D15) and does not say which refusal it is; DESIGN CHOICE: the collision
(log 19). -/
def execRetlw (b : Size) (k : BitVec 10) (rd : Reg) (s : State) : Outcome :=
  finish s do
    refuseIf (rd == 15) .registerCollision
    refuseIf (lit10TooLarge b k) .lit10AboveByte
    let (a, s1) ← popPc (s.writeRegSized b rd (k.setWidth 16))
    return s1.setPc a

end Sys2Proof.Machine
end

