-- ==== Sys2Proof/Machine/Mul.lean ====
section
/-! DEFINITION. The multiplies (43_muldiv.md part 1). -/

namespace Sys2Proof.Machine

/-- A multiply of a base register by an operand with an addressing mode (R181, R182, R184, R185). -/
def mulOperand (aSigned bSigned : Bool) (rb : Reg) (d : MulPair) (src : Operand) (s : State) : Res State := do
  let hit := match src.modified with
    | some r => r == pairLow (pairOfMul d) || r == pairHigh (pairOfMul d)
    | none => false
  refuseIf hit .registerCollision
  let (y, s1) ← srcVal .word src s
  return (s1.writePair (pairOfMul d) (mulResult (s.reg rb) aSigned y bSigned)).advance

/-- A multiply of a base register by an unsigned literal (R183, R186). -/
def mulLiteral (aSigned : Bool) (rb : Reg) (d : MulPair) (k : BitVec 5) (s : State) : State :=
  (s.writePair (pairOfMul d) (mulResult (s.reg rb) aSigned (k.setWidth 16) false)).advance

/-- P26 `MUL.SS Wb, Ws, Wnd` (R181). -/
def execMulSS (rb : Reg) (rd : MulPair) (p : Mode) (rs : Reg) (s : State) : Outcome :=
  finish s (mulOperand true true rb rd (modeOperand p rs) s)

/-- P27 `MUL.SU Wb, Ws, Wnd` (R182). -/
def execMulSU (rb : Reg) (rd : MulPair) (p : Mode) (rs : Reg) (s : State) : Outcome :=
  finish s (mulOperand true false rb rd (modeOperand p rs) s)

/-- P28 `MUL.SU Wb, #lit5, Wnd` (R183). -/
def execMulSULit (rb : Reg) (rd : MulPair) (k : BitVec 5) (s : State) : Outcome :=
  finish s (.ok (mulLiteral true rb rd k s))

/-- P29 `MUL.US Wb, Ws, Wnd` (R184). -/
def execMulUS (rb : Reg) (rd : MulPair) (p : Mode) (rs : Reg) (s : State) : Outcome :=
  finish s (mulOperand false true rb rd (modeOperand p rs) s)

/-- P30 `MUL.UU Wb, Ws, Wnd` (R185). -/
def execMulUU (rb : Reg) (rd : MulPair) (p : Mode) (rs : Reg) (s : State) : Outcome :=
  finish s (mulOperand false false rb rd (modeOperand p rs) s)

/-- P31 `MUL.UU Wb, #lit5, Wnd` (R186). -/
def execMulUULit (rb : Reg) (rd : MulPair) (k : BitVec 5) (s : State) : Outcome :=
  finish s (.ok (mulLiteral false rb rd k s))

/-- The register `MULWF_SRC` names (R187). -/
def mulwfReg : MulwfSource → Reg
  | .w0 => 0
  | .w2 => 2

/-- P32 `MUL{.B} f` (R187). -/
def execMulF (b : Size) (f : BitVec 13) (s : State) : Outcome :=
  finish s do
    let (y, s1) ← memRead b (fileAddr f) s
    let p := mulResult (s.regVal b (mulwfReg s.device.mulwfSource)) false y false
    match b with
    | .word => return (s1.writePair 1 p).advance
    | .byte => return (s1.writeReg 2 (p.extractLsb' 0 16)).advance

end Sys2Proof.Machine
end

