-- ==== Sys2Proof/Machine/Divide.lean ====
section
/-! DEFINITION. The divides (43_muldiv.md part 2): one iteration of the instruction each time it executes. Between the first
and the last iteration every value R188 leaves UNSPECIFIED is free, and the divide itself is kept in the divider (log 26). -/

namespace Sys2Proof.Machine

/-- `signed` (R188). -/
def DivKind.signed : DivKind → Bool
  | .sw => true
  | .sd => true
  | .uw => false
  | .ud => false

/-- N, OV, Z and C left UNSPECIFIED (R192). -/
def State.freeDivFlags (s : State) : State :=
  let (n, s1) := s.drawBit
  let (ov, s2) := s1.drawBit
  let (z, s3) := s2.drawBit
  let (c, s4) := s3.drawBit
  { s4 with sr := { s4.sr with n := n, ov := ov, z := z, c := c } }

/-- W0 and W1 written. -/
def State.writeW0W1 (w0 w1 : Word) (s : State) : State := (s.writeReg 0 w0).writeReg 1 w1

/-- W0, W1 written with UNSPECIFIED values and the flags left UNSPECIFIED: intermediate data, or no usable result (R188). -/
def State.freeDivResult (s : State) : State :=
  let (w0, s1) := s.drawWord
  let (w1, s2) := s1.drawWord
  (s2.writeW0W1 w0 w1).freeDivFlags

/-- The loop's standing with the divider set. -/
def State.setLoop (l : LoopDivide) (s : State) : State := { s with divider := { s.divider with loop := l } }

/-- `ImproperDivide()`; every later iteration of the same loop is improper too (R195). -/
def improperDivide (s : State) : State := s.freeDivResult.setLoop .spoiled

/-- The record of a divide whose iteration has just left its intermediate data in `s`. -/
def divRecord (kind : DivKind) (rn : Reg) (divisor : Word) (dividend : BitVec 32) (count : BitVec 14) (s : State) :
    DivEntry :=
  { kind := kind, rn := rn, divisor := divisor, dividend := dividend, count := count
    scratch := s.divScratch }

/-- The test of the divisor, made where RCOUNT is 17 (R188, R194). -/
def testDivisor (rn : Reg) (s : State) : State :=
  if s.rcount = 17 ∧ s.reg rn = 0 then s.raise .arithmeticError else s

/-- The first iteration reads the dividend (R188). -/
def divFirst (kind : DivKind) (dividend : BitVec 32) (rn : Reg) (s : State) : State :=
  let s1 := s.freeDivResult
  s1.setLoop (.running (divRecord kind rn (s.reg rn) dividend (s.rcount - 1) s1))

/-- The divide goes on: same instruction and divisor, next count, and W0, W1, N, Z, C as its last iteration left them
(R188). -/
def divContinues (e : DivEntry) (kind : DivKind) (rn : Reg) (s : State) : Bool :=
  e.kind == kind && e.rn == rn && e.standsIn s

/-- A later iteration: the last one writes quotient and remainder, where the quotient fits (R188). -/
def divLater (e : DivEntry) (kind : DivKind) (rn : Reg) (s : State) : State :=
  if s.rcount = 0 then
    match divResult kind.signed e.dividend e.divisor with
    | some (q, r) => ((s.writeW0W1 q r).freeDivFlags).setLoop .fresh
    | none => s.freeDivResult.setLoop .fresh
  else
    let s1 := s.freeDivResult
    s1.setLoop (.running (divRecord kind rn e.divisor e.dividend (s.rcount - 1) s1))

/-- `DivIteration(kind, m, n)` (R188), given the dividend the instruction names. -/
def divIteration (kind : DivKind) (dividend : BitVec 32) (rn : Reg) (s : State) : State :=
  if s.sr.ra = false ∨ 17 < s.rcount.toNat then improperDivide s
  else
    let s1 := testDivisor rn s
    match s.divider.loop with
    | .spoiled => improperDivide s1
    | .fresh => if s.rcount = 17 then divFirst kind dividend rn s1 else improperDivide s1
    | .running e => if divContinues e kind rn s then divLater e kind rn s1 else improperDivide s1

/-- P33 `DIV.SW Wm, Wn` (R189). -/
def execDivSW (rm rn : Reg) (s : State) : Outcome :=
  finish s (.ok (divIteration .sw ((s.reg rm).signExtend 32) rn s).advance)

/-- P34 `DIV.SD Wm, Wn` (R190). -/
def execDivSD (rm : Pair) (rn : Reg) (s : State) : Outcome :=
  finish s (.ok (divIteration .sd (s.reg (pairHigh rm) ++ s.reg (pairLow rm)) rn s).advance)

/-- P35 `DIV.UW Wm, Wn` (R191). -/
def execDivUW (rm rn : Reg) (s : State) : Outcome :=
  finish s (.ok (divIteration .uw ((s.reg rm).setWidth 32) rn s).advance)

/-- P36 `DIV.UD Wm, Wn` (R193). -/
def execDivUD (rm : Pair) (rn : Reg) (s : State) : Outcome :=
  finish s (.ok (divIteration .ud (s.reg (pairHigh rm) ++ s.reg (pairLow rm)) rn s).advance)

end Sys2Proof.Machine
end

