-- ==== Sys2Proof/Machine/Repeat.lean ====
section
/-! DEFINITION. The `REPEAT` loop (46_repeat.md): the two instructions, which instructions may be a target, and what the loop
mechanism does after each iteration. -/

namespace Sys2Proof.Machine

/-- RCOUNT is loaded, and RA set where the count is not zero; a new loop has no divide in it (R250, R251, R253). -/
def startLoop (k : BitVec 14) (s : State) : State :=
  ({ s with
    rcount := k
    sr := { s.sr with ra := if k = 0 then s.sr.ra else true } }.setLoop .fresh).advance

/-- P70 `REPEAT #lit14` (R250). -/
def execRepeatLit (k : BitVec 14) (s : State) : Outcome := finish s (.ok (startLoop k s))

/-- P71 `REPEAT Wn` (R251). -/
def execRepeatWn (rs : Reg) (s : State) : Outcome := finish s (.ok (startLoop ((s.reg rs).extractLsb' 0 14) s))

/-- The instruction may be the target of an active loop (R257). -/
def mayRepeat : Instr → Bool
  | .bra _ | .braOV _ | .braC _ | .braZ _ | .braN _ | .braLE _ | .braLT _ | .braLEU _ | .braNOV _ | .braNC _
  | .braNZ _ | .braNN _ | .braGT _ | .braGE _ | .braGTU _ | .btscF .. | .btscWs .. | .rcall _ | .call _ | .goto _
  | .ret | .retfie | .retlw .. | .repeatLit _ | .repeatWn _ | .disi _ | .ulnk | .lnk _ | .pwrsav _ | .reset
  | .movDLd .. | .movDSt .. => false
  | .movF .. | .movWregF .. | .movFWnd .. | .movWnsF .. | .movBLit8 .. | .movLit16 .. | .movOffLd .. | .movOffSt ..
  | .movWsWd .. | .push .. | .pop .. | .pushS | .popS | .addF .. | .addLit10 .. | .addLit5 .. | .addWs ..
  | .bsetF .. | .bsetWs .. | .mulSS .. | .mulSU .. | .mulSULit .. | .mulUS .. | .mulUU .. | .mulUULit .. | .mulF ..
  | .divSW .. | .divSD .. | .divUW .. | .divUD .. | .asrF .. | .asrWs .. | .asrLit .. | .asrWns .. | .lsrF ..
  | .lsrWs .. | .lsrLit .. | .lsrWns .. | .slF .. | .slWs .. | .slLit .. | .slWns .. | .nop _ | .tblrdl ..
  | .tblrdh .. | .tblwtl .. | .tblwth .. => true

/-- The end of one iteration: the last one clears RA, every other one counts RCOUNT down and leaves the PC on the target
(R252). `s` is the state the iteration began in. -/
def loopUpdate (s t : State) : State :=
  if s.sr.ra then
    if s.rcount = 0 then { t with sr := { t.sr with ra := false } }
    else { t with rcount := s.rcount - 1, pc := s.pc, pcOut := s.pcOut }
  else t

end Sys2Proof.Machine
end

