-- ==== Sys2Proof/Machine/Shift.lean ====
section
/-! DEFINITION. The shifts (44_shift.md): one shared operation for each of the four forms, and one meaning for each
instruction over it. -/

namespace Sys2Proof.Machine

/-- The file register form: a shift by one bit (R201, R205, R209). -/
def shiftFile (op : ShiftOp) (b : Size) (d : Dest) (f : BitVec 13) (s : State) : Res State := do
  let (x, s1) ← memRead b (fileAddr f) s
  let r := shift1 op b x
  let s2 ← fileWriteFlagged b d f r.res s1
  return (s2.setShiftFlags r).advance

/-- The `Ws, Wd` form: a shift by one bit (R202, R206, R210). -/
def shiftOne (op : ShiftOp) (b : Size) (src dst : Operand) (s : State) : Res State := do
  refuseIf (collides src dst) .registerCollision
  let (x, s1) ← srcVal b src s
  let r := shift1 op b x
  let s2 ← dstWriteFlagged b dst r.res s1
  return (s2.setShiftFlags r).advance

/-- The forms of the multi-bit shifter: result, N and Z (R200, R203, R207, R211). -/
def shiftMany (op : ShiftOp) (x : Word) (k : BitVec 4) (rd : Reg) (s : State) : State :=
  let res := shiftN op x k
  ((s.writeReg rd res).setNZ (topBit .word res) (res == 0)).advance

/-- The form whose count is `W[rs]`: a count above 15 is refused (R204, R208, R212; log 27). -/
def shiftByReg (op : ShiftOp) (rb rd rs : Reg) (s : State) : Res State := do
  refuseIf (decide (15 < (s.reg rs).toNat)) .shiftCountAbove15
  return shiftMany op (s.reg rb) ((s.reg rs).extractLsb' 0 4) rd s

/-- P37 `ASR{.B} f {,WREG}` (R201). -/
def execAsrF (b : Size) (d : Dest) (f : BitVec 13) (s : State) : Outcome := finish s (shiftFile .asr b d f s)

/-- P38 `ASR{.B} Ws, Wd` (R202). -/
def execAsrWs (b : Size) (q : Mode) (rd : Reg) (p : Mode) (rs : Reg) (s : State) : Outcome :=
  finish s (shiftOne .asr b (modeOperand p rs) (modeOperand q rd) s)

/-- P39 `ASR Wb, #lit4, Wnd` (R203). -/
def execAsrLit (rb rd : Reg) (k : BitVec 4) (s : State) : Outcome :=
  finish s (.ok (shiftMany .asr (s.reg rb) k rd s))

/-- P40 `ASR Wb, Wns, Wnd` (R204). -/
def execAsrWns (rb rd rs : Reg) (s : State) : Outcome :=
  finish s (shiftByReg .asr rb rd rs s)

/-- P41 `LSR{.B} f {,WREG}` (R205). -/
def execLsrF (b : Size) (d : Dest) (f : BitVec 13) (s : State) : Outcome := finish s (shiftFile .lsr b d f s)

/-- P42 `LSR{.B} Ws, Wd` (R206). -/
def execLsrWs (b : Size) (q : Mode) (rd : Reg) (p : Mode) (rs : Reg) (s : State) : Outcome :=
  finish s (shiftOne .lsr b (modeOperand p rs) (modeOperand q rd) s)

/-- P43 `LSR Wb, #lit4, Wnd` (R207). -/
def execLsrLit (rb rd : Reg) (k : BitVec 4) (s : State) : Outcome :=
  finish s (.ok (shiftMany .lsr (s.reg rb) k rd s))

/-- P44 `LSR Wb, Wns, Wnd` (R208). -/
def execLsrWns (rb rd rs : Reg) (s : State) : Outcome :=
  finish s (shiftByReg .lsr rb rd rs s)

/-- P45 `SL{.B} f {,WREG}` (R209). -/
def execSlF (b : Size) (d : Dest) (f : BitVec 13) (s : State) : Outcome := finish s (shiftFile .sl b d f s)

/-- P46 `SL{.B} Ws, Wd` (R210). -/
def execSlWs (b : Size) (q : Mode) (rd : Reg) (p : Mode) (rs : Reg) (s : State) : Outcome :=
  finish s (shiftOne .sl b (modeOperand p rs) (modeOperand q rd) s)

/-- P47 `SL Wb, #lit4, Wnd` (R211). -/
def execSlLit (rb rd : Reg) (k : BitVec 4) (s : State) : Outcome :=
  finish s (.ok (shiftMany .sl (s.reg rb) k rd s))

/-- P48 `SL Wb, Wns, Wnd` (R212). -/
def execSlWns (rb rd rs : Reg) (s : State) : Outcome :=
  finish s (shiftByReg .sl rb rd rs s)

end Sys2Proof.Machine
end

