-- ==== Sys2Proof/Machine/Move.lean ====
section
/-! DEFINITION. The data moves (40_move.md). -/

namespace Sys2Proof.Machine

/-- P1 `MOV{.B} f {,WREG}` (R130). -/
def execMovF (b : Size) (d : Dest) (f : BitVec 13) (s : State) : Outcome :=
  finish s do
    let (v, s1) ← memRead b (fileAddr f) s
    let s2 ← fileWriteFlagged b d f v s1
    return (s2.setNZ (topBit b v) (v == 0)).advance

/-- P2 `MOV{.B} WREG, f` (R131). -/
def execMovWregF (b : Size) (f : BitVec 13) (s : State) : Outcome :=
  finish s do
    let s1 ← memWrite b (fileAddr f) (s.regVal b 0) s
    return s1.advance

/-- The byte address `f : 0` of the 16-bit direct forms (R111). -/
def directAddr (f : BitVec 15) : Word := f ++ 0#1

/-- P3 `MOV f, Wnd` (R132). -/
def execMovFWnd (f : BitVec 15) (rd : Reg) (s : State) : Outcome :=
  finish s do
    let (v, s1) ← memRead .word (directAddr f) s
    return (s1.writeReg rd v).advance

/-- P4 `MOV Wns, f` (R133). -/
def execMovWnsF (f : BitVec 15) (rs : Reg) (s : State) : Outcome :=
  finish s do
    let s1 ← memWrite .word (directAddr f) (s.reg rs) s
    return s1.advance

/-- P5 `MOV.B #lit8, Wnd` (R134). -/
def execMovBLit8 (k : BitVec 8) (rd : Reg) (s : State) : Outcome :=
  finish s (.ok (s.writeRegLow rd k).advance)

/-- P6 `MOV #lit16, Wnd` (R135). -/
def execMovLit16 (k : BitVec 16) (rd : Reg) (s : State) : Outcome :=
  finish s (.ok (s.writeReg rd k).advance)

/-- P7 `MOV{.B} [Ws+Slit10], Wnd` (R136). -/
def execMovOffLd (b : Size) (k : BitVec 10) (rd rs : Reg) (s : State) : Outcome :=
  finish s do
    let (a, s1) ← eaSlit10 b true k rs s
    let (v, s2) ← memRead b (trunc16 a) s1
    return (s2.writeRegSized b rd v).advance

/-- P8 `MOV{.B} Wns, [Wd+Slit10]` (R137). -/
def execMovOffSt (b : Size) (k : BitVec 10) (rd rs : Reg) (s : State) : Outcome :=
  finish s do
    let (a, s1) ← eaSlit10 b false k rd s
    let s2 ← memWrite b (trunc16 a) (s.regVal b rs) s1
    return s2.advance

/-- A move from any operand to any other (R138). -/
def moveBetween (b : Size) (src dst : Operand) (s : State) : Res State := do
  refuseIf (collides src dst) .registerCollision
  let (v, s1) ← srcVal b src s
  let s2 ← dstWrite b dst v s1
  return s2.advance

/-- P9 `MOV{.B} Ws, Wd` (R138). -/
def execMovWsWd (b : Size) (rb : Reg) (h : MoveMode) (rd : Reg) (g : MoveMode) (rs : Reg) (s : State) : Outcome :=
  finish s (moveBetween b (moveOperand g rs rb) (moveOperand h rd rb) s)

/-- The second word of a double-word access: the stack check of `a + 2` where the pointer is W15 (R139). -/
def secondWord (r : Reg) (isRead : Bool) (a : Int) (s : State) : State := stackCheckIf r isRead (a + 2) s

/-- The memory source of `MOV.D`: two word reads, the lower address first (R80, R139). -/
def readDouble (r : Reg) (a : Int) (s : State) : Res (Word × Word × State) := do
  let (lo, s1) ← memRead .word (trunc16 a) s
  let (hi, s2) ← memRead .word (trunc16 (a + 2)) (secondWord r true a s1)
  return (lo, hi, s2)

/-- The memory destination of `MOV.D`: two word writes, the lower address first (R80, R140). The rule does not say whether the
stack check of `a + 2` comes before or after the first write; DESIGN CHOICE: after it, so that a first word stored into SPLIM
takes part in that check (log 33). -/
def writeDouble (r : Reg) (a : Int) (lo hi : Word) (s : State) : Res State := do
  let s1 ← memWrite .word (trunc16 a) lo s
  memWrite .word (trunc16 (a + 2)) hi (secondWord r false a s1)

/-- P10 `MOV.D Ws, Wnd` (R139; the collision of a pointer with the destination pair, log 19). -/
def execMovDLd (rd : Pair) (p : Mode) (rs : Reg) (s : State) : Outcome :=
  finish s do
    let src := modeOperand p rs
    refuseIf (src.addresses (pairLow rd) || src.addresses (pairHigh rd)) .registerCollision
    let (place, s1) ← ea 4 true src s
    match place with
    | .reg r => return (s1.writeTwo (pairLow rd) (pairHigh rd) (s1.reg r) (s1.reg (nextReg r))).advance
    | .mem a =>
      let (lo, hi, s2) ← readDouble rs a s1
      return (s2.writeTwo (pairLow rd) (pairHigh rd) lo hi).advance

/-- P11 `MOV.D Wns, Wd` (R140). -/
def execMovDSt (q : Mode) (rd : Reg) (rs : Pair) (s : State) : Outcome :=
  finish s do
    let lo := s.reg (pairLow rs)
    let hi := s.reg (pairHigh rs)
    let (place, s1) ← ea 4 false (modeOperand q rd) s
    match place with
    | .reg r => return (s1.writeTwo r (nextReg r) lo hi).advance
    | .mem a =>
      let s2 ← writeDouble rd a lo hi s1
      return s2.advance

end Sys2Proof.Machine
end

