-- ==== Sys2Proof/Machine/Stack.lean ====
section
/-! DEFINITION. The stack, shadow register and frame instructions (41_stack.md). -/

namespace Sys2Proof.Machine

/-- P12 `PUSH Ws` (R150): `MOV Ws, [W15++]`. -/
def execPush (rb : Reg) (g : MoveMode) (rs : Reg) (s : State) : Outcome :=
  finish s (moveBetween .word (moveOperand g rs rb) (.ptr .postInc 15) s)

/-- P13 `POP Wd` (R151): `MOV [--W15], Wd`. -/
def execPop (rb : Reg) (h : MoveMode) (rd : Reg) (s : State) : Outcome :=
  finish s (moveBetween .word (.ptr .preDec 15) (moveOperand h rd rb) s)

/-- P14 `PUSH.S` (R154). -/
def execPushS (s : State) : Outcome :=
  finish s (.ok { s with
    shadow :=
      { w0 := s.reg 0, w1 := s.reg 1, w2 := s.reg 2, w3 := s.reg 3
        dc := s.sr.dc, n := s.sr.n, ov := s.sr.ov, z := s.sr.z, c := s.sr.c } }.advance)

/-- P15 `POP.S` (R155). -/
def execPopS (s : State) : Outcome :=
  let s1 := (((s.writeReg 0 s.shadow.w0).writeReg 1 s.shadow.w1).writeReg 2 s.shadow.w2).writeReg 3 s.shadow.w3
  finish s (.ok { s1 with
    sr := { s1.sr with
      dc := s.shadow.dc, n := s.shadow.n, ov := s.shadow.ov, z := s.shadow.z, c := s.shadow.c } }.advance)

/-- P16 `LNK #lit14` (R156); `k` is lit14<13:1>. -/
def execLnk (k : BitVec 13) (s : State) : Outcome :=
  finish s do
    let s1 ← push16 (s.reg 14) s
    let s2 := s1.writeReg 14 (s1.reg 15)
    return (s2.writeReg 15 (s2.reg 15 + (k ++ 0#1).setWidth 16)).advance

/-- P17 `ULNK` (R157). -/
def execUlnk (s : State) : Outcome :=
  finish s do
    let (v, s1) ← pop16 (s.writeReg 15 (s.reg 14))
    return (s1.writeReg 14 v).advance

end Sys2Proof.Machine
end

