-- ==== Sys2Proof/Machine/System.lean ====
section
/-! DEFINITION. The system instructions (47_system.md part 1), and how many cycles a step can take (70_reset_and_hazards.md
R351), which bounds the fall of DISICNT. -/

namespace Sys2Proof.Machine

/-- P72 `NOP` (R265). -/
def execNop (_x : BitVec 16) (s : State) : Outcome := finish s (.ok s.advance)

/-- P73 `DISI #lit14` (R268). -/
def execDisi (k : BitVec 14) (s : State) : Outcome :=
  finish s (.ok { s with disicnt := k }.noteDisicnt.advance)

/-- P74 `PWRSAV #lit1` (R269). -/
def execPwrsav (k : BitVec 1) (s : State) : Outcome :=
  finish s (.ok { s with power := if k = 0 then .sleep else .idle }.advance)

/-- P75 `RESET` (R270): `DeviceReset(Software)`. -/
def execReset (s : State) : Outcome := finish s (.error (.reset .software))

/-- The largest cycle count of R351's table for the instruction. -/
def cyclesMax : Instr → Nat
  | .movDLd .. | .movDSt .. => 2
  | .bra _ | .braOV _ | .braC _ | .braZ _ | .braN _ | .braLE _ | .braLT _ | .braLEU _ | .braNOV _ | .braNC _
  | .braNZ _ | .braNN _ | .braGT _ | .braGE _ | .braGTU _ | .rcall _ | .call _ | .goto _ => 2
  | .btscF .. | .btscWs .. => 3
  | .ret | .retfie | .retlw .. => 3
  | .tblrdl .. | .tblrdh .. | .tblwtl .. | .tblwth .. => 2
  | .movF .. | .movWregF .. | .movFWnd .. | .movWnsF .. | .movBLit8 .. | .movLit16 .. | .movOffLd .. | .movOffSt ..
  | .movWsWd .. | .push .. | .pop .. | .pushS | .popS | .lnk _ | .ulnk | .addF .. | .addLit10 .. | .addLit5 ..
  | .addWs .. | .bsetF .. | .bsetWs .. | .mulSS .. | .mulSU .. | .mulSULit .. | .mulUS .. | .mulUU .. | .mulUULit ..
  | .mulF .. | .divSW .. | .divSD .. | .divUW .. | .divUD .. | .asrF .. | .asrWs .. | .asrLit .. | .asrWns ..
  | .lsrF .. | .lsrWs .. | .lsrLit .. | .lsrWns .. | .slF .. | .slWs .. | .slLit .. | .slWns .. | .repeatLit _
  | .repeatWn _ | .nop _ | .disi _ | .pwrsav _ | .reset => 1

/-- `dmax(I)` for the step that ends in `t`: one more for a possible stall and two for each PSV read (R268). -/
def stepCyclesMax (i : Instr) (t : State) : Nat := cyclesMax i + 1 + 2 * t.notes.psvReads

/-- DISICNT at the end of a step: unless the step loaded it, it falls by an unspecified number of cycles from 1 to `dmax`, and
stops at zero (R268; log 29). -/
def countDown (dmax : Nat) (t : State) : State :=
  if t.notes.wroteDisicnt ∨ t.disicnt = 0 then t
  else
    let d := 1 + Config.freeCycles t.free % dmax
    { t with disicnt := BitVec.ofNat 14 (t.disicnt.toNat - d), free := t.free + 1 }

end Sys2Proof.Machine
end

