-- ==== Sys2Proof/Machine/Table.lean ====
section
/-! DEFINITION. The table instructions (47_system.md part 2). -/

namespace Sys2Proof.Machine

/-- The program word address of a table access in user space: `TBLPAG[6:0] : a[15:1] : 0` (R271). -/
def tblProgAddr (s : State) (a : Word) : ProgAddr := s.tblpag.extractLsb' 0 7 ++ (a &&& 0xFFFE)

/-- `TblWord(n, size, mode)` (R271): the program word, the table address, and the state after the pointer modification. -/
def tblWord (b : Size) (p : PtrMode) (r : Reg) (s : State) : Res (ProgWord × Word × State) := do
  refuseIf (r == 15) .tablePointerW15
  let base ← ptrValue s r
  let a := trunc16 (ptrAddr (sizeBytes b) p base)
  let s1 := modifyPtr (sizeBytes b) p r base s
  refuseIf (misaligned b a) .tableMisaligned
  let (w, s2) := if s.tblpag.getLsbD 7 then s1.drawProgWord else progRead (tblProgAddr s a) s1
  return (w, a, s2)

/-- What `TBLRDL` takes from the word (R272). -/
def tblLow (b : Size) (a : Word) (w : ProgWord) : Word :=
  match b with
  | .word => w.extractLsb' 0 16
  | .byte => byteWord (selectByte a (w.extractLsb' 0 16))

/-- What `TBLRDH` takes from the word; the byte above bit 23 reads 0 (R273). -/
def tblHigh (b : Size) (a : Word) (w : ProgWord) : Word :=
  match b with
  | .word => byteWord (w.extractLsb' 16 8)
  | .byte => if isOdd a then 0 else byteWord (w.extractLsb' 16 8)

/-- A table read (R272, R273). -/
def tableRead (pick : Size → Word → ProgWord → Word) (b : Size) (p : PtrMode) (rs : Reg) (dst : Operand) (s : State) :
    Res State := do
  refuseIf (collides (.ptr p rs) dst) .registerCollision
  let (w, a, s1) ← tblWord b p rs s
  let s2 ← dstWrite b dst (pick b a w) s1
  return s2.advance

/-- P76 `TBLRDL{.B} Ws, Wd` (R272). -/
def execTblrdl (b : Size) (q : Mode) (rd : Reg) (p : PtrMode) (rs : Reg) (s : State) : Outcome :=
  finish s (tableRead tblLow b p rs (modeOperand q rd) s)

/-- P77 `TBLRDH{.B} Ws, Wd` (R273). -/
def execTblrdh (b : Size) (q : Mode) (rd : Reg) (p : PtrMode) (rs : Reg) (s : State) : Outcome :=
  finish s (tableRead tblHigh b p rs (modeOperand q rd) s)

/-- P78 `TBLWTL{.B} Ws, Wd` (R274): refused, as the rule says. -/
def execTblwtl (_b : Size) (_q : PtrMode) (_rd : Reg) (_p : Mode) (_rs : Reg) (_s : State) : Outcome :=
  .refused .tableWrite

/-- P79 `TBLWTH{.B} Ws, Wd` (R275): refused, as the rule says. -/
def execTblwth (_b : Size) (_q : PtrMode) (_rd : Reg) (_p : Mode) (_rs : Reg) (_s : State) : Outcome :=
  .refused .tableWrite

end Sys2Proof.Machine
end

