-- ==== Sys2Proof/Machine/Dispatch.lean ====
section
/-! DEFINITION. The meaning of each instruction: one arm per constructor. -/

namespace Sys2Proof.Machine

/-- What executing `i` in `s` answers. -/
def exec (i : Instr) (s : State) : Host.Outcome State Fault Refusal :=
  match i with
  | .movF b d f => Sys2Proof.Machine.execMovF b d f s
  | .movWregF b f => Sys2Proof.Machine.execMovWregF b f s
  | .movFWnd f rd => Sys2Proof.Machine.execMovFWnd f rd s
  | .movWnsF f rs => Sys2Proof.Machine.execMovWnsF f rs s
  | .movBLit8 k rd => Sys2Proof.Machine.execMovBLit8 k rd s
  | .movLit16 k rd => Sys2Proof.Machine.execMovLit16 k rd s
  | .movOffLd b k rd rs => Sys2Proof.Machine.execMovOffLd b k rd rs s
  | .movOffSt b k rd rs => Sys2Proof.Machine.execMovOffSt b k rd rs s
  | .movWsWd b rb h rd g rs => Sys2Proof.Machine.execMovWsWd b rb h rd g rs s
  | .movDLd rd p rs => Sys2Proof.Machine.execMovDLd rd p rs s
  | .movDSt q rd rs => Sys2Proof.Machine.execMovDSt q rd rs s
  | .push rb g rs => Sys2Proof.Machine.execPush rb g rs s
  | .pop rb h rd => Sys2Proof.Machine.execPop rb h rd s
  | .pushS => Sys2Proof.Machine.execPushS s
  | .popS => Sys2Proof.Machine.execPopS s
  | .lnk k => Sys2Proof.Machine.execLnk k s
  | .ulnk => Sys2Proof.Machine.execUlnk s
  | .addF b d f => Sys2Proof.Machine.execAddF b d f s
  | .addLit10 b k rd => Sys2Proof.Machine.execAddLit10 b k rd s
  | .addLit5 b rb q rd k => Sys2Proof.Machine.execAddLit5 b rb q rd k s
  | .addWs b rb q rd p rs => Sys2Proof.Machine.execAddWs b rb q rd p rs s
  | .bsetF j f => Sys2Proof.Machine.execBsetF j f s
  | .bsetWs j b p rs => Sys2Proof.Machine.execBsetWs j b p rs s
  | .btscF j f => Sys2Proof.Machine.execBtscF j f s
  | .btscWs j p rs => Sys2Proof.Machine.execBtscWs j p rs s
  | .mulSS rb rd p rs => Sys2Proof.Machine.execMulSS rb rd p rs s
  | .mulSU rb rd p rs => Sys2Proof.Machine.execMulSU rb rd p rs s
  | .mulSULit rb rd k => Sys2Proof.Machine.execMulSULit rb rd k s
  | .mulUS rb rd p rs => Sys2Proof.Machine.execMulUS rb rd p rs s
  | .mulUU rb rd p rs => Sys2Proof.Machine.execMulUU rb rd p rs s
  | .mulUULit rb rd k => Sys2Proof.Machine.execMulUULit rb rd k s
  | .mulF b f => Sys2Proof.Machine.execMulF b f s
  | .divSW rm rn => Sys2Proof.Machine.execDivSW rm rn s
  | .divSD rm rn => Sys2Proof.Machine.execDivSD rm rn s
  | .divUW rm rn => Sys2Proof.Machine.execDivUW rm rn s
  | .divUD rm rn => Sys2Proof.Machine.execDivUD rm rn s
  | .asrF b d f => Sys2Proof.Machine.execAsrF b d f s
  | .asrWs b q rd p rs => Sys2Proof.Machine.execAsrWs b q rd p rs s
  | .asrLit rb rd k => Sys2Proof.Machine.execAsrLit rb rd k s
  | .asrWns rb rd rs => Sys2Proof.Machine.execAsrWns rb rd rs s
  | .lsrF b d f => Sys2Proof.Machine.execLsrF b d f s
  | .lsrWs b q rd p rs => Sys2Proof.Machine.execLsrWs b q rd p rs s
  | .lsrLit rb rd k => Sys2Proof.Machine.execLsrLit rb rd k s
  | .lsrWns rb rd rs => Sys2Proof.Machine.execLsrWns rb rd rs s
  | .slF b d f => Sys2Proof.Machine.execSlF b d f s
  | .slWs b q rd p rs => Sys2Proof.Machine.execSlWs b q rd p rs s
  | .slLit rb rd k => Sys2Proof.Machine.execSlLit rb rd k s
  | .slWns rb rd rs => Sys2Proof.Machine.execSlWns rb rd rs s
  | .bra n => Sys2Proof.Machine.execBra n s
  | .braOV n => Sys2Proof.Machine.execBraOV n s
  | .braC n => Sys2Proof.Machine.execBraC n s
  | .braZ n => Sys2Proof.Machine.execBraZ n s
  | .braN n => Sys2Proof.Machine.execBraN n s
  | .braLE n => Sys2Proof.Machine.execBraLE n s
  | .braLT n => Sys2Proof.Machine.execBraLT n s
  | .braLEU n => Sys2Proof.Machine.execBraLEU n s
  | .braNOV n => Sys2Proof.Machine.execBraNOV n s
  | .braNC n => Sys2Proof.Machine.execBraNC n s
  | .braNZ n => Sys2Proof.Machine.execBraNZ n s
  | .braNN n => Sys2Proof.Machine.execBraNN n s
  | .braGT n => Sys2Proof.Machine.execBraGT n s
  | .braGE n => Sys2Proof.Machine.execBraGE n s
  | .braGTU n => Sys2Proof.Machine.execBraGTU n s
  | .rcall n => Sys2Proof.Machine.execRcall n s
  | .call t => Sys2Proof.Machine.execCall t s
  | .goto t => Sys2Proof.Machine.execGoto t s
  | .ret => Sys2Proof.Machine.execRet s
  | .retfie => Sys2Proof.Machine.execRetfie s
  | .retlw b k rd => Sys2Proof.Machine.execRetlw b k rd s
  | .repeatLit k => Sys2Proof.Machine.execRepeatLit k s
  | .repeatWn rs => Sys2Proof.Machine.execRepeatWn rs s
  | .nop x => Sys2Proof.Machine.execNop x s
  | .disi k => Sys2Proof.Machine.execDisi k s
  | .pwrsav k => Sys2Proof.Machine.execPwrsav k s
  | .reset => Sys2Proof.Machine.execReset s
  | .tblrdl b q rd p rs => Sys2Proof.Machine.execTblrdl b q rd p rs s
  | .tblrdh b q rd p rs => Sys2Proof.Machine.execTblrdh b q rd p rs s
  | .tblwtl b q rd p rs => Sys2Proof.Machine.execTblwtl b q rd p rs s
  | .tblwth b q rd p rs => Sys2Proof.Machine.execTblwth b q rd p rs s

end Sys2Proof.Machine
end

