-- ==== Sys2Proof/WellFormed.lean ====
section
/-! DEFINITION. Which instructions have an encoding: the constraints column of 30_encoding.md R103 that the operand types do
not already enforce. -/

namespace Sys2Proof

/-- The fields of `MOV{.B} Ws, Wd` that spell `PUSH Ws`, pattern P12 (R150). -/
def isPushForm (b : Size) (h : MoveMode) (rd : Reg) : Bool :=
  b == .word && h == .ptr .postInc && rd == 15

/-- The fields of `MOV{.B} Ws, Wd` that spell `POP Wd`, pattern P13 (R151). -/
def isPopForm (b : Size) (g : MoveMode) (rs : Reg) : Bool :=
  b == .word && g == .ptr .preDec && rs == 15

/-- The instruction has an encoding, and this is the constructor that stands for its words. A word of P9 that is also
one of P12 or P13 stands for `push`, else `pop`. -/
def Instr.wellFormed : Instr → Bool
  | .movWsWd b _ h rd g rs => !isPushForm b h rd && !isPopForm b g rs
  | .pop _ h rd => !isPushForm .word h rd
  -- P10, P11: a register-direct pair number is even
  | .movDLd _ p rs => p != .direct || rs.val % 2 == 0
  | .movDSt q rd _ => q != .direct || rd.val % 2 == 0
  -- P23: bbbb <= 7 when B = 1
  | .bsetWs j b _ _ => b != .byte || j.toNat ≤ 7
  -- P33 to P36: the divisor is W2 to W15
  | .divSW _ rn => 2 ≤ rn.val
  | .divSD _ rn => 2 ≤ rn.val
  | .divUW _ rn => 2 ≤ rn.val
  | .divUD _ rn => 2 ≤ rn.val
  -- every word of these rows is an instruction
  | .movF .. | .movWregF .. | .movFWnd .. | .movWnsF .. | .movBLit8 .. | .movLit16 .. | .movOffLd ..
  | .movOffSt .. | .push .. | .pushS .. | .popS .. | .lnk .. | .ulnk .. | .addF .. | .addLit10 .. | .addLit5 ..
  | .addWs .. | .bsetF .. | .btscF .. | .btscWs .. | .mulSS .. | .mulSU .. | .mulSULit .. | .mulUS .. | .mulUU ..
  | .mulUULit .. | .mulF .. | .asrF .. | .asrWs .. | .asrLit .. | .asrWns .. | .lsrF .. | .lsrWs .. | .lsrLit ..
  | .lsrWns .. | .slF .. | .slWs .. | .slLit .. | .slWns .. | .bra .. | .braOV .. | .braC .. | .braZ .. | .braN ..
  | .braLE .. | .braLT .. | .braLEU .. | .braNOV .. | .braNC .. | .braNZ .. | .braNN .. | .braGT .. | .braGE ..
  | .braGTU .. | .rcall .. | .call .. | .goto .. | .ret .. | .retfie .. | .retlw .. | .repeatLit .. | .repeatWn ..
  | .nop .. | .disi .. | .pwrsav .. | .reset .. | .tblrdl .. | .tblrdh .. | .tblwtl .. | .tblwth .. => true

end Sys2Proof
end

