-- ==== Sys2Proof/Decode.lean ====
section
/-! DEFINITION. The decoder and, after it, the encoder, both from the patterns of 30_encoding.md R103 and the field positions of
R102 and R110. The encodings rest on log 1. -/

namespace Sys2Proof

/-- Why a word is no instruction. -/
inductive DecodeError where
  /-- it matches no row, or breaks a constraint of the one it matches (R113) -/
  | unknownWord (w : ProgWord)
  /-- the second word of `CALL` or `GOTO` has one of bits 23:7 set (R234) -/
  | malformedSecondWord (w : ProgWord)
  deriving DecidableEq, Repr

/-- The field of `len` bits whose lowest bit is bit `lo` (R10). -/
def field (w : ProgWord) (lo len : Nat) : Nat := w.toNat / 2 ^ lo % 2 ^ len

/-- A 4-bit register number (R106). -/
def regField (w : ProgWord) (lo : Nat) : Reg := Fin.ofNat 16 (field w lo 4)

/-- A 3-bit pair number (R106). -/
def pairField (w : ProgWord) (lo : Nat) : Pair := Fin.ofNat 8 (field w lo 3)

/-- A literal, address or displacement of `len` bits (R110, R111). -/
def bitsField (w : ProgWord) (lo len : Nat) : BitVec len := BitVec.ofNat len (field w lo len)

/-- The `B` bit at bit `lo` (R105). -/
def sizeField (w : ProgWord) (lo : Nat) : Size := if field w lo 1 = 1 then .byte else .word

/-- The `D` bit, bit 13 (R105). -/
def destField (w : ProgWord) : Dest := if field w 13 1 = 1 then .file else .wreg

/-- The indirect mode of a code, 001 to 101 (R107). -/
def ptrModeOf : Nat → Option PtrMode
  | 1 => some .ind
  | 2 => some .postDec
  | 3 => some .postInc
  | 4 => some .preDec
  | 5 => some .preInc
  | _ => none

/-- The mode of a `ppp` or `qqq` code, 000 to 101 (R107). -/
def modeOf (n : Nat) : Option Mode :=
  if n = 0 then some .direct else (ptrModeOf n).map .ptr

/-- The mode of a `ggg` or `hhh` code (R107). -/
def moveModeOf (n : Nat) : Option MoveMode :=
  if n = 0 then some .direct
  else if n = 6 then some .offset6
  else if n = 7 then some .offset7
  else (ptrModeOf n).map .ptr

/-- A multiply's destination: `dddd` even and not 1110 (R103, R106). -/
def mulPairField (w : ProgWord) : Option MulPair :=
  let d := field w 7 4
  if d % 2 = 0 then if h : d / 2 < 7 then some ⟨d / 2, h⟩ else none else none

/-- `Slit10` of the OFF10 formats: `w[18:15] : w[13:11] : w[6:4]` (R110). -/
def slit10Field (w : ProgWord) : BitVec 10 :=
  BitVec.ofNat 10 (field w 15 4 * 64 + field w 11 3 * 8 + field w 4 3)

/-- The word is the first of two: it matches `CALL`, P65, or `GOTO`, P66 (R100). -/
def isTwoWord (w : ProgWord) : Bool :=
  (field w 16 8 == 0x02 || field w 16 8 == 0x04) && field w 0 1 == 0

/-- `target<22:1>` of an ABS23 pair whose second word is well formed (R110). -/
def absTarget (w w2 : ProgWord) : BitVec 22 :=
  BitVec.ofNat 22 (field w2 0 7 * 2 ^ 15 + field w 1 15)

/-- Words 0x0xxxxx: NOP, CALL, GOTO, RETLW, RETURN, RETFIE, RCALL, REPEAT. -/
def decode0 (w w2 : ProgWord) : Option Instr :=
  match field w 16 4 with
  | 0x0 => some (.nop (bitsField w 0 16))
  | 0x2 => if field w 0 1 = 0 then some (.call (absTarget w w2)) else none
  | 0x4 => if field w 0 1 = 0 then some (.goto (absTarget w w2)) else none
  | 0x5 => if field w 15 1 = 0 then some (.retlw (sizeField w 14) (bitsField w 4 10) (regField w 0)) else none
  | 0x6 =>
    if field w 0 16 = 0 then some .ret
    else if field w 0 16 = 0x4000 then some .retfie
    else none
  | 0x7 => some (.rcall (bitsField w 0 16))
  | 0x9 =>
    if field w 14 2 = 0 then some (.repeatLit (bitsField w 0 14))
    else if field w 4 12 = 0x800 then some (.repeatWn (regField w 0))
    else none
  | _ => none

/-- Words 0x3xxxxx: the relative branches. -/
def decode3 (w : ProgWord) : Option Instr :=
  let n := bitsField w 0 16
  match field w 16 4 with
  | 0x0 => some (.braOV n)
  | 0x1 => some (.braC n)
  | 0x2 => some (.braZ n)
  | 0x3 => some (.braN n)
  | 0x4 => some (.braLE n)
  | 0x5 => some (.braLT n)
  | 0x6 => some (.braLEU n)
  | 0x7 => some (.bra n)
  | 0x8 => some (.braNOV n)
  | 0x9 => some (.braNC n)
  | 0xA => some (.braNZ n)
  | 0xB => some (.braNN n)
  | 0xC => some (.braGT n)
  | 0xD => some (.braGE n)
  | 0xE => some (.braGTU n)
  | _ => none

/-- Words 0x4xxxxx: ADD with a base register. Bits 6:5 = 11 select the literal form (R104). -/
def decode4 (w : ProgWord) : Option Instr :=
  if field w 19 1 = 0 then
    (modeOf (field w 11 3)).bind fun q =>
      if field w 5 2 = 3 then
        some (.addLit5 (sizeField w 14) (regField w 15) q (regField w 7) (bitsField w 0 5))
      else
        (modeOf (field w 4 3)).map fun p =>
          .addWs (sizeField w 14) (regField w 15) q (regField w 7) p (regField w 0)
  else none

/-- The instruction of a P9 word: `PUSH` where it matches P12, else `POP` where it matches P13, else `MOV` (R104; log 4). -/
def moveForm (b : Size) (rb : Reg) (h : MoveMode) (rd : Reg) (g : MoveMode) (rs : Reg) : Instr :=
  if isPushForm b h rd then .push rb g rs
  else if isPopForm b g rs then .pop rb h rd
  else .movWsWd b rb h rd g rs

/-- Words 0x7xxxxx: MOV Ws,Wd with PUSH and POP. -/
def decode7 (w : ProgWord) : Option Instr :=
  if field w 19 1 = 1 then
    (moveModeOf (field w 11 3)).bind fun h =>
      (moveModeOf (field w 4 3)).map fun g =>
        moveForm (sizeField w 14) (regField w 15) h (regField w 7) g (regField w 0)
  else none

/-- Words 0x8xxxxx: the 16-bit direct moves. -/
def decode8 (w : ProgWord) : Option Instr :=
  if field w 19 1 = 0 then some (.movFWnd (bitsField w 4 15) (regField w 0))
  else some (.movWnsF (bitsField w 4 15) (regField w 0))

/-- Words 0x9xxxxx: the moves with a signed 10-bit offset. -/
def decode9 (w : ProgWord) : Option Instr :=
  if field w 19 1 = 0 then some (.movOffLd (sizeField w 14) (slit10Field w) (regField w 7) (regField w 0))
  else some (.movOffSt (sizeField w 14) (slit10Field w) (regField w 7) (regField w 0))

/-- Words 0xAxxxxx: BSET and BTSC. -/
def decodeA (w : ProgWord) : Option Instr :=
  match field w 16 4 with
  | 0x0 =>
    if field w 11 1 = 0 ∧ field w 7 3 = 0 then
      (modeOf (field w 4 3)).bind fun p =>
        if sizeField w 10 = .byte ∧ 7 < field w 12 4 then none
        else some (.bsetWs (bitsField w 12 4) (sizeField w 10) p (regField w 0))
    else none
  | 0x7 =>
    if field w 7 5 = 0 then
      (modeOf (field w 4 3)).map fun p => .btscWs (bitsField w 12 4) p (regField w 0)
    else none
  | 0x8 => some (.bsetF (bitsField w 13 3) (bitsField w 0 13))
  | 0xF => some (.btscF (bitsField w 13 3) (bitsField w 0 13))
  | _ => none

/-- The multiply of a MUL-format word, given the two register forms and, where the table has one, the literal form. -/
def decodeMul (w : ProgWord) (reg : Reg → MulPair → Mode → Reg → Instr)
    (lit : Option (Reg → MulPair → BitVec 5 → Instr)) : Option Instr :=
  (mulPairField w).bind fun d =>
    if field w 5 2 = 3 then lit.map fun mk => mk (regField w 11) d (bitsField w 0 5)
    else (modeOf (field w 4 3)).map fun p => reg (regField w 11) d p (regField w 0)

/-- A word of format TBL that reads: the source is a pointer. -/
def decodeTblRd (w : ProgWord) (mk : Size → Mode → Reg → PtrMode → Reg → Instr) : Option Instr :=
  (modeOf (field w 11 3)).bind fun q =>
    (ptrModeOf (field w 4 3)).map fun p => mk (sizeField w 14) q (regField w 7) p (regField w 0)

/-- A word of format TBL that writes: the destination is a pointer. -/
def decodeTblWt (w : ProgWord) (mk : Size → PtrMode → Reg → Mode → Reg → Instr) : Option Instr :=
  (ptrModeOf (field w 11 3)).bind fun q =>
    (modeOf (field w 4 3)).map fun p => mk (sizeField w 14) q (regField w 7) p (regField w 0)

/-- The double-word moves, words 0xBExxxx. -/
def decodeMovD (w : ProgWord) : Option Instr :=
  if field w 11 5 = 0 then
    if field w 7 1 = 0 then
      (modeOf (field w 4 3)).bind fun p =>
        if p = .direct ∧ field w 0 1 = 1 then none else some (.movDLd (pairField w 8) p (regField w 0))
    else none
  else if field w 14 2 = 2 ∧ field w 4 3 = 0 ∧ field w 0 1 = 0 then
    (modeOf (field w 11 3)).bind fun q =>
      if q = .direct ∧ field w 7 1 = 1 then none else some (.movDSt q (regField w 7) (pairField w 1))
  else none

/-- Words 0xBxxxxx: ADD literal and file, file moves, multiplies, table instructions, double-word moves. -/
def decodeB (w : ProgWord) : Option Instr :=
  match field w 16 4 with
  | 0x0 => if field w 15 1 = 0 then some (.addLit10 (sizeField w 14) (bitsField w 4 10) (regField w 0)) else none
  | 0x3 => if field w 12 4 = 0xC then some (.movBLit8 (bitsField w 4 8) (regField w 0)) else none
  | 0x4 => if field w 15 1 = 0 then some (.addF (sizeField w 14) (destField w) (bitsField w 0 13)) else none
  | 0x7 =>
    if field w 15 1 = 1 ∧ field w 13 1 = 1 then some (.movWregF (sizeField w 14) (bitsField w 0 13)) else none
  | 0x8 => if field w 15 1 = 1 then decodeMul w .mulUS none else decodeMul w .mulUU (some .mulUULit)
  | 0x9 => if field w 15 1 = 1 then decodeMul w .mulSS none else decodeMul w .mulSU (some .mulSULit)
  | 0xA => if field w 15 1 = 0 then decodeTblRd w .tblrdl else decodeTblRd w .tblrdh
  | 0xB => if field w 15 1 = 0 then decodeTblWt w .tblwtl else decodeTblWt w .tblwth
  | 0xC =>
    if field w 15 1 = 0 ∧ field w 13 1 = 0 then some (.mulF (sizeField w 14) (bitsField w 0 13)) else none
  | 0xE => decodeMovD w
  | 0xF => if field w 15 1 = 1 then some (.movF (sizeField w 14) (destField w) (bitsField w 0 13)) else none
  | _ => none

/-- A single-bit shift of format WS_WD. -/
def decodeWsWd (w : ProgWord) (mk : Size → Mode → Reg → Mode → Reg → Instr) : Option Instr :=
  (modeOf (field w 11 3)).bind fun q =>
    (modeOf (field w 4 3)).map fun p => mk (sizeField w 14) q (regField w 7) p (regField w 0)

/-- A multi-bit shift: SHIFT_LIT4 where bits 6:4 = 100, SHIFT_WNS where they are 000. -/
def decodeShiftN (w : ProgWord) (lit : Reg → Reg → BitVec 4 → Instr) (reg : Reg → Reg → Reg → Instr) : Option Instr :=
  if field w 4 3 = 4 then some (lit (regField w 11) (regField w 7) (bitsField w 0 4))
  else if field w 4 3 = 0 then some (reg (regField w 11) (regField w 7) (regField w 0))
  else none

/-- A divide of format DIV: bit 6 selects the double form (R102, R103). -/
def decodeDiv (w : ProgWord) (single : Reg → Reg → Instr) (double : Pair → Reg → Instr) : Option Instr :=
  if 2 ≤ field w 0 4 ∧ field w 4 2 = 0 then
    if field w 6 1 = 0 then
      if field w 11 4 = 0 then some (single (regField w 7) (regField w 0)) else none
    else if field w 7 1 = 0 ∧ field w 11 4 = field w 7 4 + 1 then some (double (pairField w 8) (regField w 0))
    else none
  else none

/-- Words 0xDxxxxx: the shifts and the divides. -/
def decodeD (w : ProgWord) : Option Instr :=
  match field w 16 4 with
  | 0x0 => if field w 15 1 = 0 then decodeWsWd w .slWs else none
  | 0x1 => if field w 15 1 = 1 then decodeWsWd w .asrWs else decodeWsWd w .lsrWs
  | 0x4 => if field w 15 1 = 0 then some (.slF (sizeField w 14) (destField w) (bitsField w 0 13)) else none
  | 0x5 =>
    if field w 15 1 = 1 then some (.asrF (sizeField w 14) (destField w) (bitsField w 0 13))
    else some (.lsrF (sizeField w 14) (destField w) (bitsField w 0 13))
  | 0x8 => if field w 15 1 = 0 then decodeDiv w .divSW .divSD else decodeDiv w .divUW .divUD
  | 0xD => if field w 15 1 = 0 then decodeShiftN w .slLit .slWns else none
  | 0xE => if field w 15 1 = 1 then decodeShiftN w .asrLit .asrWns else decodeShiftN w .lsrLit .lsrWns
  | _ => none

/-- Words 0xFxxxxx: LNK, ULNK, DISI, PUSH.S, POP.S, PWRSAV, RESET. -/
def decodeF (w : ProgWord) : Option Instr :=
  match field w 16 4 with
  | 0xA =>
    if field w 14 2 = 0 ∧ field w 0 1 = 0 then some (.lnk (bitsField w 1 13))
    else if field w 0 16 = 0x8000 then some .ulnk
    else none
  | 0xC => if field w 14 2 = 0 then some (.disi (bitsField w 0 14)) else none
  | 0xE =>
    if field w 0 16 = 0xA000 then some .pushS
    else if field w 0 16 = 0x8000 then some .popS
    else if field w 1 15 = 0x2000 then some (.pwrsav (bitsField w 0 1))
    else if field w 0 16 = 0 then some .reset
    else none
  | _ => none

/-- The instruction whose first word is `w`, by its top four bits. `w2` is used by `CALL` and `GOTO` only. -/
def decodeFirst (w w2 : ProgWord) : Option Instr :=
  match field w 20 4 with
  | 0x0 => decode0 w w2
  | 0x2 => some (.movLit16 (bitsField w 4 16) (regField w 0))
  | 0x3 => decode3 w
  | 0x4 => decode4 w
  | 0x7 => decode7 w
  | 0x8 => decode8 w
  | 0x9 => decode9 w
  | 0xA => decodeA w
  | 0xB => decodeB w
  | 0xD => decodeD w
  | 0xF => decodeF w
  | _ => none

/-- `Decode` (R104): the instruction of the word `w`, followed in program memory by `w2`; total, and every other word is
rejected by name (R113). -/
def decode (w w2 : ProgWord) : Except DecodeError Instr :=
  if isTwoWord w && field w2 7 17 != 0 then .error (.malformedSecondWord w2)
  else
    match decodeFirst w w2 with
    | some i => .ok i
    | none => .error (.unknownWord w)

/-! ## The encoder -/

/-- The `B` bit (R105). -/
def Size.code : Size → Nat
  | .word => 0
  | .byte => 1

/-- The `D` bit (R105). -/
def Dest.code : Dest → Nat
  | .wreg => 0
  | .file => 1

/-- The code of an indirect mode (R107). -/
def PtrMode.code : PtrMode → Nat
  | .ind => 1
  | .postDec => 2
  | .postInc => 3
  | .preDec => 4
  | .preInc => 5

/-- The code of a mode (R107). -/
def Mode.code : Mode → Nat
  | .direct => 0
  | .ptr p => p.code

/-- The code of a `MOV Ws,Wd` mode (R107). -/
def MoveMode.code : MoveMode → Nat
  | .direct => 0
  | .ptr p => p.code
  | .offset6 => 6
  | .offset7 => 7

/-- Format FILE: op 23:15, B, D, f. -/
def encFile (op : Nat) (b : Size) (d : Dest) (f : BitVec 13) : Nat :=
  op * 2 ^ 15 + b.code * 2 ^ 14 + d.code * 2 ^ 13 + f.toNat

/-- Formats WS_WD and TBL: op 23:15, B, q, d, p, s. -/
def encWsWd (op : Nat) (b : Size) (q : Nat) (rd : Reg) (p : Nat) (rs : Reg) : Nat :=
  op * 2 ^ 15 + b.code * 2 ^ 14 + q * 2 ^ 11 + rd.val * 2 ^ 7 + p * 2 ^ 4 + rs.val

/-- Formats MOVSD and WB_WS_WD: op 23:19, w, B, h or q, d, g or p, s. -/
def encWbWsWd (op : Nat) (rb : Reg) (b : Size) (q : Nat) (rd : Reg) (p : Nat) (rs : Reg) : Nat :=
  op * 2 ^ 19 + rb.val * 2 ^ 15 + b.code * 2 ^ 14 + q * 2 ^ 11 + rd.val * 2 ^ 7 + p * 2 ^ 4 + rs.val

/-- Format MUL: op 23:15, w, d, p, s. -/
def encMul (op : Nat) (rb : Reg) (rd : MulPair) (p : Mode) (rs : Reg) : Nat :=
  op * 2 ^ 15 + rb.val * 2 ^ 11 + (2 * rd.val) * 2 ^ 7 + p.code * 2 ^ 4 + rs.val

/-- Format MUL_LIT5: op 23:15, w, d, 11, k. -/
def encMulLit (op : Nat) (rb : Reg) (rd : MulPair) (k : BitVec 5) : Nat :=
  op * 2 ^ 15 + rb.val * 2 ^ 11 + (2 * rd.val) * 2 ^ 7 + 3 * 2 ^ 5 + k.toNat

/-- Formats SHIFT_LIT4 and SHIFT_WNS: op 23:15, w, d, bits 6:4, k or s. -/
def encShiftN (op : Nat) (rb rd : Reg) (sel k : Nat) : Nat :=
  op * 2 ^ 15 + rb.val * 2 ^ 11 + rd.val * 2 ^ 7 + sel * 2 ^ 4 + k

/-- Format DIV: op 23:16, unsigned, t, v, double, 00, s. -/
def encDiv (unsigned t v double : Nat) (rn : Reg) : Nat :=
  0xD8 * 2 ^ 16 + unsigned * 2 ^ 15 + t * 2 ^ 11 + v * 2 ^ 7 + double * 2 ^ 6 + rn.val

/-- Formats OFF10_LD and OFF10_ST: op 23:19, k<9:6>, B, k<5:3>, d, k<2:0>, s. -/
def encOff10 (op : Nat) (b : Size) (k : BitVec 10) (rd rs : Reg) : Nat :=
  op * 2 ^ 19 + k.toNat / 64 * 2 ^ 15 + b.code * 2 ^ 14 + k.toNat / 8 % 8 * 2 ^ 11 + rd.val * 2 ^ 7 +
    k.toNat % 8 * 2 ^ 4 + rs.val

/-- Format LIT10: op 23:15, B, k, d. -/
def encLit10 (op : Nat) (b : Size) (k : BitVec 10) (rd : Reg) : Nat :=
  op * 2 ^ 15 + b.code * 2 ^ 14 + k.toNat * 2 ^ 4 + rd.val

/-- Format BIT_F: op 23:16, the bit of the byte 15:13, the byte address 12:0 (R110). -/
def encBitF (op : Nat) (j : BitVec 3) (f : BitVec 13) : Nat := op * 2 ^ 16 + j.toNat * 2 ^ 13 + f.toNat

/-- Format REL16: op 23:16, n. -/
def encRel (op : Nat) (n : BitVec 16) : Nat := op * 2 ^ 16 + n.toNat

/-- The first word of an instruction, as a number. -/
def encodeFirst : Instr → Nat
  | .movF b d f => encFile 0x17F b d f
  | .movWregF b f => encFile 0x16F b .file f
  | .movFWnd f rd => 0x10 * 2 ^ 19 + f.toNat * 2 ^ 4 + rd.val
  | .movWnsF f rs => 0x11 * 2 ^ 19 + f.toNat * 2 ^ 4 + rs.val
  | .movBLit8 k rd => 0xB3C * 2 ^ 12 + k.toNat * 2 ^ 4 + rd.val
  | .movLit16 k rd => 0x2 * 2 ^ 20 + k.toNat * 2 ^ 4 + rd.val
  | .movOffLd b k rd rs => encOff10 0x12 b k rd rs
  | .movOffSt b k rd rs => encOff10 0x13 b k rd rs
  | .movWsWd b rb h rd g rs => encWbWsWd 0x0F rb b h.code rd g.code rs
  | .movDLd rd p rs => 0xBE * 2 ^ 16 + rd.val * 2 ^ 8 + p.code * 2 ^ 4 + rs.val
  | .movDSt q rd rs => 0xBE * 2 ^ 16 + 2 * 2 ^ 14 + q.code * 2 ^ 11 + rd.val * 2 ^ 7 + rs.val * 2
  | .push rb g rs => encWbWsWd 0x0F rb .word 3 15 g.code rs
  | .pop rb h rd => encWbWsWd 0x0F rb .word h.code rd 4 15
  | .pushS => 0xFEA000
  | .popS => 0xFE8000
  | .lnk k => 0xFA * 2 ^ 16 + k.toNat * 2
  | .ulnk => 0xFA8000
  | .addF b d f => encFile 0x168 b d f
  | .addLit10 b k rd => encLit10 0x160 b k rd
  | .addLit5 b rb q rd k => 0x08 * 2 ^ 19 + rb.val * 2 ^ 15 + b.code * 2 ^ 14 + q.code * 2 ^ 11 + rd.val * 2 ^ 7 + 3 * 2 ^ 5 + k.toNat
  | .addWs b rb q rd p rs => encWbWsWd 0x08 rb b q.code rd p.code rs
  | .bsetF j f => encBitF 0xA8 j f
  | .bsetWs j b p rs => 0xA0 * 2 ^ 16 + j.toNat * 2 ^ 12 + b.code * 2 ^ 10 + p.code * 2 ^ 4 + rs.val
  | .btscF j f => encBitF 0xAF j f
  | .btscWs j p rs => 0xA7 * 2 ^ 16 + j.toNat * 2 ^ 12 + p.code * 2 ^ 4 + rs.val
  | .mulSS rb rd p rs => encMul 0x173 rb rd p rs
  | .mulSU rb rd p rs => encMul 0x172 rb rd p rs
  | .mulSULit rb rd k => encMulLit 0x172 rb rd k
  | .mulUS rb rd p rs => encMul 0x171 rb rd p rs
  | .mulUU rb rd p rs => encMul 0x170 rb rd p rs
  | .mulUULit rb rd k => encMulLit 0x170 rb rd k
  | .mulF b f => encFile 0x178 b .wreg f
  | .divSW rm rn => encDiv 0 0 rm.val 0 rn
  | .divSD rm rn => encDiv 0 (2 * rm.val + 1) (2 * rm.val) 1 rn
  | .divUW rm rn => encDiv 1 0 rm.val 0 rn
  | .divUD rm rn => encDiv 1 (2 * rm.val + 1) (2 * rm.val) 1 rn
  | .asrF b d f => encFile 0x1AB b d f
  | .asrWs b q rd p rs => encWsWd 0x1A3 b q.code rd p.code rs
  | .asrLit rb rd k => encShiftN 0x1BD rb rd 4 k.toNat
  | .asrWns rb rd rs => encShiftN 0x1BD rb rd 0 rs.val
  | .lsrF b d f => encFile 0x1AA b d f
  | .lsrWs b q rd p rs => encWsWd 0x1A2 b q.code rd p.code rs
  | .lsrLit rb rd k => encShiftN 0x1BC rb rd 4 k.toNat
  | .lsrWns rb rd rs => encShiftN 0x1BC rb rd 0 rs.val
  | .slF b d f => encFile 0x1A8 b d f
  | .slWs b q rd p rs => encWsWd 0x1A0 b q.code rd p.code rs
  | .slLit rb rd k => encShiftN 0x1BA rb rd 4 k.toNat
  | .slWns rb rd rs => encShiftN 0x1BA rb rd 0 rs.val
  | .bra n => encRel 0x37 n
  | .braOV n => encRel 0x30 n
  | .braC n => encRel 0x31 n
  | .braZ n => encRel 0x32 n
  | .braN n => encRel 0x33 n
  | .braLE n => encRel 0x34 n
  | .braLT n => encRel 0x35 n
  | .braLEU n => encRel 0x36 n
  | .braNOV n => encRel 0x38 n
  | .braNC n => encRel 0x39 n
  | .braNZ n => encRel 0x3A n
  | .braNN n => encRel 0x3B n
  | .braGT n => encRel 0x3C n
  | .braGE n => encRel 0x3D n
  | .braGTU n => encRel 0x3E n
  | .rcall n => encRel 0x07 n
  | .call t => 0x02 * 2 ^ 16 + t.toNat % 2 ^ 15 * 2
  | .goto t => 0x04 * 2 ^ 16 + t.toNat % 2 ^ 15 * 2
  | .ret => 0x060000
  | .retfie => 0x064000
  | .retlw b k rd => encLit10 0x00A b k rd
  | .repeatLit k => 0x09 * 2 ^ 16 + k.toNat
  | .repeatWn rs => 0x09800 * 2 ^ 4 + rs.val
  | .nop x => x.toNat
  | .disi k => 0xFC * 2 ^ 16 + k.toNat
  | .pwrsav k => 0xFE4000 + k.toNat
  | .reset => 0xFE0000
  | .tblrdl b q rd p rs => encWsWd 0x174 b q.code rd p.code rs
  | .tblrdh b q rd p rs => encWsWd 0x175 b q.code rd p.code rs
  | .tblwtl b q rd p rs => encWsWd 0x176 b q.code rd p.code rs
  | .tblwth b q rd p rs => encWsWd 0x177 b q.code rd p.code rs

/-- The words of an instruction, in program order (R100). -/
def encode (i : Instr) : List ProgWord :=
  match i with
  | .call t => [BitVec.ofNat 24 (encodeFirst (.call t)), BitVec.ofNat 24 (t.toNat / 2 ^ 15)]
  | .goto t => [BitVec.ofNat 24 (encodeFirst (.goto t)), BitVec.ofNat 24 (t.toNat / 2 ^ 15)]
  | i => [BitVec.ofNat 24 (encodeFirst i)]

/-- The instruction the decoder reads from the words laid out in `w`: the first in bits 23:0, the second in bits 47:24. Bits
at and above `nbits` are 0. -/
def decodeTableWord (nbits w : Nat) : Option Instr :=
  let v := w % 2 ^ nbits
  (decode (BitVec.ofNat 24 v) (BitVec.ofNat 24 (v / 2 ^ 24))).toOption

end Sys2Proof
end

