-- ==== Sys2Proof/Machine/Fetch.lean ====
section
/-! DEFINITION. Fetching and decoding the instruction at the PC (30_encoding.md R100, R104; 20_memory.md R84), and storing one
there. -/

namespace Sys2Proof.Machine

/-- The decoder's answer as a step sees it (R113, R234). -/
def decodeRes (w w2 : ProgWord) : Res Instr :=
  match decode w w2 with
  | .ok i => .ok i
  | .error (.unknownWord x) => .error (.refuse (.unknownWord x))
  | .error (.malformedSecondWord x) => .error (.refuse (.malformedSecondWord x))

/-- The instruction at the PC. A fetch outside PROG_IMPL, and any fetch after the PC left its range, is a fault (R33, R84).
The second word is read for `CALL` and `GOTO` only; neither may be the target of an active loop (R257). -/
def fetch (s : State) : Res Instr :=
  if s.pcOut then .error (.fault .pcRange)
  else
    match s.progWord s.pc.toNat with
    | none => .error (.fault (.fetch s.pc.toNat))
    | some w =>
      if isTwoWord w then
        if s.sr.ra then .error (.refuse .invalidRepeatTarget)
        else
          match s.progWord (s.pc.toNat + 2) with
          | none => .error (.fault (.fetch (s.pc.toNat + 2)))
          | some w2 => decodeRes w w2
      else decodeRes w 0

/-- The words of an instruction put at the PC, the CPU running and nothing pending, so that the next step runs it. A second word
above the last program address does not exist. -/
def placeWords (w w2 : ProgWord) (s : State) : State :=
  let s1 := s.loadProgWord s.pc.toNat w
  let s2 := if s.pc.toNat + 2 ≤ 0x7FFFFE then s1.loadProgWord (s.pc.toNat + 2) w2 else s1
  { s2 with pcOut := false, power := .running, pendingTraps := .none, pending := [] }

end Sys2Proof.Machine
end

