-- ==== Sys2Proof/Machine/Origin.lean ====
section
/-! DEFINITION. Where the frame that an exception stacked for an interrupted loop stands, as instructions move its bytes: "the
stacked RA bit will be restored when the SRL register is popped, and if set, the interrupted REPEAT loop will be resumed"
(45_flow.md R236, 46_repeat.md R254). The model's bookkeeping (log 26). -/

namespace Sys2Proof.Machine

/-- The first `n` bytes of a register and of the register after it. -/
def regBytes (n : Nat) (r : Reg) : List (Option ByteLoc) :=
  [some (.reg r false), some (.reg r true), some (.reg (nextReg r) false), some (.reg (nextReg r) true)].take n

/-- The `n` bytes from data address `a` on (R71). -/
def memBytes (n : Nat) (a : Word) (s : State) : List (Option ByteLoc) :=
  (List.range n).map fun k => byteLoc s (a + BitVec.ofNat 16 k)

/-- The `n` bytes of an operand. -/
def operandBytes (n : Nat) (o : Operand) (s : State) : List (Option ByteLoc) :=
  match o.addr n s with
  | some a => memBytes n (trunc16 a) s
  | none => o.direct.flatMap (regBytes n)

/-- The bytes of the destination `{,WREG}` (R105). -/
def fileBytes (b : Size) (d : Dest) (f : BitVec 13) (s : State) : List (Option ByteLoc) :=
  match d with
  | .wreg => regBytes (sizeBytes b) 0
  | .file => memBytes (sizeBytes b) (fileAddr f) s

/-- The bytes of W0s to W3s. -/
def shadowBytes : List (Option ByteLoc) :=
  (List.finRange 4).flatMap fun k => [some (.shadow k false), some (.shadow k true)]

/-- Each byte of `dst` written with the byte of `src` at the same place, `none` being a byte from elsewhere. -/
def carried (dst src : List (Option ByteLoc)) : List (ByteLoc × Option ByteLoc) :=
  (dst.zip src).filterMap fun x => x.1.map (·, x.2)

/-- Each byte of `dst` written with one that is built anew. -/
def anew (dst : List (Option ByteLoc)) : List (ByteLoc × Option ByteLoc) := dst.filterMap fun x => x.map (·, none)

/-- The bytes of a shift by `k`: a shift by 0 or 8 moves whole bytes. -/
def shiftCopies (left : Bool) (k : Nat) (rb rd : Reg) : List (ByteLoc × Option ByteLoc) :=
  carried (regBytes 2 rd) <|
    if k = 0 then regBytes 2 rb
    else if k = 8 then if left then none :: regBytes 1 rb else (regBytes 2 rb).drop 1 ++ [none]
    else [none, none]

/-- Which bytes `i` carries where, in the state it begins in: (destination, source). The moves carry bytes as they are, an
addition and `BSET` change them in their place, and a shift by 8 moves them to the other half; what else an instruction writes is
built anew. -/
def byteCopies (i : Instr) (s : State) : List (ByteLoc × Option ByteLoc) :=
  match i with
  | .movF b d f => carried (fileBytes b d f s) (memBytes (sizeBytes b) (fileAddr f) s)
  | .movWregF b f => carried (memBytes (sizeBytes b) (fileAddr f) s) (regBytes (sizeBytes b) 0)
  | .movFWnd f rd => carried (regBytes 2 rd) (memBytes 2 (directAddr f) s)
  | .movWnsF f rs => carried (memBytes 2 (directAddr f) s) (regBytes 2 rs)
  | .movBLit8 _ rd => anew (regBytes 1 rd)
  | .movLit16 _ rd => anew (regBytes 2 rd)
  | .movOffLd b k rd rs =>
    carried (regBytes (sizeBytes b) rd) (memBytes (sizeBytes b) (trunc16 ((s.reg rs).toNat + slit10Offset b k)) s)
  | .movOffSt b k rd rs =>
    carried (memBytes (sizeBytes b) (trunc16 ((s.reg rd).toNat + slit10Offset b k)) s) (regBytes (sizeBytes b) rs)
  | .movWsWd b rb h rd g rs =>
    carried (operandBytes (sizeBytes b) (moveOperand h rd rb) s) (operandBytes (sizeBytes b) (moveOperand g rs rb) s)
  | .movDLd rd p rs => carried (regBytes 4 (pairLow rd)) (operandBytes 4 (modeOperand p rs) s)
  | .movDSt q rd rs => carried (operandBytes 4 (modeOperand q rd) s) (regBytes 4 (pairLow rs))
  | .push rb g rs => carried (operandBytes 2 (.ptr .postInc 15) s) (operandBytes 2 (moveOperand g rs rb) s)
  | .pop rb h rd => carried (operandBytes 2 (moveOperand h rd rb) s) (operandBytes 2 (.ptr .preDec 15) s)
  | .pushS => carried shadowBytes (regBytes 4 0 ++ regBytes 4 2)
  | .popS => carried (regBytes 4 0 ++ regBytes 4 2) shadowBytes
  | .lnk _ => carried (memBytes 2 (s.reg 15) s) (regBytes 2 14) ++ anew (regBytes 2 14)
  | .ulnk => carried (regBytes 2 14) (memBytes 2 ((s.reg 14 &&& 0xFFFE) - 2) s)
  | .addF b d f =>
    carried (fileBytes b d f s) (memBytes (sizeBytes b) (fileAddr f) s) ++
      carried (fileBytes b d f s) (regBytes (sizeBytes b) 0)
  | .addLit10 b _ rd => carried (regBytes (sizeBytes b) rd) (regBytes (sizeBytes b) rd)
  | .addLit5 b rb q rd _ => carried (operandBytes (sizeBytes b) (modeOperand q rd) s) (regBytes (sizeBytes b) rb)
  | .addWs b rb q rd p rs =>
    carried (operandBytes (sizeBytes b) (modeOperand q rd) s) (operandBytes (sizeBytes b) (modeOperand p rs) s) ++
      carried (operandBytes (sizeBytes b) (modeOperand q rd) s) (regBytes (sizeBytes b) rb)
  | .bsetF _ f => carried (memBytes 1 (fileAddr f) s) (memBytes 1 (fileAddr f) s)
  | .bsetWs _ b p rs =>
    carried (operandBytes (sizeBytes b) (modeOperand p rs) s) (operandBytes (sizeBytes b) (modeOperand p rs) s)
  | .asrLit rb rd k => shiftCopies false k.toNat rb rd
  | .asrWns rb rd rs => shiftCopies false (s.reg rs).toNat rb rd
  | .lsrLit rb rd k => shiftCopies false k.toNat rb rd
  | .lsrWns rb rd rs => shiftCopies false (s.reg rs).toNat rb rd
  | .slLit rb rd k => shiftCopies true k.toNat rb rd
  | .slWns rb rd rs => shiftCopies true (s.reg rs).toNat rb rd
  | .asrF b d f => anew (fileBytes b d f s)
  | .lsrF b d f => anew (fileBytes b d f s)
  | .slF b d f => anew (fileBytes b d f s)
  | .asrWs b q rd _ _ => anew (operandBytes (sizeBytes b) (modeOperand q rd) s)
  | .lsrWs b q rd _ _ => anew (operandBytes (sizeBytes b) (modeOperand q rd) s)
  | .slWs b q rd _ _ => anew (operandBytes (sizeBytes b) (modeOperand q rd) s)
  | .tblrdl b q rd _ _ => anew (operandBytes (sizeBytes b) (modeOperand q rd) s)
  | .tblrdh b q rd _ _ => anew (operandBytes (sizeBytes b) (modeOperand q rd) s)
  | .mulSS _ rd _ _ => anew (regBytes 4 (pairLow (pairOfMul rd)))
  | .mulSU _ rd _ _ => anew (regBytes 4 (pairLow (pairOfMul rd)))
  | .mulSULit _ rd _ => anew (regBytes 4 (pairLow (pairOfMul rd)))
  | .mulUS _ rd _ _ => anew (regBytes 4 (pairLow (pairOfMul rd)))
  | .mulUU _ rd _ _ => anew (regBytes 4 (pairLow (pairOfMul rd)))
  | .mulUULit _ rd _ => anew (regBytes 4 (pairLow (pairOfMul rd)))
  | .mulF .word _ => anew (regBytes 4 2)
  | .mulF .byte _ => anew (regBytes 2 2)
  | .divSW .. | .divSD .. | .divUW .. | .divUD .. => anew (regBytes 4 0)
  | .retlw b _ rd => anew (regBytes (sizeBytes b) rd)
  | .btscF .. | .btscWs .. | .bra _ | .braOV _ | .braC _ | .braZ _ | .braN _ | .braLE _ | .braLT _ | .braLEU _
  | .braNOV _ | .braNC _ | .braNZ _ | .braNN _ | .braGT _ | .braGE _ | .braGTU _ | .rcall _ | .call _ | .goto _ | .ret
  | .retfie | .repeatLit _ | .repeatWn _ | .nop _ | .disi _ | .pwrsav _ | .reset | .tblwtl .. | .tblwth .. => []

/-- W0s to W3s (R56). -/
def shadowReg (h : Shadow) (k : Fin 4) : Word := #v[h.w0, h.w1, h.w2, h.w3][k]

/-- The half of a word. -/
def half (high : Bool) (v : Word) : Byte := if high then highByte v else lowByte v

/-- The byte no longer stands in its place after a step from `s` to `t`: RAM was stored to there, or the half of the register
changed. -/
def overwritten (s t : State) (x : ByteLoc) : Bool :=
  match x with
  | .reg r high => half high (s.reg r) != half high (t.reg r)
  | .shadow k high => half high (shadowReg s.shadow k) != half high (shadowReg t.shadow k)
  | .ram a => t.notes.stores.any fun y => decide (y.1.toNat ≤ a) && decide (a < y.1.toNat + y.2)

/-- An interrupted loop, W15 being `sp` at the end of a step: its frame is popped or dropped where W15 has come into it. -/
def Suspended.offStack (sp : Word) (x : Suspended) : Suspended :=
  { x with stacked := x.stacked && !(decide (x.frame.toNat ≤ sp.toNat) && decide (sp.toNat < x.frame.toNat + 4)) }

/-- The divider after a step from `s` to `t` that carried the bytes `copies` (log 26). -/
def Divider.traced (copies : List (ByteLoc × Option ByteLoc)) (s t : State) (d : Divider) : Divider :=
  { d with
    suspended := d.suspended.map (Suspended.offStack (t.reg 15))
    origins :=
      (copies.filterMap fun x => (x.2.bind d.originOf).map (x.1, ·)) ++
        d.origins.filter fun y => !(copies.any fun x => x.1 == y.1) && !overwritten s t y.1 }

end Sys2Proof.Machine
end

