-- ==== Sys2Proof/Machine/Cycle.lean ====
section
/-! DEFINITION. One step of the CPU: the boundary at which exceptions are accepted (60_exceptions.md R303), one instruction or one
iteration of a `REPEAT` target (46_repeat.md R252), and the wait after `PWRSAV` (47_system.md R269). -/

namespace Sys2Proof.Machine

/-- The end of a step whose instruction `i` took `s` to `t`: the loop mechanism (R252), the count-down of DISICNT (R268),
SplimJustWritten (R340), and where the frames of interrupted loops now stand (log 26). A device reset performed instead
of the instruction ends the step by itself. -/
def endStep (i : Instr) (s t : State) : Outcome :=
  if t.notes.didReset then .next { t with notes := .empty }
  else if s.sr.ra && t.notes.wroteLoop then .refused .repeatTargetWrites
  else
    let u := countDown (stepCyclesMax i t) (loopUpdate s t)
    .next { u with
      splimJustWritten := t.notes.wroteSplim
      divider := t.divider.traced (byteCopies i s) s t
      notes := .empty }

/-- The instruction `i` run as one step (R252). -/
def runInstr (i : Instr) (s : State) : Outcome :=
  if s.sr.ra && !mayRepeat i then .refused .invalidRepeatTarget
  else
    match exec i s with
    | .next t => endStep i s t
    | .fault f => .fault f
    | .refused r => .refused r

/-- `StepInstruction()` (R252). -/
def stepInstruction (s : State) : Outcome :=
  match fetch s with
  | .error e => finish s (.error e)
  | .ok i => runInstr i s

/-- The request of higher priority; at equal priority the lower source number (R308; log 11). -/
def betterRequest (x y : Request) : Request :=
  if x.priority.toNat < y.priority.toNat then y
  else if y.priority.toNat < x.priority.toNat then x
  else if y.source < x.source then y
  else x

/-- The request of `Pending` that is considered first (R303, R308). -/
def bestRequest : List Request → Option Request
  | [] => none
  | x :: l =>
    match bestRequest l with
    | none => some x
    | some y => some (betterRequest x y)

/-- A request of priority `p` is accepted now (R303, R304). -/
def accepts (s : State) (p : BitVec 3) : Bool :=
  decide (cpuIpl s < p.toNat) && !(s.disicnt != 0 && decide (p.toNat ≤ 6))

/-- `Boundary()` (R303). A PC out of range faults here already (log 30). -/
def boundary (s : State) : Outcome :=
  if s.pcOut then .fault .pcRange
  else
    match s.pendingTraps.highest with
    | some t => finish s (enter (.trap t) 0 s)
    | none =>
      match bestRequest s.pending with
      | none => stepInstruction s
      | some r =>
        if accepts s r.priority then finish s (enter (.interrupt r.source) r.priority s) else stepInstruction s

/-- Something is pending that wakes a halted CPU (R269). -/
def wakes (s : State) : Bool := !s.pending.isEmpty || s.pendingTraps.highest.isSome

/-- A step of the CPU; halted, it waits for a wake-up (R269; log 31). -/
def cpuStep (s : State) : Outcome :=
  match s.power with
  | .running => boundary s
  | .sleep => if wakes s then boundary { s with power := .running } else .next s
  | .idle => if wakes s then boundary { s with power := .running } else .next s

end Sys2Proof.Machine
end

