-- ==== Sys2Proof/Machine/Step.lean ====
section
/-! DEFINITION. The step of the machine, and the placing of one instruction where it fetches next. -/

namespace Sys2Proof.Machine

/-- One step of the machine (00_scope.md R9). -/
def step (s : State) : Outcome := cpuStep s

/-- `s` with the instruction whose words are laid out in `w` stored where `step` fetches its next instruction: it stands for the
load of a program (log 9). -/
def State.withFetchWord (s : State) (nbits w : Nat) : State :=
  placeWords (BitVec.ofNat 24 (w % 2 ^ nbits)) (BitVec.ofNat 24 (w % 2 ^ nbits / 2 ^ 24)) s

end Sys2Proof.Machine
end

