-- ==== Sys2Proof/Machine/Environment.lean ====
section
/-! DEFINITION. What the outside can do to the machine between two steps (00_scope.md R9; 60_exceptions.md R301, R302;
70_reset_and_hazards.md R331; log 11). -/

namespace Sys2Proof.Machine

/-- An event of the environment. -/
inductive Event where
  /-- the enabled and asserted interrupt requests are now these (R302) -/
  | setPending (l : List Request)
  /-- a platform puts a trap condition into PendingTraps (R302) -/
  | raiseTrap (t : Trap)
  /-- INTCON1.NSTDIS changes (R40) -/
  | setNstdis (v : Bool)
  /-- a reset from outside the core (R331) -/
  | deviceReset (c : ResetCause)
  /-- a wake-up that is no request, such as a watchdog time-out (R269) -/
  | wake
  deriving DecidableEq, Repr

/-- The state after an event. Only the device's N_IRQ sources can request (R302). -/
def State.apply (e : Event) (s : State) : State :=
  match e with
  | .setPending l => { s with pending := (l.filter fun r => decide (r.source < s.device.nIrq)).eraseDups }
  | .raiseTrap t => s.raise t
  | .setNstdis v => { s with nstdis := v }
  | .deviceReset c => { deviceReset c s with notes := .empty }
  | .wake => { s with power := .running }

end Sys2Proof.Machine
end

