-- ==== Sys2Proof/Safety.lean ====
section
/-! DEFINITION. The terms the claims are stated in: the invariant, what each instruction may change, when an operand can be read
or written, and what a destination holds afterwards. -/

namespace Sys2Proof.Machine

/-! ## The invariant -/

/-- What holds of every state a run reaches: the hard-wired zero bits (10_state.md R26, R30, R50), both memories in canonical
form, and no notes between steps. -/
structure Inv (s : State) : Prop where
  /-- W15<0> is fixed to 0 (R26) -/
  w15_even : (s.reg 15).getLsbD 0 = false
  /-- SPLIM<0> is fixed to 0 (R50) -/
  splim_even : s.splim.getLsbD 0 = false
  /-- PC<0> is always 0 (R30) -/
  pc_even : s.pc.getLsbD 0 = false
  ram_wf : Memory.wf s.device.ramEnd s.ram
  prog_wf : Program.wf s.prog
  notes_empty : s.notes = .empty

/-! ## Families -/

/-- The families of the opcode table: the section files 40 to 47. -/
inductive Family where
  | move | stack | alu | multiply | divide | shift | flow | loop | system | table
  deriving DecidableEq, Repr

/-- The family of an instruction. -/
def familyOf : Instr → Family
  | .movF .. | .movWregF .. | .movFWnd .. | .movWnsF .. | .movBLit8 .. | .movLit16 .. | .movOffLd .. | .movOffSt ..
  | .movWsWd .. | .movDLd .. | .movDSt .. => .move
  | .push .. | .pop .. | .pushS | .popS | .lnk _ | .ulnk => .stack
  | .addF .. | .addLit10 .. | .addLit5 .. | .addWs .. | .bsetF .. | .bsetWs .. | .btscF .. | .btscWs .. => .alu
  | .mulSS .. | .mulSU .. | .mulSULit .. | .mulUS .. | .mulUU .. | .mulUULit .. | .mulF .. => .multiply
  | .divSW .. | .divSD .. | .divUW .. | .divUD .. => .divide
  | .asrF .. | .asrWs .. | .asrLit .. | .asrWns .. | .lsrF .. | .lsrWs .. | .lsrLit .. | .lsrWns .. | .slF ..
  | .slWs .. | .slLit .. | .slWns .. => .shift
  | .bra _ | .braOV _ | .braC _ | .braZ _ | .braN _ | .braLE _ | .braLT _ | .braLEU _ | .braNOV _ | .braNC _
  | .braNZ _ | .braNN _ | .braGT _ | .braGE _ | .braGTU _ | .rcall _ | .call _ | .goto _ | .ret | .retfie
  | .retlw .. => .flow
  | .repeatLit _ | .repeatWn _ => .loop
  | .nop _ | .disi _ | .pwrsav _ | .reset => .system
  | .tblrdl .. | .tblrdh .. | .tblwtl .. | .tblwth .. => .table

/-! ## Operands, seen from the state an instruction begins in -/

/-- The address is formed from W15, so it is checked (60_exceptions.md R300). -/
def Operand.usesStack : Operand → Bool
  | .reg _ => false
  | .ptr _ r => r == 15
  | .offset r _ => r == 15

/-- The registers an operand's addressing mode modifies. -/
def Operand.moved (o : Operand) : List Reg := o.modified.toList

/-- The store that a destination operand makes, if it is in memory. -/
def Operand.store (b : Size) (o : Operand) (s : State) : List (Size × Word) :=
  match o.addr (sizeBytes b) s with
  | none => []
  | some a => [(b, trunc16 a)]

/-! ## What an instruction may change -/

/-- Bits of SR that an instruction writes. -/
structure SrMask where
  dc : Bool := false
  ipl : Bool := false
  ra : Bool := false
  n : Bool := false
  ov : Bool := false
  z : Bool := false
  c : Bool := false
  deriving DecidableEq, Repr

/-- State besides W registers, SR and memory that an instruction changes by its own rule. -/
inductive Special where
  | ipl3 | rcount | disicnt | shadow | power | divider | stackError | arithmeticError
  deriving DecidableEq, Repr

/-- What an instruction may change, the PC apart. -/
structure Effect where
  /-- destination registers, and registers the addressing modes modify -/
  regs : List Reg := []
  /-- the data stores: size and address -/
  stores : List (Size × Word) := []
  sr : SrMask := {}
  own : List Special := []
  deriving DecidableEq, Repr

/-- `StackError` can be raised, where an address is formed from W15. -/
def stackOwn (hit : Bool) : List Special := if hit then [.stackError] else []

/-- The effect of an instruction with a source and a destination operand. -/
def operandEffect (b : Size) (src dst : Operand) (sr : SrMask) (s : State) : Effect :=
  { regs := src.moved ++ dst.moved ++ dst.direct
    stores := dst.store b s
    sr := sr
    own := stackOwn (src.usesStack || dst.usesStack) }

/-- The effect of a file register instruction with the destination select `D`. -/
def fileEffect (b : Size) (d : Dest) (f : BitVec 13) (sr : SrMask) : Effect :=
  match d with
  | .wreg => { regs := [0], sr := sr }
  | .file => { stores := [(b, fileAddr f)], sr := sr }

/-- The stores of two pushes, the first of which pushes `v`. The second lies where the first leaves W15. -/
def pushStores (v : Word) (s : State) : List (Size × Word) :=
  (.word, s.reg 15) ::
    match push16 v s with
    | .ok s1 => [(.word, s1.reg 15)]
    | .error _ => []

/-- The bits of SR that an addition writes (42_alu_bit.md R165). -/
def addMask : SrMask := { dc := true, n := true, ov := true, z := true, c := true }
/-- The bits of SR that a single-bit shift writes (44_shift.md R200). -/
def shiftMask : SrMask := { n := true, ov := true, z := true, c := true }
/-- The bits of SR that a multi-bit shift or `MOV f` writes (44_shift.md R200, 40_move.md R130). -/
def nzMask : SrMask := { n := true, z := true }

/-- The effect of a multiply by an operand (43_muldiv.md R181). -/
def mulEffect (d : MulPair) (src : Operand) : Effect :=
  { regs := pairLow (pairOfMul d) :: pairHigh (pairOfMul d) :: src.moved, own := stackOwn src.usesStack }

/-- The effect of a divide iteration (43_muldiv.md R188, R192, R194). -/
def divEffect : Effect := { regs := [0, 1], sr := shiftMask, own := [.divider, .arithmeticError] }

/-- What an instruction may change, in the state it begins in: the rule of each (files 40 to 47). -/
def effectOf (i : Instr) (s : State) : Effect :=
  match i with
  | .movF b d f => fileEffect b d f nzMask
  | .movWregF b f => { stores := [(b, fileAddr f)] }
  | .movFWnd _ rd => { regs := [rd] }
  | .movWnsF f _ => { stores := [(.word, directAddr f)] }
  | .movBLit8 _ rd => { regs := [rd] }
  | .movLit16 _ rd => { regs := [rd] }
  | .movOffLd _ _ rd rs => { regs := [rd], own := stackOwn (rs == 15) }
  | .movOffSt b k rd _ =>
    { stores := [(b, trunc16 ((s.reg rd).toNat + slit10Offset b k))], own := stackOwn (rd == 15) }
  | .movWsWd b rb h rd g rs => operandEffect b (moveOperand g rs rb) (moveOperand h rd rb) {} s
  | .movDLd rd p rs =>
    { regs := pairLow rd :: pairHigh rd :: (modeOperand p rs).moved, own := stackOwn (modeOperand p rs).usesStack }
  | .movDSt q rd _ =>
    match (modeOperand q rd).addr 4 s with
    | none => { regs := [rd, nextReg rd] }
    | some a =>
      { regs := (modeOperand q rd).moved
        stores := [(.word, trunc16 a), (.word, trunc16 (a + 2))]
        own := stackOwn (modeOperand q rd).usesStack }
  | .push rb g rs => operandEffect .word (moveOperand g rs rb) (.ptr .postInc 15) {} s
  | .pop rb h rd => operandEffect .word (.ptr .preDec 15) (moveOperand h rd rb) {} s
  | .pushS => { own := [.shadow] }
  | .popS => { regs := [0, 1, 2, 3], sr := addMask }
  | .lnk _ => { regs := [14, 15], stores := [(.word, s.reg 15)], own := [.stackError] }
  | .ulnk => { regs := [14, 15], own := [.stackError] }
  | .addF b d f => fileEffect b d f addMask
  | .addLit10 _ _ rd => { regs := [rd], sr := addMask }
  | .addLit5 b rb q rd _ => operandEffect b (.reg rb) (modeOperand q rd) addMask s
  | .addWs b _ q rd p rs => operandEffect b (modeOperand p rs) (modeOperand q rd) addMask s
  | .bsetF _ f => { stores := [(.byte, fileAddr f)] }
  | .bsetWs _ b p rs => operandEffect b (.reg rs) (modeOperand p rs) {} s
  | .btscF _ _ => {}
  | .btscWs _ p rs => { regs := (modeOperand p rs).moved, own := stackOwn (modeOperand p rs).usesStack }
  | .mulSS _ rd p rs => mulEffect rd (modeOperand p rs)
  | .mulSU _ rd p rs => mulEffect rd (modeOperand p rs)
  | .mulSULit rb rd _ => mulEffect rd (.reg rb)
  | .mulUS _ rd p rs => mulEffect rd (modeOperand p rs)
  | .mulUU _ rd p rs => mulEffect rd (modeOperand p rs)
  | .mulUULit rb rd _ => mulEffect rd (.reg rb)
  | .mulF b _ => { regs := match b with
      | .word => [2, 3]
      | .byte => [2] }
  | .divSW _ _ => divEffect
  | .divSD _ _ => divEffect
  | .divUW _ _ => divEffect
  | .divUD _ _ => divEffect
  | .asrF b d f => fileEffect b d f shiftMask
  | .asrWs b q rd p rs => operandEffect b (modeOperand p rs) (modeOperand q rd) shiftMask s
  | .asrLit _ rd _ => { regs := [rd], sr := nzMask }
  | .asrWns _ rd _ => { regs := [rd], sr := nzMask }
  | .lsrF b d f => fileEffect b d f shiftMask
  | .lsrWs b q rd p rs => operandEffect b (modeOperand p rs) (modeOperand q rd) shiftMask s
  | .lsrLit _ rd _ => { regs := [rd], sr := nzMask }
  | .lsrWns _ rd _ => { regs := [rd], sr := nzMask }
  | .slF b d f => fileEffect b d f shiftMask
  | .slWs b q rd p rs => operandEffect b (modeOperand p rs) (modeOperand q rd) shiftMask s
  | .slLit _ rd _ => { regs := [rd], sr := nzMask }
  | .slWns _ rd _ => { regs := [rd], sr := nzMask }
  | .bra _ | .braOV _ | .braC _ | .braZ _ | .braN _ | .braLE _ | .braLT _ | .braLEU _ | .braNOV _ | .braNC _
  | .braNZ _ | .braNN _ | .braGT _ | .braGE _ | .braGTU _ | .goto _ => {}
  | .rcall _ => { regs := [15], stores := pushStores (pcLow (returnAddr s 2)) s, own := [.stackError] }
  | .call _ => { regs := [15], stores := pushStores (pcLow (returnAddr s 4)) s, own := [.stackError] }
  | .ret => { regs := [15], own := [.stackError] }
  | .retfie =>
    { regs := [15], sr := { ipl := true, ra := true, n := true, ov := true, z := true, c := true }
      own := [.ipl3, .divider, .stackError] }
  | .retlw _ _ rd => { regs := [15, rd], own := [.stackError] }
  | .repeatLit _ => { sr := { ra := true }, own := [.rcount, .divider] }
  | .repeatWn _ => { sr := { ra := true }, own := [.rcount, .divider] }
  | .nop _ => {}
  | .disi _ => { own := [.disicnt] }
  | .pwrsav _ => { own := [.power] }
  | .reset => {}
  | .tblrdl b q rd p rs => operandEffect b (.ptr p rs) (modeOperand q rd) {} s
  | .tblrdh b q rd p rs => operandEffect b (.ptr p rs) (modeOperand q rd) {} s
  | .tblwtl .. | .tblwth .. => {}

/-- One of the stores reaches a core register, at its data address in SFR_ADDR (10_state.md R23). -/
def Effect.hits (e : Effect) (m : SfrMap) (c : CoreReg) : Bool := e.stores.any fun x => coreRegAt m x.2 == some c

/-- One of the stores writes the byte at address `n`. -/
def Effect.storesByte (e : Effect) (n : Nat) : Bool :=
  e.stores.any fun x => decide (x.2.toNat ≤ n) && decide (n < x.2.toNat + sizeBytes x.1)

/-- The bits of SR outside the mask are unchanged. -/
def SrKept (m : SrMask) (r q : Sr) : Prop :=
  (m.dc = false → q.dc = r.dc) ∧ (m.ipl = false → q.ipl = r.ipl) ∧ (m.ra = false → q.ra = r.ra) ∧
  (m.n = false → q.n = r.n) ∧ (m.ov = false → q.ov = r.ov) ∧ (m.z = false → q.z = r.z) ∧ (m.c = false → q.c = r.c)

/-- The W registers outside the effect, and whether they are initialised, are unchanged. -/
def RegsKept (e : Effect) (s t : State) : Prop :=
  ∀ r, r ∉ e.regs → e.hits s.device.sfr (.w r) = false → t.reg r = s.reg r ∧ t.initialised r = s.initialised r

/-- The special registers outside the effect are unchanged. -/
def SpecialsKept (e : Effect) (s t : State) : Prop :=
  (e.hits s.device.sfr .sr = false → SrKept e.sr s.sr t.sr) ∧
  (e.hits s.device.sfr .corcon = false → t.corcon.psv = s.corcon.psv ∧ (.ipl3 ∉ e.own → t.corcon.ipl3 = s.corcon.ipl3)) ∧
  (e.hits s.device.sfr .splim = false → t.splim = s.splim ∧ t.splimEn = s.splimEn) ∧
  (e.hits s.device.sfr .tblpag = false → t.tblpag = s.tblpag) ∧
  (e.hits s.device.sfr .psvpag = false → t.psvpag = s.psvpag) ∧
  (e.hits s.device.sfr .rcount = false → .rcount ∉ e.own → t.rcount = s.rcount) ∧
  (e.hits s.device.sfr .disicnt = false → .disicnt ∉ e.own → t.disicnt = s.disicnt) ∧
  (.shadow ∉ e.own → t.shadow = s.shadow)

/-- What holds exceptions, power and the divider is unchanged outside the effect; a raised trap stays raised. -/
def EventsKept (e : Effect) (s t : State) : Prop :=
  (.power ∉ e.own → t.power = s.power) ∧
  (.divider ∉ e.own → t.divider = s.divider) ∧
  (.stackError ∉ e.own → t.pendingTraps.stackError = s.pendingTraps.stackError) ∧
  (.arithmeticError ∉ e.own → t.pendingTraps.arithmeticError = s.pendingTraps.arithmeticError) ∧
  (s.pendingTraps.stackError = true → t.pendingTraps.stackError = true) ∧
  (s.pendingTraps.arithmeticError = true → t.pendingTraps.arithmeticError = true) ∧
  t.pendingTraps.oscillatorFailure = s.pendingTraps.oscillatorFailure ∧
  t.pendingTraps.addressError = s.pendingTraps.addressError ∧
  t.splimJustWritten = s.splimJustWritten ∧ t.pending = s.pending ∧ t.nstdis = s.nstdis

/-- Memory outside the stores is unchanged: RAM byte by byte, program memory, and the record of peripheral writes. -/
def MemoryKept (e : Effect) (s t : State) : Prop :=
  (∀ n, e.storesByte n = false → t.ramByte n = s.ramByte n) ∧
  ((∀ x ∈ e.stores, regionOf s x.1 x.2 ≠ .peripheral) → t.periphWrites = s.periphWrites) ∧
  t.prog = s.prog ∧ t.device = s.device

/-- `t` differs from `s` in the effect only, the PC apart. -/
def Frame (e : Effect) (s t : State) : Prop :=
  RegsKept e s t ∧ SpecialsKept e s t ∧ EventsKept e s t ∧ MemoryKept e s t

/-- The instruction ran: no device reset was performed instead of it (60_exceptions.md R299). -/
def Ran (t : State) : Prop := t.notes.didReset = false

/-! ## When an access completes -/

/-- A data read at `a` has an answer (20_memory.md R72, R74, R75, R79). -/
def readable (s : State) (b : Size) (a : Word) : Bool :=
  !misaligned b a &&
    match regionOf s b a with
    | .core .pcl | .core .pch => false
    | .core _ => true
    | .psv | .ram | .peripheral => true
    | .unimplemented => false

/-- A data write at `a` has an effect (20_memory.md R73, R74, R76, R79, R82). -/
def writable (s : State) (b : Size) (a : Word) : Bool :=
  !misaligned b a &&
    match regionOf s b a with
    | .core .pcl | .core .pch => false
    | .core _ => true
    | .ram | .peripheral => true
    | .psv | .unimplemented => false

/-- The word at `a` is RAM, and aligned. -/
def ramWord (s : State) (a : Word) : Bool := !isOdd a && regionOf s .word a == .ram

/-- The registers that form the operand's address are initialised (10_state.md R28). -/
def Operand.initialised (o : Operand) (s : State) : Bool :=
  match o with
  | .reg _ => true
  | .ptr _ r => s.initialised r
  | .offset r b => s.initialised r && s.initialised b

/-- The operand can be read in `s`. -/
def sourceReady (b : Size) (o : Operand) (s : State) : Bool :=
  o.initialised s && !byteModifiesW15 (sizeBytes b) o &&
    match o.addr (sizeBytes b) s with
    | none => true
    | some a => readable s b (trunc16 a)

/-- The operand can be written in `s`. -/
def destReady (b : Size) (o : Operand) (s : State) : Bool :=
  o.initialised s && !byteModifiesW15 (sizeBytes b) o &&
    match o.addr (sizeBytes b) s with
    | none => true
    | some a => writable s b (trunc16 a)

/-- The operand is not SR at its data address (10_state.md R42). -/
def notSr (b : Size) (o : Operand) (s : State) : Bool :=
  match o.addr (sizeBytes b) s with
  | none => true
  | some a => !isSrAddr s.device.sfr (trunc16 a)

/-- The destination `{,WREG}` of a flag-setting file register instruction can be written. -/
def fileReady (b : Size) (d : Dest) (f : BitVec 13) (s : State) : Bool :=
  match d with
  | .wreg => true
  | .file => writable s b (fileAddr f) && !isSrAddr s.device.sfr (fileAddr f)

/-! ## Values -/

/-- The value a data read at `a` answers. -/
def memValue (b : Size) (a : Word) (s : State) : Word :=
  match memRead b a s with
  | .ok (v, _) => v
  | .error _ => 0

/-- The value of a source operand. -/
def sourceValue (b : Size) (o : Operand) (s : State) : Word :=
  match srcVal b o s with
  | .ok (v, _) => v
  | .error _ => 0

/-- The part of a value that a write of the size stores. -/
def sized (b : Size) (v : Word) : Word :=
  match b with
  | .word => v
  | .byte => byteWord (lowByte v)

/-- What a data write of `v` at `a` from state `s` leaves in the core register that stands there, with the notes the end of the
step depends on (20_memory.md R76; 10_state.md R42, R45, R51; 46_repeat.md R252; 70_reset_and_hazards.md R340). -/
def CoreHolds (b : Size) (a v : Word) (c : CoreReg) (s t : State) : Prop :=
  match c with
  | .w r =>
    (b = .word → t.reg r = fixReg r v ∧ t.initialised r = true) ∧
    (b = .byte → selectByte a (t.reg r) = (if isOdd a then lowByte v else lowByte (fixReg r v)) ∧
      t.initialised r = s.initialised r)
  | .splim =>
    (b = .word → t.splim = v &&& 0xFFFE ∧ t.splimEn = true) ∧
    (b = .byte → t.splimEn = s.splimEn ∧
      t.splim = (if isOdd a then lowByte v ++ lowByte s.splim else highByte s.splim ++ lowByte v) &&& 0xFFFE) ∧
    t.notes.wroteSplim = true
  | .pcl => False
  | .pch => False
  | .tblpag => t.tblpag = if b = .byte ∧ isOdd a = true then s.tblpag else lowByte v
  | .psvpag => t.psvpag = if b = .byte ∧ isOdd a = true then s.psvpag else lowByte v
  | .rcount =>
    (b = .word → t.rcount = v.extractLsb' 0 14) ∧
    (b = .byte → t.rcount =
      if isOdd a then v.extractLsb' 0 6 ++ s.rcount.extractLsb' 0 8 else s.rcount.extractLsb' 8 6 ++ lowByte v) ∧
    t.notes.wroteLoop = true
  | .sr =>
    t.sr =
      (if b = .byte ∧ isOdd a = true then { s.sr with dc := v.getLsbD 0 }
      else
        { dc := if b = .byte then s.sr.dc else v.getLsbD 8
          ipl := if s.nstdis then s.sr.ipl else v.extractLsb' 5 3
          ra := s.sr.ra, n := v.getLsbD 3, ov := v.getLsbD 2, z := v.getLsbD 1, c := v.getLsbD 0 }) ∧
    t.notes.wroteLoop = true
  | .corcon =>
    t.corcon =
      if b = .byte ∧ isOdd a = true then s.corcon
      else { ipl3 := if v.getLsbD 3 then s.corcon.ipl3 else false, psv := v.getLsbD 2 }
  | .disicnt => (b = .word → t.disicnt = v.extractLsb' 0 14) ∧ t.notes.wroteDisicnt = true

/-- After a store of `v` at `a` the memory, the core register or the peripheral record there holds it; a store to RAM is noted
for the end of the step (log 26). -/
def StoredAt (b : Size) (a v : Word) (s t : State) : Prop :=
  (regionOf s b a = .ram → ramRead t b a = sized b v ∧ (a, sizeBytes b) ∈ t.notes.stores) ∧
  (∀ c, regionOf s b a = .core c → CoreHolds b a v c s t) ∧
  (regionOf s b a = .peripheral →
    t.periphWrites = { addr := a, byteWrite := b == .byte, value := sized b v } :: s.periphWrites)

/-- After a write of `v` to a destination operand the destination holds it. A byte write of a register keeps its high byte and
says nothing of its initialisation (10_state.md R25, R28). -/
def Delivered (b : Size) (o : Operand) (v : Word) (s t : State) : Prop :=
  (∀ r, o = .reg r → t.regVal b r = sized b (fixReg r v) ∧ (b = .word → t.initialised r = true) ∧
    (b = .byte → highByte (t.reg r) = highByte (s.reg r) ∧ t.initialised r = s.initialised r)) ∧
  (∀ a, o.addr (sizeBytes b) s = some a → StoredAt b (trunc16 a) v s t)

/-- The pointer of an operand is left as its mode says, unless a destination write replaces it (10_state.md R24). -/
def PointerMoved (step : Nat) (o : Operand) (e : Effect) (s t : State) : Prop :=
  ∀ p r, o = .ptr p r → o.modified = some r → e.hits s.device.sfr (.w r) = false →
    t.reg r = fixReg r (trunc16 (movedPtr step p (s.reg r)))

/-- The PC is at the next instruction (10_state.md R31, R33). -/
def AtNext (s t : State) : Prop :=
  t.pc = (s.pc + 2) &&& 0x7FFFFE ∧ t.pcOut = decide (0x7FFFFE < s.pc.toNat + 2)

/-- The PC is at `a`. -/
def AtAddr (a : Int) (t : State) : Prop :=
  t.pc = BitVec.ofInt 23 a &&& 0x7FFFFE ∧ t.pcOut = decide (a < 0 ∨ 0x7FFFFE < a)

/-- The result of a file register instruction goes where its `D` bit says. -/
def FileResult (b : Size) (d : Dest) (f : BitVec 13) (v : Word) (s t : State) : Prop :=
  match d with
  | .wreg => Delivered b (.reg 0) v s t
  | .file => StoredAt b (fileAddr f) v s t

/-- The five ALU flags are those of an addition. -/
def AddFlagsAre (r : AddResult) (t : State) : Prop :=
  t.sr.dc = r.dc ∧ t.sr.n = r.n ∧ t.sr.ov = r.ov ∧ t.sr.z = r.z ∧ t.sr.c = r.c

/-- N, Z and C are those of a single-bit shift; OV is left open. -/
def ShiftFlagsAre (r : ShiftResult) (t : State) : Prop := t.sr.n = r.n ∧ t.sr.z = r.z ∧ t.sr.c = r.c

/-- What a multi-bit shift of `x` by `k` leaves (44_shift.md R200). -/
def ShiftedTo (op : ShiftOp) (x : Word) (k : BitVec 4) (rd : Reg) (s t : State) : Prop :=
  t.reg rd = fixReg rd (shiftN op x k) ∧ t.initialised rd = true ∧
  t.sr.n = (shiftN op x k).getLsbD 15 ∧ t.sr.z = (shiftN op x k == 0) ∧ AtNext s t

/-- The two words a double load from an indirect operand reads (40_move.md R139). -/
def doubleValue (p : PtrMode) (r : Reg) (s : State) : Word × Word :=
  match ea 4 true (.ptr p r) s with
  | .ok (.mem a, s1) =>
    match readDouble r a s1 with
    | .ok (lo, hi, _) => (lo, hi)
    | .error _ => (0, 0)
  | _ => (0, 0)

/-- What a word store of `v` at `a` adds to the record of peripheral writes. -/
def periphEntry (a v : Word) (s : State) : List PeriphWrite :=
  if regionOf s .word a = .peripheral then [{ addr := a, byteWrite := false, value := v }] else []

/-- After a word store the RAM word or the core register at `a` holds `v`. -/
def HoldsWord (a v : Word) (s t : State) : Prop :=
  (regionOf s .word a = .ram → ramRead t .word a = v) ∧
  (∀ c, regionOf s .word a = .core c → CoreHolds .word a v c s t)

/-- The kind, the dividend and the divisor's register of a divide (43_muldiv.md R188). -/
def divideParts (i : Instr) (s : State) : Option (DivKind × BitVec 32 × Reg) :=
  match i with
  | .divSW rm rn => some (.sw, (s.reg rm).signExtend 32, rn)
  | .divSD rm rn => some (.sd, s.reg (pairHigh rm) ++ s.reg (pairLow rm), rn)
  | .divUW rm rn => some (.uw, (s.reg rm).setWidth 32, rn)
  | .divUD rm rn => some (.ud, s.reg (pairHigh rm) ++ s.reg (pairLow rm), rn)
  | _ => none

/-- An address formed from W15 fails one of the three tests (60_exceptions.md R300). -/
def badStackAddr (a : Int) (s : State) : Bool :=
  decide (a < 0x0800) ||
    s.splimEn && (decide (0xFFFF < a) ||
      decide ((s.splim.toNat : Int) + (match s.device.splimSlack with
        | .zero => 0
        | .two => 2) < a))

/-- An address formed from W15 is below 0x0800, or past 0xFFFF with the check enabled (60_exceptions.md R300). -/
def outsideStackSpace (a : Int) (s : State) : Bool := decide (a < 0x0800) || s.splimEn && decide (0xFFFF < a)

/-- The addresses that a memory operand forms from W15 (60_exceptions.md R300). -/
def Operand.stackAddrs (step : Nat) (o : Operand) (s : State) : List Int :=
  if o.usesStack then (o.addr step s).toList else []

/-- `StackError` is pending in `t` where it was, or where an address formed from W15 fails the checks, and no other trap changes
(60_exceptions.md R296, R300). In the step after a write to SPLIM the limit comparison of the addresses that are read is open,
where the check is enabled (70_reset_and_hazards.md R340; log 25). -/
def StackMarked (reads writes : List Int) (s t : State) : Prop :=
  t.pendingTraps.oscillatorFailure = s.pendingTraps.oscillatorFailure ∧
  t.pendingTraps.addressError = s.pendingTraps.addressError ∧
  t.pendingTraps.arithmeticError = s.pendingTraps.arithmeticError ∧
  (s.splimJustWritten = false ∨ s.splimEn = false ∨ reads = [] →
    t.pendingTraps.stackError =
      (s.pendingTraps.stackError || reads.any (badStackAddr · s) || writes.any (badStackAddr · s))) ∧
  (s.pendingTraps.stackError = true ∨ (∃ a ∈ reads, outsideStackSpace a s = true) ∨ (∃ a ∈ writes, badStackAddr a s = true) →
    t.pendingTraps.stackError = true)

/-! ## Instructions by their operands -/

/-- The size and the two operands of an instruction that has a source and a destination with an addressing mode each. -/
def operandsOf : Instr → Option (Size × Operand × Operand)
  | .movWsWd b rb h rd g rs => some (b, moveOperand g rs rb, moveOperand h rd rb)
  | .push rb g rs => some (.word, moveOperand g rs rb, .ptr .postInc 15)
  | .pop rb h rd => some (.word, .ptr .preDec 15, moveOperand h rd rb)
  | .addWs b _ q rd p rs => some (b, modeOperand p rs, modeOperand q rd)
  | .asrWs b q rd p rs => some (b, modeOperand p rs, modeOperand q rd)
  | .lsrWs b q rd p rs => some (b, modeOperand p rs, modeOperand q rd)
  | .slWs b q rd p rs => some (b, modeOperand p rs, modeOperand q rd)
  | .tblrdl b q rd p rs => some (b, .ptr p rs, modeOperand q rd)
  | .tblrdh b q rd p rs => some (b, .ptr p rs, modeOperand q rd)
  | _ => none

/-- The source operand of a table read gives its word: an initialised pointer that is not W15, aligned (47_system.md R271). -/
def tableReady (b : Size) (p : PtrMode) (rs : Reg) (s : State) : Bool :=
  rs != 15 && s.initialised rs && !misaligned b (trunc16 (ptrAddr (sizeBytes b) p (s.reg rs)))

/-- `BRA` and the conditional branches (45_flow.md R216 to R230). -/
def relativeBranch (i : Instr) : Prop :=
  ∃ n, i = .bra n ∨ i = .braOV n ∨ i = .braC n ∨ i = .braZ n ∨ i = .braN n ∨ i = .braLE n ∨ i = .braLT n ∨ i = .braLEU n ∨
    i = .braNOV n ∨ i = .braNC n ∨ i = .braNZ n ∨ i = .braNN n ∨ i = .braGT n ∨ i = .braGE n ∨ i = .braGTU n

/-! ## Boundaries -/

/-- No exception is taken at the boundary before the next step, and the PC is in range (60_exceptions.md R303). -/
def quiet (s : State) : Bool :=
  s.power == .running && !s.pcOut && s.pendingTraps.highest == none &&
    match bestRequest s.pending with
    | none => true
    | some r => !accepts s r.priority

/-- `n` steps in a row. -/
def steps : Nat → State → Outcome
  | 0, s => .next s
  | n + 1, s =>
    match step s with
    | .next t => steps n t
    | .fault f => .fault f
    | .refused r => .refused r

/-- The state a step leaves when it performed a device reset (70_reset_and_hazards.md R330). -/
def ResetTo (t : State) : Prop := ∃ c u, t = { deviceReset c u with notes := .empty }

/-- Between steps, with nothing pending, the CPU running and the PC in range: no exception can be taken at the next boundary. -/
def calm (s : State) : Bool :=
  s.power == .running && !s.pcOut && s.pendingTraps.highest == none && s.pending.isEmpty && s.notes == .empty

/-- The word at the PC decodes to `i`, a one-word instruction. -/
def atInstr (s : State) (i : Instr) : Prop :=
  ∃ w, s.progWord s.pc.toNat = some w ∧ isTwoWord w = false ∧ decode w 0 = .ok i

end Sys2Proof.Machine
end

