-- ==== Sys2Proof/Certificates/Slice0/Obligations.lean ====
section
/-! DEFINITION. The statements about the machine. Each docstring names the rule of the spec it formalises, or says that it states
a choice of the model and names its log entry. The helpers they are written with stand in Safety.lean. -/

open Sys2Proof Sys2Proof.Machine

/-! ## Encoding -/

/-- Decoding the words of a well-formed instruction gives it back, for every instruction and every value of its operands
(30_encoding.md R102 to R104, R110; the encodings are the model's, log 1). -/
def Obligations.DecodeOfEncode : Prop :=
  ∀ (i : Instr) (x : ProgWord), i.wellFormed = true →
    decode ((encode i).headD 0) ((encode i).getD 1 x) = .ok i

/-- What the decoder accepts is a well-formed instruction whose words are the ones decoded, so that each word has one meaning
(30_encoding.md R104, R113). -/
def Obligations.EncodeOfDecode : Prop :=
  ∀ (w w2 : ProgWord) (i : Instr), decode w w2 = .ok i →
    i.wellFormed = true ∧ encode i = if isTwoWord w then [w, w2] else [w]

/-- Words written out from the patterns of 30_encoding.md R103, one or more of each family, decode to the instructions they
stand for, and a word that differs from the pattern of `MOV f` in one fixed bit is none (R113). -/
def Obligations.WrittenWordsDecode : Prop :=
  decode 0b011110000000000010000010#24 0 = .ok (.movWsWd .word 0 .direct 1 .direct 2) ∧
  decode 0b011110000001111110000011#24 0 = .ok (.push 0 .direct 3) ∧
  decode 0b010000000000001010010100#24 0 = .ok (.addWs .word 0 .direct 5 (.ptr .ind) 4) ∧
  decode 0b101111110000100100000000#24 0 = .error (.unknownWord 0xBF0900) ∧
  decode 0b101110011000000100000001#24 0 = .ok (.mulSS 0 1 .direct 1) ∧
  decode 0b110110000010101001000011#24 0 = .ok (.divSD 2 3) ∧
  decode 0b110100011100000100000001#24 0 = .ok (.asrWs .byte .direct 2 .direct 1) ∧
  decode 0b001100101111111111111101#24 0 = .ok (.braZ 0xFFFD) ∧
  decode 0b000000100010001101000100#24 0b000000000000000000000001#24 = .ok (.call 0x0091A2) ∧
  decode 0b000010010000000000010001#24 0 = .ok (.repeatLit 17) ∧
  decode 0b111111000000000000000101#24 0 = .ok (.disi 5) ∧
  decode 0b101110100100000110110001#24 0 = .ok (.tblrdl .byte .direct 3 .postInc 1)

/-- A multiply word with an odd destination number, or with 14, is no instruction, and the step at it is refused
(70_reset_and_hazards.md R347). -/
def Obligations.MulDestinationRefused : Prop :=
  ∀ (w w2 : ProgWord), (field w 16 8 = 0xB8 ∨ field w 16 8 = 0xB9) → (field w 7 1 = 1 ∨ field w 7 4 = 14) →
    decode w w2 = .error (.unknownWord w) ∧
    ∀ s : State, quiet s = true → s.progWord s.pc.toNat = some w → step s = .refused (.unknownWord w)

/-- Every word 0x00xxxx is a `NOP`, the second words of `CALL` and `GOTO` among them; it only advances the PC, in one cycle, and
may be repeated (47_system.md R265). -/
def Obligations.NopWords : Prop :=
  (∀ (x : BitVec 16) (w2 : ProgWord), decode (0x00#8 ++ x) w2 = .ok (.nop x)) ∧
  (∀ (t : BitVec 22) (w2 : ProgWord),
    (∃ x, decode ((encode (.call t)).getD 1 0) w2 = .ok (.nop x)) ∧
    (∃ x, decode ((encode (.goto t)).getD 1 0) w2 = .ok (.nop x))) ∧
  (∀ (x : BitVec 16) (s : State),
    exec (.nop x) s =
      .next { s with pc := (s.pc + 2) &&& 0x7FFFFE, pcOut := decide (0x7FFFFE < s.pc.toNat + 2) }) ∧
  (∀ x : BitVec 16, mayRepeat (.nop x) = true ∧ cyclesMax (.nop x) = 1)

/-! ## Steps -/

/-- Where the words at the PC decode to an instruction and no exception is taken, a step is that instruction, followed by what
ends every step (46_repeat.md R252; 60_exceptions.md R303). -/
def Obligations.StepRunsDecoded : Prop :=
  ∀ (s : State) (w w2 : ProgWord) (i : Instr),
    quiet s = true → s.progWord s.pc.toNat = some w →
    (isTwoWord w = true → s.sr.ra = false ∧ s.progWord (s.pc.toNat + 2) = some w2) →
    decode w w2 = .ok i → (s.sr.ra = true → mayRepeat i = true) →
    step s =
      match exec i s with
      | .next t => endStep i s t
      | .fault f => .fault f
      | .refused r => .refused r

/-- What ends a step: the loop mechanism of 46_repeat.md R252, the count-down of DISICNT by 1 to `dmax` (47_system.md R268), which
is built on the largest cycle counts of the table of 70_reset_and_hazards.md R351, SplimJustWritten (R340), and where the bytes of the
frame of an interrupted loop stand, which move as the instruction carries them and go where they are overwritten, and whether it
is on the stack still, W15 not having come into it (the model's bookkeeping, log 26); nothing else changes. That a step which loads
DISICNT does not count it down is the model's choice (log 29), and so is that a device reset ends its step by itself (log 32). -/
def Obligations.EndOfStep : Prop :=
  ∀ (i : Instr) (s t : State),
    (t.notes.didReset = true → endStep i s t = .next { t with notes := .empty }) ∧
    (t.notes.didReset = false → s.sr.ra = true → t.notes.wroteLoop = true →
      endStep i s t = .refused .repeatTargetWrites) ∧
    (t.notes.didReset = false → (s.sr.ra = true → t.notes.wroteLoop = false) →
      ∃ u, endStep i s t = .next u ∧
        (s.sr.ra = false → u.pc = t.pc ∧ u.pcOut = t.pcOut ∧ u.rcount = t.rcount ∧ u.sr = t.sr) ∧
        (s.sr.ra = true → s.rcount = 0 →
          u.pc = t.pc ∧ u.pcOut = t.pcOut ∧ u.rcount = t.rcount ∧ u.sr = { t.sr with ra := false }) ∧
        (s.sr.ra = true → s.rcount ≠ 0 →
          u.pc = s.pc ∧ u.pcOut = s.pcOut ∧ u.rcount = s.rcount - 1 ∧ u.sr = t.sr) ∧
        (t.notes.wroteDisicnt = true → u.disicnt = t.disicnt) ∧
        (t.notes.wroteDisicnt = false →
          ∃ d, 1 ≤ d ∧ d ≤ cyclesMax i + 1 + 2 * t.notes.psvReads ∧ u.disicnt.toNat = t.disicnt.toNat - d) ∧
        u.splimJustWritten = t.notes.wroteSplim ∧ u.notes = .empty ∧
        u.w = t.w ∧ u.winit = t.winit ∧ u.corcon = t.corcon ∧ u.splim = t.splim ∧ u.splimEn = t.splimEn ∧
        u.tblpag = t.tblpag ∧ u.psvpag = t.psvpag ∧ u.shadow = t.shadow ∧ u.pendingTraps = t.pendingTraps ∧
        u.pending = t.pending ∧ u.nstdis = t.nstdis ∧ u.power = t.power ∧ u.ram = t.ram ∧ u.ramEpoch = t.ramEpoch ∧
        u.prog = t.prog ∧ u.periphWrites = t.periphWrites ∧ u.device = t.device ∧
        u.divider.loop = t.divider.loop ∧ 
        u.divider.suspended = t.divider.suspended.map (fun x =>
          { x with stacked := x.stacked && decide ((t.reg 15).toNat < x.frame.toNat ∨ x.frame.toNat + 4 ≤ (t.reg 15).toNat) }) ∧
        (∀ x : ByteLoc,
          ((∀ y ∈ byteCopies i s, y.1 ≠ x) →
            u.divider.originOf x = if overwritten s t x then none else t.divider.originOf x) ∧
          ((∃ y ∈ byteCopies i s, y.1 = x) →
            u.divider.originOf x =
              ((byteCopies i s).filter fun y => y.1 == x).findSome? fun y => y.2.bind t.divider.originOf))) ∧
    ((cyclesMax i = 3 ↔ (∃ j f, i = .btscF j f) ∨ (∃ j p r, i = .btscWs j p r) ∨ i = .ret ∨ i = .retfie ∨
        (∃ b k r, i = .retlw b k r)) ∧
      (cyclesMax i = 2 ↔ (∃ d p r, i = .movDLd d p r) ∨ (∃ q r d, i = .movDSt q r d) ∨ relativeBranch i ∨
        (∃ n, i = .rcall n) ∨ (∃ a, i = .call a) ∨ (∃ a, i = .goto a) ∨ (∃ b q d p r, i = .tblrdl b q d p r) ∨
        (∃ b q d p r, i = .tblrdh b q d p r) ∨ (∃ b q d p r, i = .tblwtl b q d p r) ∨
        (∃ b q d p r, i = .tblwth b q d p r)) ∧
      (cyclesMax i = 1 ∨ cyclesMax i = 2 ∨ cyclesMax i = 3))

/-- Every step keeps the invariant: W15<0>, SPLIM<0> and PC<0> stay 0 (10_state.md R26, R30, R50), and both memories keep
their canonical form. -/
def Obligations.InvKeptByStep : Prop :=
  ∀ s t : State, Inv s → step s = .next t → Inv t

/-- The invariant holds right after reset, and every event of the environment keeps it. -/
def Obligations.InvAtResetAndEvents : Prop :=
  Inv State.reset ∧ ∀ (e : Event) (s : State), Inv s → Inv (s.apply e)

/-- A `NOP` under an active loop executes RCOUNT + 1 times: RCOUNT falls by one at each of the first RCOUNT executions, with the PC
held, and the last one clears RA and advances the PC (46_repeat.md R252). -/
def Obligations.LoopCount : Prop :=
  ∀ (s : State) (x : BitVec 16),
    calm s = true → s.sr.ra = true → s.progWord s.pc.toNat = some (0x00#8 ++ x) →
    (∀ n, n ≤ s.rcount.toNat → ∃ t, steps n s = .next t ∧
      t.pc = s.pc ∧ t.sr = s.sr ∧ t.rcount.toNat = s.rcount.toNat - n ∧ t.w = s.w ∧ t.ram = s.ram) ∧
    ∃ t, steps (s.rcount.toNat + 1) s = .next t ∧
      AtNext s t ∧ t.sr = { s.sr with ra := false } ∧ t.rcount = 0 ∧ t.w = s.w ∧ t.ram = s.ram

/-- The divide sequence: from the state that `REPEAT #17` leaves, eighteen steps of a divide put the quotient in W0 and the
remainder in W1, end the loop, and change no other register, no RAM and none of DC and IPL (43_muldiv.md R188 to R193). That
RCOUNT = 17 with no divide yet in the loop is the state a first iteration needs is the model's bookkeeping (log 26). -/
def Obligations.DivideRuns : Prop :=
  ∀ (s : State) (i : Instr) (kind : DivKind) (d : BitVec 32) (rn : Reg) (q r : Word),
    atInstr s i → divideParts i s = some (kind, d, rn) → divResult kind.signed d (s.reg rn) = some (q, r) →
    calm s = true → s.sr.ra = true → s.rcount = 17 → s.divider.loop = .fresh →
    ∃ t, steps 18 s = .next t ∧ t.reg 0 = q ∧ t.reg 1 = r ∧ AtNext s t ∧ t.sr.ra = false ∧ t.rcount = 0 ∧
      (∀ x, x ≠ 0 → x ≠ 1 → t.reg x = s.reg x) ∧ t.ram = s.ram ∧ t.sr.dc = s.sr.dc ∧ t.sr.ipl = s.sr.ipl ∧
      t.pendingTraps = s.pendingTraps

/-- `DivResult` is division rounded toward zero, with a remainder of the dividend's sign, where the quotient fits in 16 bits
(43_muldiv.md R188). -/
def Obligations.DivResultLaw : Prop :=
  ∀ (d : BitVec 32) (n q r : Word),
    (divResult true d n = some (q, r) ↔
      d.toInt = q.toInt * n.toInt + r.toInt ∧ r.toInt.natAbs < n.toInt.natAbs ∧ 0 ≤ d.toInt * r.toInt) ∧
    (divResult false d n = some (q, r) ↔ d.toNat = q.toNat * n.toNat + r.toNat ∧ r.toNat < n.toNat)

/-! ## The arithmetic -/

/-- An addition in word mode and in byte mode: the wrapped sum, the carries out of the top bit and out of the lower half, the
sign, the signed overflow, and the zero test (42_alu_bit.md R165). -/
def Obligations.AddLaw : Prop :=
  ∀ x y : Word,
    (let r := addFlags .word x y
     r.res = x + y ∧
     r.c = (x.setWidth 17 + y.setWidth 17).getLsbD 16 ∧
     r.dc = ((lowByte x).setWidth 9 + (lowByte y).setWidth 9).getLsbD 8 ∧
     r.n = (x + y).getLsbD 15 ∧
     r.ov = (x.getLsbD 15 == y.getLsbD 15 && (x + y).getLsbD 15 != x.getLsbD 15) ∧
     (r.ov = true ↔ x.toInt + y.toInt < -32768 ∨ 32767 < x.toInt + y.toInt) ∧
     r.z = (x + y == 0)) ∧
    (let r := addFlags .byte x y
     let a := lowByte x
     let b := lowByte y
     r.res = byteWord (a + b) ∧
     r.c = (a.setWidth 9 + b.setWidth 9).getLsbD 8 ∧
     r.dc = ((a.extractLsb' 0 4).setWidth 5 + (b.extractLsb' 0 4).setWidth 5).getLsbD 4 ∧
     r.n = (a + b).getLsbD 7 ∧
     r.ov = (a.getLsbD 7 == b.getLsbD 7 && (a + b).getLsbD 7 != a.getLsbD 7) ∧
     (r.ov = true ↔ a.toInt + b.toInt < -128 ∨ 127 < a.toInt + b.toInt) ∧
     r.z = (a + b == 0))

/-- The single-bit shifts, in word mode and in byte mode (44_shift.md R200). -/
def Obligations.ShiftOneLaw : Prop :=
  ∀ x : Word,
    shift1 .asr .word x =
      { res := x.sshiftRight 1, n := x.getLsbD 15, z := x.sshiftRight 1 == 0, c := x.getLsbD 0 } ∧
    shift1 .lsr .word x = { res := x >>> 1, n := false, z := x >>> 1 == 0, c := x.getLsbD 0 } ∧
    shift1 .sl .word x = { res := x <<< 1, n := x.getLsbD 14, z := x <<< 1 == 0, c := x.getLsbD 15 } ∧
    shift1 .asr .byte x =
      { res := byteWord ((lowByte x).sshiftRight 1), n := x.getLsbD 7, z := (lowByte x).sshiftRight 1 == 0
        c := x.getLsbD 0 } ∧
    shift1 .lsr .byte x =
      { res := byteWord (lowByte x >>> 1), n := false, z := lowByte x >>> 1 == 0, c := x.getLsbD 0 } ∧
    shift1 .sl .byte x =
      { res := byteWord (lowByte x <<< 1), n := x.getLsbD 6, z := lowByte x <<< 1 == 0, c := x.getLsbD 7 }

/-- The multi-bit shifts, for every count of the shifter, 0 to 15 (44_shift.md R200). -/
def Obligations.ShiftManyLaw : Prop :=
  ∀ (x : Word) (k : BitVec 4),
    shiftN .asr x k = x.sshiftRight k.toNat ∧ shiftN .lsr x k = x >>> k.toNat ∧ shiftN .sl x k = x <<< k.toNat

/-- The multiplier gives the exact product for every signedness of its operands (43_muldiv.md R180). -/
def Obligations.MulLaw : Prop :=
  ∀ a b : Word,
    (mulResult a true b true).toInt = a.toInt * b.toInt ∧
    (mulResult a true b false).toInt = a.toInt * b.toNat ∧
    (mulResult a false b true).toInt = a.toNat * b.toInt ∧
    (mulResult a false b false).toNat = a.toNat * b.toNat

/-! ## The instructions complete, and what they give -/

/-- `MOV.B #lit8` and `MOV #lit16` (40_move.md R134, R135), for every register: W15<0> stays 0 (10_state.md R26). -/
def Obligations.LiteralMoves : Prop :=
  ∀ (rd : Reg) (s : State),
    (∀ k : BitVec 8, ∃ t, exec (.movBLit8 k rd) s = .next t ∧
      t.reg rd = fixReg rd (joinBytes (highByte (s.reg rd)) k) ∧ t.initialised rd = s.initialised rd ∧ AtNext s t) ∧
    (∀ k : BitVec 16, ∃ t, exec (.movLit16 k rd) s = .next t ∧
      t.reg rd = fixReg rd k ∧ t.initialised rd = true ∧ AtNext s t)

/-- The four file register moves (40_move.md R130 to R133). -/
def Obligations.FileMoves : Prop :=
  (∀ (b : Size) (d : Dest) (f : BitVec 13) (s : State),
    readable s b (fileAddr f) = true → fileReady b d f s = true →
    ∃ t, exec (.movF b d f) s = .next t ∧ FileResult b d f (memValue b (fileAddr f) s) s t ∧
      t.sr.n = topBit b (memValue b (fileAddr f) s) ∧ t.sr.z = (memValue b (fileAddr f) s == 0) ∧ AtNext s t) ∧
  (∀ (b : Size) (f : BitVec 13) (s : State), writable s b (fileAddr f) = true →
    ∃ t, exec (.movWregF b f) s = .next t ∧ StoredAt b (fileAddr f) (s.regVal b 0) s t ∧ AtNext s t) ∧
  (∀ (f : BitVec 15) (rd : Reg) (s : State), readable s .word (f ++ 0#1) = true →
    ∃ t, exec (.movFWnd f rd) s = .next t ∧ t.reg rd = fixReg rd (memValue .word (f ++ 0#1) s) ∧
      t.initialised rd = true ∧ AtNext s t) ∧
  (∀ (f : BitVec 15) (rs : Reg) (s : State), writable s .word (f ++ 0#1) = true →
    ∃ t, exec (.movWnsF f rs) s = .next t ∧ StoredAt .word (f ++ 0#1) (s.reg rs) s t ∧ AtNext s t)

/-- The moves with a signed 10-bit offset (40_move.md R136, R137): the offset is scaled by two in word mode, the base is not
modified, and an address formed from W15 is checked (60_exceptions.md R300). -/
def Obligations.OffsetMoves : Prop :=
  (∀ (b : Size) (k : BitVec 10) (rd rs : Reg) (s : State),
    let a : Int := (s.reg rs).toNat + (match b with
      | .word => 2 * k.toInt
      | .byte => k.toInt)
    s.initialised rs = true → readable s b (trunc16 a) = true →
    ∃ t, exec (.movOffLd b k rd rs) s = .next t ∧
      Delivered b (.reg rd) (memValue b (trunc16 a) (stackCheckIf rs true a s)) s t ∧
      (rs ≠ rd → t.reg rs = s.reg rs) ∧ StackMarked (if rs = 15 then [a] else []) [] s t ∧ AtNext s t) ∧
  (∀ (b : Size) (k : BitVec 10) (rd rs : Reg) (s : State),
    let a : Int := (s.reg rd).toNat + (match b with
      | .word => 2 * k.toInt
      | .byte => k.toInt)
    s.initialised rd = true → writable s b (trunc16 a) = true →
    ∃ t, exec (.movOffSt b k rd rs) s = .next t ∧ StoredAt b (trunc16 a) (s.regVal b rs) s t ∧
      ((effectOf (.movOffSt b k rd rs) s).hits s.device.sfr (.w rd) = false → t.reg rd = s.reg rd) ∧
      StackMarked [] (if rd = 15 then [a] else []) s t ∧ AtNext s t)

/-- `MOV{.B} Ws, Wd`, `PUSH` and `POP`, in every pair of operand forms that do not collide (40_move.md R138; 41_stack.md R150,
R151; 30_encoding.md R107 to R109), with the checks of the addresses formed from W15 (60_exceptions.md R300). -/
def Obligations.MovePushPop : Prop :=
  ∀ (i : Instr) (b : Size) (src dst : Operand) (s : State),
    ((∃ rb h rd g rs, i = .movWsWd b rb h rd g rs ∧ src = moveOperand g rs rb ∧ dst = moveOperand h rd rb) ∨
      (∃ rb g rs, i = .push rb g rs ∧ b = .word ∧ src = moveOperand g rs rb ∧ dst = .ptr .postInc 15) ∨
      (∃ rb h rd, i = .pop rb h rd ∧ b = .word ∧ src = .ptr .preDec 15 ∧ dst = moveOperand h rd rb)) →
    collides src dst = false → sourceReady b src s = true → destReady b dst s = true →
    ∃ t, exec i s = .next t ∧ Delivered b dst (sourceValue b src s) s t ∧
      PointerMoved (sizeBytes b) src (effectOf i s) s t ∧ PointerMoved (sizeBytes b) dst (effectOf i s) s t ∧
      StackMarked (src.stackAddrs (sizeBytes b) s) (dst.stackAddrs (sizeBytes b) s) s t ∧ AtNext s t

/-- `MOV.D` between register pairs, from memory and to memory: the low word is at the lower address and in the even register,
and the pointer moves by 4 (40_move.md R139, R140; 20_memory.md R80). Both addresses are checked where the pointer is W15; where
the first word is stored into SPLIM the check of the second is not stated (60_exceptions.md R300). -/
def Obligations.DoubleMoves : Prop :=
  (∀ (rd : Pair) (rs : Reg) (s : State), (Instr.movDLd rd .direct rs).wellFormed = true →
    ∃ t, exec (.movDLd rd .direct rs) s = .next t ∧ t.reg (pairLow rd) = s.reg rs ∧
      t.reg (pairHigh rd) = fixReg (pairHigh rd) (s.reg (nextReg rs)) ∧
      t.initialised (pairLow rd) = true ∧ t.initialised (pairHigh rd) = true ∧ AtNext s t) ∧
  (∀ (rd : Pair) (p : PtrMode) (rs : Reg) (s : State),
    let a := ptrAddr 4 p (s.reg rs)
    rs ≠ pairLow rd → rs ≠ pairHigh rd → s.initialised rs = true →
    readable s .word (trunc16 a) = true → readable s .word (trunc16 (a + 2)) = true →
    ∃ t, exec (.movDLd rd (.ptr p) rs) s = .next t ∧ t.reg (pairLow rd) = (doubleValue p rs s).1 ∧
      t.reg (pairHigh rd) = fixReg (pairHigh rd) (doubleValue p rs s).2 ∧
      t.initialised (pairLow rd) = true ∧ t.initialised (pairHigh rd) = true ∧
      (ramWord s (trunc16 a) = true → (doubleValue p rs s).1 = ramRead s .word (trunc16 a)) ∧
      (ramWord s (trunc16 (a + 2)) = true → (doubleValue p rs s).2 = ramRead s .word (trunc16 (a + 2))) ∧
      PointerMoved 4 (.ptr p rs) {} s t ∧ StackMarked (if rs = 15 then [a, a + 2] else []) [] s t ∧ AtNext s t) ∧
  (∀ (rd : Reg) (rs : Pair) (s : State), (Instr.movDSt .direct rd rs).wellFormed = true →
    ∃ t, exec (.movDSt .direct rd rs) s = .next t ∧ t.reg rd = s.reg (pairLow rs) ∧
      t.reg (nextReg rd) = fixReg (nextReg rd) (s.reg (pairHigh rs)) ∧
      t.initialised rd = true ∧ t.initialised (nextReg rd) = true ∧ AtNext s t) ∧
  (∀ (p : PtrMode) (rd : Reg) (rs : Pair) (s : State),
    let a := ptrAddr 4 p (s.reg rd)
    s.initialised rd = true → writable s .word (trunc16 a) = true → writable s .word (trunc16 (a + 2)) = true →
    ∃ t, exec (.movDSt (.ptr p) rd rs) s = .next t ∧
      HoldsWord (trunc16 a) (s.reg (pairLow rs)) s t ∧ HoldsWord (trunc16 (a + 2)) (s.reg (pairHigh rs)) s t ∧
      t.periphWrites = periphEntry (trunc16 (a + 2)) (s.reg (pairHigh rs)) s ++
        periphEntry (trunc16 a) (s.reg (pairLow rs)) s ++ s.periphWrites ∧
      PointerMoved 4 (.ptr p rd) (effectOf (.movDSt (.ptr p) rd rs) s) s t ∧
      (regionOf s .word (trunc16 a) ≠ .core .splim → StackMarked [] (if rd = 15 then [a, a + 2] else []) s t) ∧
      AtNext s t)

/-- `PUSH.S` copies W0 to W3 and N, OV, Z, C, DC into the shadow registers and changes nothing else but the PC (41_stack.md
R154); `POP.S` copies them back, initialises the four registers, keeps the shadows, and leaves IPL and RA alone (R155). The two
words are the model's encodings (log 1), and that `POP.S` initialises its registers is the reading of 92_eei_decisions.md D14
(log 35). -/
def Obligations.ShadowMoves : Prop :=
  (∀ w2 : ProgWord, decode 0xFEA000 w2 = .ok .pushS) ∧ (∀ w2 : ProgWord, decode 0xFE8000 w2 = .ok .popS) ∧
  (∀ s : State, ∃ t, exec .pushS s = .next t ∧ AtNext s t ∧
    t.shadow =
      { w0 := s.reg 0, w1 := s.reg 1, w2 := s.reg 2, w3 := s.reg 3
        dc := s.sr.dc, n := s.sr.n, ov := s.sr.ov, z := s.sr.z, c := s.sr.c } ∧
    { t with shadow := s.shadow, pc := s.pc, pcOut := s.pcOut } = s) ∧
  (∀ s : State, ∃ t, exec .popS s = .next t ∧ AtNext s t ∧
    t.reg 0 = s.shadow.w0 ∧ t.reg 1 = s.shadow.w1 ∧ t.reg 2 = s.shadow.w2 ∧ t.reg 3 = s.shadow.w3 ∧
    t.initialised 0 = true ∧ t.initialised 1 = true ∧ t.initialised 2 = true ∧ t.initialised 3 = true ∧
    t.sr =
      { s.sr with dc := s.shadow.dc, n := s.shadow.n, ov := s.shadow.ov, z := s.shadow.z, c := s.shadow.c } ∧
    t.shadow = s.shadow)

/-- `LNK` saves W14, makes it point above the saved word, and reserves the frame; `ULNK` undoes it (41_stack.md R156, R157), on
a stack in RAM; the address of each is checked (60_exceptions.md R300). -/
def Obligations.LinkUnlink : Prop :=
  (∀ (k : BitVec 13) (s : State), ramWord s (s.reg 15) = true →
    ∃ t, exec (.lnk k) s = .next t ∧ ramRead t .word (s.reg 15) = s.reg 14 ∧
      t.reg 14 = s.reg 15 + 2 ∧ t.initialised 14 = true ∧
      t.reg 15 = s.reg 15 + 2 + (k ++ 0#1 : BitVec 14).setWidth 16 ∧
      StackMarked [] [((s.reg 15).toNat : Int)] s t ∧ AtNext s t) ∧
  (∀ s : State,
    let a := (s.reg 14 &&& 0xFFFE) - 2
    ramWord s a = true →
    ∃ t, exec .ulnk s = .next t ∧ t.reg 14 = ramRead s .word a ∧ t.initialised 14 = true ∧ t.reg 15 = a ∧
      StackMarked [((s.reg 14 &&& 0xFFFE).toNat : Int) - 2] [] s t ∧ AtNext s t)

/-- The four forms of `ADD`: where the result goes and the five flags (42_alu_bit.md R166 to R169), with the checks of the
addresses formed from W15 (60_exceptions.md R300). -/
def Obligations.AddForms : Prop :=
  (∀ (b : Size) (d : Dest) (f : BitVec 13) (s : State),
    readable s b (fileAddr f) = true → fileReady b d f s = true →
    let r := addFlags b (memValue b (fileAddr f) s) (s.regVal b 0)
    ∃ t, exec (.addF b d f) s = .next t ∧ FileResult b d f r.res s t ∧ AddFlagsAre r t ∧ AtNext s t) ∧
  (∀ (b : Size) (k : BitVec 10) (rd : Reg) (s : State), (b = .byte → k.toNat ≤ 255) →
    let r := addFlags b (s.regVal b rd) (k.setWidth 16)
    ∃ t, exec (.addLit10 b k rd) s = .next t ∧ Delivered b (.reg rd) r.res s t ∧ AddFlagsAre r t ∧ AtNext s t) ∧
  (∀ (b : Size) (rb : Reg) (q : Mode) (rd : Reg) (k : BitVec 5) (s : State),
    destReady b (modeOperand q rd) s = true → notSr b (modeOperand q rd) s = true →
    let r := addFlags b (s.regVal b rb) (k.setWidth 16)
    ∃ t, exec (.addLit5 b rb q rd k) s = .next t ∧ Delivered b (modeOperand q rd) r.res s t ∧ AddFlagsAre r t ∧
      PointerMoved (sizeBytes b) (modeOperand q rd) (effectOf (.addLit5 b rb q rd k) s) s t ∧
      StackMarked [] ((modeOperand q rd).stackAddrs (sizeBytes b) s) s t ∧ AtNext s t) ∧
  (∀ (b : Size) (rb : Reg) (q : Mode) (rd : Reg) (p : Mode) (rs : Reg) (s : State),
    collides (modeOperand p rs) (modeOperand q rd) = false → sourceReady b (modeOperand p rs) s = true →
    destReady b (modeOperand q rd) s = true → notSr b (modeOperand q rd) s = true →
    let r := addFlags b (s.regVal b rb) (sourceValue b (modeOperand p rs) s)
    ∃ t, exec (.addWs b rb q rd p rs) s = .next t ∧ Delivered b (modeOperand q rd) r.res s t ∧ AddFlagsAre r t ∧
      PointerMoved (sizeBytes b) (modeOperand p rs) (effectOf (.addWs b rb q rd p rs) s) s t ∧
      PointerMoved (sizeBytes b) (modeOperand q rd) (effectOf (.addWs b rb q rd p rs) s) s t ∧
      StackMarked ((modeOperand p rs).stackAddrs (sizeBytes b) s) ((modeOperand q rd).stackAddrs (sizeBytes b) s) s t ∧
      AtNext s t)

/-- `BSET` sets its bit where the operand is, with one address computation; `BTSC` skips the next instruction word where its bit
is clear (42_alu_bit.md R170 to R174). An address formed from W15 is checked (60_exceptions.md R300). -/
def Obligations.BitForms : Prop :=
  (∀ (j : BitVec 3) (f : BitVec 13) (s : State),
    readable s .byte (fileAddr f) = true → writable s .byte (fileAddr f) = true →
    ∃ t, exec (.bsetF j f) s = .next t ∧
      StoredAt .byte (fileAddr f) (memValue .byte (fileAddr f) s ||| 1 <<< j.toNat) s t ∧ AtNext s t) ∧
  (∀ (j : BitVec 4) (b : Size) (p : Mode) (rs : Reg) (s : State),
    sourceReady b (modeOperand p rs) s = true → destReady b (modeOperand p rs) s = true →
    ∃ t, exec (.bsetWs j b p rs) s = .next t ∧
      Delivered b (modeOperand p rs) (sourceValue b (modeOperand p rs) s ||| 1 <<< j.toNat) s t ∧
      PointerMoved (sizeBytes b) (modeOperand p rs) (effectOf (.bsetWs j b p rs) s) s t ∧
      StackMarked ((modeOperand p rs).stackAddrs (sizeBytes b) s) [] s t ∧ AtNext s t) ∧
  (∀ (j : BitVec 3) (f : BitVec 13) (s : State), readable s .byte (fileAddr f) = true →
    ∃ t, exec (.btscF j f) s = .next t ∧
      if (memValue .byte (fileAddr f) s).getLsbD j.toNat then AtNext s t else AtAddr (s.pc.toNat + 4) t) ∧
  (∀ (j : BitVec 4) (p : Mode) (rs : Reg) (s : State), sourceReady .word (modeOperand p rs) s = true →
    ∃ t, exec (.btscWs j p rs) s = .next t ∧ PointerMoved 2 (modeOperand p rs) {} s t ∧
      StackMarked ((modeOperand p rs).stackAddrs 2 s) [] s t ∧
      if (sourceValue .word (modeOperand p rs) s).getLsbD j.toNat then AtNext s t else AtAddr (s.pc.toNat + 4) t)

/-- The seven multiplies: the pair they write and the signedness of their operands (43_muldiv.md R181 to R187), with the check
of an address formed from W15 (60_exceptions.md R300). -/
def Obligations.MulForms : Prop :=
  (∀ (i : Instr) (rb : Reg) (d : MulPair) (p : Mode) (rs : Reg) (sa sb : Bool) (s : State),
    ((i = .mulSS rb d p rs ∧ sa = true ∧ sb = true) ∨ (i = .mulSU rb d p rs ∧ sa = true ∧ sb = false) ∨
      (i = .mulUS rb d p rs ∧ sa = false ∧ sb = true) ∨ (i = .mulUU rb d p rs ∧ sa = false ∧ sb = false)) →
    (modeOperand p rs).modified ≠ some (pairLow (pairOfMul d)) →
    (modeOperand p rs).modified ≠ some (pairHigh (pairOfMul d)) → sourceReady .word (modeOperand p rs) s = true →
    ∃ t, exec i s = .next t ∧
      t.reg (pairHigh (pairOfMul d)) ++ t.reg (pairLow (pairOfMul d)) =
        mulResult (s.reg rb) sa (sourceValue .word (modeOperand p rs) s) sb ∧
      t.initialised (pairLow (pairOfMul d)) = true ∧ t.initialised (pairHigh (pairOfMul d)) = true ∧
      PointerMoved 2 (modeOperand p rs) {} s t ∧ StackMarked ((modeOperand p rs).stackAddrs 2 s) [] s t ∧ AtNext s t) ∧
  (∀ (i : Instr) (rb : Reg) (d : MulPair) (k : BitVec 5) (sa : Bool) (s : State),
    ((i = .mulSULit rb d k ∧ sa = true) ∨ (i = .mulUULit rb d k ∧ sa = false)) →
    ∃ t, exec i s = .next t ∧
      t.reg (pairHigh (pairOfMul d)) ++ t.reg (pairLow (pairOfMul d)) =
        mulResult (s.reg rb) sa (k.setWidth 16) false ∧
      t.initialised (pairLow (pairOfMul d)) = true ∧ t.initialised (pairHigh (pairOfMul d)) = true ∧ AtNext s t) ∧
  (∀ (f : BitVec 13) (s : State), readable s .word (fileAddr f) = true →
    let rw : Reg := match s.device.mulwfSource with
      | .w0 => 0
      | .w2 => 2
    ∃ t, exec (.mulF .word f) s = .next t ∧
      t.reg 3 ++ t.reg 2 = mulResult (s.reg rw) false (memValue .word (fileAddr f) s) false ∧
      t.initialised 2 = true ∧ t.initialised 3 = true ∧ AtNext s t) ∧
  (∀ (f : BitVec 13) (s : State), readable s .byte (fileAddr f) = true →
    let rw : Reg := match s.device.mulwfSource with
      | .w0 => 0
      | .w2 => 2
    ∃ t, exec (.mulF .byte f) s = .next t ∧
      (t.reg 2).toNat = (lowByte (s.reg rw)).toNat * (memValue .byte (fileAddr f) s).toNat ∧
      t.initialised 2 = true ∧ t.reg 3 = s.reg 3 ∧ AtNext s t)

/-- `DIV.SW`, `DIV.SD`, `DIV.UW` and `DIV.UD` complete in every state: each iteration initialises W0 and W1 and writes N, OV, Z, C
alone of SR; in a loop with RCOUNT = 17 a divisor of zero raises the arithmetic error, however the loop stands, and nothing else
raises a trap; an execution outside a loop, or with RCOUNT above 17, spoils the divide of its loop, and so does one at another
count where no divide is in progress (43_muldiv.md R188, R192, R194, R195; 60_exceptions.md R297, R319; that the divider records
so is the model's bookkeeping, log 26). -/
def Obligations.DivideIterations : Prop :=
  ∀ (i : Instr) (kind : DivKind) (d : BitVec 32) (rn : Reg) (s : State), divideParts i s = some (kind, d, rn) →
    ∃ t, exec i s = .next t ∧ t.initialised 0 = true ∧ t.initialised 1 = true ∧
      t.sr.dc = s.sr.dc ∧ t.sr.ipl = s.sr.ipl ∧ t.sr.ra = s.sr.ra ∧ t.rcount = s.rcount ∧
      t.pendingTraps =
        (if s.sr.ra = true ∧ s.rcount = 17 ∧ s.reg rn = 0 then { s.pendingTraps with arithmeticError := true }
          else s.pendingTraps) ∧
      (s.divider.loop = .fresh → s.rcount ≠ 17 → t.divider.loop = .spoiled) ∧
      ((s.sr.ra = false ∨ 17 < s.rcount.toNat) → t.divider.loop = .spoiled) ∧
      (s.divider.loop = .spoiled → t.divider.loop = .spoiled) ∧ AtNext s t

/-- The single-bit shifts: where the result goes, and N, Z and C. OV is left open (44_shift.md R200 to R202, R205, R206, R209,
R210). An address formed from W15 is checked (60_exceptions.md R300). -/
def Obligations.ShiftOneForms : Prop :=
  (∀ (op : ShiftOp) (b : Size) (d : Dest) (f : BitVec 13) (i : Instr) (s : State),
    ((op = .asr ∧ i = .asrF b d f) ∨ (op = .lsr ∧ i = .lsrF b d f) ∨ (op = .sl ∧ i = .slF b d f)) →
    readable s b (fileAddr f) = true → fileReady b d f s = true →
    let r := shift1 op b (memValue b (fileAddr f) s)
    ∃ t, exec i s = .next t ∧ FileResult b d f r.res s t ∧ ShiftFlagsAre r t ∧ AtNext s t) ∧
  (∀ (op : ShiftOp) (b : Size) (q : Mode) (rd : Reg) (p : Mode) (rs : Reg) (i : Instr) (s : State),
    ((op = .asr ∧ i = .asrWs b q rd p rs) ∨ (op = .lsr ∧ i = .lsrWs b q rd p rs) ∨
      (op = .sl ∧ i = .slWs b q rd p rs)) →
    collides (modeOperand p rs) (modeOperand q rd) = false → sourceReady b (modeOperand p rs) s = true →
    destReady b (modeOperand q rd) s = true → notSr b (modeOperand q rd) s = true →
    let r := shift1 op b (sourceValue b (modeOperand p rs) s)
    ∃ t, exec i s = .next t ∧ Delivered b (modeOperand q rd) r.res s t ∧ ShiftFlagsAre r t ∧
      PointerMoved (sizeBytes b) (modeOperand p rs) (effectOf i s) s t ∧
      PointerMoved (sizeBytes b) (modeOperand q rd) (effectOf i s) s t ∧
      StackMarked ((modeOperand p rs).stackAddrs (sizeBytes b) s) ((modeOperand q rd).stackAddrs (sizeBytes b) s) s t ∧
      AtNext s t)

/-- The shifts of the shifter, by a literal and by a register whose count is at most 15 (44_shift.md R203, R204, R207, R208, R211,
R212). -/
def Obligations.ShiftManyForms : Prop :=
  (∀ (op : ShiftOp) (rb rd : Reg) (k : BitVec 4) (i : Instr) (s : State),
    ((op = .asr ∧ i = .asrLit rb rd k) ∨ (op = .lsr ∧ i = .lsrLit rb rd k) ∨ (op = .sl ∧ i = .slLit rb rd k)) →
    ∃ t, exec i s = .next t ∧ ShiftedTo op (s.reg rb) k rd s t) ∧
  (∀ (op : ShiftOp) (rb rd rs : Reg) (i : Instr) (s : State),
    ((op = .asr ∧ i = .asrWns rb rd rs) ∨ (op = .lsr ∧ i = .lsrWns rb rd rs) ∨ (op = .sl ∧ i = .slWns rb rd rs)) →
    (s.reg rs).toNat ≤ 15 → ∃ t, exec i s = .next t ∧ ShiftedTo op (s.reg rb) ((s.reg rs).extractLsb' 0 4) rd s t)

/-- A shift by a register that holds more than 15 is refused, whatever its registers (44_shift.md R204, R208, R212). -/
def Obligations.ShiftCountAbove15 : Prop :=
  ∀ (op : ShiftOp) (rb rd rs : Reg) (i : Instr) (s : State),
    ((op = .asr ∧ i = .asrWns rb rd rs) ∨ (op = .lsr ∧ i = .lsrWns rb rd rs) ∨ (op = .sl ∧ i = .slWns rb rd rs)) →
    15 < (s.reg rs).toNat → exec i s = .refused .shiftCountAbove15

/-- `BRA`, the fourteen conditional branches, and `GOTO` (45_flow.md R215 to R230, R234). -/
def Obligations.BranchForms : Prop :=
  (∀ (n : BitVec 16) (s : State), ∃ t, exec (.bra n) s = .next t ∧ AtAddr (s.pc.toNat + 2 + 2 * n.toInt) t) ∧
  (∀ (i : Instr) (taken : Bool) (n : BitVec 16) (s : State),
    ((i = .braOV n ∧ taken = s.sr.ov) ∨ (i = .braC n ∧ taken = s.sr.c) ∨ (i = .braZ n ∧ taken = s.sr.z) ∨
      (i = .braN n ∧ taken = s.sr.n) ∨ (i = .braLE n ∧ taken = (s.sr.z || s.sr.n != s.sr.ov)) ∨
      (i = .braLT n ∧ taken = (s.sr.n != s.sr.ov)) ∨ (i = .braLEU n ∧ taken = (!s.sr.c || s.sr.z)) ∨
      (i = .braNOV n ∧ taken = !s.sr.ov) ∨ (i = .braNC n ∧ taken = !s.sr.c) ∨ (i = .braNZ n ∧ taken = !s.sr.z) ∨
      (i = .braNN n ∧ taken = !s.sr.n) ∨ (i = .braGT n ∧ taken = (!s.sr.z && s.sr.n == s.sr.ov)) ∨
      (i = .braGE n ∧ taken = (s.sr.n == s.sr.ov)) ∨ (i = .braGTU n ∧ taken = (s.sr.c && !s.sr.z))) →
    ∃ t, exec i s = .next t ∧ if taken then AtAddr (s.pc.toNat + 2 + 2 * n.toInt) t else AtNext s t) ∧
  (∀ (a : BitVec 22) (s : State), ∃ t, exec (.goto a) s = .next t ∧ t.pc = a ++ 0#1 ∧ t.pcOut = false)

/-- `RCALL` and `CALL` push the address of the next instruction, low word first, and jump (45_flow.md R232, R233, R238), on a stack
in RAM; both addresses are checked (60_exceptions.md R300). -/
def Obligations.CallForms : Prop :=
  ∀ (i : Instr) (ret : ProgAddr) (s : State),
    (((∃ n, i = .rcall n) ∧ ret = s.pc + 2) ∨ ((∃ a, i = .call a) ∧ ret = s.pc + 4)) →
    ramWord s (s.reg 15) = true → ramWord s (s.reg 15 + 2) = true →
    ∃ t, exec i s = .next t ∧ ramRead t .word (s.reg 15) = ret.extractLsb' 0 16 ∧
      ramRead t .word (s.reg 15 + 2) = 0#9 ++ ret.extractLsb' 16 7 ∧ t.reg 15 = s.reg 15 + 4 ∧
      StackMarked [] [((s.reg 15).toNat : Int), ((s.reg 15 + 2).toNat : Int)] s t ∧
      (∀ n, i = .rcall n → AtAddr (s.pc.toNat + 2 + 2 * n.toInt) t) ∧
      (∀ a, i = .call a → t.pc = a ++ 0#1 ∧ t.pcOut = false)

/-- `RETURN`, `RETFIE` and `RETLW` pop two words, the high one first, and go to the address they hold; `RETFIE` also restores
SRL and IPL3, and `RETLW` writes its register first (45_flow.md R235 to R238), on a stack in RAM. Both addresses are checked
(60_exceptions.md R300). -/
def Obligations.ReturnForms : Prop :=
  ∀ s : State,
    let hi := ramRead s .word (s.reg 15 - 2)
    let lo := ramRead s .word (s.reg 15 - 4)
    let back := fun t : State =>
      t.pc = hi.extractLsb' 0 7 ++ lo.extractLsb' 1 15 ++ 0#1 ∧ t.pcOut = false ∧ t.reg 15 = s.reg 15 - 4 ∧
      StackMarked [((s.reg 15).toNat : Int) - 2, ((s.reg 15 - 2).toNat : Int) - 2] [] s t
    ramWord s (s.reg 15 - 2) = true → ramWord s (s.reg 15 - 4) = true →
    (∃ t, exec .ret s = .next t ∧ back t ∧ t.sr = s.sr ∧ t.corcon = s.corcon) ∧
    (∃ t, exec .retfie s = .next t ∧ back t ∧
      t.sr =
        { dc := s.sr.dc, ipl := hi.extractLsb' 13 3, ra := hi.getLsbD 12, n := hi.getLsbD 11, ov := hi.getLsbD 10
          z := hi.getLsbD 9, c := hi.getLsbD 8 } ∧
      t.corcon.ipl3 = hi.getLsbD 7 ∧ t.corcon.psv = s.corcon.psv) ∧
    (∀ (b : Size) (k : BitVec 10) (rd : Reg), rd ≠ 15 → (b = .byte → k.toNat ≤ 255) →
      ∃ t, exec (.retlw b k rd) s = .next t ∧ back t ∧ Delivered b (.reg rd) (k.setWidth 16) s t ∧ t.sr = s.sr)

/-- `REPEAT` loads RCOUNT and sets RA where the count is not zero (46_repeat.md R250, R251); a zero count leaves RA as it was
(R253), and the high two bits of `Wn` are dropped. No divide has run in the new loop, which is the model's bookkeeping for
43_muldiv.md R188 (log 26). -/
def Obligations.RepeatForms : Prop :=
  ∀ (i : Instr) (k : BitVec 14) (s : State),
    (i = .repeatLit k ∨ ∃ r, i = .repeatWn r ∧ k = (s.reg r).extractLsb' 0 14) →
    ∃ t, exec i s = .next t ∧ t.rcount = k ∧ AtNext s t ∧
      t.divider = { s.divider with loop := .fresh } ∧
      (k ≠ 0 → t.sr = { s.sr with ra := true }) ∧ (k = 0 → t.sr = s.sr)

/-- `DISI` loads DISICNT, and notes it for the end of the step (47_system.md R268); `PWRSAV` stops the CPU (R269), which then
waits until a request or a trap is pending; `RESET` is a device reset (R270). That a stopped CPU stays as it is for a step, and
wakes at the first request, is the model's choice (log 31). -/
def Obligations.SystemForms : Prop :=
  (∀ (k : BitVec 14) (s : State),
    ∃ t, exec (.disi k) s = .next t ∧ t.disicnt = k ∧ t.notes.wroteDisicnt = true ∧ AtNext s t) ∧
  (∀ (k : BitVec 1) (s : State), ∃ t, exec (.pwrsav k) s = .next t ∧
    t.power = (if k = 0 then .sleep else .idle) ∧ AtNext s t) ∧
  (∀ s : State, exec .reset s = .next (deviceReset .software s)) ∧
  (∀ s : State, s.power ≠ .running →
    (s.pending = [] → s.pendingTraps = .none → step s = .next s) ∧
    ((s.pending ≠ [] ∨ s.pendingTraps ≠ .none) → step s = step { s with power := .running }))

/-- The table reads: the pointer moves, and where program memory holds the word they address, TBLPAG<7> being 0, the destination
receives the bytes of it that each instruction takes (47_system.md R271 to R273). A destination address formed from W15 is
checked (60_exceptions.md R300). -/
def Obligations.TableReads : Prop :=
  ∀ (b : Size) (q : Mode) (rd : Reg) (p : PtrMode) (rs : Reg) (s : State),
    let a := trunc16 (ptrAddr (sizeBytes b) p (s.reg rs))
    let odd := a.getLsbD 0
    collides (.ptr p rs) (modeOperand q rd) = false → rs ≠ 15 → s.initialised rs = true →
    (b = .word → odd = false) → destReady b (modeOperand q rd) s = true →
    (∃ t, exec (.tblrdl b q rd p rs) s = .next t ∧ AtNext s t ∧
      PointerMoved (sizeBytes b) (.ptr p rs) (effectOf (.tblrdl b q rd p rs) s) s t ∧
      PointerMoved (sizeBytes b) (modeOperand q rd) (effectOf (.tblrdl b q rd p rs) s) s t ∧
      StackMarked [] ((modeOperand q rd).stackAddrs (sizeBytes b) s) s t ∧
      ∀ w, s.tblpag.getLsbD 7 = false → s.progWord (s.tblpag.toNat * 2 ^ 16 + a.toNat / 2 * 2) = some w →
        Delivered b (modeOperand q rd) (match b with
          | .word => w.extractLsb' 0 16
          | .byte => if odd then (w.extractLsb' 8 8).setWidth 16 else (w.extractLsb' 0 8).setWidth 16) s t) ∧
    (∃ t, exec (.tblrdh b q rd p rs) s = .next t ∧ AtNext s t ∧
      PointerMoved (sizeBytes b) (.ptr p rs) (effectOf (.tblrdh b q rd p rs) s) s t ∧
      PointerMoved (sizeBytes b) (modeOperand q rd) (effectOf (.tblrdh b q rd p rs) s) s t ∧
      StackMarked [] ((modeOperand q rd).stackAddrs (sizeBytes b) s) s t ∧
      ∀ w, s.tblpag.getLsbD 7 = false → s.progWord (s.tblpag.toNat * 2 ^ 16 + a.toNat / 2 * 2) = some w →
        Delivered b (modeOperand q rd) (match b with
          | .word => (w.extractLsb' 16 8).setWidth 16
          | .byte => if odd then 0 else (w.extractLsb' 16 8).setWidth 16) s t)

/-- `TBLWTL` and `TBLWTH` are refused in every form, as 47_system.md R274 and R275 say. -/
def Obligations.TableWritesRefused : Prop :=
  ∀ (b : Size) (q : PtrMode) (rd : Reg) (p : Mode) (rs : Reg) (s : State),
    exec (.tblwtl b q rd p rs) s = .refused .tableWrite ∧ exec (.tblwth b q rd p rs) s = .refused .tableWrite

/-- The other combinations the spec refuses: register collisions of every instruction that can have one (30_encoding.md R109;
40_move.md R139; 43_muldiv.md R181), `RETLW` to W15 (45_flow.md R237), a byte-mode literal above 255 (30_encoding.md R110), a
byte-mode modification of W15 (R108), SR as the data destination of every instruction that sets flags (10_state.md R42), W15
as a table pointer and a word table access at an odd address (47_system.md R271), and an instruction that may not be
repeated under an active loop, `CALL` and `GOTO` among them (46_repeat.md R257). A misaligned store is no store to SR but an
address error, in the model's choice of the order (log 21). -/
def Obligations.RefusedForms : Prop :=
  (∀ (i : Instr) (b : Size) (src dst : Operand) (r : Reg) (s : State), operandsOf i = some (b, src, dst) →
    ((src.modified = some r ∧ dst.modified = some r) ∨ (src.modified = some r ∧ dst = .reg r) ∨
      (src.modified = some r ∧ dst.addresses r = true) ∨ (dst.modified = some r ∧ src.addresses r = true)) →
    exec i s = .refused .registerCollision) ∧
  (∀ (rd : Pair) (p : PtrMode) (rs : Reg) (s : State), rs = pairLow rd ∨ rs = pairHigh rd →
    exec (.movDLd rd (.ptr p) rs) s = .refused .registerCollision) ∧
  (∀ (i : Instr) (rb : Reg) (d : MulPair) (p : Mode) (rs r : Reg) (s : State),
    (i = .mulSS rb d p rs ∨ i = .mulSU rb d p rs ∨ i = .mulUS rb d p rs ∨ i = .mulUU rb d p rs) →
    (modeOperand p rs).modified = some r → (r = pairLow (pairOfMul d) ∨ r = pairHigh (pairOfMul d)) →
    exec i s = .refused .registerCollision) ∧
  (∀ (b : Size) (k : BitVec 10) (s : State), exec (.retlw b k 15) s = .refused .registerCollision) ∧
  (∀ (k : BitVec 10) (rd : Reg) (s : State), 255 < k.toNat →
    exec (.addLit10 .byte k rd) s = .refused .lit10AboveByte ∧
    (rd ≠ 15 → exec (.retlw .byte k rd) s = .refused .lit10AboveByte)) ∧
  (∀ (i : Instr) (src dst : Operand) (s : State), operandsOf i = some (.byte, src, dst) → familyOf i ≠ .table →
    collides src dst = false → (src.modified = some 15 ∨ (sourceReady .byte src s = true ∧ dst.modified = some 15)) →
    exec i s = .refused .byteModifyW15) ∧
  (∀ (q : Mode) (p : PtrMode) (rs rd : Reg) (s : State), collides (.ptr p rs) (modeOperand q rd) = false →
    tableReady .byte p rs s = true → (modeOperand q rd).modified = some 15 →
    exec (.tblrdl .byte q rd p rs) s = .refused .byteModifyW15 ∧
    exec (.tblrdh .byte q rd p rs) s = .refused .byteModifyW15) ∧
  (∀ (m : Mode) (r rb : Reg) (j : BitVec 4) (k : BitVec 5) (s : State), (modeOperand m r).modified = some 15 →
    exec (.bsetWs j .byte m r) s = .refused .byteModifyW15 ∧
    exec (.addLit5 .byte rb m r k) s = .refused .byteModifyW15) ∧
  (∀ (b : Size) (f : BitVec 13) (s : State), readable s b (fileAddr f) = true →
    coreRegAt s.device.sfr (fileAddr f) = some .sr →
    exec (.movF b .file f) s = .refused .srDestination ∧ exec (.addF b .file f) s = .refused .srDestination ∧
    exec (.asrF b .file f) s = .refused .srDestination ∧ exec (.lsrF b .file f) s = .refused .srDestination ∧
    exec (.slF b .file f) s = .refused .srDestination) ∧
  (∀ (i : Instr) (b : Size) (src dst : Operand) (a : Int) (s : State), operandsOf i = some (b, src, dst) →
    (familyOf i = .alu ∨ familyOf i = .shift) → collides src dst = false → sourceReady b src s = true →
    dst.initialised s = true → byteModifiesW15 (sizeBytes b) dst = false → dst.addr (sizeBytes b) s = some a →
    coreRegAt s.device.sfr (trunc16 a) = some .sr →
    exec i s =
      if misaligned b (trunc16 a) then .fault (.addressError (trunc16 a)) else .refused .srDestination) ∧
  (∀ (b : Size) (rb : Reg) (p : PtrMode) (rd : Reg) (k : BitVec 5) (s : State),
    let a := trunc16 (ptrAddr (sizeBytes b) p (s.reg rd))
    s.initialised rd = true → byteModifiesW15 (sizeBytes b) (.ptr p rd) = false →
    coreRegAt s.device.sfr a = some .sr →
    exec (.addLit5 b rb (.ptr p) rd k) s =
      if misaligned b a then .fault (.addressError a) else .refused .srDestination) ∧
  (∀ (b : Size) (q : Mode) (rd : Reg) (p : PtrMode) (s : State),
    collides (.ptr p 15) (modeOperand q rd) = false →
    exec (.tblrdl b q rd p 15) s = .refused .tablePointerW15 ∧
    exec (.tblrdh b q rd p 15) s = .refused .tablePointerW15) ∧
  (∀ (q : Mode) (rd : Reg) (p : PtrMode) (rs : Reg) (s : State),
    collides (.ptr p rs) (modeOperand q rd) = false → rs ≠ 15 → s.initialised rs = true → (s.reg rs).getLsbD 0 = true →
    exec (.tblrdl .word q rd p rs) s = .refused .tableMisaligned ∧
    exec (.tblrdh .word q rd p rs) s = .refused .tableMisaligned) ∧
  (∀ i : Instr, mayRepeat i = false ↔
    relativeBranch i ∨ (∃ j f, i = .btscF j f) ∨ (∃ j p r, i = .btscWs j p r) ∨ (∃ n, i = .rcall n) ∨
      (∃ a, i = .call a) ∨ (∃ a, i = .goto a) ∨ i = .ret ∨ i = .retfie ∨ (∃ b k r, i = .retlw b k r) ∨
      (∃ k, i = .repeatLit k) ∨ (∃ r, i = .repeatWn r) ∨ (∃ k, i = .disi k) ∨ i = .ulnk ∨ (∃ k, i = .lnk k) ∨
      (∃ k, i = .pwrsav k) ∨ i = .reset ∨ (∃ d p r, i = .movDLd d p r) ∨ (∃ q r d, i = .movDSt q r d)) ∧
  (∀ (s : State) (i : Instr), quiet s = true → atInstr s i → s.sr.ra = true → mayRepeat i = false →
    step s = .refused .invalidRepeatTarget) ∧
  (∀ (s : State) (w : ProgWord), quiet s = true → s.progWord s.pc.toNat = some w → isTwoWord w = true →
    s.sr.ra = true → step s = .refused .invalidRepeatTarget)

/-! ## Frames -/

/-- The moves change their destination, the pointers their modes modify, the bytes they store, and `MOV f` N and Z; nothing else
(40_move.md R141). -/
def Obligations.MoveFrame : Prop :=
  ∀ (i : Instr) (s t : State), familyOf i = .move → exec i s = .next t → Ran t → Frame (effectOf i s) s t

/-- The same for `PUSH`, `POP`, `PUSH.S`, `POP.S`, `LNK` and `ULNK` (41_stack.md R150 to R157). -/
def Obligations.StackFrame : Prop :=
  ∀ (i : Instr) (s t : State), familyOf i = .stack → exec i s = .next t → Ran t → Frame (effectOf i s) s t

/-- The same for `ADD`, `BSET` and `BTSC` (42_alu_bit.md R166 to R173). -/
def Obligations.AluFrame : Prop :=
  ∀ (i : Instr) (s t : State), familyOf i = .alu → exec i s = .next t → Ran t → Frame (effectOf i s) s t

/-- The same for the multiplies, which write no flag, and for an iteration of a divide (43_muldiv.md R180 to R193). -/
def Obligations.MulDivFrame : Prop :=
  ∀ (i : Instr) (s t : State), familyOf i = .multiply ∨ familyOf i = .divide → exec i s = .next t → Ran t →
    Frame (effectOf i s) s t

/-- The same for the shifts (44_shift.md R200 to R212). -/
def Obligations.ShiftFrame : Prop :=
  ∀ (i : Instr) (s t : State), familyOf i = .shift → exec i s = .next t → Ran t → Frame (effectOf i s) s t

/-- The same for branches, calls and returns (45_flow.md R215 to R238). -/
def Obligations.FlowFrame : Prop :=
  ∀ (i : Instr) (s t : State), familyOf i = .flow → exec i s = .next t → Ran t → Frame (effectOf i s) s t

/-- The same for `REPEAT`, the system instructions and the table reads (46_repeat.md R250, R251; 47_system.md R265 to R273). -/
def Obligations.SystemFrame : Prop :=
  ∀ (i : Instr) (s t : State), familyOf i = .loop ∨ familyOf i = .system ∨ familyOf i = .table →
    exec i s = .next t → Ran t → Frame (effectOf i s) s t

/-! ## Exceptions and reset -/

/-- Taking an exception on a stack in RAM: the two stacked words, W15, RA, the CPU level, the removal of the trap, the stack checks of
the two pushes, the PC at the handler that VECTOR gives, SplimJustWritten cleared (70_reset_and_hazards.md R340), and everything
the entry leaves alone, the other pending traps among it (60_exceptions.md R305); without a VECTOR for the exception the run ends
in the fault of its name (R306, R319). That VECTOR is what the device's list gives first, or else bits 22:0 of the word of the
family's table in program memory, is the model's choice (log 10), and the levels of the traps, 14, 13, 12 and 11, are those of
R308 (log 12). -/
def Obligations.EntrySaves : Prop :=
  (∀ (e : ExcSource) (slot : Nat) (s : State),
    ((e = .trap .oscillatorFailure ∧ slot = 0x000006) ∨ (e = .trap .addressError ∧ slot = 0x000008) ∨
      (e = .trap .stackError ∧ slot = 0x00000A) ∨ (e = .trap .arithmeticError ∧ slot = 0x00000C) ∨
      (∃ n, e = .interrupt n ∧ slot = 0x000014 + 2 * n)) →
    (∀ a l m, s.device.vectors = l ++ (e, a) :: m → (∀ x ∈ l, x.1 ≠ e) → vectorOf s e = some a) ∧
    ((∀ a, (e, a) ∉ s.device.vectors) →
      (∀ w, s.progWord slot = some w → vectorOf s e = some (w.extractLsb' 0 23)) ∧
      (s.progWord slot = none → vectorOf s e = none))) ∧
  (∀ (e : ExcSource) (p : BitVec 3) (s : State), vectorOf s e = none →
    finish s (enter e p s) = .fault (.noVector e)) ∧
  ∀ (e : ExcSource) (p : BitVec 3) (handler : ProgAddr) (s : State), vectorOf s e = some handler →
    ramWord s (s.reg 15) = true → ramWord s (s.reg 15 + 2) = true →
    ∃ t, enter e p s = .ok t ∧
      ramRead t .word (s.reg 15) = s.pc.extractLsb' 0 16 ∧
      ramRead t .word (s.reg 15 + 2) =
        (s.sr.ipl ++ BitVec.ofBool s.sr.ra ++ BitVec.ofBool s.sr.n ++ BitVec.ofBool s.sr.ov ++ BitVec.ofBool s.sr.z ++
          BitVec.ofBool s.sr.c) ++ BitVec.ofBool s.corcon.ipl3 ++ s.pc.extractLsb' 16 7 ∧
      t.reg 15 = s.reg 15 + 4 ∧
      t.pc = handler &&& 0x7FFFFE ∧ t.pcOut = false ∧
      (match e with
        | .interrupt _ => t.sr = { s.sr with ra := false, ipl := p } ∧ t.corcon = s.corcon
        | .trap x =>
          t.sr =
            { s.sr with
              ra := false
              ipl := match x with
                | .oscillatorFailure => 6
                | .addressError => 5
                | .stackError => 4
                | .arithmeticError => 3 } ∧
          t.corcon = { s.corcon with ipl3 := true } ∧ t.pendingTraps.has x = false) ∧
      (e ≠ .trap .stackError →
        t.pendingTraps.stackError =
          (s.pendingTraps.stackError || badStackAddr (s.reg 15).toNat s || badStackAddr (s.reg 15 + 2).toNat s)) ∧
      (∀ x : Trap, e ≠ .trap x → x ≠ .stackError → t.pendingTraps.has x = s.pendingTraps.has x) ∧
      t.splimJustWritten = false ∧ t.notes = .empty ∧
      t.power = s.power ∧ t.nstdis = s.nstdis ∧ t.prog = s.prog ∧ t.device = s.device ∧ t.periphWrites = s.periphWrites ∧
      t.ramEpoch = s.ramEpoch ∧
      (∀ r, r ≠ 15 → t.reg r = s.reg r ∧ t.initialised r = s.initialised r) ∧
      t.rcount = s.rcount ∧ t.disicnt = s.disicnt ∧ t.tblpag = s.tblpag ∧ t.psvpag = s.psvpag ∧ t.splim = s.splim ∧
      t.splimEn = s.splimEn ∧ t.shadow = s.shadow ∧ t.pending = s.pending ∧
      (∀ n, (n < (s.reg 15).toNat ∨ (s.reg 15).toNat + 4 ≤ n) → t.ramByte n = s.ramByte n)

/-- `RETFIE` undoes the entry (45_flow.md R236; 60_exceptions.md R311): whatever the handler did, and wherever in RAM the two
stacked words now stand, `RETFIE` from them restores the PC, all of SRL and IPL3, and takes them off the stack. A loop that
was interrupted goes on as it stood, with its divide, where W0, W1, the divisor and RCOUNT are as they were, and as an improper
one where they are not (43_muldiv.md R188, R195): from a frame with bytes of the one that the exception stacked for it, wherever
they now stand and whatever other loops are interrupted, if it is yet to be returned to by that frame or stands as it was; from
one that software made anew, where it stands as it was and no other loop does, or the place, the own frames that wait on the
stack, and what has been returned into single it out among those; and where none stands as it was, where these do. How the
divide and the frame are kept is the model's bookkeeping (log 26), and the layout of the words is log 13. -/
def Obligations.ReturnUndoesEntry : Prop :=
  ∀ (e : ExcSource) (p : BitVec 3) (s t h : State),
    ramWord s (s.reg 15) = true → ramWord s (s.reg 15 + 2) = true → s.pc.getLsbD 0 = false →
    enter e p s = .ok t →
    ramWord h (h.reg 15 - 2) = true → ramWord h (h.reg 15 - 4) = true →
    ramRead h .word (h.reg 15 - 4) = ramRead t .word (s.reg 15) →
    ramRead h .word (h.reg 15 - 2) = ramRead t .word (s.reg 15 + 2) →
    let entry : Suspended :=
      { id := s.divider.suspended.length, pc := s.pc, count := s.rcount, loop := s.divider.loop
        scratch := { w0 := s.reg 0, w1 := s.reg 1, n := s.sr.n, z := s.sr.z, c := s.sr.c }
        returned := false, frame := s.reg 15, stacked := true }
    let a := h.reg 15 - 4
    (s.sr.ra = true → t.divider.suspended = entry :: s.divider.suspended ∧
      ∀ k : Word, k.toNat < 4 → t.divider.originOf (.ram (s.reg 15 + k).toNat) = some entry.id) ∧
    ∃ u, exec .retfie h = .next u ∧ u.pc = s.pc ∧ u.pcOut = false ∧ u.sr = { s.sr with dc := h.sr.dc } ∧
      u.corcon = { h.corcon with ipl3 := s.corcon.ipl3 } ∧ u.reg 15 = a ∧
      (∀ r, r ≠ 15 → u.reg r = h.reg r) ∧
      (∀ (later earlier : List Suspended) (gone onStack : Bool),
        let x : Suspended := { entry with returned := gone, stacked := onStack }
        s.sr.ra = true → h.divider.suspended = later ++ x :: earlier →
        let origin (k : Word) := h.divider.originOf (.ram (a + k).toNat)
        let stands (y : Suspended) := y.standsIn u = true
        let elsewhere (y : Suspended) := y.waits h = true ∧ y.frame ≠ a
        let rival (y : Suspended) := stands x → stands y
        (((∃ k : Word, k.toNat < 4 ∧ origin k = some x.id) ∧
            (∀ k : Word, k.toNat < 4 → origin k = some x.id ∨ origin k = none) ∧
            (∀ y ∈ later ++ earlier, y.id ≠ x.id) ∧
            (stands x ∨ (gone = false ∧ ¬ elsewhere x) ∨ ∀ y ∈ later ++ earlier, y.returned = true ∨ ¬ stands y)) ∨
          (((∀ k : Word, k.toNat < 4 → origin k = none) ∨
              (stands x ∧ gone = false ∧ ∀ k : Word, k.toNat < 4 → ∀ y ∈ later ++ earlier, origin k = some y.id →
                ¬ stands y ∧ (y.returned = true ∨ elsewhere y))) ∧
            (stands x ∨ ∀ y ∈ later ++ earlier, ¬ stands y) ∧
            ((gone = false ∧ a = s.reg 15 ∧ ∀ y ∈ later, rival y → y.returned = true ∨ y.frame ≠ a) ∨
              ((gone = true ∨ a ≠ s.reg 15) ∧
                ∀ y ∈ later ++ earlier, rival y → (y.returned = true ∨ y.frame ≠ a) ∧
                  (y.pc ≠ s.pc ∨ (gone = false ∧ y.returned = true) ∨
                    (y.returned = gone ∧
                      ((x.waits h = false ∧ y.waits h = true) ∨
                        (y.waits h = x.waits h ∧
                          ((y.loop ≠ .spoiled ∧ y.loopIn u = .spoiled) ∨
                            (y.loopIn u = x.loopIn u ∧ (y.loop = .spoiled → x.loop = .spoiled))))))))))) →
        (s.divider.loop = .spoiled → u.divider.loop = .spoiled) ∧
        (s.divider.loop = .fresh → u.divider.loop = if u.rcount = s.rcount then .fresh else .spoiled) ∧
        (∀ d, s.divider.loop = .running d → d.standsIn s = true →
          u.divider.loop =
            if u.rcount = s.rcount ∧ u.reg 0 = s.reg 0 ∧ u.reg 1 = s.reg 1 ∧ u.reg d.rn = s.reg d.rn then .running d
            else .spoiled))

/-- RA across entry: the stacked word keeps it in bit 12, the live bit is 0 in the handler, so that the loop mechanism leaves the
handler's first instruction alone, and RCOUNT keeps the remaining count (60_exceptions.md R309). -/
def Obligations.HandlerRa : Prop :=
  ∀ (e : ExcSource) (p : BitVec 3) (s : State), vectorOf s e ≠ none →
    ramWord s (s.reg 15) = true → ramWord s (s.reg 15 + 2) = true →
    ∃ t, enter e p s = .ok t ∧ (ramRead t .word (s.reg 15 + 2)).getLsbD 12 = s.sr.ra ∧ t.sr.ra = false ∧
      t.rcount = s.rcount ∧ ∀ u : State, loopUpdate t u = u

/-- What is done at a boundary: a pending trap before any interrupt, the highest first; else the request of highest priority where it
is above the CPU level and DISI does not hold it back; else an instruction (60_exceptions.md R303, R304, R308). That the
request is taken at the first boundary, and that a tie goes to the lower source number, are the model's choices (log 11). -/
def Obligations.Acceptance : Prop :=
  (∀ s : State, s.power = .running → s.pcOut = false →
    let level := (if s.corcon.ipl3 then 8 else 0) + s.sr.ipl.toNat
    (s.pendingTraps.oscillatorFailure = true → step s = finish s (enter (.trap .oscillatorFailure) 0 s)) ∧
    (s.pendingTraps.oscillatorFailure = false → s.pendingTraps.addressError = true →
      step s = finish s (enter (.trap .addressError) 0 s)) ∧
    (s.pendingTraps.oscillatorFailure = false → s.pendingTraps.addressError = false →
      s.pendingTraps.stackError = true → step s = finish s (enter (.trap .stackError) 0 s)) ∧
    (s.pendingTraps.oscillatorFailure = false → s.pendingTraps.addressError = false →
      s.pendingTraps.stackError = false → s.pendingTraps.arithmeticError = true →
      step s = finish s (enter (.trap .arithmeticError) 0 s)) ∧
    (s.pendingTraps = .none →
      (∀ r, bestRequest s.pending = some r → level < r.priority.toNat → (s.disicnt = 0 ∨ r.priority = 7) →
        step s = finish s (enter (.interrupt r.source) r.priority s)) ∧
      (∀ r, bestRequest s.pending = some r →
        (r.priority.toNat ≤ level ∨ (s.disicnt ≠ 0 ∧ r.priority.toNat ≤ 6)) → step s = stepInstruction s) ∧
      (s.pending = [] → step s = stepInstruction s))) ∧
  (∀ l : List Request, (bestRequest l = none ↔ l = []) ∧
    ∀ r, bestRequest l = some r → r ∈ l ∧
      ∀ x ∈ l, x.priority.toNat ≤ r.priority.toNat ∧ (x.priority = r.priority → r.source ≤ x.source))

/-- The stack check, and that a push which fails it still writes its word and advances W15; a plain write of W15 is not checked
(60_exceptions.md R296, R300). In the hazard of 70_reset_and_hazards.md R340 the limit comparison of a read
is open, where the check is enabled; the tests of underflow and of the end of data space are not (log 25). -/
def Obligations.StackErrorLaw : Prop :=
  (∀ (isRead : Bool) (a : Int) (s : State),
    ((isRead = false ∨ s.splimJustWritten = false) →
      stackCheck isRead a s = if badStackAddr a s then s.raise .stackError else s) ∧
    (outsideStackSpace a s = true → (stackCheck isRead a s).pendingTraps.stackError = true) ∧
    (s.splimEn = false →
      (stackCheck isRead a s).pendingTraps.stackError = (s.pendingTraps.stackError || decide (a < 0x0800))) ∧
    (∃ v n, stackCheck isRead a s =
      { s with pendingTraps := { s.pendingTraps with stackError := v }, free := n })) ∧
  (∀ (v : Word) (s : State), ramWord s (s.reg 15) = true →
    ∃ t, push16 v s = .ok t ∧ ramRead t .word (s.reg 15) = v ∧ t.reg 15 = s.reg 15 + 2 ∧
      t.pendingTraps =
        { s.pendingTraps with stackError := s.pendingTraps.stackError || badStackAddr (s.reg 15).toNat s }) ∧
  (∀ (k : BitVec 16) (s : State), ∃ t, exec (.movLit16 k 15) s = .next t ∧ t.pendingTraps = s.pendingTraps)

/-- Dividing by zero: the first iteration completes, with RCOUNT at 16, RA set and the PC still on the divide, and the next step takes
the arithmetic error trap, however the loop stands (43_muldiv.md R194; 60_exceptions.md R297, R319). -/
def Obligations.DivideByZero : Prop :=
  ∀ (s : State) (i : Instr) (kind : DivKind) (d : BitVec 32) (rn : Reg),
    atInstr s i → divideParts i s = some (kind, d, rn) → s.reg rn = 0 →
    calm s = true → s.sr.ra = true → s.rcount = 17 →
    ∃ t, step s = .next t ∧ t.pc = s.pc ∧ t.rcount = 16 ∧ t.sr.ra = true ∧
      t.pendingTraps = { s.pendingTraps with arithmeticError := true } ∧
      step t = finish t (enter (.trap .arithmeticError) 0 t)

/-- Using an uninitialised register as an address pointer, or as the offset register, resets the device instead of executing the
instruction: every source and every destination operand with an addressing mode, the moves with an offset, `ADD #lit5`,
`BSET`, `BTSC`, the multiplies, `MOV.D` and the pointers of the table reads (10_state.md R28; 60_exceptions.md R299). That a
collision or a stop of the source comes first is the order of 30_encoding.md R109. -/
def Obligations.UninitPointerResets : Prop :=
  (∀ (b : Size) (k : BitVec 10) (rd rs : Reg) (s : State), s.initialised rs = false →
    exec (.movOffLd b k rd rs) s = .next (deviceReset .uninitW s)) ∧
  (∀ (b : Size) (k : BitVec 10) (rd rs : Reg) (s : State), s.initialised rd = false →
    exec (.movOffSt b k rd rs) s = .next (deviceReset .uninitW s)) ∧
  (∀ (i : Instr) (b : Size) (src dst : Operand) (s : State), operandsOf i = some (b, src, dst) →
    collides src dst = false →
    (src.initialised s = false ∨ (familyOf i ≠ .table ∧ sourceReady b src s = true ∧ dst.initialised s = false)) →
    exec i s = .next (deviceReset .uninitW s)) ∧
  (∀ (b : Size) (q : PtrMode) (rd : Reg) (p : PtrMode) (rs : Reg) (s : State),
    collides (.ptr p rs) (.ptr q rd) = false → tableReady b p rs s = true → s.initialised rd = false →
    exec (.tblrdl b (.ptr q) rd p rs) s = .next (deviceReset .uninitW s) ∧
    exec (.tblrdh b (.ptr q) rd p rs) s = .next (deviceReset .uninitW s)) ∧
  (∀ (b : Size) (rb : Reg) (q : PtrMode) (rd : Reg) (k : BitVec 5) (s : State), s.initialised rd = false →
    exec (.addLit5 b rb (.ptr q) rd k) s = .next (deviceReset .uninitW s)) ∧
  (∀ (j : BitVec 4) (b : Size) (p : PtrMode) (rs : Reg) (s : State), s.initialised rs = false →
    exec (.bsetWs j b (.ptr p) rs) s = .next (deviceReset .uninitW s) ∧
    exec (.btscWs j (.ptr p) rs) s = .next (deviceReset .uninitW s)) ∧
  (∀ (rb : Reg) (d : MulPair) (p : PtrMode) (rs : Reg) (s : State), s.initialised rs = false →
    (Operand.ptr p rs).modified ≠ some (pairLow (pairOfMul d)) →
    (Operand.ptr p rs).modified ≠ some (pairHigh (pairOfMul d)) →
    exec (.mulSS rb d (.ptr p) rs) s = .next (deviceReset .uninitW s) ∧
    exec (.mulSU rb d (.ptr p) rs) s = .next (deviceReset .uninitW s) ∧
    exec (.mulUS rb d (.ptr p) rs) s = .next (deviceReset .uninitW s) ∧
    exec (.mulUU rb d (.ptr p) rs) s = .next (deviceReset .uninitW s)) ∧
  (∀ (rd : Pair) (p : PtrMode) (rs : Reg) (s : State), s.initialised rs = false → rs ≠ pairLow rd → rs ≠ pairHigh rd →
    exec (.movDLd rd (.ptr p) rs) s = .next (deviceReset .uninitW s)) ∧
  (∀ (p : PtrMode) (rd : Reg) (rs : Pair) (s : State), s.initialised rd = false →
    exec (.movDSt (.ptr p) rd rs) s = .next (deviceReset .uninitW s))

/-- What every reset does (70_reset_and_hazards.md R330): the registers with a value, the hidden bits, nothing pending, the PC at
0x000000, program memory kept. That RAM is kept unless it is a power-on is 92_eei_decisions.md D22 (log 32), and that its bytes
then read as a free value of the power-on and the address is the model's choice (log 8). The CPU runs after it, for a reset wakes
it (47_system.md R269; log 31); that NSTDIS, the device and the record of peripheral writes are kept is the model's choice (log
32), and no loop and no divide is under way (log 26). -/
def Obligations.ResetState : Prop :=
  ∀ (c : ResetCause) (s : State),
    let t := deviceReset c s
    (∀ r : Reg, r ≠ 15 → t.reg r = 0 ∧ t.initialised r = false) ∧ t.reg 15 = 0x0800 ∧
    t.splim.getLsbD 0 = false ∧ t.splimEn = false ∧ t.splimJustWritten = false ∧ t.pc = 0 ∧ t.pcOut = false ∧
    t.tblpag = 0 ∧ t.psvpag = 0 ∧
    t.sr = { dc := false, ipl := 0, ra := false, n := false, ov := false, z := false, c := false } ∧
    t.corcon = { ipl3 := false, psv := false } ∧ t.pending = [] ∧ t.pendingTraps = .none ∧
    (c ≠ .powerOn → ∀ n, t.ramByte n = s.ramByte n) ∧
    (c = .powerOn → ∀ n, t.ramByte n = Config.ramPowerOn t.ramEpoch n) ∧
    t.prog = s.prog ∧ t.power = .running ∧ t.nstdis = s.nstdis ∧ t.device = s.device ∧ t.periphWrites = s.periphWrites ∧
    t.divider = { loop := .fresh, suspended := [], origins := [] }

/-! ## Memory and the memory-mapped registers -/

/-- Data RAM returns what was last written, a word little-endian, and a write leaves every other byte alone and the canonical form
intact (20_memory.md R71, R77). -/
def Obligations.RamReadAfterWrite : Prop :=
  (∀ (a v : Word) (s : State), ramWord s a = true →
    ∃ t, memWrite .word a v s = .ok t ∧ memRead .word a t = .ok (v, t) ∧
      memRead .byte a t = .ok (byteWord (lowByte v), t) ∧ memRead .byte (a + 1) t = .ok (byteWord (highByte v), t) ∧
      (∀ n, n ≠ a.toNat → n ≠ a.toNat + 1 → t.ramByte n = s.ramByte n) ∧
      (Memory.wf s.device.ramEnd s.ram → Memory.wf t.device.ramEnd t.ram)) ∧
  (∀ (a v : Word) (s : State), regionOf s .byte a = .ram →
    ∃ t, memWrite .byte a v s = .ok t ∧ memRead .byte a t = .ok (byteWord (lowByte v), t) ∧
      (∀ n, n ≠ a.toNat → t.ramByte n = s.ramByte n) ∧
      (Memory.wf s.device.ramEnd s.ram → Memory.wf t.device.ramEnd t.ram))

/-- Wn is the word at its data address: reads give it and its halves; a word write initialises it, a byte write changes one half and
does not; W15<0> stays 0 (10_state.md R24 to R28; 20_memory.md R75, R76), wherever SFR_ADDR puts it. With the default SFR_ADDR
that is address 2n, and the other core registers are at the addresses of 10_state.md R23 (log 2). -/
def Obligations.WRegisterMapped : Prop :=
  (∀ (r : Reg) (a v : Word) (s : State), coreRegAt s.device.sfr a = some (.w r) → a.getLsbD 0 = false →
    memRead .word a s = .ok (s.reg r, s) ∧
    memRead .byte a s = .ok (byteWord (lowByte (s.reg r)), s) ∧
    memRead .byte (a + 1) s = .ok (byteWord (highByte (s.reg r)), s) ∧
    (∃ t, memWrite .word a v s = .ok t ∧ t.reg r = fixReg r v ∧ t.initialised r = true ∧
      ∀ q, q ≠ r → t.reg q = s.reg q ∧ t.initialised q = s.initialised q) ∧
    (∃ t, memWrite .byte a v s = .ok t ∧ t.reg r = fixReg r (highByte (s.reg r) ++ lowByte v) ∧ t.winit = s.winit ∧
      ∀ q, q ≠ r → t.reg q = s.reg q) ∧
    (∃ t, memWrite .byte (a + 1) v s = .ok t ∧ t.reg r = fixReg r (lowByte v ++ lowByte (s.reg r)) ∧ t.winit = s.winit ∧
      ∀ q, q ≠ r → t.reg q = s.reg q)) ∧
  (∀ (a : Word) (c : CoreReg), coreRegAt defaultSfr a = some c ↔
    (∃ r : Reg, c = .w r ∧ a.toNat / 2 = r.val) ∨
    (a.toNat / 2 * 2, c) ∈
      [(0x20, .splim), (0x2E, .pcl), (0x30, .pch), (0x32, .tblpag), (0x34, .psvpag), (0x36, .rcount), (0x42, .sr),
        (0x44, .corcon), (0x52, CoreReg.disicnt)])

/-- SR, SPLIM, TBLPAG, PSVPAG, RCOUNT and DISICNT through their addresses, wherever SFR_ADDR puts them: what a read gives, and
what a word write and a byte write change (10_state.md R42, R50, R51; 20_memory.md R75, R76), with the notes that the end of the
step depends on (46_repeat.md R252; 47_system.md R268; 70_reset_and_hazards.md R340). What a byte write of DISICNT leaves is
open, and that a load of DISICNT is noted is the model's choice (log 29). -/
def Obligations.SpecialRegisters : Prop :=
  (∀ (b : Size) (a v : Word) (c : CoreReg) (s : State), coreRegAt s.device.sfr a = some c → c ≠ .pcl → c ≠ .pch →
    (b = .word → a.getLsbD 0 = false) → ∃ t, memWrite b a v s = .ok t ∧ CoreHolds b a v c s t) ∧
  (∀ (b : Size) (a v : Word) (c : CoreReg) (s t : State), coreRegAt s.device.sfr a = some c →
    memWrite b a v s = .ok t →
    (c ≠ .splim → t.notes.wroteSplim = s.notes.wroteSplim) ∧
    (c ≠ .rcount → c ≠ .sr → t.notes.wroteLoop = s.notes.wroteLoop) ∧
    (c ≠ .disicnt → t.notes.wroteDisicnt = s.notes.wroteDisicnt)) ∧
  ∀ (a : Word) (c : CoreReg) (s : State), coreRegAt s.device.sfr a = some c → a.getLsbD 0 = false →
    (c = .sr → memRead .word a s = .ok (0#7 ++ BitVec.ofBool s.sr.dc ++ s.sr.ipl ++ BitVec.ofBool s.sr.ra ++
      BitVec.ofBool s.sr.n ++ BitVec.ofBool s.sr.ov ++ BitVec.ofBool s.sr.z ++ BitVec.ofBool s.sr.c, s)) ∧
    (c = .splim → memRead .word a s = .ok (s.splim, s)) ∧
    (c = .tblpag → memRead .word a s = .ok (s.tblpag.setWidth 16, s)) ∧
    (c = .psvpag → memRead .word a s = .ok (s.psvpag.setWidth 16, s)) ∧
    (c = .rcount → memRead .word a s = .ok (s.rcount.setWidth 16, s)) ∧
    (c = .disicnt → memRead .word a s = .ok (s.disicnt.setWidth 16, s)) ∧
    (c = .tblpag ∨ c = .psvpag → ∀ v, memWrite .byte (a + 1) v s = .ok s) ∧
    (∀ v, memRead .word a s = .ok (v, s) →
      memRead .byte a s = .ok (byteWord (lowByte v), s) ∧ memRead .byte (a + 1) s = .ok (byteWord (highByte v), s))

/-- CORCON: its value after all resets, what a word read gives, and that a word write sets PSV and can only clear IPL3 (10_state.md
R45); a byte write of its low half does the same, of its high half nothing (20_memory.md R76); wherever SFR_ADDR puts it. -/
def Obligations.CorconRegister : Prop :=
  (∀ (c : ResetCause) (s : State), (deviceReset c s).corcon = { ipl3 := false, psv := false }) ∧
  State.reset.corcon = { ipl3 := false, psv := false } ∧
  ∀ (a v : Word) (s : State), coreRegAt s.device.sfr a = some .corcon → a.getLsbD 0 = false →
    memRead .word a s = .ok (0#12 ++ BitVec.ofBool s.corcon.ipl3 ++ BitVec.ofBool s.corcon.psv ++ 0#2, s) ∧
    memWrite .word a v s =
      .ok { s with corcon := { ipl3 := if v.getLsbD 3 then s.corcon.ipl3 else false, psv := v.getLsbD 2 } } ∧
    memWrite .byte a v s =
      .ok { s with corcon := { ipl3 := if v.getLsbD 3 then s.corcon.ipl3 else false, psv := v.getLsbD 2 } } ∧
    memWrite .byte (a + 1) v s = .ok s

/-- A step keeps program memory and the device (20_memory.md R92); and unless it performs a device reset: SplimEn and Winit,
once set, stay set (10_state.md R28, R51); only `REPEAT` and `RETFIE` set RA (R39); only a trap and `RETFIE` set IPL3 (R45);
only `PUSH.S` changes the shadow registers (R56); and with NSTDIS = 1 only a trap, an accepted interrupt and `RETFIE` change IPL
(R40). -/
def Obligations.StickyBits : Prop :=
  ∀ s t : State, step s = .next t →
    t.prog = s.prog ∧ t.device = s.device ∧
    (ResetTo t ∨
      ((s.splimEn = true → t.splimEn = true) ∧
       (∀ r, s.initialised r = true → t.initialised r = true) ∧
       (s.sr.ra = false → t.sr.ra = true →
        ∃ i, fetch s = .ok i ∧ ((∃ k, i = .repeatLit k) ∨ (∃ r, i = .repeatWn r) ∨ i = .retfie)) ∧
       (s.corcon.ipl3 = false → t.corcon.ipl3 = true → s.pendingTraps ≠ .none ∨ fetch s = .ok .retfie) ∧
       (t.shadow ≠ s.shadow → fetch s = .ok .pushS) ∧
       (s.nstdis = true → t.sr.ipl ≠ s.sr.ipl →
        s.pendingTraps ≠ .none ∨ (∃ r, bestRequest s.pending = some r ∧ accepts s r.priority = true) ∨
          fetch s = .ok .retfie)))

/-- The accesses that do not exist: a word at an odd address, an address of no region, PCL and PCH, and a fetch outside PROG_IMPL or
after the PC left its range (20_memory.md R74, R79, R84; 10_state.md R32, R33). That they end the run in a fault or a
refusal is the choice of 92_eei_decisions.md D2, D16, D19, D25 and D26, which the model follows (log 14, log 21, log 30). -/
def Obligations.BadAddressesStop : Prop :=
  (∀ (a v : Word) (s : State), a.getLsbD 0 = true →
    memRead .word a s = .error (.fault (.addressError a)) ∧
    memWrite .word a v s = .error (.fault (.addressError a))) ∧
  (∀ (b : Size) (a v : Word) (s : State), 0x0800 ≤ a.toNat → s.device.ramEnd.toNat < a.toNat + sizeBytes b - 1 →
    (s.corcon.psv = false ∨ a.toNat < 0x8000) →
    memRead b a s = .error (.fault (.addressError a)) ∧ memWrite b a v s = .error (.fault (.addressError a))) ∧
  (∀ (b : Size) (a v : Word) (s : State), (b = .word → a.getLsbD 0 = false) →
    (coreRegAt s.device.sfr a = some .pcl ∨ coreRegAt s.device.sfr a = some .pch) →
    memRead b a s = .error (.refuse .pcDataAccess) ∧ memWrite b a v s = .error (.refuse .pcDataAccess)) ∧
  (∀ s : State, quiet s = true → s.progWord s.pc.toNat = none → step s = .fault (.fetch s.pc.toNat)) ∧
  (∀ s : State, s.power = .running → s.pcOut = true → step s = .fault .pcRange)

/-- The PSV window: a read at or above 0x8000 with PSV set gives the low 16 bits of the program word at (PSVPAG << 15) | (addr &
0x7FFE), or a byte of them, where program memory has it (20_memory.md R81); a write is refused (R82). -/
def Obligations.PsvWindow : Prop :=
  (∀ (a : Word) (w : ProgWord) (s : State), s.corcon.psv = true → 0x8000 ≤ a.toNat →
    s.progWord (s.psvpag.toNat * 2 ^ 15 + a.toNat % 2 ^ 15 / 2 * 2) = some w →
    (a.getLsbD 0 = false →
      ∃ t, memRead .word a s = .ok (w.extractLsb' 0 16, t) ∧ t.w = s.w ∧ t.ram = s.ram ∧ t.sr = s.sr) ∧
    ∃ t, memRead .byte a s =
        .ok ((if a.getLsbD 0 then w.extractLsb' 8 8 else w.extractLsb' 0 8).setWidth 16, t) ∧
      t.w = s.w ∧ t.ram = s.ram ∧ t.sr = s.sr) ∧
  (∀ (b : Size) (a v : Word) (s : State), s.corcon.psv = true → 0x8000 ≤ a.toNat →
    (b = .word → a.getLsbD 0 = false) → memWrite b a v s = .error (.refuse .psvWrite))
end

