-- ==== Sys2Proof/Laws/State.lean ====
section
/-! SUPPORT. One lemma for each field and each update of the state: what an update leaves alone. -/

namespace Sys2Proof.Machine

@[simp] theorem State.setReg_winit (s : State) (r : Reg) (v : Word) : (s.setReg r v).winit = s.winit := rfl
@[simp] theorem State.setReg_pc (s : State) (r : Reg) (v : Word) : (s.setReg r v).pc = s.pc := rfl
@[simp] theorem State.setReg_pcOut (s : State) (r : Reg) (v : Word) : (s.setReg r v).pcOut = s.pcOut := rfl
@[simp] theorem State.setReg_sr (s : State) (r : Reg) (v : Word) : (s.setReg r v).sr = s.sr := rfl
@[simp] theorem State.setReg_corcon (s : State) (r : Reg) (v : Word) : (s.setReg r v).corcon = s.corcon := rfl
@[simp] theorem State.setReg_splim (s : State) (r : Reg) (v : Word) : (s.setReg r v).splim = s.splim := rfl
@[simp] theorem State.setReg_splimEn (s : State) (r : Reg) (v : Word) : (s.setReg r v).splimEn = s.splimEn := rfl
@[simp] theorem State.setReg_splimJustWritten (s : State) (r : Reg) (v : Word) : (s.setReg r v).splimJustWritten = s.splimJustWritten := rfl
@[simp] theorem State.setReg_tblpag (s : State) (r : Reg) (v : Word) : (s.setReg r v).tblpag = s.tblpag := rfl
@[simp] theorem State.setReg_psvpag (s : State) (r : Reg) (v : Word) : (s.setReg r v).psvpag = s.psvpag := rfl
@[simp] theorem State.setReg_rcount (s : State) (r : Reg) (v : Word) : (s.setReg r v).rcount = s.rcount := rfl
@[simp] theorem State.setReg_disicnt (s : State) (r : Reg) (v : Word) : (s.setReg r v).disicnt = s.disicnt := rfl
@[simp] theorem State.setReg_shadow (s : State) (r : Reg) (v : Word) : (s.setReg r v).shadow = s.shadow := rfl
@[simp] theorem State.setReg_pendingTraps (s : State) (r : Reg) (v : Word) : (s.setReg r v).pendingTraps = s.pendingTraps := rfl
@[simp] theorem State.setReg_pending (s : State) (r : Reg) (v : Word) : (s.setReg r v).pending = s.pending := rfl
@[simp] theorem State.setReg_nstdis (s : State) (r : Reg) (v : Word) : (s.setReg r v).nstdis = s.nstdis := rfl
@[simp] theorem State.setReg_power (s : State) (r : Reg) (v : Word) : (s.setReg r v).power = s.power := rfl
@[simp] theorem State.setReg_ram (s : State) (r : Reg) (v : Word) : (s.setReg r v).ram = s.ram := rfl
@[simp] theorem State.setReg_ramEpoch (s : State) (r : Reg) (v : Word) : (s.setReg r v).ramEpoch = s.ramEpoch := rfl
@[simp] theorem State.setReg_prog (s : State) (r : Reg) (v : Word) : (s.setReg r v).prog = s.prog := rfl
@[simp] theorem State.setReg_periphWrites (s : State) (r : Reg) (v : Word) : (s.setReg r v).periphWrites = s.periphWrites := rfl
@[simp] theorem State.setReg_divider (s : State) (r : Reg) (v : Word) : (s.setReg r v).divider = s.divider := rfl
@[simp] theorem State.setReg_free (s : State) (r : Reg) (v : Word) : (s.setReg r v).free = s.free := rfl
@[simp] theorem State.setReg_notes (s : State) (r : Reg) (v : Word) : (s.setReg r v).notes = s.notes := rfl
@[simp] theorem State.setReg_device (s : State) (r : Reg) (v : Word) : (s.setReg r v).device = s.device := rfl

@[simp] theorem State.markInit_w (s : State) (r : Reg) : (s.markInit r).w = s.w := rfl
@[simp] theorem State.markInit_pc (s : State) (r : Reg) : (s.markInit r).pc = s.pc := rfl
@[simp] theorem State.markInit_pcOut (s : State) (r : Reg) : (s.markInit r).pcOut = s.pcOut := rfl
@[simp] theorem State.markInit_sr (s : State) (r : Reg) : (s.markInit r).sr = s.sr := rfl
@[simp] theorem State.markInit_corcon (s : State) (r : Reg) : (s.markInit r).corcon = s.corcon := rfl
@[simp] theorem State.markInit_splim (s : State) (r : Reg) : (s.markInit r).splim = s.splim := rfl
@[simp] theorem State.markInit_splimEn (s : State) (r : Reg) : (s.markInit r).splimEn = s.splimEn := rfl
@[simp] theorem State.markInit_splimJustWritten (s : State) (r : Reg) : (s.markInit r).splimJustWritten = s.splimJustWritten := rfl
@[simp] theorem State.markInit_tblpag (s : State) (r : Reg) : (s.markInit r).tblpag = s.tblpag := rfl
@[simp] theorem State.markInit_psvpag (s : State) (r : Reg) : (s.markInit r).psvpag = s.psvpag := rfl
@[simp] theorem State.markInit_rcount (s : State) (r : Reg) : (s.markInit r).rcount = s.rcount := rfl
@[simp] theorem State.markInit_disicnt (s : State) (r : Reg) : (s.markInit r).disicnt = s.disicnt := rfl
@[simp] theorem State.markInit_shadow (s : State) (r : Reg) : (s.markInit r).shadow = s.shadow := rfl
@[simp] theorem State.markInit_pendingTraps (s : State) (r : Reg) : (s.markInit r).pendingTraps = s.pendingTraps := rfl
@[simp] theorem State.markInit_pending (s : State) (r : Reg) : (s.markInit r).pending = s.pending := rfl
@[simp] theorem State.markInit_nstdis (s : State) (r : Reg) : (s.markInit r).nstdis = s.nstdis := rfl
@[simp] theorem State.markInit_power (s : State) (r : Reg) : (s.markInit r).power = s.power := rfl
@[simp] theorem State.markInit_ram (s : State) (r : Reg) : (s.markInit r).ram = s.ram := rfl
@[simp] theorem State.markInit_ramEpoch (s : State) (r : Reg) : (s.markInit r).ramEpoch = s.ramEpoch := rfl
@[simp] theorem State.markInit_prog (s : State) (r : Reg) : (s.markInit r).prog = s.prog := rfl
@[simp] theorem State.markInit_periphWrites (s : State) (r : Reg) : (s.markInit r).periphWrites = s.periphWrites := rfl
@[simp] theorem State.markInit_divider (s : State) (r : Reg) : (s.markInit r).divider = s.divider := rfl
@[simp] theorem State.markInit_free (s : State) (r : Reg) : (s.markInit r).free = s.free := rfl
@[simp] theorem State.markInit_notes (s : State) (r : Reg) : (s.markInit r).notes = s.notes := rfl
@[simp] theorem State.markInit_device (s : State) (r : Reg) : (s.markInit r).device = s.device := rfl

@[simp] theorem State.writeReg_pc (s : State) (r : Reg) (v : Word) : (s.writeReg r v).pc = s.pc := rfl
@[simp] theorem State.writeReg_pcOut (s : State) (r : Reg) (v : Word) : (s.writeReg r v).pcOut = s.pcOut := rfl
@[simp] theorem State.writeReg_sr (s : State) (r : Reg) (v : Word) : (s.writeReg r v).sr = s.sr := rfl
@[simp] theorem State.writeReg_corcon (s : State) (r : Reg) (v : Word) : (s.writeReg r v).corcon = s.corcon := rfl
@[simp] theorem State.writeReg_splim (s : State) (r : Reg) (v : Word) : (s.writeReg r v).splim = s.splim := rfl
@[simp] theorem State.writeReg_splimEn (s : State) (r : Reg) (v : Word) : (s.writeReg r v).splimEn = s.splimEn := rfl
@[simp] theorem State.writeReg_splimJustWritten (s : State) (r : Reg) (v : Word) : (s.writeReg r v).splimJustWritten = s.splimJustWritten := rfl
@[simp] theorem State.writeReg_tblpag (s : State) (r : Reg) (v : Word) : (s.writeReg r v).tblpag = s.tblpag := rfl
@[simp] theorem State.writeReg_psvpag (s : State) (r : Reg) (v : Word) : (s.writeReg r v).psvpag = s.psvpag := rfl
@[simp] theorem State.writeReg_rcount (s : State) (r : Reg) (v : Word) : (s.writeReg r v).rcount = s.rcount := rfl
@[simp] theorem State.writeReg_disicnt (s : State) (r : Reg) (v : Word) : (s.writeReg r v).disicnt = s.disicnt := rfl
@[simp] theorem State.writeReg_shadow (s : State) (r : Reg) (v : Word) : (s.writeReg r v).shadow = s.shadow := rfl
@[simp] theorem State.writeReg_pendingTraps (s : State) (r : Reg) (v : Word) : (s.writeReg r v).pendingTraps = s.pendingTraps := rfl
@[simp] theorem State.writeReg_pending (s : State) (r : Reg) (v : Word) : (s.writeReg r v).pending = s.pending := rfl
@[simp] theorem State.writeReg_nstdis (s : State) (r : Reg) (v : Word) : (s.writeReg r v).nstdis = s.nstdis := rfl
@[simp] theorem State.writeReg_power (s : State) (r : Reg) (v : Word) : (s.writeReg r v).power = s.power := rfl
@[simp] theorem State.writeReg_ram (s : State) (r : Reg) (v : Word) : (s.writeReg r v).ram = s.ram := rfl
@[simp] theorem State.writeReg_ramEpoch (s : State) (r : Reg) (v : Word) : (s.writeReg r v).ramEpoch = s.ramEpoch := rfl
@[simp] theorem State.writeReg_prog (s : State) (r : Reg) (v : Word) : (s.writeReg r v).prog = s.prog := rfl
@[simp] theorem State.writeReg_periphWrites (s : State) (r : Reg) (v : Word) : (s.writeReg r v).periphWrites = s.periphWrites := rfl
@[simp] theorem State.writeReg_divider (s : State) (r : Reg) (v : Word) : (s.writeReg r v).divider = s.divider := rfl
@[simp] theorem State.writeReg_free (s : State) (r : Reg) (v : Word) : (s.writeReg r v).free = s.free := rfl
@[simp] theorem State.writeReg_notes (s : State) (r : Reg) (v : Word) : (s.writeReg r v).notes = s.notes := rfl
@[simp] theorem State.writeReg_device (s : State) (r : Reg) (v : Word) : (s.writeReg r v).device = s.device := rfl

@[simp] theorem State.writeRegLow_winit (s : State) (r : Reg) (v : Byte) : (s.writeRegLow r v).winit = s.winit := rfl
@[simp] theorem State.writeRegLow_pc (s : State) (r : Reg) (v : Byte) : (s.writeRegLow r v).pc = s.pc := rfl
@[simp] theorem State.writeRegLow_pcOut (s : State) (r : Reg) (v : Byte) : (s.writeRegLow r v).pcOut = s.pcOut := rfl
@[simp] theorem State.writeRegLow_sr (s : State) (r : Reg) (v : Byte) : (s.writeRegLow r v).sr = s.sr := rfl
@[simp] theorem State.writeRegLow_corcon (s : State) (r : Reg) (v : Byte) : (s.writeRegLow r v).corcon = s.corcon := rfl
@[simp] theorem State.writeRegLow_splim (s : State) (r : Reg) (v : Byte) : (s.writeRegLow r v).splim = s.splim := rfl
@[simp] theorem State.writeRegLow_splimEn (s : State) (r : Reg) (v : Byte) : (s.writeRegLow r v).splimEn = s.splimEn := rfl
@[simp] theorem State.writeRegLow_splimJustWritten (s : State) (r : Reg) (v : Byte) : (s.writeRegLow r v).splimJustWritten = s.splimJustWritten := rfl
@[simp] theorem State.writeRegLow_tblpag (s : State) (r : Reg) (v : Byte) : (s.writeRegLow r v).tblpag = s.tblpag := rfl
@[simp] theorem State.writeRegLow_psvpag (s : State) (r : Reg) (v : Byte) : (s.writeRegLow r v).psvpag = s.psvpag := rfl
@[simp] theorem State.writeRegLow_rcount (s : State) (r : Reg) (v : Byte) : (s.writeRegLow r v).rcount = s.rcount := rfl
@[simp] theorem State.writeRegLow_disicnt (s : State) (r : Reg) (v : Byte) : (s.writeRegLow r v).disicnt = s.disicnt := rfl
@[simp] theorem State.writeRegLow_shadow (s : State) (r : Reg) (v : Byte) : (s.writeRegLow r v).shadow = s.shadow := rfl
@[simp] theorem State.writeRegLow_pendingTraps (s : State) (r : Reg) (v : Byte) : (s.writeRegLow r v).pendingTraps = s.pendingTraps := rfl
@[simp] theorem State.writeRegLow_pending (s : State) (r : Reg) (v : Byte) : (s.writeRegLow r v).pending = s.pending := rfl
@[simp] theorem State.writeRegLow_nstdis (s : State) (r : Reg) (v : Byte) : (s.writeRegLow r v).nstdis = s.nstdis := rfl
@[simp] theorem State.writeRegLow_power (s : State) (r : Reg) (v : Byte) : (s.writeRegLow r v).power = s.power := rfl
@[simp] theorem State.writeRegLow_ram (s : State) (r : Reg) (v : Byte) : (s.writeRegLow r v).ram = s.ram := rfl
@[simp] theorem State.writeRegLow_ramEpoch (s : State) (r : Reg) (v : Byte) : (s.writeRegLow r v).ramEpoch = s.ramEpoch := rfl
@[simp] theorem State.writeRegLow_prog (s : State) (r : Reg) (v : Byte) : (s.writeRegLow r v).prog = s.prog := rfl
@[simp] theorem State.writeRegLow_periphWrites (s : State) (r : Reg) (v : Byte) : (s.writeRegLow r v).periphWrites = s.periphWrites := rfl
@[simp] theorem State.writeRegLow_divider (s : State) (r : Reg) (v : Byte) : (s.writeRegLow r v).divider = s.divider := rfl
@[simp] theorem State.writeRegLow_free (s : State) (r : Reg) (v : Byte) : (s.writeRegLow r v).free = s.free := rfl
@[simp] theorem State.writeRegLow_notes (s : State) (r : Reg) (v : Byte) : (s.writeRegLow r v).notes = s.notes := rfl
@[simp] theorem State.writeRegLow_device (s : State) (r : Reg) (v : Byte) : (s.writeRegLow r v).device = s.device := rfl

@[simp] theorem State.writeRegHigh_winit (s : State) (r : Reg) (v : Byte) : (s.writeRegHigh r v).winit = s.winit := rfl
@[simp] theorem State.writeRegHigh_pc (s : State) (r : Reg) (v : Byte) : (s.writeRegHigh r v).pc = s.pc := rfl
@[simp] theorem State.writeRegHigh_pcOut (s : State) (r : Reg) (v : Byte) : (s.writeRegHigh r v).pcOut = s.pcOut := rfl
@[simp] theorem State.writeRegHigh_sr (s : State) (r : Reg) (v : Byte) : (s.writeRegHigh r v).sr = s.sr := rfl
@[simp] theorem State.writeRegHigh_corcon (s : State) (r : Reg) (v : Byte) : (s.writeRegHigh r v).corcon = s.corcon := rfl
@[simp] theorem State.writeRegHigh_splim (s : State) (r : Reg) (v : Byte) : (s.writeRegHigh r v).splim = s.splim := rfl
@[simp] theorem State.writeRegHigh_splimEn (s : State) (r : Reg) (v : Byte) : (s.writeRegHigh r v).splimEn = s.splimEn := rfl
@[simp] theorem State.writeRegHigh_splimJustWritten (s : State) (r : Reg) (v : Byte) : (s.writeRegHigh r v).splimJustWritten = s.splimJustWritten := rfl
@[simp] theorem State.writeRegHigh_tblpag (s : State) (r : Reg) (v : Byte) : (s.writeRegHigh r v).tblpag = s.tblpag := rfl
@[simp] theorem State.writeRegHigh_psvpag (s : State) (r : Reg) (v : Byte) : (s.writeRegHigh r v).psvpag = s.psvpag := rfl
@[simp] theorem State.writeRegHigh_rcount (s : State) (r : Reg) (v : Byte) : (s.writeRegHigh r v).rcount = s.rcount := rfl
@[simp] theorem State.writeRegHigh_disicnt (s : State) (r : Reg) (v : Byte) : (s.writeRegHigh r v).disicnt = s.disicnt := rfl
@[simp] theorem State.writeRegHigh_shadow (s : State) (r : Reg) (v : Byte) : (s.writeRegHigh r v).shadow = s.shadow := rfl
@[simp] theorem State.writeRegHigh_pendingTraps (s : State) (r : Reg) (v : Byte) : (s.writeRegHigh r v).pendingTraps = s.pendingTraps := rfl
@[simp] theorem State.writeRegHigh_pending (s : State) (r : Reg) (v : Byte) : (s.writeRegHigh r v).pending = s.pending := rfl
@[simp] theorem State.writeRegHigh_nstdis (s : State) (r : Reg) (v : Byte) : (s.writeRegHigh r v).nstdis = s.nstdis := rfl
@[simp] theorem State.writeRegHigh_power (s : State) (r : Reg) (v : Byte) : (s.writeRegHigh r v).power = s.power := rfl
@[simp] theorem State.writeRegHigh_ram (s : State) (r : Reg) (v : Byte) : (s.writeRegHigh r v).ram = s.ram := rfl
@[simp] theorem State.writeRegHigh_ramEpoch (s : State) (r : Reg) (v : Byte) : (s.writeRegHigh r v).ramEpoch = s.ramEpoch := rfl
@[simp] theorem State.writeRegHigh_prog (s : State) (r : Reg) (v : Byte) : (s.writeRegHigh r v).prog = s.prog := rfl
@[simp] theorem State.writeRegHigh_periphWrites (s : State) (r : Reg) (v : Byte) : (s.writeRegHigh r v).periphWrites = s.periphWrites := rfl
@[simp] theorem State.writeRegHigh_divider (s : State) (r : Reg) (v : Byte) : (s.writeRegHigh r v).divider = s.divider := rfl
@[simp] theorem State.writeRegHigh_free (s : State) (r : Reg) (v : Byte) : (s.writeRegHigh r v).free = s.free := rfl
@[simp] theorem State.writeRegHigh_notes (s : State) (r : Reg) (v : Byte) : (s.writeRegHigh r v).notes = s.notes := rfl
@[simp] theorem State.writeRegHigh_device (s : State) (r : Reg) (v : Byte) : (s.writeRegHigh r v).device = s.device := rfl

@[simp] theorem State.writeRegSized_pc (s : State) (b : Size) (r : Reg) (v : Word) : (s.writeRegSized b r v).pc = s.pc := by cases b <;> rfl
@[simp] theorem State.writeRegSized_pcOut (s : State) (b : Size) (r : Reg) (v : Word) : (s.writeRegSized b r v).pcOut = s.pcOut := by cases b <;> rfl
@[simp] theorem State.writeRegSized_sr (s : State) (b : Size) (r : Reg) (v : Word) : (s.writeRegSized b r v).sr = s.sr := by cases b <;> rfl
@[simp] theorem State.writeRegSized_corcon (s : State) (b : Size) (r : Reg) (v : Word) : (s.writeRegSized b r v).corcon = s.corcon := by cases b <;> rfl
@[simp] theorem State.writeRegSized_splim (s : State) (b : Size) (r : Reg) (v : Word) : (s.writeRegSized b r v).splim = s.splim := by cases b <;> rfl
@[simp] theorem State.writeRegSized_splimEn (s : State) (b : Size) (r : Reg) (v : Word) : (s.writeRegSized b r v).splimEn = s.splimEn := by cases b <;> rfl
@[simp] theorem State.writeRegSized_splimJustWritten (s : State) (b : Size) (r : Reg) (v : Word) : (s.writeRegSized b r v).splimJustWritten = s.splimJustWritten := by cases b <;> rfl
@[simp] theorem State.writeRegSized_tblpag (s : State) (b : Size) (r : Reg) (v : Word) : (s.writeRegSized b r v).tblpag = s.tblpag := by cases b <;> rfl
@[simp] theorem State.writeRegSized_psvpag (s : State) (b : Size) (r : Reg) (v : Word) : (s.writeRegSized b r v).psvpag = s.psvpag := by cases b <;> rfl
@[simp] theorem State.writeRegSized_rcount (s : State) (b : Size) (r : Reg) (v : Word) : (s.writeRegSized b r v).rcount = s.rcount := by cases b <;> rfl
@[simp] theorem State.writeRegSized_disicnt (s : State) (b : Size) (r : Reg) (v : Word) : (s.writeRegSized b r v).disicnt = s.disicnt := by cases b <;> rfl
@[simp] theorem State.writeRegSized_shadow (s : State) (b : Size) (r : Reg) (v : Word) : (s.writeRegSized b r v).shadow = s.shadow := by cases b <;> rfl
@[simp] theorem State.writeRegSized_pendingTraps (s : State) (b : Size) (r : Reg) (v : Word) : (s.writeRegSized b r v).pendingTraps = s.pendingTraps := by cases b <;> rfl
@[simp] theorem State.writeRegSized_pending (s : State) (b : Size) (r : Reg) (v : Word) : (s.writeRegSized b r v).pending = s.pending := by cases b <;> rfl
@[simp] theorem State.writeRegSized_nstdis (s : State) (b : Size) (r : Reg) (v : Word) : (s.writeRegSized b r v).nstdis = s.nstdis := by cases b <;> rfl
@[simp] theorem State.writeRegSized_power (s : State) (b : Size) (r : Reg) (v : Word) : (s.writeRegSized b r v).power = s.power := by cases b <;> rfl
@[simp] theorem State.writeRegSized_ram (s : State) (b : Size) (r : Reg) (v : Word) : (s.writeRegSized b r v).ram = s.ram := by cases b <;> rfl
@[simp] theorem State.writeRegSized_ramEpoch (s : State) (b : Size) (r : Reg) (v : Word) : (s.writeRegSized b r v).ramEpoch = s.ramEpoch := by cases b <;> rfl
@[simp] theorem State.writeRegSized_prog (s : State) (b : Size) (r : Reg) (v : Word) : (s.writeRegSized b r v).prog = s.prog := by cases b <;> rfl
@[simp] theorem State.writeRegSized_periphWrites (s : State) (b : Size) (r : Reg) (v : Word) : (s.writeRegSized b r v).periphWrites = s.periphWrites := by cases b <;> rfl
@[simp] theorem State.writeRegSized_divider (s : State) (b : Size) (r : Reg) (v : Word) : (s.writeRegSized b r v).divider = s.divider := by cases b <;> rfl
@[simp] theorem State.writeRegSized_free (s : State) (b : Size) (r : Reg) (v : Word) : (s.writeRegSized b r v).free = s.free := by cases b <;> rfl
@[simp] theorem State.writeRegSized_notes (s : State) (b : Size) (r : Reg) (v : Word) : (s.writeRegSized b r v).notes = s.notes := by cases b <;> rfl
@[simp] theorem State.writeRegSized_device (s : State) (b : Size) (r : Reg) (v : Word) : (s.writeRegSized b r v).device = s.device := by cases b <;> rfl

@[simp] theorem State.writeTwo_pc (s : State) (r q : Reg) (v x : Word) : (s.writeTwo r q v x).pc = s.pc := rfl
@[simp] theorem State.writeTwo_pcOut (s : State) (r q : Reg) (v x : Word) : (s.writeTwo r q v x).pcOut = s.pcOut := rfl
@[simp] theorem State.writeTwo_sr (s : State) (r q : Reg) (v x : Word) : (s.writeTwo r q v x).sr = s.sr := rfl
@[simp] theorem State.writeTwo_corcon (s : State) (r q : Reg) (v x : Word) : (s.writeTwo r q v x).corcon = s.corcon := rfl
@[simp] theorem State.writeTwo_splim (s : State) (r q : Reg) (v x : Word) : (s.writeTwo r q v x).splim = s.splim := rfl
@[simp] theorem State.writeTwo_splimEn (s : State) (r q : Reg) (v x : Word) : (s.writeTwo r q v x).splimEn = s.splimEn := rfl
@[simp] theorem State.writeTwo_splimJustWritten (s : State) (r q : Reg) (v x : Word) : (s.writeTwo r q v x).splimJustWritten = s.splimJustWritten := rfl
@[simp] theorem State.writeTwo_tblpag (s : State) (r q : Reg) (v x : Word) : (s.writeTwo r q v x).tblpag = s.tblpag := rfl
@[simp] theorem State.writeTwo_psvpag (s : State) (r q : Reg) (v x : Word) : (s.writeTwo r q v x).psvpag = s.psvpag := rfl
@[simp] theorem State.writeTwo_rcount (s : State) (r q : Reg) (v x : Word) : (s.writeTwo r q v x).rcount = s.rcount := rfl
@[simp] theorem State.writeTwo_disicnt (s : State) (r q : Reg) (v x : Word) : (s.writeTwo r q v x).disicnt = s.disicnt := rfl
@[simp] theorem State.writeTwo_shadow (s : State) (r q : Reg) (v x : Word) : (s.writeTwo r q v x).shadow = s.shadow := rfl
@[simp] theorem State.writeTwo_pendingTraps (s : State) (r q : Reg) (v x : Word) : (s.writeTwo r q v x).pendingTraps = s.pendingTraps := rfl
@[simp] theorem State.writeTwo_pending (s : State) (r q : Reg) (v x : Word) : (s.writeTwo r q v x).pending = s.pending := rfl
@[simp] theorem State.writeTwo_nstdis (s : State) (r q : Reg) (v x : Word) : (s.writeTwo r q v x).nstdis = s.nstdis := rfl
@[simp] theorem State.writeTwo_power (s : State) (r q : Reg) (v x : Word) : (s.writeTwo r q v x).power = s.power := rfl
@[simp] theorem State.writeTwo_ram (s : State) (r q : Reg) (v x : Word) : (s.writeTwo r q v x).ram = s.ram := rfl
@[simp] theorem State.writeTwo_ramEpoch (s : State) (r q : Reg) (v x : Word) : (s.writeTwo r q v x).ramEpoch = s.ramEpoch := rfl
@[simp] theorem State.writeTwo_prog (s : State) (r q : Reg) (v x : Word) : (s.writeTwo r q v x).prog = s.prog := rfl
@[simp] theorem State.writeTwo_periphWrites (s : State) (r q : Reg) (v x : Word) : (s.writeTwo r q v x).periphWrites = s.periphWrites := rfl
@[simp] theorem State.writeTwo_divider (s : State) (r q : Reg) (v x : Word) : (s.writeTwo r q v x).divider = s.divider := rfl
@[simp] theorem State.writeTwo_free (s : State) (r q : Reg) (v x : Word) : (s.writeTwo r q v x).free = s.free := rfl
@[simp] theorem State.writeTwo_notes (s : State) (r q : Reg) (v x : Word) : (s.writeTwo r q v x).notes = s.notes := rfl
@[simp] theorem State.writeTwo_device (s : State) (r q : Reg) (v x : Word) : (s.writeTwo r q v x).device = s.device := rfl

@[simp] theorem State.writePair_pc (s : State) (d : Pair) (p : BitVec 32) : (s.writePair d p).pc = s.pc := rfl
@[simp] theorem State.writePair_pcOut (s : State) (d : Pair) (p : BitVec 32) : (s.writePair d p).pcOut = s.pcOut := rfl
@[simp] theorem State.writePair_sr (s : State) (d : Pair) (p : BitVec 32) : (s.writePair d p).sr = s.sr := rfl
@[simp] theorem State.writePair_corcon (s : State) (d : Pair) (p : BitVec 32) : (s.writePair d p).corcon = s.corcon := rfl
@[simp] theorem State.writePair_splim (s : State) (d : Pair) (p : BitVec 32) : (s.writePair d p).splim = s.splim := rfl
@[simp] theorem State.writePair_splimEn (s : State) (d : Pair) (p : BitVec 32) : (s.writePair d p).splimEn = s.splimEn := rfl
@[simp] theorem State.writePair_splimJustWritten (s : State) (d : Pair) (p : BitVec 32) : (s.writePair d p).splimJustWritten = s.splimJustWritten := rfl
@[simp] theorem State.writePair_tblpag (s : State) (d : Pair) (p : BitVec 32) : (s.writePair d p).tblpag = s.tblpag := rfl
@[simp] theorem State.writePair_psvpag (s : State) (d : Pair) (p : BitVec 32) : (s.writePair d p).psvpag = s.psvpag := rfl
@[simp] theorem State.writePair_rcount (s : State) (d : Pair) (p : BitVec 32) : (s.writePair d p).rcount = s.rcount := rfl
@[simp] theorem State.writePair_disicnt (s : State) (d : Pair) (p : BitVec 32) : (s.writePair d p).disicnt = s.disicnt := rfl
@[simp] theorem State.writePair_shadow (s : State) (d : Pair) (p : BitVec 32) : (s.writePair d p).shadow = s.shadow := rfl
@[simp] theorem State.writePair_pendingTraps (s : State) (d : Pair) (p : BitVec 32) : (s.writePair d p).pendingTraps = s.pendingTraps := rfl
@[simp] theorem State.writePair_pending (s : State) (d : Pair) (p : BitVec 32) : (s.writePair d p).pending = s.pending := rfl
@[simp] theorem State.writePair_nstdis (s : State) (d : Pair) (p : BitVec 32) : (s.writePair d p).nstdis = s.nstdis := rfl
@[simp] theorem State.writePair_power (s : State) (d : Pair) (p : BitVec 32) : (s.writePair d p).power = s.power := rfl
@[simp] theorem State.writePair_ram (s : State) (d : Pair) (p : BitVec 32) : (s.writePair d p).ram = s.ram := rfl
@[simp] theorem State.writePair_ramEpoch (s : State) (d : Pair) (p : BitVec 32) : (s.writePair d p).ramEpoch = s.ramEpoch := rfl
@[simp] theorem State.writePair_prog (s : State) (d : Pair) (p : BitVec 32) : (s.writePair d p).prog = s.prog := rfl
@[simp] theorem State.writePair_periphWrites (s : State) (d : Pair) (p : BitVec 32) : (s.writePair d p).periphWrites = s.periphWrites := rfl
@[simp] theorem State.writePair_divider (s : State) (d : Pair) (p : BitVec 32) : (s.writePair d p).divider = s.divider := rfl
@[simp] theorem State.writePair_free (s : State) (d : Pair) (p : BitVec 32) : (s.writePair d p).free = s.free := rfl
@[simp] theorem State.writePair_notes (s : State) (d : Pair) (p : BitVec 32) : (s.writePair d p).notes = s.notes := rfl
@[simp] theorem State.writePair_device (s : State) (d : Pair) (p : BitVec 32) : (s.writePair d p).device = s.device := rfl

@[simp] theorem State.setPc_w (s : State) (a : ProgAddr) : (s.setPc a).w = s.w := rfl
@[simp] theorem State.setPc_winit (s : State) (a : ProgAddr) : (s.setPc a).winit = s.winit := rfl
@[simp] theorem State.setPc_sr (s : State) (a : ProgAddr) : (s.setPc a).sr = s.sr := rfl
@[simp] theorem State.setPc_corcon (s : State) (a : ProgAddr) : (s.setPc a).corcon = s.corcon := rfl
@[simp] theorem State.setPc_splim (s : State) (a : ProgAddr) : (s.setPc a).splim = s.splim := rfl
@[simp] theorem State.setPc_splimEn (s : State) (a : ProgAddr) : (s.setPc a).splimEn = s.splimEn := rfl
@[simp] theorem State.setPc_splimJustWritten (s : State) (a : ProgAddr) : (s.setPc a).splimJustWritten = s.splimJustWritten := rfl
@[simp] theorem State.setPc_tblpag (s : State) (a : ProgAddr) : (s.setPc a).tblpag = s.tblpag := rfl
@[simp] theorem State.setPc_psvpag (s : State) (a : ProgAddr) : (s.setPc a).psvpag = s.psvpag := rfl
@[simp] theorem State.setPc_rcount (s : State) (a : ProgAddr) : (s.setPc a).rcount = s.rcount := rfl
@[simp] theorem State.setPc_disicnt (s : State) (a : ProgAddr) : (s.setPc a).disicnt = s.disicnt := rfl
@[simp] theorem State.setPc_shadow (s : State) (a : ProgAddr) : (s.setPc a).shadow = s.shadow := rfl
@[simp] theorem State.setPc_pendingTraps (s : State) (a : ProgAddr) : (s.setPc a).pendingTraps = s.pendingTraps := rfl
@[simp] theorem State.setPc_pending (s : State) (a : ProgAddr) : (s.setPc a).pending = s.pending := rfl
@[simp] theorem State.setPc_nstdis (s : State) (a : ProgAddr) : (s.setPc a).nstdis = s.nstdis := rfl
@[simp] theorem State.setPc_power (s : State) (a : ProgAddr) : (s.setPc a).power = s.power := rfl
@[simp] theorem State.setPc_ram (s : State) (a : ProgAddr) : (s.setPc a).ram = s.ram := rfl
@[simp] theorem State.setPc_ramEpoch (s : State) (a : ProgAddr) : (s.setPc a).ramEpoch = s.ramEpoch := rfl
@[simp] theorem State.setPc_prog (s : State) (a : ProgAddr) : (s.setPc a).prog = s.prog := rfl
@[simp] theorem State.setPc_periphWrites (s : State) (a : ProgAddr) : (s.setPc a).periphWrites = s.periphWrites := rfl
@[simp] theorem State.setPc_divider (s : State) (a : ProgAddr) : (s.setPc a).divider = s.divider := rfl
@[simp] theorem State.setPc_free (s : State) (a : ProgAddr) : (s.setPc a).free = s.free := rfl
@[simp] theorem State.setPc_notes (s : State) (a : ProgAddr) : (s.setPc a).notes = s.notes := rfl
@[simp] theorem State.setPc_device (s : State) (a : ProgAddr) : (s.setPc a).device = s.device := rfl

@[simp] theorem State.goto_w (s : State) (a : Int) : (s.goto a).w = s.w := rfl
@[simp] theorem State.goto_winit (s : State) (a : Int) : (s.goto a).winit = s.winit := rfl
@[simp] theorem State.goto_sr (s : State) (a : Int) : (s.goto a).sr = s.sr := rfl
@[simp] theorem State.goto_corcon (s : State) (a : Int) : (s.goto a).corcon = s.corcon := rfl
@[simp] theorem State.goto_splim (s : State) (a : Int) : (s.goto a).splim = s.splim := rfl
@[simp] theorem State.goto_splimEn (s : State) (a : Int) : (s.goto a).splimEn = s.splimEn := rfl
@[simp] theorem State.goto_splimJustWritten (s : State) (a : Int) : (s.goto a).splimJustWritten = s.splimJustWritten := rfl
@[simp] theorem State.goto_tblpag (s : State) (a : Int) : (s.goto a).tblpag = s.tblpag := rfl
@[simp] theorem State.goto_psvpag (s : State) (a : Int) : (s.goto a).psvpag = s.psvpag := rfl
@[simp] theorem State.goto_rcount (s : State) (a : Int) : (s.goto a).rcount = s.rcount := rfl
@[simp] theorem State.goto_disicnt (s : State) (a : Int) : (s.goto a).disicnt = s.disicnt := rfl
@[simp] theorem State.goto_shadow (s : State) (a : Int) : (s.goto a).shadow = s.shadow := rfl
@[simp] theorem State.goto_pendingTraps (s : State) (a : Int) : (s.goto a).pendingTraps = s.pendingTraps := rfl
@[simp] theorem State.goto_pending (s : State) (a : Int) : (s.goto a).pending = s.pending := rfl
@[simp] theorem State.goto_nstdis (s : State) (a : Int) : (s.goto a).nstdis = s.nstdis := rfl
@[simp] theorem State.goto_power (s : State) (a : Int) : (s.goto a).power = s.power := rfl
@[simp] theorem State.goto_ram (s : State) (a : Int) : (s.goto a).ram = s.ram := rfl
@[simp] theorem State.goto_ramEpoch (s : State) (a : Int) : (s.goto a).ramEpoch = s.ramEpoch := rfl
@[simp] theorem State.goto_prog (s : State) (a : Int) : (s.goto a).prog = s.prog := rfl
@[simp] theorem State.goto_periphWrites (s : State) (a : Int) : (s.goto a).periphWrites = s.periphWrites := rfl
@[simp] theorem State.goto_divider (s : State) (a : Int) : (s.goto a).divider = s.divider := rfl
@[simp] theorem State.goto_free (s : State) (a : Int) : (s.goto a).free = s.free := rfl
@[simp] theorem State.goto_notes (s : State) (a : Int) : (s.goto a).notes = s.notes := rfl
@[simp] theorem State.goto_device (s : State) (a : Int) : (s.goto a).device = s.device := rfl

@[simp] theorem State.advance_w (s : State) : (s.advance).w = s.w := rfl
@[simp] theorem State.advance_winit (s : State) : (s.advance).winit = s.winit := rfl
@[simp] theorem State.advance_sr (s : State) : (s.advance).sr = s.sr := rfl
@[simp] theorem State.advance_corcon (s : State) : (s.advance).corcon = s.corcon := rfl
@[simp] theorem State.advance_splim (s : State) : (s.advance).splim = s.splim := rfl
@[simp] theorem State.advance_splimEn (s : State) : (s.advance).splimEn = s.splimEn := rfl
@[simp] theorem State.advance_splimJustWritten (s : State) : (s.advance).splimJustWritten = s.splimJustWritten := rfl
@[simp] theorem State.advance_tblpag (s : State) : (s.advance).tblpag = s.tblpag := rfl
@[simp] theorem State.advance_psvpag (s : State) : (s.advance).psvpag = s.psvpag := rfl
@[simp] theorem State.advance_rcount (s : State) : (s.advance).rcount = s.rcount := rfl
@[simp] theorem State.advance_disicnt (s : State) : (s.advance).disicnt = s.disicnt := rfl
@[simp] theorem State.advance_shadow (s : State) : (s.advance).shadow = s.shadow := rfl
@[simp] theorem State.advance_pendingTraps (s : State) : (s.advance).pendingTraps = s.pendingTraps := rfl
@[simp] theorem State.advance_pending (s : State) : (s.advance).pending = s.pending := rfl
@[simp] theorem State.advance_nstdis (s : State) : (s.advance).nstdis = s.nstdis := rfl
@[simp] theorem State.advance_power (s : State) : (s.advance).power = s.power := rfl
@[simp] theorem State.advance_ram (s : State) : (s.advance).ram = s.ram := rfl
@[simp] theorem State.advance_ramEpoch (s : State) : (s.advance).ramEpoch = s.ramEpoch := rfl
@[simp] theorem State.advance_prog (s : State) : (s.advance).prog = s.prog := rfl
@[simp] theorem State.advance_periphWrites (s : State) : (s.advance).periphWrites = s.periphWrites := rfl
@[simp] theorem State.advance_divider (s : State) : (s.advance).divider = s.divider := rfl
@[simp] theorem State.advance_free (s : State) : (s.advance).free = s.free := rfl
@[simp] theorem State.advance_notes (s : State) : (s.advance).notes = s.notes := rfl
@[simp] theorem State.advance_device (s : State) : (s.advance).device = s.device := rfl

@[simp] theorem State.raise_w (s : State) (e : Trap) : (s.raise e).w = s.w := rfl
@[simp] theorem State.raise_winit (s : State) (e : Trap) : (s.raise e).winit = s.winit := rfl
@[simp] theorem State.raise_pc (s : State) (e : Trap) : (s.raise e).pc = s.pc := rfl
@[simp] theorem State.raise_pcOut (s : State) (e : Trap) : (s.raise e).pcOut = s.pcOut := rfl
@[simp] theorem State.raise_sr (s : State) (e : Trap) : (s.raise e).sr = s.sr := rfl
@[simp] theorem State.raise_corcon (s : State) (e : Trap) : (s.raise e).corcon = s.corcon := rfl
@[simp] theorem State.raise_splim (s : State) (e : Trap) : (s.raise e).splim = s.splim := rfl
@[simp] theorem State.raise_splimEn (s : State) (e : Trap) : (s.raise e).splimEn = s.splimEn := rfl
@[simp] theorem State.raise_splimJustWritten (s : State) (e : Trap) : (s.raise e).splimJustWritten = s.splimJustWritten := rfl
@[simp] theorem State.raise_tblpag (s : State) (e : Trap) : (s.raise e).tblpag = s.tblpag := rfl
@[simp] theorem State.raise_psvpag (s : State) (e : Trap) : (s.raise e).psvpag = s.psvpag := rfl
@[simp] theorem State.raise_rcount (s : State) (e : Trap) : (s.raise e).rcount = s.rcount := rfl
@[simp] theorem State.raise_disicnt (s : State) (e : Trap) : (s.raise e).disicnt = s.disicnt := rfl
@[simp] theorem State.raise_shadow (s : State) (e : Trap) : (s.raise e).shadow = s.shadow := rfl
@[simp] theorem State.raise_pending (s : State) (e : Trap) : (s.raise e).pending = s.pending := rfl
@[simp] theorem State.raise_nstdis (s : State) (e : Trap) : (s.raise e).nstdis = s.nstdis := rfl
@[simp] theorem State.raise_power (s : State) (e : Trap) : (s.raise e).power = s.power := rfl
@[simp] theorem State.raise_ram (s : State) (e : Trap) : (s.raise e).ram = s.ram := rfl
@[simp] theorem State.raise_ramEpoch (s : State) (e : Trap) : (s.raise e).ramEpoch = s.ramEpoch := rfl
@[simp] theorem State.raise_prog (s : State) (e : Trap) : (s.raise e).prog = s.prog := rfl
@[simp] theorem State.raise_periphWrites (s : State) (e : Trap) : (s.raise e).periphWrites = s.periphWrites := rfl
@[simp] theorem State.raise_divider (s : State) (e : Trap) : (s.raise e).divider = s.divider := rfl
@[simp] theorem State.raise_free (s : State) (e : Trap) : (s.raise e).free = s.free := rfl
@[simp] theorem State.raise_notes (s : State) (e : Trap) : (s.raise e).notes = s.notes := rfl
@[simp] theorem State.raise_device (s : State) (e : Trap) : (s.raise e).device = s.device := rfl

@[simp] theorem State.setAddFlags_w (s : State) (a : AddResult) : (s.setAddFlags a).w = s.w := rfl
@[simp] theorem State.setAddFlags_winit (s : State) (a : AddResult) : (s.setAddFlags a).winit = s.winit := rfl
@[simp] theorem State.setAddFlags_pc (s : State) (a : AddResult) : (s.setAddFlags a).pc = s.pc := rfl
@[simp] theorem State.setAddFlags_pcOut (s : State) (a : AddResult) : (s.setAddFlags a).pcOut = s.pcOut := rfl
@[simp] theorem State.setAddFlags_corcon (s : State) (a : AddResult) : (s.setAddFlags a).corcon = s.corcon := rfl
@[simp] theorem State.setAddFlags_splim (s : State) (a : AddResult) : (s.setAddFlags a).splim = s.splim := rfl
@[simp] theorem State.setAddFlags_splimEn (s : State) (a : AddResult) : (s.setAddFlags a).splimEn = s.splimEn := rfl
@[simp] theorem State.setAddFlags_splimJustWritten (s : State) (a : AddResult) : (s.setAddFlags a).splimJustWritten = s.splimJustWritten := rfl
@[simp] theorem State.setAddFlags_tblpag (s : State) (a : AddResult) : (s.setAddFlags a).tblpag = s.tblpag := rfl
@[simp] theorem State.setAddFlags_psvpag (s : State) (a : AddResult) : (s.setAddFlags a).psvpag = s.psvpag := rfl
@[simp] theorem State.setAddFlags_rcount (s : State) (a : AddResult) : (s.setAddFlags a).rcount = s.rcount := rfl
@[simp] theorem State.setAddFlags_disicnt (s : State) (a : AddResult) : (s.setAddFlags a).disicnt = s.disicnt := rfl
@[simp] theorem State.setAddFlags_shadow (s : State) (a : AddResult) : (s.setAddFlags a).shadow = s.shadow := rfl
@[simp] theorem State.setAddFlags_pendingTraps (s : State) (a : AddResult) : (s.setAddFlags a).pendingTraps = s.pendingTraps := rfl
@[simp] theorem State.setAddFlags_pending (s : State) (a : AddResult) : (s.setAddFlags a).pending = s.pending := rfl
@[simp] theorem State.setAddFlags_nstdis (s : State) (a : AddResult) : (s.setAddFlags a).nstdis = s.nstdis := rfl
@[simp] theorem State.setAddFlags_power (s : State) (a : AddResult) : (s.setAddFlags a).power = s.power := rfl
@[simp] theorem State.setAddFlags_ram (s : State) (a : AddResult) : (s.setAddFlags a).ram = s.ram := rfl
@[simp] theorem State.setAddFlags_ramEpoch (s : State) (a : AddResult) : (s.setAddFlags a).ramEpoch = s.ramEpoch := rfl
@[simp] theorem State.setAddFlags_prog (s : State) (a : AddResult) : (s.setAddFlags a).prog = s.prog := rfl
@[simp] theorem State.setAddFlags_periphWrites (s : State) (a : AddResult) : (s.setAddFlags a).periphWrites = s.periphWrites := rfl
@[simp] theorem State.setAddFlags_divider (s : State) (a : AddResult) : (s.setAddFlags a).divider = s.divider := rfl
@[simp] theorem State.setAddFlags_free (s : State) (a : AddResult) : (s.setAddFlags a).free = s.free := rfl
@[simp] theorem State.setAddFlags_notes (s : State) (a : AddResult) : (s.setAddFlags a).notes = s.notes := rfl
@[simp] theorem State.setAddFlags_device (s : State) (a : AddResult) : (s.setAddFlags a).device = s.device := rfl

@[simp] theorem State.setNZ_w (s : State) (n z : Bool) : (s.setNZ n z).w = s.w := rfl
@[simp] theorem State.setNZ_winit (s : State) (n z : Bool) : (s.setNZ n z).winit = s.winit := rfl
@[simp] theorem State.setNZ_pc (s : State) (n z : Bool) : (s.setNZ n z).pc = s.pc := rfl
@[simp] theorem State.setNZ_pcOut (s : State) (n z : Bool) : (s.setNZ n z).pcOut = s.pcOut := rfl
@[simp] theorem State.setNZ_corcon (s : State) (n z : Bool) : (s.setNZ n z).corcon = s.corcon := rfl
@[simp] theorem State.setNZ_splim (s : State) (n z : Bool) : (s.setNZ n z).splim = s.splim := rfl
@[simp] theorem State.setNZ_splimEn (s : State) (n z : Bool) : (s.setNZ n z).splimEn = s.splimEn := rfl
@[simp] theorem State.setNZ_splimJustWritten (s : State) (n z : Bool) : (s.setNZ n z).splimJustWritten = s.splimJustWritten := rfl
@[simp] theorem State.setNZ_tblpag (s : State) (n z : Bool) : (s.setNZ n z).tblpag = s.tblpag := rfl
@[simp] theorem State.setNZ_psvpag (s : State) (n z : Bool) : (s.setNZ n z).psvpag = s.psvpag := rfl
@[simp] theorem State.setNZ_rcount (s : State) (n z : Bool) : (s.setNZ n z).rcount = s.rcount := rfl
@[simp] theorem State.setNZ_disicnt (s : State) (n z : Bool) : (s.setNZ n z).disicnt = s.disicnt := rfl
@[simp] theorem State.setNZ_shadow (s : State) (n z : Bool) : (s.setNZ n z).shadow = s.shadow := rfl
@[simp] theorem State.setNZ_pendingTraps (s : State) (n z : Bool) : (s.setNZ n z).pendingTraps = s.pendingTraps := rfl
@[simp] theorem State.setNZ_pending (s : State) (n z : Bool) : (s.setNZ n z).pending = s.pending := rfl
@[simp] theorem State.setNZ_nstdis (s : State) (n z : Bool) : (s.setNZ n z).nstdis = s.nstdis := rfl
@[simp] theorem State.setNZ_power (s : State) (n z : Bool) : (s.setNZ n z).power = s.power := rfl
@[simp] theorem State.setNZ_ram (s : State) (n z : Bool) : (s.setNZ n z).ram = s.ram := rfl
@[simp] theorem State.setNZ_ramEpoch (s : State) (n z : Bool) : (s.setNZ n z).ramEpoch = s.ramEpoch := rfl
@[simp] theorem State.setNZ_prog (s : State) (n z : Bool) : (s.setNZ n z).prog = s.prog := rfl
@[simp] theorem State.setNZ_periphWrites (s : State) (n z : Bool) : (s.setNZ n z).periphWrites = s.periphWrites := rfl
@[simp] theorem State.setNZ_divider (s : State) (n z : Bool) : (s.setNZ n z).divider = s.divider := rfl
@[simp] theorem State.setNZ_free (s : State) (n z : Bool) : (s.setNZ n z).free = s.free := rfl
@[simp] theorem State.setNZ_notes (s : State) (n z : Bool) : (s.setNZ n z).notes = s.notes := rfl
@[simp] theorem State.setNZ_device (s : State) (n z : Bool) : (s.setNZ n z).device = s.device := rfl

@[simp] theorem State.setShiftFlags_w (s : State) (a : ShiftResult) : (s.setShiftFlags a).w = s.w := rfl
@[simp] theorem State.setShiftFlags_winit (s : State) (a : ShiftResult) : (s.setShiftFlags a).winit = s.winit := rfl
@[simp] theorem State.setShiftFlags_pc (s : State) (a : ShiftResult) : (s.setShiftFlags a).pc = s.pc := rfl
@[simp] theorem State.setShiftFlags_pcOut (s : State) (a : ShiftResult) : (s.setShiftFlags a).pcOut = s.pcOut := rfl
@[simp] theorem State.setShiftFlags_corcon (s : State) (a : ShiftResult) : (s.setShiftFlags a).corcon = s.corcon := rfl
@[simp] theorem State.setShiftFlags_splim (s : State) (a : ShiftResult) : (s.setShiftFlags a).splim = s.splim := rfl
@[simp] theorem State.setShiftFlags_splimEn (s : State) (a : ShiftResult) : (s.setShiftFlags a).splimEn = s.splimEn := rfl
@[simp] theorem State.setShiftFlags_splimJustWritten (s : State) (a : ShiftResult) : (s.setShiftFlags a).splimJustWritten = s.splimJustWritten := rfl
@[simp] theorem State.setShiftFlags_tblpag (s : State) (a : ShiftResult) : (s.setShiftFlags a).tblpag = s.tblpag := rfl
@[simp] theorem State.setShiftFlags_psvpag (s : State) (a : ShiftResult) : (s.setShiftFlags a).psvpag = s.psvpag := rfl
@[simp] theorem State.setShiftFlags_rcount (s : State) (a : ShiftResult) : (s.setShiftFlags a).rcount = s.rcount := rfl
@[simp] theorem State.setShiftFlags_disicnt (s : State) (a : ShiftResult) : (s.setShiftFlags a).disicnt = s.disicnt := rfl
@[simp] theorem State.setShiftFlags_shadow (s : State) (a : ShiftResult) : (s.setShiftFlags a).shadow = s.shadow := rfl
@[simp] theorem State.setShiftFlags_pendingTraps (s : State) (a : ShiftResult) : (s.setShiftFlags a).pendingTraps = s.pendingTraps := rfl
@[simp] theorem State.setShiftFlags_pending (s : State) (a : ShiftResult) : (s.setShiftFlags a).pending = s.pending := rfl
@[simp] theorem State.setShiftFlags_nstdis (s : State) (a : ShiftResult) : (s.setShiftFlags a).nstdis = s.nstdis := rfl
@[simp] theorem State.setShiftFlags_power (s : State) (a : ShiftResult) : (s.setShiftFlags a).power = s.power := rfl
@[simp] theorem State.setShiftFlags_ram (s : State) (a : ShiftResult) : (s.setShiftFlags a).ram = s.ram := rfl
@[simp] theorem State.setShiftFlags_ramEpoch (s : State) (a : ShiftResult) : (s.setShiftFlags a).ramEpoch = s.ramEpoch := rfl
@[simp] theorem State.setShiftFlags_prog (s : State) (a : ShiftResult) : (s.setShiftFlags a).prog = s.prog := rfl
@[simp] theorem State.setShiftFlags_periphWrites (s : State) (a : ShiftResult) : (s.setShiftFlags a).periphWrites = s.periphWrites := rfl
@[simp] theorem State.setShiftFlags_divider (s : State) (a : ShiftResult) : (s.setShiftFlags a).divider = s.divider := rfl
@[simp] theorem State.setShiftFlags_notes (s : State) (a : ShiftResult) : (s.setShiftFlags a).notes = s.notes := rfl
@[simp] theorem State.setShiftFlags_device (s : State) (a : ShiftResult) : (s.setShiftFlags a).device = s.device := rfl

@[simp] theorem State.noteSplim_w (s : State) : (s.noteSplim).w = s.w := rfl
@[simp] theorem State.noteSplim_winit (s : State) : (s.noteSplim).winit = s.winit := rfl
@[simp] theorem State.noteSplim_pc (s : State) : (s.noteSplim).pc = s.pc := rfl
@[simp] theorem State.noteSplim_pcOut (s : State) : (s.noteSplim).pcOut = s.pcOut := rfl
@[simp] theorem State.noteSplim_sr (s : State) : (s.noteSplim).sr = s.sr := rfl
@[simp] theorem State.noteSplim_corcon (s : State) : (s.noteSplim).corcon = s.corcon := rfl
@[simp] theorem State.noteSplim_splim (s : State) : (s.noteSplim).splim = s.splim := rfl
@[simp] theorem State.noteSplim_splimEn (s : State) : (s.noteSplim).splimEn = s.splimEn := rfl
@[simp] theorem State.noteSplim_splimJustWritten (s : State) : (s.noteSplim).splimJustWritten = s.splimJustWritten := rfl
@[simp] theorem State.noteSplim_tblpag (s : State) : (s.noteSplim).tblpag = s.tblpag := rfl
@[simp] theorem State.noteSplim_psvpag (s : State) : (s.noteSplim).psvpag = s.psvpag := rfl
@[simp] theorem State.noteSplim_rcount (s : State) : (s.noteSplim).rcount = s.rcount := rfl
@[simp] theorem State.noteSplim_disicnt (s : State) : (s.noteSplim).disicnt = s.disicnt := rfl
@[simp] theorem State.noteSplim_shadow (s : State) : (s.noteSplim).shadow = s.shadow := rfl
@[simp] theorem State.noteSplim_pendingTraps (s : State) : (s.noteSplim).pendingTraps = s.pendingTraps := rfl
@[simp] theorem State.noteSplim_pending (s : State) : (s.noteSplim).pending = s.pending := rfl
@[simp] theorem State.noteSplim_nstdis (s : State) : (s.noteSplim).nstdis = s.nstdis := rfl
@[simp] theorem State.noteSplim_power (s : State) : (s.noteSplim).power = s.power := rfl
@[simp] theorem State.noteSplim_ram (s : State) : (s.noteSplim).ram = s.ram := rfl
@[simp] theorem State.noteSplim_ramEpoch (s : State) : (s.noteSplim).ramEpoch = s.ramEpoch := rfl
@[simp] theorem State.noteSplim_prog (s : State) : (s.noteSplim).prog = s.prog := rfl
@[simp] theorem State.noteSplim_periphWrites (s : State) : (s.noteSplim).periphWrites = s.periphWrites := rfl
@[simp] theorem State.noteSplim_divider (s : State) : (s.noteSplim).divider = s.divider := rfl
@[simp] theorem State.noteSplim_free (s : State) : (s.noteSplim).free = s.free := rfl
@[simp] theorem State.noteSplim_device (s : State) : (s.noteSplim).device = s.device := rfl

@[simp] theorem State.noteLoop_w (s : State) : (s.noteLoop).w = s.w := rfl
@[simp] theorem State.noteLoop_winit (s : State) : (s.noteLoop).winit = s.winit := rfl
@[simp] theorem State.noteLoop_pc (s : State) : (s.noteLoop).pc = s.pc := rfl
@[simp] theorem State.noteLoop_pcOut (s : State) : (s.noteLoop).pcOut = s.pcOut := rfl
@[simp] theorem State.noteLoop_sr (s : State) : (s.noteLoop).sr = s.sr := rfl
@[simp] theorem State.noteLoop_corcon (s : State) : (s.noteLoop).corcon = s.corcon := rfl
@[simp] theorem State.noteLoop_splim (s : State) : (s.noteLoop).splim = s.splim := rfl
@[simp] theorem State.noteLoop_splimEn (s : State) : (s.noteLoop).splimEn = s.splimEn := rfl
@[simp] theorem State.noteLoop_splimJustWritten (s : State) : (s.noteLoop).splimJustWritten = s.splimJustWritten := rfl
@[simp] theorem State.noteLoop_tblpag (s : State) : (s.noteLoop).tblpag = s.tblpag := rfl
@[simp] theorem State.noteLoop_psvpag (s : State) : (s.noteLoop).psvpag = s.psvpag := rfl
@[simp] theorem State.noteLoop_rcount (s : State) : (s.noteLoop).rcount = s.rcount := rfl
@[simp] theorem State.noteLoop_disicnt (s : State) : (s.noteLoop).disicnt = s.disicnt := rfl
@[simp] theorem State.noteLoop_shadow (s : State) : (s.noteLoop).shadow = s.shadow := rfl
@[simp] theorem State.noteLoop_pendingTraps (s : State) : (s.noteLoop).pendingTraps = s.pendingTraps := rfl
@[simp] theorem State.noteLoop_pending (s : State) : (s.noteLoop).pending = s.pending := rfl
@[simp] theorem State.noteLoop_nstdis (s : State) : (s.noteLoop).nstdis = s.nstdis := rfl
@[simp] theorem State.noteLoop_power (s : State) : (s.noteLoop).power = s.power := rfl
@[simp] theorem State.noteLoop_ram (s : State) : (s.noteLoop).ram = s.ram := rfl
@[simp] theorem State.noteLoop_ramEpoch (s : State) : (s.noteLoop).ramEpoch = s.ramEpoch := rfl
@[simp] theorem State.noteLoop_prog (s : State) : (s.noteLoop).prog = s.prog := rfl
@[simp] theorem State.noteLoop_periphWrites (s : State) : (s.noteLoop).periphWrites = s.periphWrites := rfl
@[simp] theorem State.noteLoop_divider (s : State) : (s.noteLoop).divider = s.divider := rfl
@[simp] theorem State.noteLoop_free (s : State) : (s.noteLoop).free = s.free := rfl
@[simp] theorem State.noteLoop_device (s : State) : (s.noteLoop).device = s.device := rfl

@[simp] theorem State.noteDisicnt_w (s : State) : (s.noteDisicnt).w = s.w := rfl
@[simp] theorem State.noteDisicnt_winit (s : State) : (s.noteDisicnt).winit = s.winit := rfl
@[simp] theorem State.noteDisicnt_pc (s : State) : (s.noteDisicnt).pc = s.pc := rfl
@[simp] theorem State.noteDisicnt_pcOut (s : State) : (s.noteDisicnt).pcOut = s.pcOut := rfl
@[simp] theorem State.noteDisicnt_sr (s : State) : (s.noteDisicnt).sr = s.sr := rfl
@[simp] theorem State.noteDisicnt_corcon (s : State) : (s.noteDisicnt).corcon = s.corcon := rfl
@[simp] theorem State.noteDisicnt_splim (s : State) : (s.noteDisicnt).splim = s.splim := rfl
@[simp] theorem State.noteDisicnt_splimEn (s : State) : (s.noteDisicnt).splimEn = s.splimEn := rfl
@[simp] theorem State.noteDisicnt_splimJustWritten (s : State) : (s.noteDisicnt).splimJustWritten = s.splimJustWritten := rfl
@[simp] theorem State.noteDisicnt_tblpag (s : State) : (s.noteDisicnt).tblpag = s.tblpag := rfl
@[simp] theorem State.noteDisicnt_psvpag (s : State) : (s.noteDisicnt).psvpag = s.psvpag := rfl
@[simp] theorem State.noteDisicnt_rcount (s : State) : (s.noteDisicnt).rcount = s.rcount := rfl
@[simp] theorem State.noteDisicnt_disicnt (s : State) : (s.noteDisicnt).disicnt = s.disicnt := rfl
@[simp] theorem State.noteDisicnt_shadow (s : State) : (s.noteDisicnt).shadow = s.shadow := rfl
@[simp] theorem State.noteDisicnt_pendingTraps (s : State) : (s.noteDisicnt).pendingTraps = s.pendingTraps := rfl
@[simp] theorem State.noteDisicnt_pending (s : State) : (s.noteDisicnt).pending = s.pending := rfl
@[simp] theorem State.noteDisicnt_nstdis (s : State) : (s.noteDisicnt).nstdis = s.nstdis := rfl
@[simp] theorem State.noteDisicnt_power (s : State) : (s.noteDisicnt).power = s.power := rfl
@[simp] theorem State.noteDisicnt_ram (s : State) : (s.noteDisicnt).ram = s.ram := rfl
@[simp] theorem State.noteDisicnt_ramEpoch (s : State) : (s.noteDisicnt).ramEpoch = s.ramEpoch := rfl
@[simp] theorem State.noteDisicnt_prog (s : State) : (s.noteDisicnt).prog = s.prog := rfl
@[simp] theorem State.noteDisicnt_periphWrites (s : State) : (s.noteDisicnt).periphWrites = s.periphWrites := rfl
@[simp] theorem State.noteDisicnt_divider (s : State) : (s.noteDisicnt).divider = s.divider := rfl
@[simp] theorem State.noteDisicnt_free (s : State) : (s.noteDisicnt).free = s.free := rfl
@[simp] theorem State.noteDisicnt_device (s : State) : (s.noteDisicnt).device = s.device := rfl

@[simp] theorem State.setRamByte_w (s : State) (a : Nat) (v : Byte) : (s.setRamByte a v).w = s.w := rfl
@[simp] theorem State.setRamByte_winit (s : State) (a : Nat) (v : Byte) : (s.setRamByte a v).winit = s.winit := rfl
@[simp] theorem State.setRamByte_pc (s : State) (a : Nat) (v : Byte) : (s.setRamByte a v).pc = s.pc := rfl
@[simp] theorem State.setRamByte_pcOut (s : State) (a : Nat) (v : Byte) : (s.setRamByte a v).pcOut = s.pcOut := rfl
@[simp] theorem State.setRamByte_sr (s : State) (a : Nat) (v : Byte) : (s.setRamByte a v).sr = s.sr := rfl
@[simp] theorem State.setRamByte_corcon (s : State) (a : Nat) (v : Byte) : (s.setRamByte a v).corcon = s.corcon := rfl
@[simp] theorem State.setRamByte_splim (s : State) (a : Nat) (v : Byte) : (s.setRamByte a v).splim = s.splim := rfl
@[simp] theorem State.setRamByte_splimEn (s : State) (a : Nat) (v : Byte) : (s.setRamByte a v).splimEn = s.splimEn := rfl
@[simp] theorem State.setRamByte_splimJustWritten (s : State) (a : Nat) (v : Byte) : (s.setRamByte a v).splimJustWritten = s.splimJustWritten := rfl
@[simp] theorem State.setRamByte_tblpag (s : State) (a : Nat) (v : Byte) : (s.setRamByte a v).tblpag = s.tblpag := rfl
@[simp] theorem State.setRamByte_psvpag (s : State) (a : Nat) (v : Byte) : (s.setRamByte a v).psvpag = s.psvpag := rfl
@[simp] theorem State.setRamByte_rcount (s : State) (a : Nat) (v : Byte) : (s.setRamByte a v).rcount = s.rcount := rfl
@[simp] theorem State.setRamByte_disicnt (s : State) (a : Nat) (v : Byte) : (s.setRamByte a v).disicnt = s.disicnt := rfl
@[simp] theorem State.setRamByte_shadow (s : State) (a : Nat) (v : Byte) : (s.setRamByte a v).shadow = s.shadow := rfl
@[simp] theorem State.setRamByte_pendingTraps (s : State) (a : Nat) (v : Byte) : (s.setRamByte a v).pendingTraps = s.pendingTraps := rfl
@[simp] theorem State.setRamByte_pending (s : State) (a : Nat) (v : Byte) : (s.setRamByte a v).pending = s.pending := rfl
@[simp] theorem State.setRamByte_nstdis (s : State) (a : Nat) (v : Byte) : (s.setRamByte a v).nstdis = s.nstdis := rfl
@[simp] theorem State.setRamByte_power (s : State) (a : Nat) (v : Byte) : (s.setRamByte a v).power = s.power := rfl
@[simp] theorem State.setRamByte_ramEpoch (s : State) (a : Nat) (v : Byte) : (s.setRamByte a v).ramEpoch = s.ramEpoch := rfl
@[simp] theorem State.setRamByte_prog (s : State) (a : Nat) (v : Byte) : (s.setRamByte a v).prog = s.prog := rfl
@[simp] theorem State.setRamByte_periphWrites (s : State) (a : Nat) (v : Byte) : (s.setRamByte a v).periphWrites = s.periphWrites := rfl
@[simp] theorem State.setRamByte_divider (s : State) (a : Nat) (v : Byte) : (s.setRamByte a v).divider = s.divider := rfl
@[simp] theorem State.setRamByte_free (s : State) (a : Nat) (v : Byte) : (s.setRamByte a v).free = s.free := rfl
@[simp] theorem State.setRamByte_notes (s : State) (a : Nat) (v : Byte) : (s.setRamByte a v).notes = s.notes := rfl
@[simp] theorem State.setRamByte_device (s : State) (a : Nat) (v : Byte) : (s.setRamByte a v).device = s.device := rfl

@[simp] theorem State.loadProgWord_w (s : State) (a : Nat) (x : ProgWord) : (s.loadProgWord a x).w = s.w := rfl
@[simp] theorem State.loadProgWord_winit (s : State) (a : Nat) (x : ProgWord) : (s.loadProgWord a x).winit = s.winit := rfl
@[simp] theorem State.loadProgWord_pc (s : State) (a : Nat) (x : ProgWord) : (s.loadProgWord a x).pc = s.pc := rfl
@[simp] theorem State.loadProgWord_pcOut (s : State) (a : Nat) (x : ProgWord) : (s.loadProgWord a x).pcOut = s.pcOut := rfl
@[simp] theorem State.loadProgWord_sr (s : State) (a : Nat) (x : ProgWord) : (s.loadProgWord a x).sr = s.sr := rfl
@[simp] theorem State.loadProgWord_corcon (s : State) (a : Nat) (x : ProgWord) : (s.loadProgWord a x).corcon = s.corcon := rfl
@[simp] theorem State.loadProgWord_splim (s : State) (a : Nat) (x : ProgWord) : (s.loadProgWord a x).splim = s.splim := rfl
@[simp] theorem State.loadProgWord_splimEn (s : State) (a : Nat) (x : ProgWord) : (s.loadProgWord a x).splimEn = s.splimEn := rfl
@[simp] theorem State.loadProgWord_splimJustWritten (s : State) (a : Nat) (x : ProgWord) : (s.loadProgWord a x).splimJustWritten = s.splimJustWritten := rfl
@[simp] theorem State.loadProgWord_tblpag (s : State) (a : Nat) (x : ProgWord) : (s.loadProgWord a x).tblpag = s.tblpag := rfl
@[simp] theorem State.loadProgWord_psvpag (s : State) (a : Nat) (x : ProgWord) : (s.loadProgWord a x).psvpag = s.psvpag := rfl
@[simp] theorem State.loadProgWord_rcount (s : State) (a : Nat) (x : ProgWord) : (s.loadProgWord a x).rcount = s.rcount := rfl
@[simp] theorem State.loadProgWord_disicnt (s : State) (a : Nat) (x : ProgWord) : (s.loadProgWord a x).disicnt = s.disicnt := rfl
@[simp] theorem State.loadProgWord_shadow (s : State) (a : Nat) (x : ProgWord) : (s.loadProgWord a x).shadow = s.shadow := rfl
@[simp] theorem State.loadProgWord_pendingTraps (s : State) (a : Nat) (x : ProgWord) : (s.loadProgWord a x).pendingTraps = s.pendingTraps := rfl
@[simp] theorem State.loadProgWord_pending (s : State) (a : Nat) (x : ProgWord) : (s.loadProgWord a x).pending = s.pending := rfl
@[simp] theorem State.loadProgWord_nstdis (s : State) (a : Nat) (x : ProgWord) : (s.loadProgWord a x).nstdis = s.nstdis := rfl
@[simp] theorem State.loadProgWord_power (s : State) (a : Nat) (x : ProgWord) : (s.loadProgWord a x).power = s.power := rfl
@[simp] theorem State.loadProgWord_ram (s : State) (a : Nat) (x : ProgWord) : (s.loadProgWord a x).ram = s.ram := rfl
@[simp] theorem State.loadProgWord_ramEpoch (s : State) (a : Nat) (x : ProgWord) : (s.loadProgWord a x).ramEpoch = s.ramEpoch := rfl
@[simp] theorem State.loadProgWord_periphWrites (s : State) (a : Nat) (x : ProgWord) : (s.loadProgWord a x).periphWrites = s.periphWrites := rfl
@[simp] theorem State.loadProgWord_divider (s : State) (a : Nat) (x : ProgWord) : (s.loadProgWord a x).divider = s.divider := rfl
@[simp] theorem State.loadProgWord_free (s : State) (a : Nat) (x : ProgWord) : (s.loadProgWord a x).free = s.free := rfl
@[simp] theorem State.loadProgWord_notes (s : State) (a : Nat) (x : ProgWord) : (s.loadProgWord a x).notes = s.notes := rfl
@[simp] theorem State.loadProgWord_device (s : State) (a : Nat) (x : ProgWord) : (s.loadProgWord a x).device = s.device := rfl

@[simp] theorem State.setLoop_w (s : State) (l : LoopDivide) : (s.setLoop l).w = s.w := rfl
@[simp] theorem State.setLoop_winit (s : State) (l : LoopDivide) : (s.setLoop l).winit = s.winit := rfl
@[simp] theorem State.setLoop_pc (s : State) (l : LoopDivide) : (s.setLoop l).pc = s.pc := rfl
@[simp] theorem State.setLoop_pcOut (s : State) (l : LoopDivide) : (s.setLoop l).pcOut = s.pcOut := rfl
@[simp] theorem State.setLoop_sr (s : State) (l : LoopDivide) : (s.setLoop l).sr = s.sr := rfl
@[simp] theorem State.setLoop_corcon (s : State) (l : LoopDivide) : (s.setLoop l).corcon = s.corcon := rfl
@[simp] theorem State.setLoop_splim (s : State) (l : LoopDivide) : (s.setLoop l).splim = s.splim := rfl
@[simp] theorem State.setLoop_splimEn (s : State) (l : LoopDivide) : (s.setLoop l).splimEn = s.splimEn := rfl
@[simp] theorem State.setLoop_splimJustWritten (s : State) (l : LoopDivide) : (s.setLoop l).splimJustWritten = s.splimJustWritten := rfl
@[simp] theorem State.setLoop_tblpag (s : State) (l : LoopDivide) : (s.setLoop l).tblpag = s.tblpag := rfl
@[simp] theorem State.setLoop_psvpag (s : State) (l : LoopDivide) : (s.setLoop l).psvpag = s.psvpag := rfl
@[simp] theorem State.setLoop_rcount (s : State) (l : LoopDivide) : (s.setLoop l).rcount = s.rcount := rfl
@[simp] theorem State.setLoop_disicnt (s : State) (l : LoopDivide) : (s.setLoop l).disicnt = s.disicnt := rfl
@[simp] theorem State.setLoop_shadow (s : State) (l : LoopDivide) : (s.setLoop l).shadow = s.shadow := rfl
@[simp] theorem State.setLoop_pendingTraps (s : State) (l : LoopDivide) : (s.setLoop l).pendingTraps = s.pendingTraps := rfl
@[simp] theorem State.setLoop_pending (s : State) (l : LoopDivide) : (s.setLoop l).pending = s.pending := rfl
@[simp] theorem State.setLoop_nstdis (s : State) (l : LoopDivide) : (s.setLoop l).nstdis = s.nstdis := rfl
@[simp] theorem State.setLoop_power (s : State) (l : LoopDivide) : (s.setLoop l).power = s.power := rfl
@[simp] theorem State.setLoop_ram (s : State) (l : LoopDivide) : (s.setLoop l).ram = s.ram := rfl
@[simp] theorem State.setLoop_ramEpoch (s : State) (l : LoopDivide) : (s.setLoop l).ramEpoch = s.ramEpoch := rfl
@[simp] theorem State.setLoop_prog (s : State) (l : LoopDivide) : (s.setLoop l).prog = s.prog := rfl
@[simp] theorem State.setLoop_periphWrites (s : State) (l : LoopDivide) : (s.setLoop l).periphWrites = s.periphWrites := rfl
@[simp] theorem State.setLoop_free (s : State) (l : LoopDivide) : (s.setLoop l).free = s.free := rfl
@[simp] theorem State.setLoop_notes (s : State) (l : LoopDivide) : (s.setLoop l).notes = s.notes := rfl
@[simp] theorem State.setLoop_device (s : State) (l : LoopDivide) : (s.setLoop l).device = s.device := rfl

@[simp] theorem State.freeDivFlags_w (s : State) : (s.freeDivFlags).w = s.w := rfl
@[simp] theorem State.freeDivFlags_winit (s : State) : (s.freeDivFlags).winit = s.winit := rfl
@[simp] theorem State.freeDivFlags_pc (s : State) : (s.freeDivFlags).pc = s.pc := rfl
@[simp] theorem State.freeDivFlags_pcOut (s : State) : (s.freeDivFlags).pcOut = s.pcOut := rfl
@[simp] theorem State.freeDivFlags_corcon (s : State) : (s.freeDivFlags).corcon = s.corcon := rfl
@[simp] theorem State.freeDivFlags_splim (s : State) : (s.freeDivFlags).splim = s.splim := rfl
@[simp] theorem State.freeDivFlags_splimEn (s : State) : (s.freeDivFlags).splimEn = s.splimEn := rfl
@[simp] theorem State.freeDivFlags_splimJustWritten (s : State) : (s.freeDivFlags).splimJustWritten = s.splimJustWritten := rfl
@[simp] theorem State.freeDivFlags_tblpag (s : State) : (s.freeDivFlags).tblpag = s.tblpag := rfl
@[simp] theorem State.freeDivFlags_psvpag (s : State) : (s.freeDivFlags).psvpag = s.psvpag := rfl
@[simp] theorem State.freeDivFlags_rcount (s : State) : (s.freeDivFlags).rcount = s.rcount := rfl
@[simp] theorem State.freeDivFlags_disicnt (s : State) : (s.freeDivFlags).disicnt = s.disicnt := rfl
@[simp] theorem State.freeDivFlags_shadow (s : State) : (s.freeDivFlags).shadow = s.shadow := rfl
@[simp] theorem State.freeDivFlags_pendingTraps (s : State) : (s.freeDivFlags).pendingTraps = s.pendingTraps := rfl
@[simp] theorem State.freeDivFlags_pending (s : State) : (s.freeDivFlags).pending = s.pending := rfl
@[simp] theorem State.freeDivFlags_nstdis (s : State) : (s.freeDivFlags).nstdis = s.nstdis := rfl
@[simp] theorem State.freeDivFlags_power (s : State) : (s.freeDivFlags).power = s.power := rfl
@[simp] theorem State.freeDivFlags_ram (s : State) : (s.freeDivFlags).ram = s.ram := rfl
@[simp] theorem State.freeDivFlags_ramEpoch (s : State) : (s.freeDivFlags).ramEpoch = s.ramEpoch := rfl
@[simp] theorem State.freeDivFlags_prog (s : State) : (s.freeDivFlags).prog = s.prog := rfl
@[simp] theorem State.freeDivFlags_periphWrites (s : State) : (s.freeDivFlags).periphWrites = s.periphWrites := rfl
@[simp] theorem State.freeDivFlags_divider (s : State) : (s.freeDivFlags).divider = s.divider := rfl
@[simp] theorem State.freeDivFlags_notes (s : State) : (s.freeDivFlags).notes = s.notes := rfl
@[simp] theorem State.freeDivFlags_device (s : State) : (s.freeDivFlags).device = s.device := rfl

@[simp] theorem State.freeDivResult_pc (s : State) : (s.freeDivResult).pc = s.pc := rfl
@[simp] theorem State.freeDivResult_pcOut (s : State) : (s.freeDivResult).pcOut = s.pcOut := rfl
@[simp] theorem State.freeDivResult_corcon (s : State) : (s.freeDivResult).corcon = s.corcon := rfl
@[simp] theorem State.freeDivResult_splim (s : State) : (s.freeDivResult).splim = s.splim := rfl
@[simp] theorem State.freeDivResult_splimEn (s : State) : (s.freeDivResult).splimEn = s.splimEn := rfl
@[simp] theorem State.freeDivResult_splimJustWritten (s : State) : (s.freeDivResult).splimJustWritten = s.splimJustWritten := rfl
@[simp] theorem State.freeDivResult_tblpag (s : State) : (s.freeDivResult).tblpag = s.tblpag := rfl
@[simp] theorem State.freeDivResult_psvpag (s : State) : (s.freeDivResult).psvpag = s.psvpag := rfl
@[simp] theorem State.freeDivResult_rcount (s : State) : (s.freeDivResult).rcount = s.rcount := rfl
@[simp] theorem State.freeDivResult_disicnt (s : State) : (s.freeDivResult).disicnt = s.disicnt := rfl
@[simp] theorem State.freeDivResult_shadow (s : State) : (s.freeDivResult).shadow = s.shadow := rfl
@[simp] theorem State.freeDivResult_pendingTraps (s : State) : (s.freeDivResult).pendingTraps = s.pendingTraps := rfl
@[simp] theorem State.freeDivResult_pending (s : State) : (s.freeDivResult).pending = s.pending := rfl
@[simp] theorem State.freeDivResult_nstdis (s : State) : (s.freeDivResult).nstdis = s.nstdis := rfl
@[simp] theorem State.freeDivResult_power (s : State) : (s.freeDivResult).power = s.power := rfl
@[simp] theorem State.freeDivResult_ram (s : State) : (s.freeDivResult).ram = s.ram := rfl
@[simp] theorem State.freeDivResult_ramEpoch (s : State) : (s.freeDivResult).ramEpoch = s.ramEpoch := rfl
@[simp] theorem State.freeDivResult_prog (s : State) : (s.freeDivResult).prog = s.prog := rfl
@[simp] theorem State.freeDivResult_periphWrites (s : State) : (s.freeDivResult).periphWrites = s.periphWrites := rfl
@[simp] theorem State.freeDivResult_divider (s : State) : (s.freeDivResult).divider = s.divider := rfl
@[simp] theorem State.freeDivResult_notes (s : State) : (s.freeDivResult).notes = s.notes := rfl
@[simp] theorem State.freeDivResult_device (s : State) : (s.freeDivResult).device = s.device := rfl

@[simp] theorem State.drawWord_w (s : State) : s.drawWord.2.w = s.w := rfl
@[simp] theorem State.drawWord_winit (s : State) : s.drawWord.2.winit = s.winit := rfl
@[simp] theorem State.drawWord_pc (s : State) : s.drawWord.2.pc = s.pc := rfl
@[simp] theorem State.drawWord_pcOut (s : State) : s.drawWord.2.pcOut = s.pcOut := rfl
@[simp] theorem State.drawWord_sr (s : State) : s.drawWord.2.sr = s.sr := rfl
@[simp] theorem State.drawWord_corcon (s : State) : s.drawWord.2.corcon = s.corcon := rfl
@[simp] theorem State.drawWord_splim (s : State) : s.drawWord.2.splim = s.splim := rfl
@[simp] theorem State.drawWord_splimEn (s : State) : s.drawWord.2.splimEn = s.splimEn := rfl
@[simp] theorem State.drawWord_splimJustWritten (s : State) : s.drawWord.2.splimJustWritten = s.splimJustWritten := rfl
@[simp] theorem State.drawWord_tblpag (s : State) : s.drawWord.2.tblpag = s.tblpag := rfl
@[simp] theorem State.drawWord_psvpag (s : State) : s.drawWord.2.psvpag = s.psvpag := rfl
@[simp] theorem State.drawWord_rcount (s : State) : s.drawWord.2.rcount = s.rcount := rfl
@[simp] theorem State.drawWord_disicnt (s : State) : s.drawWord.2.disicnt = s.disicnt := rfl
@[simp] theorem State.drawWord_shadow (s : State) : s.drawWord.2.shadow = s.shadow := rfl
@[simp] theorem State.drawWord_pendingTraps (s : State) : s.drawWord.2.pendingTraps = s.pendingTraps := rfl
@[simp] theorem State.drawWord_pending (s : State) : s.drawWord.2.pending = s.pending := rfl
@[simp] theorem State.drawWord_nstdis (s : State) : s.drawWord.2.nstdis = s.nstdis := rfl
@[simp] theorem State.drawWord_power (s : State) : s.drawWord.2.power = s.power := rfl
@[simp] theorem State.drawWord_ram (s : State) : s.drawWord.2.ram = s.ram := rfl
@[simp] theorem State.drawWord_ramEpoch (s : State) : s.drawWord.2.ramEpoch = s.ramEpoch := rfl
@[simp] theorem State.drawWord_prog (s : State) : s.drawWord.2.prog = s.prog := rfl
@[simp] theorem State.drawWord_periphWrites (s : State) : s.drawWord.2.periphWrites = s.periphWrites := rfl
@[simp] theorem State.drawWord_divider (s : State) : s.drawWord.2.divider = s.divider := rfl
@[simp] theorem State.drawWord_notes (s : State) : s.drawWord.2.notes = s.notes := rfl
@[simp] theorem State.drawWord_device (s : State) : s.drawWord.2.device = s.device := rfl
@[simp] theorem State.drawWord_free (s : State) : s.drawWord.2.free = s.free + 1 := rfl

@[simp] theorem State.drawBit_w (s : State) : s.drawBit.2.w = s.w := rfl
@[simp] theorem State.drawBit_winit (s : State) : s.drawBit.2.winit = s.winit := rfl
@[simp] theorem State.drawBit_pc (s : State) : s.drawBit.2.pc = s.pc := rfl
@[simp] theorem State.drawBit_pcOut (s : State) : s.drawBit.2.pcOut = s.pcOut := rfl
@[simp] theorem State.drawBit_sr (s : State) : s.drawBit.2.sr = s.sr := rfl
@[simp] theorem State.drawBit_corcon (s : State) : s.drawBit.2.corcon = s.corcon := rfl
@[simp] theorem State.drawBit_splim (s : State) : s.drawBit.2.splim = s.splim := rfl
@[simp] theorem State.drawBit_splimEn (s : State) : s.drawBit.2.splimEn = s.splimEn := rfl
@[simp] theorem State.drawBit_splimJustWritten (s : State) : s.drawBit.2.splimJustWritten = s.splimJustWritten := rfl
@[simp] theorem State.drawBit_tblpag (s : State) : s.drawBit.2.tblpag = s.tblpag := rfl
@[simp] theorem State.drawBit_psvpag (s : State) : s.drawBit.2.psvpag = s.psvpag := rfl
@[simp] theorem State.drawBit_rcount (s : State) : s.drawBit.2.rcount = s.rcount := rfl
@[simp] theorem State.drawBit_disicnt (s : State) : s.drawBit.2.disicnt = s.disicnt := rfl
@[simp] theorem State.drawBit_shadow (s : State) : s.drawBit.2.shadow = s.shadow := rfl
@[simp] theorem State.drawBit_pendingTraps (s : State) : s.drawBit.2.pendingTraps = s.pendingTraps := rfl
@[simp] theorem State.drawBit_pending (s : State) : s.drawBit.2.pending = s.pending := rfl
@[simp] theorem State.drawBit_nstdis (s : State) : s.drawBit.2.nstdis = s.nstdis := rfl
@[simp] theorem State.drawBit_power (s : State) : s.drawBit.2.power = s.power := rfl
@[simp] theorem State.drawBit_ram (s : State) : s.drawBit.2.ram = s.ram := rfl
@[simp] theorem State.drawBit_ramEpoch (s : State) : s.drawBit.2.ramEpoch = s.ramEpoch := rfl
@[simp] theorem State.drawBit_prog (s : State) : s.drawBit.2.prog = s.prog := rfl
@[simp] theorem State.drawBit_periphWrites (s : State) : s.drawBit.2.periphWrites = s.periphWrites := rfl
@[simp] theorem State.drawBit_divider (s : State) : s.drawBit.2.divider = s.divider := rfl
@[simp] theorem State.drawBit_notes (s : State) : s.drawBit.2.notes = s.notes := rfl
@[simp] theorem State.drawBit_device (s : State) : s.drawBit.2.device = s.device := rfl
@[simp] theorem State.drawBit_free (s : State) : s.drawBit.2.free = s.free + 1 := rfl

@[simp] theorem State.drawCount_w (s : State) : s.drawCount.2.w = s.w := rfl
@[simp] theorem State.drawCount_winit (s : State) : s.drawCount.2.winit = s.winit := rfl
@[simp] theorem State.drawCount_pc (s : State) : s.drawCount.2.pc = s.pc := rfl
@[simp] theorem State.drawCount_pcOut (s : State) : s.drawCount.2.pcOut = s.pcOut := rfl
@[simp] theorem State.drawCount_sr (s : State) : s.drawCount.2.sr = s.sr := rfl
@[simp] theorem State.drawCount_corcon (s : State) : s.drawCount.2.corcon = s.corcon := rfl
@[simp] theorem State.drawCount_splim (s : State) : s.drawCount.2.splim = s.splim := rfl
@[simp] theorem State.drawCount_splimEn (s : State) : s.drawCount.2.splimEn = s.splimEn := rfl
@[simp] theorem State.drawCount_splimJustWritten (s : State) : s.drawCount.2.splimJustWritten = s.splimJustWritten := rfl
@[simp] theorem State.drawCount_tblpag (s : State) : s.drawCount.2.tblpag = s.tblpag := rfl
@[simp] theorem State.drawCount_psvpag (s : State) : s.drawCount.2.psvpag = s.psvpag := rfl
@[simp] theorem State.drawCount_rcount (s : State) : s.drawCount.2.rcount = s.rcount := rfl
@[simp] theorem State.drawCount_disicnt (s : State) : s.drawCount.2.disicnt = s.disicnt := rfl
@[simp] theorem State.drawCount_shadow (s : State) : s.drawCount.2.shadow = s.shadow := rfl
@[simp] theorem State.drawCount_pendingTraps (s : State) : s.drawCount.2.pendingTraps = s.pendingTraps := rfl
@[simp] theorem State.drawCount_pending (s : State) : s.drawCount.2.pending = s.pending := rfl
@[simp] theorem State.drawCount_nstdis (s : State) : s.drawCount.2.nstdis = s.nstdis := rfl
@[simp] theorem State.drawCount_power (s : State) : s.drawCount.2.power = s.power := rfl
@[simp] theorem State.drawCount_ram (s : State) : s.drawCount.2.ram = s.ram := rfl
@[simp] theorem State.drawCount_ramEpoch (s : State) : s.drawCount.2.ramEpoch = s.ramEpoch := rfl
@[simp] theorem State.drawCount_prog (s : State) : s.drawCount.2.prog = s.prog := rfl
@[simp] theorem State.drawCount_periphWrites (s : State) : s.drawCount.2.periphWrites = s.periphWrites := rfl
@[simp] theorem State.drawCount_divider (s : State) : s.drawCount.2.divider = s.divider := rfl
@[simp] theorem State.drawCount_notes (s : State) : s.drawCount.2.notes = s.notes := rfl
@[simp] theorem State.drawCount_device (s : State) : s.drawCount.2.device = s.device := rfl
@[simp] theorem State.drawCount_free (s : State) : s.drawCount.2.free = s.free + 1 := rfl

@[simp] theorem State.drawProgWord_w (s : State) : s.drawProgWord.2.w = s.w := rfl
@[simp] theorem State.drawProgWord_winit (s : State) : s.drawProgWord.2.winit = s.winit := rfl
@[simp] theorem State.drawProgWord_pc (s : State) : s.drawProgWord.2.pc = s.pc := rfl
@[simp] theorem State.drawProgWord_pcOut (s : State) : s.drawProgWord.2.pcOut = s.pcOut := rfl
@[simp] theorem State.drawProgWord_sr (s : State) : s.drawProgWord.2.sr = s.sr := rfl
@[simp] theorem State.drawProgWord_corcon (s : State) : s.drawProgWord.2.corcon = s.corcon := rfl
@[simp] theorem State.drawProgWord_splim (s : State) : s.drawProgWord.2.splim = s.splim := rfl
@[simp] theorem State.drawProgWord_splimEn (s : State) : s.drawProgWord.2.splimEn = s.splimEn := rfl
@[simp] theorem State.drawProgWord_splimJustWritten (s : State) : s.drawProgWord.2.splimJustWritten = s.splimJustWritten := rfl
@[simp] theorem State.drawProgWord_tblpag (s : State) : s.drawProgWord.2.tblpag = s.tblpag := rfl
@[simp] theorem State.drawProgWord_psvpag (s : State) : s.drawProgWord.2.psvpag = s.psvpag := rfl
@[simp] theorem State.drawProgWord_rcount (s : State) : s.drawProgWord.2.rcount = s.rcount := rfl
@[simp] theorem State.drawProgWord_disicnt (s : State) : s.drawProgWord.2.disicnt = s.disicnt := rfl
@[simp] theorem State.drawProgWord_shadow (s : State) : s.drawProgWord.2.shadow = s.shadow := rfl
@[simp] theorem State.drawProgWord_pendingTraps (s : State) : s.drawProgWord.2.pendingTraps = s.pendingTraps := rfl
@[simp] theorem State.drawProgWord_pending (s : State) : s.drawProgWord.2.pending = s.pending := rfl
@[simp] theorem State.drawProgWord_nstdis (s : State) : s.drawProgWord.2.nstdis = s.nstdis := rfl
@[simp] theorem State.drawProgWord_power (s : State) : s.drawProgWord.2.power = s.power := rfl
@[simp] theorem State.drawProgWord_ram (s : State) : s.drawProgWord.2.ram = s.ram := rfl
@[simp] theorem State.drawProgWord_ramEpoch (s : State) : s.drawProgWord.2.ramEpoch = s.ramEpoch := rfl
@[simp] theorem State.drawProgWord_prog (s : State) : s.drawProgWord.2.prog = s.prog := rfl
@[simp] theorem State.drawProgWord_periphWrites (s : State) : s.drawProgWord.2.periphWrites = s.periphWrites := rfl
@[simp] theorem State.drawProgWord_divider (s : State) : s.drawProgWord.2.divider = s.divider := rfl
@[simp] theorem State.drawProgWord_notes (s : State) : s.drawProgWord.2.notes = s.notes := rfl
@[simp] theorem State.drawProgWord_device (s : State) : s.drawProgWord.2.device = s.device := rfl
@[simp] theorem State.drawProgWord_free (s : State) : s.drawProgWord.2.free = s.free + 1 := rfl

/-- What a read, an address or a stack check can leave changed in the state besides the pointer: `StackError`, the counter of free
values, and the note of PSV reads. -/
def State.touch (e : Bool) (n k : Nat) (s : State) : State :=
  { s with
    pendingTraps := { s.pendingTraps with stackError := e }
    free := n
    notes := { s.notes with psvReads := k } }

@[simp] theorem State.touch_w (s : State) (e : Bool) (n k : Nat) : (s.touch e n k).w = s.w := rfl
@[simp] theorem State.touch_winit (s : State) (e : Bool) (n k : Nat) : (s.touch e n k).winit = s.winit := rfl
@[simp] theorem State.touch_pc (s : State) (e : Bool) (n k : Nat) : (s.touch e n k).pc = s.pc := rfl
@[simp] theorem State.touch_pcOut (s : State) (e : Bool) (n k : Nat) : (s.touch e n k).pcOut = s.pcOut := rfl
@[simp] theorem State.touch_sr (s : State) (e : Bool) (n k : Nat) : (s.touch e n k).sr = s.sr := rfl
@[simp] theorem State.touch_corcon (s : State) (e : Bool) (n k : Nat) : (s.touch e n k).corcon = s.corcon := rfl
@[simp] theorem State.touch_splim (s : State) (e : Bool) (n k : Nat) : (s.touch e n k).splim = s.splim := rfl
@[simp] theorem State.touch_splimEn (s : State) (e : Bool) (n k : Nat) : (s.touch e n k).splimEn = s.splimEn := rfl
@[simp] theorem State.touch_splimJustWritten (s : State) (e : Bool) (n k : Nat) : (s.touch e n k).splimJustWritten = s.splimJustWritten := rfl
@[simp] theorem State.touch_tblpag (s : State) (e : Bool) (n k : Nat) : (s.touch e n k).tblpag = s.tblpag := rfl
@[simp] theorem State.touch_psvpag (s : State) (e : Bool) (n k : Nat) : (s.touch e n k).psvpag = s.psvpag := rfl
@[simp] theorem State.touch_rcount (s : State) (e : Bool) (n k : Nat) : (s.touch e n k).rcount = s.rcount := rfl
@[simp] theorem State.touch_disicnt (s : State) (e : Bool) (n k : Nat) : (s.touch e n k).disicnt = s.disicnt := rfl
@[simp] theorem State.touch_shadow (s : State) (e : Bool) (n k : Nat) : (s.touch e n k).shadow = s.shadow := rfl
@[simp] theorem State.touch_pending (s : State) (e : Bool) (n k : Nat) : (s.touch e n k).pending = s.pending := rfl
@[simp] theorem State.touch_nstdis (s : State) (e : Bool) (n k : Nat) : (s.touch e n k).nstdis = s.nstdis := rfl
@[simp] theorem State.touch_power (s : State) (e : Bool) (n k : Nat) : (s.touch e n k).power = s.power := rfl
@[simp] theorem State.touch_ram (s : State) (e : Bool) (n k : Nat) : (s.touch e n k).ram = s.ram := rfl
@[simp] theorem State.touch_ramEpoch (s : State) (e : Bool) (n k : Nat) : (s.touch e n k).ramEpoch = s.ramEpoch := rfl
@[simp] theorem State.touch_prog (s : State) (e : Bool) (n k : Nat) : (s.touch e n k).prog = s.prog := rfl
@[simp] theorem State.touch_periphWrites (s : State) (e : Bool) (n k : Nat) : (s.touch e n k).periphWrites = s.periphWrites := rfl
@[simp] theorem State.touch_divider (s : State) (e : Bool) (n k : Nat) : (s.touch e n k).divider = s.divider := rfl
@[simp] theorem State.touch_device (s : State) (e : Bool) (n k : Nat) : (s.touch e n k).device = s.device := rfl
@[simp] theorem State.touch_reg (s : State) (e : Bool) (n k : Nat) (r : Reg) : (s.touch e n k).reg r = s.reg r := rfl
@[simp] theorem State.touch_initialised (s : State) (e : Bool) (n k : Nat) (r : Reg) :
    (s.touch e n k).initialised r = s.initialised r := rfl
@[simp] theorem State.touch_ramByte (s : State) (e : Bool) (n k a : Nat) : (s.touch e n k).ramByte a = s.ramByte a := rfl
@[simp] theorem State.touch_stackError (s : State) (e : Bool) (n k : Nat) : (s.touch e n k).pendingTraps.stackError = e := rfl
@[simp] theorem State.touch_oscillatorFailure (s : State) (e : Bool) (n k : Nat) :
    (s.touch e n k).pendingTraps.oscillatorFailure = s.pendingTraps.oscillatorFailure := rfl
@[simp] theorem State.touch_trapAddressError (s : State) (e : Bool) (n k : Nat) :
    (s.touch e n k).pendingTraps.addressError = s.pendingTraps.addressError := rfl
@[simp] theorem State.touch_arithmeticError (s : State) (e : Bool) (n k : Nat) :
    (s.touch e n k).pendingTraps.arithmeticError = s.pendingTraps.arithmeticError := rfl
@[simp] theorem State.touch_didReset (s : State) (e : Bool) (n k : Nat) :
    (s.touch e n k).notes.didReset = s.notes.didReset := rfl
@[simp] theorem State.touch_touch (s : State) (e e' : Bool) (n n' k k' : Nat) :
    (s.touch e n k).touch e' n' k' = s.touch e' n' k' := rfl

@[simp] theorem State.noteSplim_didReset (s : State) : s.noteSplim.notes.didReset = s.notes.didReset := rfl
@[simp] theorem State.noteLoop_didReset (s : State) : s.noteLoop.notes.didReset = s.notes.didReset := rfl
@[simp] theorem State.noteDisicnt_didReset (s : State) : s.noteDisicnt.notes.didReset = s.notes.didReset := rfl

@[simp] theorem State.noteStore_w (s : State) (b : Size) (a : Word) : (s.noteStore b a).w = s.w := rfl
@[simp] theorem State.noteStore_winit (s : State) (b : Size) (a : Word) : (s.noteStore b a).winit = s.winit := rfl
@[simp] theorem State.noteStore_pc (s : State) (b : Size) (a : Word) : (s.noteStore b a).pc = s.pc := rfl
@[simp] theorem State.noteStore_pcOut (s : State) (b : Size) (a : Word) : (s.noteStore b a).pcOut = s.pcOut := rfl
@[simp] theorem State.noteStore_sr (s : State) (b : Size) (a : Word) : (s.noteStore b a).sr = s.sr := rfl
@[simp] theorem State.noteStore_corcon (s : State) (b : Size) (a : Word) : (s.noteStore b a).corcon = s.corcon := rfl
@[simp] theorem State.noteStore_splim (s : State) (b : Size) (a : Word) : (s.noteStore b a).splim = s.splim := rfl
@[simp] theorem State.noteStore_splimEn (s : State) (b : Size) (a : Word) : (s.noteStore b a).splimEn = s.splimEn := rfl
@[simp] theorem State.noteStore_splimJustWritten (s : State) (b : Size) (a : Word) : (s.noteStore b a).splimJustWritten = s.splimJustWritten := rfl
@[simp] theorem State.noteStore_tblpag (s : State) (b : Size) (a : Word) : (s.noteStore b a).tblpag = s.tblpag := rfl
@[simp] theorem State.noteStore_psvpag (s : State) (b : Size) (a : Word) : (s.noteStore b a).psvpag = s.psvpag := rfl
@[simp] theorem State.noteStore_rcount (s : State) (b : Size) (a : Word) : (s.noteStore b a).rcount = s.rcount := rfl
@[simp] theorem State.noteStore_disicnt (s : State) (b : Size) (a : Word) : (s.noteStore b a).disicnt = s.disicnt := rfl
@[simp] theorem State.noteStore_shadow (s : State) (b : Size) (a : Word) : (s.noteStore b a).shadow = s.shadow := rfl
@[simp] theorem State.noteStore_pendingTraps (s : State) (b : Size) (a : Word) : (s.noteStore b a).pendingTraps = s.pendingTraps := rfl
@[simp] theorem State.noteStore_pending (s : State) (b : Size) (a : Word) : (s.noteStore b a).pending = s.pending := rfl
@[simp] theorem State.noteStore_nstdis (s : State) (b : Size) (a : Word) : (s.noteStore b a).nstdis = s.nstdis := rfl
@[simp] theorem State.noteStore_power (s : State) (b : Size) (a : Word) : (s.noteStore b a).power = s.power := rfl
@[simp] theorem State.noteStore_ram (s : State) (b : Size) (a : Word) : (s.noteStore b a).ram = s.ram := rfl
@[simp] theorem State.noteStore_ramEpoch (s : State) (b : Size) (a : Word) : (s.noteStore b a).ramEpoch = s.ramEpoch := rfl
@[simp] theorem State.noteStore_prog (s : State) (b : Size) (a : Word) : (s.noteStore b a).prog = s.prog := rfl
@[simp] theorem State.noteStore_periphWrites (s : State) (b : Size) (a : Word) : (s.noteStore b a).periphWrites = s.periphWrites := rfl
@[simp] theorem State.noteStore_divider (s : State) (b : Size) (a : Word) : (s.noteStore b a).divider = s.divider := rfl
@[simp] theorem State.noteStore_free (s : State) (b : Size) (a : Word) : (s.noteStore b a).free = s.free := rfl
@[simp] theorem State.noteStore_device (s : State) (b : Size) (a : Word) : (s.noteStore b a).device = s.device := rfl
@[simp] theorem State.noteStore_reg (s : State) (b : Size) (a : Word) (r : Reg) : (s.noteStore b a).reg r = s.reg r := rfl
@[simp] theorem State.noteStore_initialised (s : State) (b : Size) (a : Word) (r : Reg) :
    (s.noteStore b a).initialised r = s.initialised r := rfl
@[simp] theorem State.noteStore_ramByte (s : State) (b : Size) (a : Word) (n : Nat) :
    (s.noteStore b a).ramByte n = s.ramByte n := rfl
@[simp] theorem State.noteStore_stores (s : State) (b : Size) (a : Word) :
    (s.noteStore b a).notes.stores = (a, sizeBytes b) :: s.notes.stores := rfl
@[simp] theorem State.noteStore_didReset (s : State) (b : Size) (a : Word) :
    (s.noteStore b a).notes.didReset = s.notes.didReset := rfl
@[simp] theorem State.noteStore_psvReads (s : State) (b : Size) (a : Word) :
    (s.noteStore b a).notes.psvReads = s.notes.psvReads := rfl

end Sys2Proof.Machine
end

