-- ==== Sys2Proof/Laws/Ops.lean ====
section
/-! SUPPORT. What each shared operation can do, said once: registers, lists by address, the stack check, data memory, the stack,
operands. -/

namespace Sys2Proof.Machine

/-! ## Registers -/

theorem State.setReg_reg (s : State) (r q : Reg) (v : Word) :
    (s.setReg r v).reg q = if q = r then fixReg r v else s.reg q := by
  by_cases h : q = r
  · subst h; simp [State.reg, State.setReg]
  · have : r.val ≠ q.val := fun e => h (Fin.ext e.symm)
    simp [State.reg, State.setReg, h, this]

@[simp] theorem State.setReg_reg_same (s : State) (r : Reg) (v : Word) : (s.setReg r v).reg r = fixReg r v := by
  simp [State.setReg_reg]

theorem State.setReg_reg_ne (s : State) {r q : Reg} (v : Word) (h : q ≠ r) : (s.setReg r v).reg q = s.reg q := by
  simp [State.setReg_reg, h]

@[simp] theorem State.markInit_reg (s : State) (r q : Reg) : (s.markInit r).reg q = s.reg q := rfl

@[simp] theorem State.setReg_initialised (s : State) (r q : Reg) (v : Word) :
    (s.setReg r v).initialised q = s.initialised q := rfl

theorem State.markInit_initialised (s : State) (r q : Reg) :
    (s.markInit r).initialised q = if q = r then true else s.initialised q := by
  unfold State.initialised State.markInit
  by_cases hq : q.val < 15
  · by_cases hr : r.val < 15
    · by_cases h : q = r
      · subst h; simp [hq]
      · have : r.val ≠ q.val := fun e => h (Fin.ext e.symm)
        simp [hq, hr, h, this]
    · have : q ≠ r := fun e => hr (e ▸ hq)
      simp [hq, hr, this]
  · simp [hq]

@[simp] theorem State.writeReg_reg_same (s : State) (r : Reg) (v : Word) : (s.writeReg r v).reg r = fixReg r v := by
  simp [State.writeReg]

theorem State.writeReg_reg_ne (s : State) {r q : Reg} (v : Word) (h : q ≠ r) : (s.writeReg r v).reg q = s.reg q := by
  simp [State.writeReg, State.setReg_reg, h]

theorem State.writeReg_reg (s : State) (r q : Reg) (v : Word) :
    (s.writeReg r v).reg q = if q = r then fixReg r v else s.reg q := by
  simp [State.writeReg, State.setReg_reg]

theorem State.writeReg_initialised (s : State) (r q : Reg) (v : Word) :
    (s.writeReg r v).initialised q = if q = r then true else s.initialised q := by
  simp [State.writeReg, State.markInit_initialised]

theorem State.writeRegLow_reg_ne (s : State) {r q : Reg} (v : Byte) (h : q ≠ r) :
    (s.writeRegLow r v).reg q = s.reg q := by
  simp [State.writeRegLow, State.setReg_reg, h]

theorem State.writeRegHigh_reg_ne (s : State) {r q : Reg} (v : Byte) (h : q ≠ r) :
    (s.writeRegHigh r v).reg q = s.reg q := by
  simp [State.writeRegHigh, State.setReg_reg, h]

theorem State.writeRegSized_reg_ne (s : State) (b : Size) {r q : Reg} (v : Word) (h : q ≠ r) :
    (s.writeRegSized b r v).reg q = s.reg q := by
  cases b
  · exact s.writeReg_reg_ne v h
  · exact s.writeRegLow_reg_ne _ h

theorem State.writeRegSized_initialised_ne (s : State) (b : Size) {r q : Reg} (v : Word) (h : q ≠ r) :
    (s.writeRegSized b r v).initialised q = s.initialised q := by
  cases b
  · simp [State.writeRegSized, State.writeReg_initialised, h]
  · rfl

/-- Bit 0 of W15 is fixed to 0 (R26). -/
theorem fixReg_even (v : Word) : (fixReg 15 v).getLsbD 0 = false := by
  simp [fixReg]

theorem fixReg_ne {r : Reg} (v : Word) (h : r ≠ 15) : fixReg r v = v := by simp [fixReg, h]

/-! ## Lists by address -/

theorem assocGet_assocSet {α : Type} (m : List (Nat × α)) (a k : Nat) (v : α) :
    assocGet (assocSet a v m) k = if k = a then some v else assocGet m k := by
  induction m with
  | nil => by_cases h : k = a <;> simp [assocSet, assocGet, h, eq_comm (a := a)]
  | cons x m ih =>
    obtain ⟨y, w⟩ := x
    unfold assocSet
    by_cases h1 : a < y
    · by_cases h : k = a
      · subst h; simp [h1, assocGet]
      · have : a ≠ k := fun e => h e.symm
        simp [h1, assocGet, h, this]
    · by_cases h2 : a = y
      · subst h2
        by_cases h : k = a
        · subst h; simp [assocGet]
        · have : a ≠ k := fun e => h e.symm
          simp [assocGet, h, this]
      · by_cases h : y = k
        · subst h
          have : y ≠ a := fun e => h2 e.symm
          simp [h1, h2, assocGet, this]
        · simp [h1, h2, assocGet, h, ih]

theorem mem_assocSet {α : Type} {m : List (Nat × α)} {a : Nat} {v : α} {x : Nat × α} (h : x ∈ assocSet a v m) :
    x = (a, v) ∨ x ∈ m := by
  induction m with
  | nil => simpa [assocSet] using h
  | cons y m ih =>
    obtain ⟨k, w⟩ := y
    unfold assocSet at h
    split at h
    · simpa using h
    · split at h
      · rcases List.mem_cons.mp h with h | h
        · exact .inl h
        · exact .inr (List.mem_cons_of_mem _ h)
      · rcases List.mem_cons.mp h with h | h
        · exact .inr (h ▸ List.mem_cons_self)
        · exact (ih h).imp_right (List.mem_cons_of_mem _)

/-- Setting an entry keeps the addresses rising. -/
theorem assocSet_wf {α : Type} {m : List (Nat × α)} (a : Nat) (v : α) (h : assocWf m) : assocWf (assocSet a v m) := by
  induction m with
  | nil => simp [assocSet, assocWf]
  | cons y m ih =>
    obtain ⟨k, w⟩ := y
    rw [assocWf, List.pairwise_cons] at h
    unfold assocSet
    split
    · next hlt =>
      refine List.pairwise_cons.mpr ⟨fun x hx => ?_, List.pairwise_cons.mpr h⟩
      rcases List.mem_cons.mp hx with rfl | hx
      · exact hlt
      · exact Nat.lt_trans hlt (h.1 x hx)
    · split
      · next e => subst e; exact List.pairwise_cons.mpr h
      · refine List.pairwise_cons.mpr ⟨fun x hx => ?_, ih h.2⟩
        rcases mem_assocSet hx with rfl | hx
        · show k < a; omega
        · exact h.1 x hx

theorem State.setRamByte_ramByte (s : State) (a n : Nat) (v : Byte) :
    (s.setRamByte a v).ramByte n = if n = a then v else s.ramByte n := by
  by_cases h : n = a <;> simp [State.ramByte, State.setRamByte, assocGet_assocSet, h]

/-- A byte written in RAM keeps the canonical form. -/
theorem State.setRamByte_wf {s : State} {a : Nat} (v : Byte) (hs : Memory.wf s.device.ramEnd s.ram)
    (h1 : 0x0800 ≤ a) (h2 : a ≤ s.device.ramEnd.toNat) :
    Memory.wf (s.setRamByte a v).device.ramEnd (s.setRamByte a v).ram := by
  refine ⟨assocSet_wf _ _ hs.1, fun x hx => ?_⟩
  rcases mem_assocSet hx with rfl | hx
  · exact ⟨h1, h2⟩
  · exact hs.2 x hx

/-- A program word loaded at an even address of 23 bits keeps the canonical form. -/
theorem State.loadProgWord_wf {s : State} {a : Nat} (w : ProgWord) (hs : Program.wf s.prog) (h1 : a % 2 = 0)
    (h2 : a ≤ 0x7FFFFE) : Program.wf (s.loadProgWord a w).prog := by
  refine ⟨assocSet_wf _ _ hs.1, fun x hx => ?_⟩
  rcases mem_assocSet hx with rfl | hx
  · exact ⟨h1, h2⟩
  · exact hs.2 x hx

/-! ## Data memory -/

/-- What a program read can change: the counter of free values. -/
theorem progRead_eq (a : ProgAddr) (s : State) :
    ∃ w n, progRead a s = (w, s.touch s.pendingTraps.stackError n s.notes.psvReads) := by
  unfold progRead State.drawProgWord
  split
  · exact ⟨_, s.free, rfl⟩
  · exact ⟨_, _, rfl⟩

/-- What a data read can change: the counter of free values, and the note of PSV reads. -/
theorem memRead_ok {b : Size} {a v : Word} {s t : State} (h : memRead b a s = .ok (v, t)) :
    ∃ n k, t = s.touch s.pendingTraps.stackError n k := by
  unfold memRead at h
  split at h
  · cases h
  · split at h
    · split at h
      · cases h; exact ⟨s.free, s.notes.psvReads, rfl⟩
      · cases h
    · obtain ⟨w, n, hp⟩ := progRead_eq (psvAddr s a) s
      unfold psvRead at h
      rw [hp] at h
      cases b <;> cases h <;> exact ⟨n, _, rfl⟩
    · cases h; exact ⟨s.free, s.notes.psvReads, rfl⟩
    · cases b <;> cases h <;> exact ⟨_, s.notes.psvReads, rfl⟩
    · cases h

/-- A data read has an answer exactly where it is readable. -/
theorem memRead_isOk (b : Size) (a : Word) (s : State) :
    (∃ x, memRead b a s = .ok x) ↔ readable s b a = true := by
  unfold memRead readable
  split
  · next h => simp [h]
  · next h =>
    cases hr : regionOf s b a with
    | core r => cases r <;> cases b <;> simp [h, coreRead, coreWord]
    | psv => simp [h]
    | ram => simp [h]
    | peripheral => simp [h]
    | unimplemented => simp [h]

/-- A core register stands below 0x0800, where SFR_ADDR puts it (R23). -/
theorem coreRegAt_some {m : SfrMap} {a : Word} {c : CoreReg} (h : coreRegAt m a = some c) :
    a.toNat < 0x0800 ∧ sfrIndex m c = a.extractLsb' 1 10 := by
  unfold coreRegAt at h
  split at h
  · next ha => exact ⟨ha, by simpa using List.find?_some h⟩
  · cases h

/-- Two even addresses of one core register are the same. -/
theorem coreRegAt_inj {m : SfrMap} {a b : Word} {c : CoreReg} (ha : coreRegAt m a = some c) (hb : coreRegAt m b = some c)
    (ea : a.getLsbD 0 = false) (eb : b.getLsbD 0 = false) : a = b := by
  obtain ⟨la, ia⟩ := coreRegAt_some ha
  obtain ⟨lb, ib⟩ := coreRegAt_some hb
  have h := congrArg BitVec.toNat (ia.symm.trans ib)
  have e1 : a.toNat % 2 = 0 := by simpa [BitVec.getLsbD, Nat.testBit_zero] using ea
  have e2 : b.toNat % 2 = 0 := by simpa [BitVec.getLsbD, Nat.testBit_zero] using eb
  simp only [BitVec.extractLsb'_toNat, Nat.shiftRight_eq_div_pow] at h
  exact BitVec.eq_of_toNat_eq (by omega)

/-- The two bytes of a core register (R23, R71). -/
theorem coreRegAt_next {a : Word} (m : SfrMap) (ea : a.getLsbD 0 = false) : coreRegAt m (a + 1) = coreRegAt m a := by
  have e1 : a.toNat % 2 = 0 := by simpa [BitVec.getLsbD, Nat.testBit_zero] using ea
  have hl := a.isLt
  have hn : (a + 1).toNat = a.toNat + 1 := by rw [BitVec.toNat_add, show (1 : Word).toNat = 1 from rfl]; omega
  have hx : (a + 1).extractLsb' 1 10 = a.extractLsb' 1 10 := by
    apply BitVec.eq_of_toNat_eq
    simp only [BitVec.extractLsb'_toNat, Nat.shiftRight_eq_div_pow, hn]
    omega
  simp only [coreRegAt, hx, hn, show (a.toNat + 1 < 0x0800) = (a.toNat < 0x0800) from propext (by omega)]

/-- A core register comes first in the dispatch of an address (R72, R73). -/
theorem regionOf_core {s : State} {b : Size} {a : Word} {c : CoreReg} (h : coreRegAt s.device.sfr a = some c) :
    regionOf s b a = .core c := by
  simp [regionOf, h]

/-- What a data write does, by what its address reaches. -/
theorem memWrite_ok {b : Size} {a v : Word} {s t : State} (h : memWrite b a v s = .ok t) :
    misaligned b a = false ∧
    ((∃ c, coreRegAt s.device.sfr a = some c ∧ regionOf s b a = .core c ∧ coreWrite b a c v s = .ok t) ∨
      (regionOf s b a = .ram ∧ t = ramWrite b a v s) ∨
      (regionOf s b a = .peripheral ∧ t = peripheralWrite b a v s)) := by
  unfold memWrite at h
  split at h
  · cases h
  · next hm =>
    refine ⟨by simpa using hm, ?_⟩
    split at h
    · next c hc =>
      refine .inl ⟨c, ?_, hc, h⟩
      unfold regionOf at hc
      split at hc
      · next e => cases hc; exact e
      · split at hc <;> (try split at hc) <;> (try split at hc) <;> cases hc
    · cases h
    · next hr => cases h; exact .inr (.inl ⟨hr, rfl⟩)
    · next hr => cases h; exact .inr (.inr ⟨hr, rfl⟩)
    · cases h

/-- A data write has an effect exactly where it is writable. -/
theorem memWrite_isOk (b : Size) (a v : Word) (s : State) :
    (∃ t, memWrite b a v s = .ok t) ↔ writable s b a = true := by
  unfold memWrite writable
  split
  · next h => simp [h]
  · next h =>
    cases hr : regionOf s b a with
    | core r => cases r <;> cases b <;> simp [h, coreWrite, coreWriteWord, coreWriteByte]
    | psv => simp [h]
    | ram => simp [h]
    | peripheral => simp [h]
    | unimplemented => simp [h]

/-- The addresses of an access that reaches RAM (R77). -/
theorem regionOf_ram {s : State} {b : Size} {a : Word} (h : regionOf s b a = .ram) :
    0x0800 ≤ a.toNat ∧ a.toNat + sizeBytes b - 1 ≤ s.device.ramEnd.toNat := by
  unfold regionOf at h
  split at h
  · cases h
  · split at h
    · cases h
    · split at h
      · next hr => exact hr
      · split at h <;> cases h

/-- A RAM write keeps the canonical form. -/
theorem ramWrite_wf {s : State} {b : Size} {a : Word} (v : Word) (hs : Memory.wf s.device.ramEnd s.ram)
    (h : regionOf s b a = .ram) :
    Memory.wf (ramWrite b a v s).device.ramEnd (ramWrite b a v s).ram := by
  obtain ⟨h1, h2⟩ := regionOf_ram h
  cases b with
  | byte => exact State.setRamByte_wf _ hs h1 (by simpa [sizeBytes] using h2)
  | word =>
    simp only [sizeBytes] at h2
    have hw : Memory.wf _ _ := State.setRamByte_wf (s := s) (lowByte v) hs h1 (by omega)
    exact State.setRamByte_wf _ hw (by omega) (by simpa using (by omega : a.toNat + 1 ≤ s.device.ramEnd.toNat))

/-- The bytes of RAM after a RAM write. -/
theorem ramWrite_ramByte (b : Size) (a v : Word) (s : State) (n : Nat) :
    (ramWrite b a v s).ramByte n =
      if n = a.toNat then lowByte v
      else if b = .word ∧ n = a.toNat + 1 then highByte v
      else s.ramByte n := by
  cases b with
  | byte => simp [ramWrite, State.setRamByte_ramByte]
  | word =>
    simp only [ramWrite, State.noteStore_ramByte, State.setRamByte_ramByte]
    by_cases h : n = a.toNat
    · subst h; simp
    · by_cases h2 : n = a.toNat + 1 <;> simp [h, h2]

/-- A write of a core register touches no memory, no event and nothing the environment or the device owns. -/
theorem coreWrite_ok {b : Size} {a v : Word} {c : CoreReg} {s t : State} (h : coreWrite b a c v s = .ok t) :
    t.ram = s.ram ∧ t.ramEpoch = s.ramEpoch ∧ t.prog = s.prog ∧ t.device = s.device ∧ t.periphWrites = s.periphWrites ∧
    t.pc = s.pc ∧ t.pcOut = s.pcOut ∧ t.shadow = s.shadow ∧ t.pendingTraps = s.pendingTraps ∧ t.pending = s.pending ∧
    t.nstdis = s.nstdis ∧ t.power = s.power ∧ t.divider = s.divider ∧ t.splimJustWritten = s.splimJustWritten ∧
    t.notes.didReset = s.notes.didReset ∧ t.notes.psvReads = s.notes.psvReads ∧
    (∀ r, c ≠ .w r → t.reg r = s.reg r ∧ t.initialised r = s.initialised r) ∧
    (c ≠ .sr → t.sr = s.sr) ∧ (c ≠ .corcon → t.corcon = s.corcon) ∧
    (c ≠ .splim → t.splim = s.splim ∧ t.splimEn = s.splimEn) ∧
    (c ≠ .tblpag → t.tblpag = s.tblpag) ∧ (c ≠ .psvpag → t.psvpag = s.psvpag) ∧
    (c ≠ .rcount → t.rcount = s.rcount) ∧ (c ≠ .disicnt → t.disicnt = s.disicnt) := by
  have hreg : ∀ (r q : Reg) (x : Word), CoreReg.w r ≠ .w q →
      (s.writeReg r x).reg q = s.reg q ∧ (s.writeReg r x).initialised q = s.initialised q := fun r q x hne => by
    have : q ≠ r := fun e => hne (e ▸ rfl)
    simp [State.writeReg_reg, State.writeReg_initialised, this]
  have hlow : ∀ (r q : Reg) (x : Byte), CoreReg.w r ≠ .w q →
      (s.writeRegLow r x).reg q = s.reg q ∧ (s.writeRegLow r x).initialised q = s.initialised q := fun r q x hne => by
    have : q ≠ r := fun e => hne (e ▸ rfl)
    exact ⟨s.writeRegLow_reg_ne x this, rfl⟩
  have hhigh : ∀ (r q : Reg) (x : Byte), CoreReg.w r ≠ .w q →
      (s.writeRegHigh r x).reg q = s.reg q ∧ (s.writeRegHigh r x).initialised q = s.initialised q := fun r q x hne => by
    have : q ≠ r := fun e => hne (e ▸ rfl)
    exact ⟨s.writeRegHigh_reg_ne x this, rfl⟩
  cases b with
  | word =>
    simp only [coreWrite] at h
    cases c <;> simp only [coreWriteWord] at h <;> cases h <;>
      refine ⟨rfl, rfl, rfl, rfl, rfl, rfl, rfl, rfl, rfl, rfl, rfl, rfl, rfl, rfl, rfl, rfl, ?_, ?_, ?_, ?_, ?_, ?_, ?_, ?_⟩ <;>
      first
        | exact fun _ => rfl
        | exact fun _ => ⟨rfl, rfl⟩
        | exact fun _ _ => ⟨rfl, rfl⟩
        | exact fun h => absurd rfl h
        | exact fun q hne => hreg _ q _ hne
  | byte =>
    simp only [coreWrite] at h
    cases c <;> simp only [coreWriteByte, State.drawCount] at h <;> cases h <;> cases isOdd a <;>
      refine ⟨rfl, rfl, rfl, rfl, rfl, rfl, rfl, rfl, rfl, rfl, rfl, rfl, rfl, rfl, rfl, rfl, ?_, ?_, ?_, ?_, ?_, ?_, ?_, ?_⟩ <;>
      first
        | exact fun _ => rfl
        | exact fun _ => ⟨rfl, rfl⟩
        | exact fun _ _ => ⟨rfl, rfl⟩
        | exact fun h => absurd rfl h
        | exact fun q hne => hlow _ q _ hne
        | exact fun q hne => hhigh _ q _ hne

/-! ## The stack -/

/-- What a stack check can change: `StackError` may become pending, and a free value may be drawn. -/
theorem stackCheck_eq (isRead : Bool) (a : Int) (s : State) :
    ∃ v n, stackCheck isRead a s = s.touch v n s.notes.psvReads ∧ (s.pendingTraps.stackError = true → v = true) := by
  unfold stackCheck limitTest
  simp only [State.drawBit, State.raise, TrapSet.put]
  split
  · split
    · exact ⟨true, _, rfl, fun _ => rfl⟩
    · exact ⟨s.pendingTraps.stackError, _, rfl, id⟩
  · split
    · exact ⟨true, s.free, rfl, fun _ => rfl⟩
    · exact ⟨s.pendingTraps.stackError, s.free, rfl, id⟩

/-- The same, for a check that is made where the pointer is W15 only. -/
theorem stackCheckIf_eq (r : Reg) (isRead : Bool) (a : Int) (s : State) :
    ∃ v n, stackCheckIf r isRead a s = s.touch v n s.notes.psvReads ∧
      (s.pendingTraps.stackError = true → v = true) ∧ (r ≠ 15 → v = s.pendingTraps.stackError) := by
  unfold stackCheckIf
  split
  · next h =>
    obtain ⟨v, n, he, hv⟩ := stackCheck_eq isRead a s
    exact ⟨v, n, he, hv, fun hr => absurd h hr⟩
  · exact ⟨s.pendingTraps.stackError, s.free, rfl, id, fun _ => rfl⟩

/-- A push: W15 advances, the check is made, and the word is written where W15 pointed (R152). -/
theorem push16_ok {v : Word} {s t : State} (h : push16 v s = .ok t) :
    ∃ e n, memWrite .word (s.reg 15) v ((s.setReg 15 (s.reg 15 + 2)).touch e n s.notes.psvReads) = .ok t ∧
      (s.pendingTraps.stackError = true → e = true) := by
  obtain ⟨e, n, he, hv⟩ := stackCheck_eq false (s.reg 15).toNat (s.setReg 15 (s.reg 15 + 2))
  simp only [push16, he] at h
  exact ⟨e, n, h, hv⟩

/-- A pop: W15 goes back, the check is made, and the word there is read (R152). -/
theorem pop16_ok {v : Word} {s t : State} (h : pop16 s = .ok (v, t)) :
    ∃ e n k, t = (s.setReg 15 (trunc16 ((s.reg 15).toNat - 2))).touch e n k ∧
      (s.pendingTraps.stackError = true → e = true) := by
  obtain ⟨e, n, he, hv⟩ := stackCheck_eq true ((s.reg 15).toNat - 2) (s.setReg 15 (trunc16 ((s.reg 15).toNat - 2)))
  simp only [pop16, he] at h
  obtain ⟨m, k, rfl⟩ := memRead_ok h
  exact ⟨e, m, k, rfl, hv⟩

/-! ## Operands -/

@[simp] theorem ok_bind {ε α β : Type} (a : α) (f : α → Except ε β) : (Except.ok a >>= f) = f a := rfl

/-- A computation of two parts has an answer where both have. -/
theorem bind_ok {ε α β : Type} {x : Except ε α} {f : α → Except ε β} {z : β} (h : (x >>= f) = .ok z) :
    ∃ a, x = .ok a ∧ f a = .ok z := by
  cases x with
  | error e => cases h
  | ok a => exact ⟨a, rfl, h⟩

/-- An instruction that ran, and was not replaced by a device reset, went to its end. -/
theorem finish_ran {s t : State} {r : Res State} (h : finish s r = .next t) (hr : Ran t) : r = .ok t := by
  cases r with
  | ok u => cases h; rfl
  | error e =>
    cases e with
    | reset c => cases h; cases hr
    | fault f => cases h
    | refuse q => cases h

@[simp] theorem finish_ok (s t : State) : finish s (.ok t) = .next t := rfl

theorem refuseIf_ok {hit : Bool} {q : Refusal} {u : Unit} (h : refuseIf hit q = .ok u) : hit = false := by
  cases hit
  · rfl
  · simp [refuseIf] at h

theorem ptrValue_ok {s : State} {r : Reg} {v : Word} (h : ptrValue s r = .ok v) :
    s.initialised r = true ∧ v = s.reg r := by
  unfold ptrValue at h
  split at h
  · next hi => exact ⟨hi, by cases h; rfl⟩
  · cases h

/-- What an effective address changes: the pointer, `StackError`, the counter of free values. -/
theorem ea_ok {step : Nat} {isRead : Bool} {o : Operand} {s t : State} {p : Place} (h : ea step isRead o s = .ok (p, t)) :
    byteModifiesW15 step o = false ∧ o.initialised s = true ∧
    ∃ e n, (s.pendingTraps.stackError = true → e = true) ∧ (o.usesStack = false → e = s.pendingTraps.stackError) ∧
      match o with
      | .reg r => p = .reg r ∧ t = s
      | .ptr m r => p = .mem (ptrAddr step m (s.reg r)) ∧ t = (modifyPtr step m r (s.reg r) s).touch e n s.notes.psvReads
      | .offset r q => p = .mem ((s.reg r).toNat + (s.reg q).toInt) ∧ t = s.touch e n s.notes.psvReads := by
  unfold ea at h
  obtain ⟨u, h1, h⟩ := bind_ok h
  refine ⟨refuseIf_ok h1, ?_⟩
  cases o with
  | reg r => cases h; exact ⟨rfl, s.pendingTraps.stackError, s.free, id, fun _ => rfl, rfl, rfl⟩
  | ptr m r =>
    obtain ⟨base, h2, h⟩ := bind_ok h
    obtain ⟨hi, rfl⟩ := ptrValue_ok h2
    obtain ⟨e, n, he, hv, hn⟩ := stackCheckIf_eq r isRead (ptrAddr step m (s.reg r)) (modifyPtr step m r (s.reg r) s)
    simp only [he] at h
    have hp : (modifyPtr step m r (s.reg r) s).pendingTraps = s.pendingTraps := by cases m <;> rfl
    have hq : (modifyPtr step m r (s.reg r) s).notes = s.notes := by cases m <;> rfl
    rw [hp] at hv hn
    rw [hq] at h
    cases h
    exact ⟨hi, e, n, hv, fun hs => hn (by simpa [Operand.usesStack] using hs), rfl, rfl⟩
  | offset r q =>
    obtain ⟨base, h2, h⟩ := bind_ok h
    obtain ⟨off, h3, h⟩ := bind_ok h
    obtain ⟨hi, rfl⟩ := ptrValue_ok h2
    obtain ⟨hj, rfl⟩ := ptrValue_ok h3
    obtain ⟨e, n, he, hv, hn⟩ := stackCheckIf_eq r isRead ((s.reg r).toNat + (s.reg q).toInt) s
    simp only [he] at h
    cases h
    exact ⟨by simp [Operand.initialised, hi, hj], e, n, hv, fun hs => hn (by simpa [Operand.usesStack] using hs), rfl, rfl⟩

end Sys2Proof.Machine
end

