-- ==== Sys2Proof/Laws/Exceptions.lean ====
section
/-! SUPPORT. What every memory operation keeps, and once for each of the pushes, the pops, taking an exception and returning
from one, everything it can do. -/

namespace Sys2Proof.Machine

/-! ## The canonical forms -/

theorem reset_ram_wf : Memory.wf State.reset.device.ramEnd State.reset.ram := by decide

theorem reset_prog_wf : Program.wf State.reset.prog := by decide

/-- A data read leaves memory alone. -/
theorem memRead_ram {b : Size} {a v : Word} {s t : State} (h : memRead b a s = .ok (v, t)) :
    t.ram = s.ram ∧ t.prog = s.prog ∧ t.device = s.device := by
  obtain ⟨m, k, rfl⟩ := memRead_ok h
  exact ⟨rfl, rfl, rfl⟩

/-- A data write keeps the canonical form of RAM, whatever its address reaches. -/
theorem memWrite_wf {b : Size} {a v : Word} {s t : State} (h : memWrite b a v s = .ok t)
    (hs : Memory.wf s.device.ramEnd s.ram) : Memory.wf t.device.ramEnd t.ram := by
  rcases (memWrite_ok h).2 with ⟨c, -, -, hc⟩ | ⟨hr, rfl⟩ | ⟨-, rfl⟩
  · obtain ⟨h1, -, -, h4, -⟩ := coreWrite_ok hc
    rw [h1, h4]; exact hs
  · exact ramWrite_wf v hs hr
  · exact hs

/-- A data write leaves program memory and the device alone. -/
theorem memWrite_prog {b : Size} {a v : Word} {s t : State} (h : memWrite b a v s = .ok t) :
    t.prog = s.prog ∧ t.device = s.device := by
  rcases (memWrite_ok h).2 with ⟨c, -, -, hc⟩ | ⟨-, rfl⟩ | ⟨-, rfl⟩
  · obtain ⟨-, -, h3, h4, -⟩ := coreWrite_ok hc
    exact ⟨h3, h4⟩
  · cases b <;> exact ⟨rfl, rfl⟩
  · exact ⟨rfl, rfl⟩

/-! ## Pushes and pops -/

theorem push16_wf {v : Word} {s t : State} (h : push16 v s = .ok t) (hs : Memory.wf s.device.ramEnd s.ram) :
    Memory.wf t.device.ramEnd t.ram := by
  obtain ⟨e, n, hw, -⟩ := push16_ok h
  exact memWrite_wf hw hs

/-- What an address reaches depends on PSV and RAM_END alone. -/
theorem regionOf_congr {s t : State} (b : Size) (a : Word) (h1 : t.corcon = s.corcon) (h2 : t.device = s.device) :
    regionOf t b a = regionOf s b a := by
  simp [regionOf, h1, h2]

/-- A push onto RAM. -/
theorem push16_ram {s : State} (v : Word) (h : ramWord s (s.reg 15) = true) :
    ∃ e n, push16 v s =
        .ok (ramWrite .word (s.reg 15) v ((s.setReg 15 (s.reg 15 + 2)).touch e n s.notes.psvReads)) ∧
      (s.pendingTraps.stackError = true → e = true) := by
  obtain ⟨e, n, he, hv⟩ := stackCheck_eq false (s.reg 15).toNat (s.setReg 15 (s.reg 15 + 2))
  refine ⟨e, n, ?_, hv⟩
  simp only [ramWord, Bool.and_eq_true, Bool.not_eq_true', beq_iff_eq] at h
  have hr : regionOf ((s.setReg 15 (s.reg 15 + 2)).touch e n s.notes.psvReads) .word (s.reg 15) = .ram :=
    (regionOf_congr .word (s.reg 15) rfl rfl).trans h.2
  rw [show (s.setReg 15 (s.reg 15 + 2)).notes.psvReads = s.notes.psvReads from rfl] at he
  simp only [push16, he, memWrite, misaligned, h.1, hr]
  rfl

/-- Two pushes of a program address (R238). -/
theorem pushPc_ok {a : ProgAddr} {s t : State} (h : pushPc a s = .ok t) :
    ∃ s1, push16 (pcLow a) s = .ok s1 ∧ push16 (0#9 ++ pcHigh a) s1 = .ok t := bind_ok h

/-- Two pops of a program address (R238). -/
theorem popPc_ok {a : ProgAddr} {s t : State} (h : popPc s = .ok (a, t)) :
    ∃ hi lo s1, pop16 s = .ok (hi, s1) ∧ pop16 s1 = .ok (lo, t) ∧ a = joinPc hi lo := by
  obtain ⟨⟨hi, s1⟩, h1, h⟩ := bind_ok h
  obtain ⟨⟨lo, s2⟩, h2, h⟩ := bind_ok h
  cases h
  exact ⟨hi, lo, s1, h1, h2, rfl⟩

/-! ## Exceptions -/

/-- Taking an exception: VECTOR gives the handler, the two pushes, then RA cleared, the level raised, the condition removed, and
the PC at the handler (R305, R306). -/
theorem enter_ok {e : ExcSource} {p : BitVec 3} {s t : State} (h : enter e p s = .ok t) :
    ∃ handler s1 s2, vectorOf s e = some handler ∧
      push16 (pcLow s.pc) s = .ok s1 ∧ push16 (frameHigh s1) s1 = .ok s2 ∧
      t = State.setPc handler
        (removePending e (raiseLevel e p { s2 with
          sr := { s2.sr with ra := false }
          splimJustWritten := false
          notes := .empty
          divider := dividerInterrupted s })) := by
  unfold enter at h
  split at h
  · cases h
  · next handler hv =>
    obtain ⟨s1, h1, h⟩ := bind_ok h
    obtain ⟨s2, h2, h⟩ := bind_ok h
    cases h
    exact ⟨handler, s1, s2, hv, h1, h2, rfl⟩

/-- Without a VECTOR the run ends (R306, R319). -/
theorem enter_noVector {e : ExcSource} (p : BitVec 3) {s : State} (h : vectorOf s e = none) :
    enter e p s = .error (.fault (.noVector e)) := by simp [enter, h]

/-- Taking an exception keeps the canonical form of RAM. -/
theorem enter_wf {e : ExcSource} {p : BitVec 3} {s t : State} (h : enter e p s = .ok t)
    (hs : Memory.wf s.device.ramEnd s.ram) : Memory.wf t.device.ramEnd t.ram := by
  obtain ⟨handler, s1, s2, -, h1, h2, rfl⟩ := enter_ok h
  have hw := push16_wf h2 (push16_wf h1 hs)
  cases e <;> exact hw

/-- Returning from an exception: the two pops, then SRL, IPL3 and the PC from the frame, and the loop that is
resumed (R236). -/
theorem returnFromException_ok {s t : State} (h : returnFromException s = .ok t) :
    ∃ hi lo s1 s2, pop16 s = .ok (hi, s1) ∧ pop16 s1 = .ok (lo, s2) ∧
      ∃ s3, s3 = State.setPc (joinPc hi lo) { s2 with
          sr := restoreSrl (highByte hi) s2.sr
          corcon := { s2.corcon with ipl3 := hi.getLsbD 7 } } ∧
        t = { s3 with divider := dividerResumed (s2.reg 15) s3 } := by
  obtain ⟨⟨hi, s1⟩, h1, h⟩ := bind_ok h
  obtain ⟨⟨lo, s2⟩, h2, h⟩ := bind_ok h
  cases h
  exact ⟨hi, lo, s1, s2, h1, h2, _, rfl, rfl⟩

/-! ## The loop that a return goes on with (log 26) -/

/-- What a preference keeps. -/
theorem mem_prefer {α : Type} {p : α → Bool} {l : List α} {x : α} :
    x ∈ prefer p l ↔ x ∈ l ∧ (p x = true ∨ ∀ y ∈ l, p y = false) := by
  unfold prefer
  split
  · next h =>
    have hn : ∀ y ∈ l, p y = false := by simpa using List.filter_eq_nil_iff.mp h
    exact ⟨fun hx => ⟨hx, .inr hn⟩, fun hx => hx.1⟩
  · next y m h =>
    rw [← h, List.mem_filter]
    refine and_congr_right fun _ => ⟨.inl, ?_⟩
    rintro (hx | hn)
    · exact hx
    · have hy : y ∈ l.filter p := by rw [h]; exact List.mem_cons_self ..
      simp [hn y (List.mem_of_mem_filter hy)] at hy

/-- The divider's list where it is one loop among others. -/
theorem filter_eq_singleton {α : Type} {p : α → Bool} {l later earlier : List α} {x : α} (hl : l = later ++ x :: earlier)
    (hx : p x = true) (h : ∀ y ∈ later ++ earlier, p y = false) : l.filter p = [x] := by
  have h1 : later.filter p = [] := List.filter_eq_nil_iff.mpr fun y hy => by simp [h y (List.mem_append_left _ hy)]
  have h2 : earlier.filter p = [] := List.filter_eq_nil_iff.mpr fun y hy => by simp [h y (List.mem_append_right _ hy)]
  rw [hl, List.filter_append, h1, List.filter_cons, if_pos hx, h2]
  rfl

/-- A preference among one. -/
theorem prefer_singleton {α : Type} (p : α → Bool) (x : α) : prefer p [x] = [x] := by
  cases h : p x <;> simp [prefer, h]

/-- The bytes of the frame name the loop. -/
theorem Suspended.inFrame_iff {a : Word} {t : State} {x : Suspended} :
    x.inFrame a t = true ↔ ∃ b ∈ frameBytes a t, b.bind t.divider.originOf = some x.id := by
  simp [Suspended.inFrame]

/-- A frame with bytes of the one stacked for `x`, and of no other loop's, means `x`, where `x` claims it or no other loop that is yet
to be returned to stands as it was (R236, R254, R188). -/
theorem loopsMeant_origin {a : Word} {t : State} {later earlier : List Suspended} {x : Suspended}
    (hl : t.divider.suspended = later ++ x :: earlier) (hid : ∀ y ∈ later ++ earlier, y.id ≠ x.id)
    (hsome : ∃ b ∈ frameBytes a t, b.bind t.divider.originOf = some x.id)
    (hall : ∀ b ∈ frameBytes a t, ∀ n, b.bind t.divider.originOf = some n → n = x.id)
    (hc : x.claims a t = true ∨ ∀ y ∈ later ++ earlier, y.returned = true ∨ y.standsIn t = false) :
    loopsMeant a t = [x] := by
  have hn : t.divider.suspended.filter (fun y => y.inFrame a t) = [x] := by
    refine filter_eq_singleton hl (Suspended.inFrame_iff.mpr hsome) fun y hy => ?_
    rw [Bool.eq_false_iff]
    intro h
    obtain ⟨b, hb, ho⟩ := Suspended.inFrame_iff.mp h
    exact hid y hy (hall b hb y.id ho)
  simp only [loopsMeant, hn]
  cases hx : x.claims a t with
  | true => simp only [List.filter_cons, hx, if_true, List.filter_nil, prefer_singleton]
  | false =>
    have hs : x.standsIn t = false := by
      have := hx
      simp only [Suspended.claims, Bool.or_eq_false_iff] at this
      exact this.1
    have h0 : t.divider.suspended.filter (fun y => y.standsIn t && !y.returned) = [] := by
      refine List.filter_eq_nil_iff.mpr fun y hy => ?_
      rw [hl, List.mem_append, List.mem_cons] at hy
      have hy' : y = x ∨ y ∈ later ++ earlier := by rw [List.mem_append]; tauto
      rcases hy' with rfl | hy'
      · simp [hs]
      · rcases hc with hc | hc
        · simp [hx] at hc
        · rcases hc y hy' with h | h <;> simp [h]
    simp only [List.filter_cons, hx, Bool.false_eq_true, if_false, List.filter_nil, h0]

/-- A frame that no loop's bytes are in means, of the loops that stand as they were or else of all, one that it can mean. -/
theorem loopsMeant_anew {a : Word} {t : State} (h : ∀ b ∈ frameBytes a t, b.bind t.divider.originOf = none) :
    loopsMeant a t = loopsRebuilt a t (prefer (fun x => x.standsIn t) t.divider.suspended) := by
  have h0 : t.divider.suspended.filter (fun x => x.inFrame a t) = [] := by
    refine List.filter_eq_nil_iff.mpr fun y _ hy => ?_
    obtain ⟨b, hb, ho⟩ := Suspended.inFrame_iff.mp hy
    simp [h b hb] at ho
  simp only [loopsMeant, h0, List.filter_nil]

/-- Of one loop at the PC, a frame made anew means that one. -/
theorem loopsRebuilt_singleton {a : Word} {t : State} {x : Suspended} (h : x.pc = t.pc) : loopsRebuilt a t [x] = [x] := by
  unfold loopsRebuilt
  split
  · next y hy => rw [List.mem_singleton.mp (List.mem_of_find?_eq_some hy)]
  · simp [h, prefer_singleton]

/-- A frame made anew in the place of the one stacked for `x` means `x`, where no later loop's frame was put there that is yet to be
returned to. -/
theorem loopsRebuilt_place {a : Word} {t : State} {l later earlier : List Suspended} {x : Suspended}
    (hl : l = later ++ x :: earlier) (hr : x.returned = false) (hf : x.frame = a)
    (h : ∀ y ∈ later, y.returned = true ∨ y.frame ≠ a) : loopsRebuilt a t l = [x] := by
  have : l.find? (fun x => !x.returned && x.frame == a) = some x := by
    rw [hl, List.find?_append, List.find?_eq_none.mpr, List.find?_cons_of_pos]
    · rfl
    · simp [hr, hf]
    · intro y hy
      rcases h y hy with h | h <;> simp [h]
  simp only [loopsRebuilt, this]

/-- A frame made anew at a place that is no loop's may mean `x`, where the PC is that of `x`, and besides `x` only those at that PC that
have been returned into as `x` has and that wait for their own frame as `x` does. -/
theorem mem_loopsRebuilt {a : Word} {t : State} {l : List Suspended} {x : Suspended} (hx : x ∈ l) (hpc : x.pc = t.pc)
    (hp : ∀ y ∈ l, y.returned = true ∨ y.frame ≠ a)
    (h : ∀ y ∈ l, y.pc ≠ t.pc ∨ (x.returned = false ∧ y.returned = true) ∨
      (y.returned = x.returned ∧ ((x.waits t = false ∧ y.waits t = true) ∨ y.waits t = x.waits t))) :
    x ∈ loopsRebuilt a t l ∧
      ∀ y ∈ loopsRebuilt a t l, y ∈ l ∧ y.pc = t.pc ∧ y.returned = x.returned ∧ y.waits t = x.waits t := by
  have hn : l.find? (fun x => !x.returned && x.frame == a) = none := by
    refine List.find?_eq_none.mpr fun y hy => ?_
    rcases hp y hy with h | h <;> simp [h]
  simp only [loopsRebuilt, hn, mem_prefer, List.mem_filter, beq_iff_eq, Bool.not_eq_true', Bool.not_eq_false']
  have hr : x.returned = false ∨ ∀ y, y ∈ l ∧ y.pc = t.pc → y.returned = true := by
    cases hxr : x.returned with
    | false => exact .inl rfl
    | true =>
      refine .inr fun y hy => ?_
      rcases h y hy.1 with h | h | h
      · exact absurd hy.2 h
      · exact h.2
      · rw [h.1, hxr]
  have hw : ∀ y, (y ∈ l ∧ y.pc = t.pc) ∧ (y.returned = false ∨ ∀ z, z ∈ l ∧ z.pc = t.pc → z.returned = true) →
      y.returned = x.returned ∧ ((x.waits t = false ∧ y.waits t = true) ∨ y.waits t = x.waits t) := by
    rintro y ⟨hy, hyr⟩
    rcases h y hy.1 with h | h | h
    · exact absurd hy.2 h
    · rcases hyr with hyr | hyr
      · simp [h.2] at hyr
      · simp [h.1] at hr
        have := hyr x ⟨hx, hpc⟩
        simp [h.1] at this
    · exact h
  have hx1 : (x ∈ l ∧ x.pc = t.pc) ∧ (x.returned = false ∨ ∀ z, z ∈ l ∧ z.pc = t.pc → z.returned = true) :=
    ⟨⟨hx, hpc⟩, hr⟩
  refine ⟨⟨hx1, ?_⟩, ?_⟩
  · cases hxw : x.waits t with
    | false => exact .inl rfl
    | true =>
      refine .inr fun y hy => ?_
      rcases (hw y hy).2 with h | h
      · simp [hxw] at h
      · rw [h, hxw]
  · rintro y ⟨hy, hyw⟩
    obtain ⟨h1, h2⟩ := hw y hy
    refine ⟨hy.1.1, hy.1.2, h1, ?_⟩
    rcases h2 with h2 | h2
    · rcases hyw with hyw | hyw
      · simp [h2.2] at hyw
      · have := hyw x hx1
        simp [h2.1] at this
    · exact h2

/-- Whether a loop stands as it was is a matter of the registers: the divider has no part in it. -/
@[simp] theorem Suspended.standsIn_divider (x : Suspended) (t : State) (d : Divider) :
    x.standsIn { t with divider := d } = x.standsIn t := rfl

/-- How a loop goes on is a matter of the registers too. -/
@[simp] theorem Suspended.loopIn_divider (x : Suspended) (t : State) (d : Divider) :
    x.loopIn { t with divider := d } = x.loopIn t := rfl

/-- A loop that stands as it was is at its PC. -/
theorem Suspended.standsIn_pc {x : Suspended} {t : State} (h : x.standsIn t = true) : x.pc = t.pc := by
  simp only [Suspended.standsIn, Bool.and_eq_true, beq_iff_eq] at h
  exact h.1

/-- A loop that stands as it was goes on as it stood (R188). -/
theorem Suspended.loopIn_of_standsIn {x : Suspended} {t : State} (h : x.standsIn t = true) : x.loopIn t = x.loop := by
  simp only [Suspended.standsIn, Bool.and_eq_true] at h
  unfold Suspended.loopIn
  cases hl : x.loop with
  | spoiled => rfl
  | fresh =>
    simp only [hl, Bool.and_eq_true] at h
    simp [h.1, h.2.1]
  | running e =>
    simp only [hl] at h
    simp [h.1, h.2]

/-- R188 for a frame made anew, wherever it stands: the loop that stands as it was, not yet returned to, is the one meant,
where no other stands so and no byte of the frame is that of a loop that claims it. -/
theorem loopsMeant_standing {a : Word} {t : State} {later earlier : List Suspended} {x : Suspended}
    (hl : t.divider.suspended = later ++ x :: earlier) (hx : x.standsIn t = true) (hr : x.returned = false)
    (hs : ∀ y ∈ later ++ earlier, y.standsIn t = false)
    (hf : ∀ y ∈ later ++ earlier, y.inFrame a t = true → y.claims a t = false) : loopsMeant a t = [x] := by
  have hstand : t.divider.suspended.filter (fun y => y.standsIn t) = [x] := filter_eq_singleton hl hx hs
  have hfresh : t.divider.suspended.filter (fun y => y.standsIn t && !y.returned) = [x] :=
    filter_eq_singleton hl (by simp [hx, hr]) fun y hy => by simp [hs y hy]
  have hpc := Suspended.standsIn_pc hx
  have hmem : ∀ y, y ∈ t.divider.suspended.filter (fun y => y.inFrame a t) → y.claims a t = true → y = x := by
    intro y hy hc
    obtain ⟨hm, hi⟩ := List.mem_filter.mp hy
    rw [hl, List.mem_append, List.mem_cons] at hm
    by_contra hne
    have : y ∈ later ++ earlier := by rw [List.mem_append]; tauto
    simp [hf y this hi] at hc
  unfold loopsMeant
  dsimp only
  split
  · next y m h =>
    rw [← h, prefer, List.filter_filter, List.filter_filter]
    have hxin : x.inFrame a t = true := by
      have hy : y ∈ (t.divider.suspended.filter fun x => x.inFrame a t).filter fun x => x.claims a t := by
        rw [h]; exact List.mem_cons_self ..
      obtain ⟨h1, h2⟩ := List.mem_filter.mp hy
      rw [← hmem y h1 h2]
      exact (List.mem_filter.mp h1).2
    rw [filter_eq_singleton hl (by simp [hx, hxin, Suspended.claims]) fun z hz => by simp [hs z hz]]
  · split
    · rw [prefer, hstand]
      exact loopsRebuilt_singleton hpc
    · rw [hfresh]
      exact loopsRebuilt_singleton hpc

/-- The loop stands as `x` does, where every other that it may be stands as `x` does too, or would be a proper one that was
touched. -/
theorem loopAmong_eq {t : State} {l : List Suspended} {x : Suspended} (hx : x ∈ l)
    (h : ∀ y ∈ l, (y.loopIn t = x.loopIn t ∧ (y.loop = .spoiled → x.loop = .spoiled)) ∨
      (y.loop ≠ .spoiled ∧ y.loopIn t = .spoiled)) : loopAmong t l = x.loopIn t := by
  unfold loopAmong
  by_cases hs : x.loop = .spoiled
  · rw [if_pos (List.any_eq_true.mpr ⟨x, hx, by simp [hs]⟩)]
    simp [Suspended.loopIn, hs]
  · have hn : ¬ (l.any fun x => x.loop == .spoiled) = true := by
      intro hy
      obtain ⟨y, hy, hys⟩ := List.any_eq_true.mp hy
      rcases h y hy with h | h
      · exact hs (h.2 (by simpa using hys))
      · exact h.1 (by simpa using hys)
    have hf : ∀ d ∈ (l.map fun x => x.loopIn t).filter fun d => d != .spoiled, d = x.loopIn t := by
      intro d hd
      obtain ⟨hm, hd⟩ := List.mem_filter.mp hd
      obtain ⟨y, hy, rfl⟩ := List.mem_map.mp hm
      rcases h y hy with h | h
      · exact h.1
      · simp [h.2] at hd
    rw [if_neg hn]
    split
    · next hnil =>
      by_contra hne
      have := List.filter_eq_nil_iff.mp hnil (x.loopIn t) (List.mem_map.mpr ⟨x, hx, rfl⟩)
      simp [Ne.symm hne] at this
    · next d m hc =>
      rw [hc] at hf
      have hd := hf d (List.mem_cons_self ..)
      rw [if_pos, hd]
      simp only [List.all_eq_true, beq_iff_eq]
      intro y hy
      rw [hd, hf y (List.mem_cons_of_mem _ hy)]

/-- A frame that software made anew goes on with `x` as `x` stands, where its place or what is known of the other loops singles `x` out
among those that `l` holds. -/
theorem loopAmong_rebuilt {a : Word} {t : State} {l later earlier : List Suspended} {x : Suspended}
    (hl : l = later ++ x :: earlier) (hpc : x.pc = t.pc)
    (h : (x.returned = false ∧ x.frame = a ∧ ∀ y ∈ later, y.returned = true ∨ y.frame ≠ a) ∨
      ((x.returned = true ∨ x.frame ≠ a) ∧ ∀ y ∈ later ++ earlier, (y.returned = true ∨ y.frame ≠ a) ∧
        (y.pc ≠ t.pc ∨ (x.returned = false ∧ y.returned = true) ∨
          (y.returned = x.returned ∧ ((x.waits t = false ∧ y.waits t = true) ∨
            (y.waits t = x.waits t ∧ ((y.loop ≠ .spoiled ∧ y.loopIn t = .spoiled) ∨
              (y.loopIn t = x.loopIn t ∧ (y.loop = .spoiled → x.loop = .spoiled))))))))) :
    loopAmong t (loopsRebuilt a t l) = x.loopIn t := by
  rcases h with ⟨hr, hf, hy⟩ | ⟨hx, hy⟩
  · rw [loopsRebuilt_place hl hr hf hy]
    exact loopAmong_eq (List.mem_singleton.mpr rfl) fun y hy => .inl (by rw [List.mem_singleton.mp hy]; exact ⟨rfl, id⟩)
  · have hcases : ∀ y ∈ l, y = x ∨ y ∈ later ++ earlier := by
      intro y hm
      rw [hl, List.mem_append, List.mem_cons] at hm
      rw [List.mem_append]
      tauto
    obtain ⟨hin, hall⟩ := mem_loopsRebuilt (a := a) (t := t) (l := l) (x := x) (by rw [hl]; simp) hpc
      (fun y hm => (hcases y hm).elim (fun h => h ▸ hx) fun h => (hy y h).1)
      (fun y hm => by
        rcases hcases y hm with rfl | h
        · exact .inr (.inr ⟨rfl, .inr rfl⟩)
        · rcases (hy y h).2 with h | h | ⟨h1, h2⟩
          · exact .inl h
          · exact .inr (.inl h)
          · exact .inr (.inr ⟨h1, h2.imp_right And.left⟩))
    refine loopAmong_eq hin fun y hm => ?_
    obtain ⟨hm, hyp, hyr, hyw⟩ := hall y hm
    rcases hcases y hm with rfl | h
    · exact .inl ⟨rfl, id⟩
    · rcases (hy y h).2 with h | h | ⟨-, h | ⟨-, h⟩⟩
      · exact absurd hyp h
      · simp [h.1, h.2] at hyr
      · simp [h.1, h.2] at hyw
      · exact h.symm

/-- The place of a byte of RAM. -/
theorem byteLoc_ram {s : State} {a : Word} (h : regionOf s .byte a = .ram) : byteLoc s a = some (.ram a.toNat) := by
  simp [byteLoc, h]

/-- What carrying bytes does to the bytes of frames: a byte that nothing carried to keeps the one it held unless it was overwritten,
and one that something was carried to holds the one carried (log 26). -/
theorem traced_originOf (copies : List (ByteLoc × Option ByteLoc)) (s t : State) (d : Divider) (x : ByteLoc) :
    ((∀ y ∈ copies, y.1 ≠ x) →
      (d.traced copies s t).originOf x = if overwritten s t x then none else d.originOf x) ∧
    ((∃ y ∈ copies, y.1 = x) →
      (d.traced copies s t).originOf x = (copies.filter fun y => y.1 == x).findSome? fun y => y.2.bind d.originOf) := by
  have hc : ∀ m : List (ByteLoc × Option ByteLoc), ∀ k : List (ByteLoc × Nat),
      ((((m.filterMap fun y => (y.2.bind d.originOf).map (y.1, ·)) ++ k).find? fun y => y.1 == x).map (·.2)) =
        ((m.filter fun y => y.1 == x).findSome? fun y => y.2.bind d.originOf).or ((k.find? fun y => y.1 == x).map (·.2)) := by
    intro m k
    induction m with
    | nil => simp
    | cons y m ih =>
      obtain ⟨y1, y2⟩ := y
      by_cases hy : y1 = x
      · subst hy
        cases ho : y2.bind d.originOf with
        | none => simpa only [List.filterMap_cons, ho, Option.map_none, List.filter_cons, beq_self_eq_true, if_true,
            List.findSome?_cons] using ih
        | some n => simp only [List.filterMap_cons, ho, Option.map_some, List.filter_cons, beq_self_eq_true, if_true,
            List.findSome?_cons, List.cons_append, List.find?_cons, Option.some_or]
      · have hy' : (y1 == x) = false := by simpa using hy
        cases ho : y2.bind d.originOf with
        | none => simpa only [List.filterMap_cons, ho, Option.map_none, List.filter_cons, hy', Bool.false_eq_true,
            if_false] using ih
        | some n => simpa only [List.filterMap_cons, ho, Option.map_some, List.filter_cons, hy', Bool.false_eq_true,
            if_false, List.cons_append, List.find?_cons] using ih
  have hf := hc copies (d.origins.filter fun y => !(copies.any fun x => x.1 == y.1) && !overwritten s t y.1)
  constructor
  · intro hn
    have h0 : copies.filter (fun y => y.1 == x) = [] := by simpa [List.filter_eq_nil_iff] using hn
    have h1 : copies.any (fun y => y.1 == x) = false := by simpa using hn
    rw [Divider.originOf, Divider.traced, hf, h0]
    simp only [List.findSome?_nil, Option.none_or, List.find?_filter]
    by_cases ho : overwritten s t x
    · rw [if_pos ho, List.find?_eq_none.mpr]
      · rfl
      · rintro ⟨y1, y2⟩ - h
        simp only [Bool.and_eq_true, Bool.not_eq_true', beq_iff_eq, decide_eq_true_eq] at h
        simp [← h.2, h.1.2] at ho
    · rw [if_neg ho, Divider.originOf]
      congr 2
      funext y
      by_cases hy : y.1 = x
      · simp [hy, h1, ho]
      · simp [hy]
  · rintro ⟨y, hy, hyx⟩
    rw [Divider.originOf, Divider.traced, hf]
    have h1 : copies.any (fun y => y.1 == x) = true := List.any_eq_true.mpr ⟨y, hy, by simp [hyx]⟩
    rw [List.find?_eq_none.mpr]
    · simp
    · rintro ⟨z1, z2⟩ hz h
      simp only [beq_iff_eq] at h
      simp [h, h1] at hz

/-! ## The end of a step -/

/-- What the loop mechanism does after an iteration (R252). -/
theorem loopUpdate_cases (s t : State) :
    (s.sr.ra = false ∧ loopUpdate s t = t) ∨
    (s.sr.ra = true ∧ s.rcount = 0 ∧ loopUpdate s t = { t with sr := { t.sr with ra := false } }) ∨
    (s.sr.ra = true ∧ s.rcount ≠ 0 ∧
      loopUpdate s t = { t with rcount := s.rcount - 1, pc := s.pc, pcOut := s.pcOut }) := by
  unfold loopUpdate
  cases s.sr.ra with
  | false => exact .inl ⟨rfl, by simp⟩
  | true =>
    by_cases h : s.rcount = 0
    · exact .inr (.inl ⟨rfl, h, by simp [h]⟩)
    · exact .inr (.inr ⟨rfl, h, by rw [if_neg h]; rfl⟩)

/-- What the count-down can change: DISICNT, which does not rise, and the counter of free values (R268). -/
theorem countDown_eq (dmax : Nat) (t : State) :
    ∃ c n, countDown dmax t = { t with disicnt := c, free := n } ∧ c.toNat ≤ t.disicnt.toNat := by
  unfold countDown
  split
  · exact ⟨t.disicnt, t.free, rfl, le_rfl⟩
  · refine ⟨_, _, rfl, ?_⟩
    have := t.disicnt.isLt
    simp only [BitVec.toNat_ofNat]
    exact (Nat.mod_le _ _).trans (Nat.sub_le _ _)

end Sys2Proof.Machine
end

