-- ==== Sys2Proof/Laws/Frame.lean ====
section
/-! SUPPORT. Frames compose, and the frame of each shared operation. -/

namespace Sys2Proof.Machine

/-- The bits of either mask. -/
def SrMask.join (m q : SrMask) : SrMask :=
  { dc := m.dc || q.dc, ipl := m.ipl || q.ipl, ra := m.ra || q.ra, n := m.n || q.n
    ov := m.ov || q.ov, z := m.z || q.z, c := m.c || q.c }

/-- One effect, then another. -/
def Effect.join (e f : Effect) : Effect :=
  { regs := e.regs ++ f.regs, stores := e.stores ++ f.stores, sr := e.sr.join f.sr, own := e.own ++ f.own }

/-- The first effect is within the second. -/
structure Effect.Within (e f : Effect) : Prop where
  regs : ∀ r ∈ e.regs, r ∈ f.regs
  stores : ∀ x ∈ e.stores, x ∈ f.stores
  dc : f.sr.dc = false → e.sr.dc = false
  ipl : f.sr.ipl = false → e.sr.ipl = false
  ra : f.sr.ra = false → e.sr.ra = false
  n : f.sr.n = false → e.sr.n = false
  ov : f.sr.ov = false → e.sr.ov = false
  z : f.sr.z = false → e.sr.z = false
  c : f.sr.c = false → e.sr.c = false
  own : ∀ x ∈ e.own, x ∈ f.own

theorem Effect.Within.hits {e f : Effect} (h : e.Within f) {m : SfrMap} {c : CoreReg} (hf : f.hits m c = false) :
    e.hits m c = false := by
  simp only [Effect.hits, List.any_eq_false] at hf ⊢
  exact fun x hx => hf x (h.stores x hx)

theorem Effect.Within.storesByte {e f : Effect} (h : e.Within f) {n : Nat} (hf : f.storesByte n = false) :
    e.storesByte n = false := by
  simp only [Effect.storesByte, List.any_eq_false] at hf ⊢
  exact fun x hx => hf x (h.stores x hx)

/-- Which addresses are peripheral does not depend on the state but for the device. -/
theorem regionOf_peripheral {s t : State} (hd : t.device = s.device) (b : Size) (a : Word) :
    regionOf t b a = .peripheral ↔ regionOf s b a = .peripheral := by
  unfold regionOf
  rw [hd]
  split
  · simp
  · by_cases h8 : 0x8000 ≤ a.toNat
    · have : ¬ a.toNat ≤ 0x07FF := by omega
      constructor <;> intro h <;> (split at h <;> try cases h) <;> (split at h <;> cases h)
    · simp [h8]

/-- A frame holds of every wider effect. -/
theorem Frame.mono {e f : Effect} {s t : State} (h : Frame e s t) (hw : e.Within f) : Frame f s t := by
  obtain ⟨h1, ⟨p1, p2, p3, p4, p5, p6, p7, p8⟩, ⟨q1, q2, q3, q4, q5⟩, m1, m2, m3⟩ := h
  refine ⟨fun r hr hh => h1 r (fun hm => hr (hw.regs r hm)) (hw.hits hh),
    ⟨fun hh => ?_, fun hh => ⟨(p2 (hw.hits hh)).1, fun ho => (p2 (hw.hits hh)).2 fun hm => ho (hw.own _ hm)⟩,
      fun hh => p3 (hw.hits hh), fun hh => p4 (hw.hits hh), fun hh => p5 (hw.hits hh),
      fun hh ho => p6 (hw.hits hh) fun hm => ho (hw.own _ hm), fun hh ho => p7 (hw.hits hh) fun hm => ho (hw.own _ hm),
      fun ho => p8 fun hm => ho (hw.own _ hm)⟩,
    ⟨fun ho => q1 fun hm => ho (hw.own _ hm), fun ho => q2 fun hm => ho (hw.own _ hm),
      fun ho => q3 fun hm => ho (hw.own _ hm), fun ho => q4 fun hm => ho (hw.own _ hm), q5⟩,
    fun n hn => m1 n (hw.storesByte hn), fun hp => m2 fun x hx => hp x (hw.stores x hx), m3⟩
  obtain ⟨r1, r2, r3, r4, r5, r6, r7⟩ := p1 (hw.hits hh)
  exact ⟨fun h => r1 (hw.dc h), fun h => r2 (hw.ipl h), fun h => r3 (hw.ra h), fun h => r4 (hw.n h), fun h => r5 (hw.ov h),
    fun h => r6 (hw.z h), fun h => r7 (hw.c h)⟩

/-- Frames compose. -/
theorem Frame.trans {e f : Effect} {s u t : State} (h : Frame e s u) (k : Frame f u t) : Frame (e.join f) s t := by
  have we : e.Within (e.join f) := by
    constructor <;> simp +contextual [Effect.join, SrMask.join]
  have wf : f.Within (e.join f) := by
    constructor <;> simp +contextual [Effect.join, SrMask.join]
  obtain ⟨h1, ⟨p1, p2, p3, p4, p5, p6, p7, p8⟩, ⟨q1, q2, q3, q4, q5, q6, q7, q8, q9, q10, q11⟩, m1, m2, m3, m4⟩ := h.mono we
  have kf := k.mono wf
  unfold Frame RegsKept SpecialsKept at kf
  rw [m4] at kf
  obtain ⟨h1', ⟨p1', p2', p3', p4', p5', p6', p7', p8'⟩, ⟨q1', q2', q3', q4', q5', q6', q7', q8', q9', q10', q11'⟩,
    m1', m2', m3', m4'⟩ := kf
  refine ⟨fun r hr hh => ⟨(h1' r hr hh).1.trans (h1 r hr hh).1, (h1' r hr hh).2.trans (h1 r hr hh).2⟩,
    ⟨fun hh => ?_,
      fun hh => ⟨(p2' hh).1.trans (p2 hh).1, fun ho => ((p2' hh).2 ho).trans ((p2 hh).2 ho)⟩,
      fun hh => ⟨(p3' hh).1.trans (p3 hh).1, (p3' hh).2.trans (p3 hh).2⟩,
      fun hh => (p4' hh).trans (p4 hh), fun hh => (p5' hh).trans (p5 hh),
      fun hh ho => (p6' hh ho).trans (p6 hh ho), fun hh ho => (p7' hh ho).trans (p7 hh ho),
      fun ho => (p8' ho).trans (p8 ho)⟩,
    ⟨fun ho => (q1' ho).trans (q1 ho), fun ho => (q2' ho).trans (q2 ho), fun ho => (q3' ho).trans (q3 ho),
      fun ho => (q4' ho).trans (q4 ho), fun hs => q5' (q5 hs), fun hs => q6' (q6 hs), q7'.trans q7, q8'.trans q8,
      q9'.trans q9, q10'.trans q10, q11'.trans q11⟩,
    fun n hn => (m1' n hn).trans (m1 n hn), fun hp => ?_, m3'.trans m3, m4'.trans m4⟩
  · obtain ⟨r1, r2, r3, r4, r5, r6, r7⟩ := p1 hh
    obtain ⟨r1', r2', r3', r4', r5', r6', r7'⟩ := p1' hh
    exact ⟨fun h => (r1' h).trans (r1 h), fun h => (r2' h).trans (r2 h), fun h => (r3' h).trans (r3 h),
      fun h => (r4' h).trans (r4 h), fun h => (r5' h).trans (r5 h), fun h => (r6' h).trans (r6 h),
      fun h => (r7' h).trans (r7 h)⟩
  · exact (m2' fun x hx hr => hp x hx ((regionOf_peripheral m4 x.1 x.2).mp hr)).trans (m2 hp)

theorem Frame.refl (s : State) : Frame {} s s :=
  ⟨fun _ _ _ => ⟨rfl, rfl⟩,
    ⟨fun _ => ⟨fun _ => rfl, fun _ => rfl, fun _ => rfl, fun _ => rfl, fun _ => rfl, fun _ => rfl, fun _ => rfl⟩,
      fun _ => ⟨rfl, fun _ => rfl⟩, fun _ => ⟨rfl, rfl⟩, fun _ => rfl, fun _ => rfl, fun _ _ => rfl, fun _ _ => rfl,
      fun _ => rfl⟩,
    ⟨fun _ => rfl, fun _ => rfl, fun _ => rfl, fun _ => rfl, id, id, rfl, rfl, rfl, rfl, rfl⟩,
    fun _ _ => rfl, fun _ => rfl, rfl, rfl⟩

/-- A read or an address leaves everything but `StackError`. -/
theorem Frame.touch (s : State) {hit e : Bool} {n k : Nat} (he : s.pendingTraps.stackError = true → e = true)
    (hn : hit = false → e = s.pendingTraps.stackError) : Frame { own := stackOwn hit } s (s.touch e n k) := by
  refine ⟨fun _ _ _ => ⟨rfl, rfl⟩,
    ⟨fun _ => ⟨fun _ => rfl, fun _ => rfl, fun _ => rfl, fun _ => rfl, fun _ => rfl, fun _ => rfl, fun _ => rfl⟩,
      fun _ => ⟨rfl, fun _ => rfl⟩, fun _ => ⟨rfl, rfl⟩, fun _ => rfl, fun _ => rfl, fun _ _ => rfl, fun _ _ => rfl,
      fun _ => rfl⟩,
    ⟨fun _ => rfl, fun _ => rfl, fun ho => hn ?_, fun _ => rfl, he, id, rfl, rfl, rfl, rfl, rfl⟩,
    fun _ _ => rfl, fun _ => rfl, rfl, rfl⟩
  cases hit
  · rfl
  · exact absurd List.mem_cons_self ho

/-- A change of registers alone. -/
theorem Frame.regs {s t : State} (l : List Reg) (hw : ∀ r, r ∉ l → t.reg r = s.reg r ∧ t.initialised r = s.initialised r)
    (ht : t = { s with w := t.w, winit := t.winit }) : Frame { regs := l } s t := by
  rw [ht] at hw ⊢
  exact ⟨fun r hr _ => hw r hr,
    ⟨fun _ => ⟨fun _ => rfl, fun _ => rfl, fun _ => rfl, fun _ => rfl, fun _ => rfl, fun _ => rfl, fun _ => rfl⟩,
      fun _ => ⟨rfl, fun _ => rfl⟩, fun _ => ⟨rfl, rfl⟩, fun _ => rfl, fun _ => rfl, fun _ _ => rfl, fun _ _ => rfl,
      fun _ => rfl⟩,
    ⟨fun _ => rfl, fun _ => rfl, fun _ => rfl, fun _ => rfl, id, id, rfl, rfl, rfl, rfl, rfl⟩,
    fun _ _ => rfl, fun _ => rfl, rfl, rfl⟩

theorem Frame.setReg (s : State) (r : Reg) (v : Word) : Frame { regs := [r] } s (s.setReg r v) :=
  .regs _ (fun q hq => ⟨s.setReg_reg_ne v (by simpa using hq), rfl⟩) rfl

theorem Frame.writeReg (s : State) (r : Reg) (v : Word) : Frame { regs := [r] } s (s.writeReg r v) :=
  .regs _ (fun q hq => by
    have : q ≠ r := by simpa using hq
    simp [State.writeReg_reg, State.writeReg_initialised, this]) rfl

theorem Frame.writeRegLow (s : State) (r : Reg) (v : Byte) : Frame { regs := [r] } s (s.writeRegLow r v) :=
  Frame.setReg s r _

theorem Frame.writeRegSized (s : State) (b : Size) (r : Reg) (v : Word) :
    Frame { regs := [r] } s (s.writeRegSized b r v) := by
  cases b
  · exact Frame.writeReg s r v
  · exact Frame.writeRegLow s r _

theorem Frame.writeTwo (s : State) (r q : Reg) (v x : Word) : Frame { regs := [r, q] } s (s.writeTwo r q v x) :=
  (Frame.writeReg s r v).trans (Frame.writeReg _ q x)

theorem Frame.modifyPtr (step : Nat) (p : PtrMode) (r : Reg) (base : Word) (s : State) :
    Frame { regs := (Operand.ptr p r).moved } s (Machine.modifyPtr step p r base s) := by
  cases p
  · exact Frame.refl s
  all_goals exact Frame.setReg s r _

/-- A change of the PC alone. -/
theorem Frame.goto (s : State) (a : Int) : Frame {} s (s.goto a) := Frame.refl s
theorem Frame.advance (s : State) : Frame {} s s.advance := Frame.refl s
theorem Frame.setPc (s : State) (a : ProgAddr) : Frame {} s (s.setPc a) := Frame.refl s

/-- A change of SR, the free values drawn for it apart. -/
theorem Frame.setSr (s : State) {m : SrMask} {q : Sr} {n : Nat} (hq : SrKept m s.sr q) :
    Frame { sr := m } s { s with sr := q, free := n } :=
  ⟨fun _ _ _ => ⟨rfl, rfl⟩,
    ⟨fun _ => hq, fun _ => ⟨rfl, fun _ => rfl⟩, fun _ => ⟨rfl, rfl⟩, fun _ => rfl, fun _ => rfl, fun _ _ => rfl,
      fun _ _ => rfl, fun _ => rfl⟩,
    ⟨fun _ => rfl, fun _ => rfl, fun _ => rfl, fun _ => rfl, id, id, rfl, rfl, rfl, rfl, rfl⟩,
    fun _ _ => rfl, fun _ => rfl, rfl, rfl⟩

theorem Frame.setAddFlags (s : State) (a : AddResult) : Frame { sr := addMask } s (s.setAddFlags a) :=
  Frame.setSr (n := s.free) s (by simp [SrKept, addMask])

theorem Frame.setNZ (s : State) (n z : Bool) : Frame { sr := nzMask } s (s.setNZ n z) :=
  Frame.setSr (n := s.free) s (by simp [SrKept, nzMask])

theorem Frame.setShiftFlags (s : State) (a : ShiftResult) : Frame { sr := shiftMask } s (s.setShiftFlags a) :=
  Frame.setSr (n := s.free + 1) s (by simp [SrKept, shiftMask])

/-- A data write changes what its address reaches. -/
theorem Frame.memWrite {b : Size} {a v : Word} {s t : State} (h : Machine.memWrite b a v s = .ok t) :
    Frame { stores := [(b, a)] } s t := by
  obtain ⟨-, ⟨c, hc, -, hw⟩ | ⟨-, rfl⟩ | ⟨hr, rfl⟩⟩ := memWrite_ok h
  · have hk := coreWrite_ok hw
    have hne : ∀ d, Effect.hits { stores := [(b, a)] } s.device.sfr d = false → c ≠ d := fun d hd e => by
      subst e; simp [Effect.hits, hc] at hd
    obtain ⟨k1, k2, k3, k4, k5, -, -, k8, k9, k10, k11, k12, k13, k14, -, -, kw, ksr, kcor, kspl, ktbl, kpsv, krc, kdis⟩ := hk
    refine ⟨fun r _ hh => kw r (hne _ hh),
      ⟨fun hh => ?_, fun hh => ?_, fun hh => kspl (hne _ hh), fun hh => ktbl (hne _ hh),
        fun hh => kpsv (hne _ hh), fun hh _ => krc (hne _ hh), fun hh _ => kdis (hne _ hh), fun _ => k8⟩,
      ⟨fun _ => k12, fun _ => k13, fun _ => by rw [k9], fun _ => by rw [k9], fun h => by rw [k9]; exact h,
        fun h => by rw [k9]; exact h, by rw [k9], by rw [k9], k14, k10, k11⟩,
      fun n _ => by simp only [State.ramByte, k1, k2], fun _ => k5, k3, k4⟩
    · rw [ksr (hne _ hh)]
      exact ⟨fun _ => rfl, fun _ => rfl, fun _ => rfl, fun _ => rfl, fun _ => rfl, fun _ => rfl, fun _ => rfl⟩
    · rw [kcor (hne _ hh)]; exact ⟨rfl, fun _ => rfl⟩
  · have hm : ∀ n, Effect.storesByte { stores := [(b, a)] } n = false → (ramWrite b a v s).ramByte n = s.ramByte n := by
      intro n hn
      rw [ramWrite_ramByte]
      have h1 : n ≠ a.toNat := by
        rintro rfl
        cases b <;> simp [Effect.storesByte, sizeBytes] at hn
      have h2 : ¬(b = .word ∧ n = a.toNat + 1) := by
        rintro ⟨rfl, rfl⟩
        simp [Effect.storesByte, sizeBytes] at hn
      simp [h1, h2]
    cases b <;> exact ⟨fun _ _ _ => ⟨rfl, rfl⟩,
      ⟨fun _ => ⟨fun _ => rfl, fun _ => rfl, fun _ => rfl, fun _ => rfl, fun _ => rfl, fun _ => rfl, fun _ => rfl⟩,
        fun _ => ⟨rfl, fun _ => rfl⟩, fun _ => ⟨rfl, rfl⟩, fun _ => rfl, fun _ => rfl, fun _ _ => rfl, fun _ _ => rfl,
        fun _ => rfl⟩,
      ⟨fun _ => rfl, fun _ => rfl, fun _ => rfl, fun _ => rfl, id, id, rfl, rfl, rfl, rfl, rfl⟩,
      hm, fun _ => rfl, rfl, rfl⟩
  · cases b <;> exact ⟨fun _ _ _ => ⟨rfl, rfl⟩,
      ⟨fun _ => ⟨fun _ => rfl, fun _ => rfl, fun _ => rfl, fun _ => rfl, fun _ => rfl, fun _ => rfl, fun _ => rfl⟩,
        fun _ => ⟨rfl, fun _ => rfl⟩, fun _ => ⟨rfl, rfl⟩, fun _ => rfl, fun _ => rfl, fun _ _ => rfl, fun _ _ => rfl,
        fun _ => rfl⟩,
      ⟨fun _ => rfl, fun _ => rfl, fun _ => rfl, fun _ => rfl, id, id, rfl, rfl, rfl, rfl, rfl⟩,
      fun _ _ => rfl, fun hp => absurd hr (hp _ List.mem_cons_self), rfl, rfl⟩

/-- A data read leaves everything. -/
theorem Frame.memRead {b : Size} {a v : Word} {s t : State} (h : Machine.memRead b a s = .ok (v, t)) : Frame {} s t := by
  obtain ⟨n, k, rfl⟩ := memRead_ok h
  exact Frame.touch (hit := false) s id fun _ => rfl

/-- An effective address changes the pointer. -/
theorem Frame.ea {step : Nat} {isRead : Bool} {o : Operand} {s t : State} {p : Place}
    (h : Machine.ea step isRead o s = .ok (p, t)) : Frame { regs := o.moved, own := stackOwn o.usesStack } s t := by
  obtain ⟨-, -, e, n, he, hn, h⟩ := ea_ok h
  cases o with
  | reg r => obtain ⟨-, ht⟩ := h; rw [ht]; exact Frame.refl s
  | ptr m r =>
    obtain ⟨-, rfl⟩ := h
    have hp : (Machine.modifyPtr step m r (s.reg r) s).pendingTraps = s.pendingTraps := by cases m <;> rfl
    have := (Frame.modifyPtr step m r (s.reg r) s).trans
      (Frame.touch (hit := (Operand.ptr m r).usesStack) (Machine.modifyPtr step m r (s.reg r) s)
        (n := n) (k := s.notes.psvReads) (hp ▸ he) (hp ▸ hn))
    simpa [Effect.join, SrMask.join] using this
  | offset r q => obtain ⟨-, rfl⟩ := h; exact Frame.touch s he hn

theorem Frame.readPlace {b : Size} {p : Place} {v : Word} {s t : State} (h : Machine.readPlace b p s = .ok (v, t)) :
    Frame {} s t := by
  cases p with
  | reg r => cases h; exact Frame.refl s
  | mem a => exact Frame.memRead h

/-- The stores and registers of a place. -/
def placeEffect (b : Size) (p : Place) : Effect :=
  match p with
  | .reg r => { regs := [r] }
  | .mem a => { stores := [(b, trunc16 a)] }

theorem Frame.writePlace {b : Size} {p : Place} {v : Word} {s t : State} (h : Machine.writePlace b p v s = .ok t) :
    Frame (placeEffect b p) s t := by
  cases p with
  | reg r => cases h; exact Frame.writeRegSized s b r v
  | mem a => exact Frame.memWrite h

theorem Frame.srcVal {b : Size} {o : Operand} {v : Word} {s t : State} (h : Machine.srcVal b o s = .ok (v, t)) :
    Frame { regs := o.moved, own := stackOwn o.usesStack } s t := by
  obtain ⟨⟨p, u⟩, h1, h2⟩ := bind_ok h
  simpa [Effect.join, SrMask.join] using (Frame.ea h1).trans (Frame.readPlace h2)

/-- What a destination operand's place is, from the state its address is formed in. -/
theorem placeEffect_ea {b : Size} {isRead : Bool} {o : Operand} {s t : State} {p : Place}
    (h : Machine.ea (sizeBytes b) isRead o s = .ok (p, t)) :
    placeEffect b p = { regs := o.direct, stores := o.store b s } := by
  obtain ⟨-, -, e, n, -, -, h⟩ := ea_ok h
  cases o <;> obtain ⟨rfl, -⟩ := h <;> rfl

/-- The frame of a destination write. -/
theorem Frame.dstWrite {b : Size} {o : Operand} {v : Word} {s t : State} (h : Machine.dstWrite b o v s = .ok t) :
    Frame { regs := o.moved ++ o.direct, stores := o.store b s, own := stackOwn o.usesStack } s t := by
  obtain ⟨⟨p, u⟩, h1, h2⟩ := bind_ok h
  have := (Frame.ea h1).trans (Frame.writePlace h2)
  rw [placeEffect_ea h1] at this
  simpa [Effect.join, SrMask.join] using this

/-- The same where the instruction also sets flags. -/
theorem Frame.dstWriteFlagged {b : Size} {o : Operand} {v : Word} {s t : State}
    (h : Machine.dstWriteFlagged b o v s = .ok t) :
    Frame { regs := o.moved ++ o.direct, stores := o.store b s, own := stackOwn o.usesStack } s t := by
  obtain ⟨⟨p, u⟩, h1, h2⟩ := bind_ok h
  obtain ⟨_, -, h3⟩ := bind_ok h2
  have := (Frame.ea h1).trans (Frame.writePlace h3)
  rw [placeEffect_ea h1] at this
  simpa [Effect.join, SrMask.join] using this

/-- The frame of a file register destination. -/
theorem Frame.fileWriteFlagged {b : Size} {d : Dest} {f : BitVec 13} {v : Word} {s t : State}
    (h : Machine.fileWriteFlagged b d f v s = .ok t) : Frame (fileEffect b d f {}) s t := by
  cases d with
  | wreg => cases h; exact Frame.writeRegSized s b 0 v
  | file =>
    obtain ⟨_, -, h2⟩ := bind_ok h
    exact Frame.memWrite h2

/-- A push stores one word where W15 points. -/
theorem Frame.push16 {v : Word} {s t : State} (h : Machine.push16 v s = .ok t) :
    Frame { regs := [15], stores := [(.word, s.reg 15)], own := [.stackError] } s t := by
  obtain ⟨e, n, hw, he⟩ := push16_ok h
  have := ((Frame.setReg s 15 (s.reg 15 + 2)).trans
    (Frame.touch (hit := true) (n := n) (k := s.notes.psvReads) (s.setReg 15 (s.reg 15 + 2)) he nofun)).trans
    (Frame.memWrite hw)
  simpa [Effect.join, SrMask.join, stackOwn] using this

/-- A pop stores nothing. -/
theorem Frame.pop16 {v : Word} {s t : State} (h : Machine.pop16 s = .ok (v, t)) :
    Frame { regs := [15], own := [.stackError] } s t := by
  obtain ⟨e, n, k, rfl, he⟩ := pop16_ok h
  have := (Frame.setReg s 15 (trunc16 ((s.reg 15).toNat - 2))).trans
    (Frame.touch (hit := true) (n := n) (k := k) (s.setReg 15 (trunc16 ((s.reg 15).toNat - 2))) he nofun)
  simpa [Effect.join, SrMask.join, stackOwn] using this

/-- An operand that no modified register forms names the same address before and after. -/
theorem Operand.addr_kept {step : Nat} {o : Operand} {e : Effect} {s t : State} (h : RegsKept e s t)
    (hs : e.stores = []) (ho : ∀ r ∈ e.regs, o.addresses r = false) : o.addr step t = o.addr step s := by
  have hk : ∀ r, o.addresses r = true → t.reg r = s.reg r := fun r hr =>
    (h r (fun hm => by simp [ho r hm] at hr) (by simp [Effect.hits, hs])).1
  cases o with
  | reg r => rfl
  | ptr p r => simp [Operand.addr, hk r (by simp [Operand.addresses])]
  | offset r q =>
    simp [Operand.addr, hk r (by simp [Operand.addresses]), hk q (by simp [Operand.addresses])]

/-- Without a collision, the source's modification does not touch the destination's address. -/
theorem collides_addresses {src dst : Operand} (h : collides src dst = false) :
    ∀ r ∈ src.moved, dst.addresses r = false := by
  intro r hr
  simp only [Operand.moved, Option.mem_toList] at hr
  simp only [collides, Bool.or_eq_false_iff, Option.mem_def.mp hr] at h
  exact h.1.2

end Sys2Proof.Machine
end

