-- ==== Sys2Proof/Laws/PerInstr.lean ====
section
/-! SUPPORT. One lemma for each instruction: its first word fits in 24 bits, so that no bit of the encoding is dropped
(30_encoding.md R100). -/

namespace Sys2Proof.Laws

theorem size_code_le (b : Size) : b.code ≤ 1 := by cases b <;> decide
theorem dest_code_le (d : Dest) : d.code ≤ 1 := by cases d <;> decide
theorem ptrMode_code_le (p : PtrMode) : p.code ≤ 5 := by cases p <;> decide
theorem mode_code_le (m : Mode) : m.code ≤ 5 := by
  cases m with
  | direct => decide
  | ptr p => exact ptrMode_code_le p
theorem moveMode_code_le (m : MoveMode) : m.code ≤ 7 := by
  cases m with
  | direct => decide
  | ptr p => exact (ptrMode_code_le p).trans (by decide)
  | offset6 => decide
  | offset7 => decide

theorem encFile_lt {op : Nat} (h : op < 2 ^ 9) (b : Size) (d : Dest) (f : BitVec 13) : encFile op b d f < 2 ^ 24 := by
  have := size_code_le b; have := dest_code_le d; have := f.isLt; unfold encFile; omega

theorem encWsWd_lt {op q p : Nat} (h : op < 2 ^ 9) (hq : q < 8) (hp : p < 8) (b : Size) (rd rs : Reg) :
    encWsWd op b q rd p rs < 2 ^ 24 := by
  have := size_code_le b; unfold encWsWd; omega

theorem encWbWsWd_lt {op q p : Nat} (h : op < 2 ^ 5) (hq : q < 8) (hp : p < 8) (rb : Reg) (b : Size) (rd rs : Reg) :
    encWbWsWd op rb b q rd p rs < 2 ^ 24 := by
  have := size_code_le b; unfold encWbWsWd; omega

theorem encMul_lt {op : Nat} (h : op < 2 ^ 9) (rb : Reg) (rd : MulPair) (p : Mode) (rs : Reg) :
    encMul op rb rd p rs < 2 ^ 24 := by
  have := mode_code_le p; unfold encMul; omega

theorem encMulLit_lt {op : Nat} (h : op < 2 ^ 9) (rb : Reg) (rd : MulPair) (k : BitVec 5) :
    encMulLit op rb rd k < 2 ^ 24 := by
  have := k.isLt; unfold encMulLit; omega

theorem encShiftN_lt {op sel k : Nat} (h : op < 2 ^ 9) (hs : sel < 8) (hk : k < 16) (rb rd : Reg) :
    encShiftN op rb rd sel k < 2 ^ 24 := by
  unfold encShiftN; omega

theorem encDiv_lt {u t v d : Nat} (hu : u < 2) (ht : t < 16) (hv : v < 16) (hd : d < 2) (rn : Reg) :
    encDiv u t v d rn < 2 ^ 24 := by
  unfold encDiv; omega

theorem encOff10_lt {op : Nat} (h : op < 2 ^ 5) (b : Size) (k : BitVec 10) (rd rs : Reg) :
    encOff10 op b k rd rs < 2 ^ 24 := by
  have := size_code_le b; have := k.isLt; unfold encOff10; omega

theorem encLit10_lt {op : Nat} (h : op < 2 ^ 9) (b : Size) (k : BitVec 10) (rd : Reg) :
    encLit10 op b k rd < 2 ^ 24 := by
  have := size_code_le b; have := k.isLt; unfold encLit10; omega

theorem encBitF_lt {op : Nat} (h : op < 2 ^ 8) (j : BitVec 3) (f : BitVec 13) : encBitF op j f < 2 ^ 24 := by
  have := j.isLt; have := f.isLt; unfold encBitF; omega

theorem encRel_lt {op : Nat} (h : op < 2 ^ 8) (n : BitVec 16) : encRel op n < 2 ^ 24 := by
  have := n.isLt; unfold encRel; omega

end Sys2Proof.Laws

namespace Sys2Proof.Laws.EncodingFits

set_option Elab.async false

/-- The first word of the instruction, as a number, is below 2^24. -/
def Statement (i : Instr) : Prop := encodeFirst i < 2 ^ 24

theorem movF (b : Size) (d : Dest) (f : BitVec 13) : Statement (.movF b d f) := encFile_lt (by decide) _ _ _
theorem movWregF (b : Size) (f : BitVec 13) : Statement (.movWregF b f) := encFile_lt (by decide) _ _ _
theorem movFWnd (f : BitVec 15) (rd : Reg) : Statement (.movFWnd f rd) := by
  have := f.isLt; have := rd.isLt; simp only [Statement, encodeFirst]; omega
theorem movWnsF (f : BitVec 15) (rs : Reg) : Statement (.movWnsF f rs) := by
  have := f.isLt; have := rs.isLt; simp only [Statement, encodeFirst]; omega
theorem movBLit8 (k : BitVec 8) (rd : Reg) : Statement (.movBLit8 k rd) := by
  have := k.isLt; have := rd.isLt; simp only [Statement, encodeFirst]; omega
theorem movLit16 (k : BitVec 16) (rd : Reg) : Statement (.movLit16 k rd) := by
  have := k.isLt; have := rd.isLt; simp only [Statement, encodeFirst]; omega
theorem movOffLd (b : Size) (k : BitVec 10) (rd : Reg) (rs : Reg) : Statement (.movOffLd b k rd rs) :=
  encOff10_lt (by decide) _ _ _ _
theorem movOffSt (b : Size) (k : BitVec 10) (rd : Reg) (rs : Reg) : Statement (.movOffSt b k rd rs) :=
  encOff10_lt (by decide) _ _ _ _
theorem movWsWd (b : Size) (rb : Reg) (h : MoveMode) (rd : Reg) (g : MoveMode) (rs : Reg) :
    Statement (.movWsWd b rb h rd g rs) := by
  have := moveMode_code_le h; have := moveMode_code_le g; exact encWbWsWd_lt (by omega) (by omega) (by omega) _ _ _ _
theorem movDLd (rd : Pair) (p : Mode) (rs : Reg) : Statement (.movDLd rd p rs) := by
  have := rd.isLt; have := mode_code_le p; have := rs.isLt; simp only [Statement, encodeFirst]; omega
theorem movDSt (q : Mode) (rd : Reg) (rs : Pair) : Statement (.movDSt q rd rs) := by
  have := mode_code_le q; have := rd.isLt; have := rs.isLt; simp only [Statement, encodeFirst]; omega
theorem push (rb : Reg) (g : MoveMode) (rs : Reg) : Statement (.push rb g rs) := by
  have := moveMode_code_le g; exact encWbWsWd_lt (by omega) (by omega) (by omega) _ _ _ _
theorem pop (rb : Reg) (h : MoveMode) (rd : Reg) : Statement (.pop rb h rd) := by
  have := moveMode_code_le h; exact encWbWsWd_lt (by omega) (by omega) (by omega) _ _ _ _
theorem pushS : Statement .pushS := by unfold Statement; decide
theorem popS : Statement .popS := by unfold Statement; decide
theorem lnk (k : BitVec 13) : Statement (.lnk k) := by have := k.isLt; simp only [Statement, encodeFirst]; omega
theorem ulnk : Statement .ulnk := by unfold Statement; decide
theorem addF (b : Size) (d : Dest) (f : BitVec 13) : Statement (.addF b d f) := encFile_lt (by decide) _ _ _
theorem addLit10 (b : Size) (k : BitVec 10) (rd : Reg) : Statement (.addLit10 b k rd) := encLit10_lt (by decide) _ _ _
theorem addLit5 (b : Size) (rb : Reg) (q : Mode) (rd : Reg) (k : BitVec 5) : Statement (.addLit5 b rb q rd k) := by
  have := size_code_le b; have := rb.isLt; have := mode_code_le q; have := rd.isLt; have := k.isLt
  simp only [Statement, encodeFirst]; omega
theorem addWs (b : Size) (rb : Reg) (q : Mode) (rd : Reg) (p : Mode) (rs : Reg) :
    Statement (.addWs b rb q rd p rs) := by
  have := mode_code_le q; have := mode_code_le p; exact encWbWsWd_lt (by omega) (by omega) (by omega) _ _ _ _
theorem bsetF (j : BitVec 3) (f : BitVec 13) : Statement (.bsetF j f) := encBitF_lt (by decide) _ _
theorem bsetWs (j : BitVec 4) (b : Size) (p : Mode) (rs : Reg) : Statement (.bsetWs j b p rs) := by
  have := j.isLt; have := size_code_le b; have := mode_code_le p; have := rs.isLt
  simp only [Statement, encodeFirst]; omega
theorem btscF (j : BitVec 3) (f : BitVec 13) : Statement (.btscF j f) := encBitF_lt (by decide) _ _
theorem btscWs (j : BitVec 4) (p : Mode) (rs : Reg) : Statement (.btscWs j p rs) := by
  have := j.isLt; have := mode_code_le p; have := rs.isLt; simp only [Statement, encodeFirst]; omega
theorem mulSS (rb : Reg) (rd : MulPair) (p : Mode) (rs : Reg) : Statement (.mulSS rb rd p rs) :=
  encMul_lt (by decide) _ _ _ _
theorem mulSU (rb : Reg) (rd : MulPair) (p : Mode) (rs : Reg) : Statement (.mulSU rb rd p rs) :=
  encMul_lt (by decide) _ _ _ _
theorem mulSULit (rb : Reg) (rd : MulPair) (k : BitVec 5) : Statement (.mulSULit rb rd k) :=
  encMulLit_lt (by decide) _ _ _
theorem mulUS (rb : Reg) (rd : MulPair) (p : Mode) (rs : Reg) : Statement (.mulUS rb rd p rs) :=
  encMul_lt (by decide) _ _ _ _
theorem mulUU (rb : Reg) (rd : MulPair) (p : Mode) (rs : Reg) : Statement (.mulUU rb rd p rs) :=
  encMul_lt (by decide) _ _ _ _
theorem mulUULit (rb : Reg) (rd : MulPair) (k : BitVec 5) : Statement (.mulUULit rb rd k) :=
  encMulLit_lt (by decide) _ _ _
theorem mulF (b : Size) (f : BitVec 13) : Statement (.mulF b f) := encFile_lt (by decide) _ _ _
theorem divSW (rm : Reg) (rn : Reg) : Statement (.divSW rm rn) := by
  have := rm.isLt; exact encDiv_lt (by omega) (by omega) (by omega) (by omega) _
theorem divSD (rm : Pair) (rn : Reg) : Statement (.divSD rm rn) := by
  have := rm.isLt; exact encDiv_lt (by omega) (by omega) (by omega) (by omega) _
theorem divUW (rm : Reg) (rn : Reg) : Statement (.divUW rm rn) := by
  have := rm.isLt; exact encDiv_lt (by omega) (by omega) (by omega) (by omega) _
theorem divUD (rm : Pair) (rn : Reg) : Statement (.divUD rm rn) := by
  have := rm.isLt; exact encDiv_lt (by omega) (by omega) (by omega) (by omega) _
theorem asrF (b : Size) (d : Dest) (f : BitVec 13) : Statement (.asrF b d f) := encFile_lt (by decide) _ _ _
theorem asrWs (b : Size) (q : Mode) (rd : Reg) (p : Mode) (rs : Reg) : Statement (.asrWs b q rd p rs) := by
  have := mode_code_le q; have := mode_code_le p; exact encWsWd_lt (by omega) (by omega) (by omega) _ _ _
theorem asrLit (rb : Reg) (rd : Reg) (k : BitVec 4) : Statement (.asrLit rb rd k) := by
  have := k.isLt; exact encShiftN_lt (by omega) (by omega) (by omega) _ _
theorem asrWns (rb : Reg) (rd : Reg) (rs : Reg) : Statement (.asrWns rb rd rs) := by
  have := rs.isLt; exact encShiftN_lt (by omega) (by omega) (by omega) _ _
theorem lsrF (b : Size) (d : Dest) (f : BitVec 13) : Statement (.lsrF b d f) := encFile_lt (by decide) _ _ _
theorem lsrWs (b : Size) (q : Mode) (rd : Reg) (p : Mode) (rs : Reg) : Statement (.lsrWs b q rd p rs) := by
  have := mode_code_le q; have := mode_code_le p; exact encWsWd_lt (by omega) (by omega) (by omega) _ _ _
theorem lsrLit (rb : Reg) (rd : Reg) (k : BitVec 4) : Statement (.lsrLit rb rd k) := by
  have := k.isLt; exact encShiftN_lt (by omega) (by omega) (by omega) _ _
theorem lsrWns (rb : Reg) (rd : Reg) (rs : Reg) : Statement (.lsrWns rb rd rs) := by
  have := rs.isLt; exact encShiftN_lt (by omega) (by omega) (by omega) _ _
theorem slF (b : Size) (d : Dest) (f : BitVec 13) : Statement (.slF b d f) := encFile_lt (by decide) _ _ _
theorem slWs (b : Size) (q : Mode) (rd : Reg) (p : Mode) (rs : Reg) : Statement (.slWs b q rd p rs) := by
  have := mode_code_le q; have := mode_code_le p; exact encWsWd_lt (by omega) (by omega) (by omega) _ _ _
theorem slLit (rb : Reg) (rd : Reg) (k : BitVec 4) : Statement (.slLit rb rd k) := by
  have := k.isLt; exact encShiftN_lt (by omega) (by omega) (by omega) _ _
theorem slWns (rb : Reg) (rd : Reg) (rs : Reg) : Statement (.slWns rb rd rs) := by
  have := rs.isLt; exact encShiftN_lt (by omega) (by omega) (by omega) _ _
theorem bra (n : BitVec 16) : Statement (.bra n) := encRel_lt (by decide) _
theorem braOV (n : BitVec 16) : Statement (.braOV n) := encRel_lt (by decide) _
theorem braC (n : BitVec 16) : Statement (.braC n) := encRel_lt (by decide) _
theorem braZ (n : BitVec 16) : Statement (.braZ n) := encRel_lt (by decide) _
theorem braN (n : BitVec 16) : Statement (.braN n) := encRel_lt (by decide) _
theorem braLE (n : BitVec 16) : Statement (.braLE n) := encRel_lt (by decide) _
theorem braLT (n : BitVec 16) : Statement (.braLT n) := encRel_lt (by decide) _
theorem braLEU (n : BitVec 16) : Statement (.braLEU n) := encRel_lt (by decide) _
theorem braNOV (n : BitVec 16) : Statement (.braNOV n) := encRel_lt (by decide) _
theorem braNC (n : BitVec 16) : Statement (.braNC n) := encRel_lt (by decide) _
theorem braNZ (n : BitVec 16) : Statement (.braNZ n) := encRel_lt (by decide) _
theorem braNN (n : BitVec 16) : Statement (.braNN n) := encRel_lt (by decide) _
theorem braGT (n : BitVec 16) : Statement (.braGT n) := encRel_lt (by decide) _
theorem braGE (n : BitVec 16) : Statement (.braGE n) := encRel_lt (by decide) _
theorem braGTU (n : BitVec 16) : Statement (.braGTU n) := encRel_lt (by decide) _
theorem rcall (n : BitVec 16) : Statement (.rcall n) := encRel_lt (by decide) _
theorem call (t : BitVec 22) : Statement (.call t) := by have := t.isLt; simp only [Statement, encodeFirst]; omega
theorem goto (t : BitVec 22) : Statement (.goto t) := by have := t.isLt; simp only [Statement, encodeFirst]; omega
theorem ret : Statement .ret := by unfold Statement; decide
theorem retfie : Statement .retfie := by unfold Statement; decide
theorem retlw (b : Size) (k : BitVec 10) (rd : Reg) : Statement (.retlw b k rd) := encLit10_lt (by decide) _ _ _
theorem repeatLit (k : BitVec 14) : Statement (.repeatLit k) := by
  have := k.isLt; simp only [Statement, encodeFirst]; omega
theorem repeatWn (rs : Reg) : Statement (.repeatWn rs) := by
  have := rs.isLt; simp only [Statement, encodeFirst]; omega
theorem nop (x : BitVec 16) : Statement (.nop x) := by have := x.isLt; simp only [Statement, encodeFirst]; omega
theorem disi (k : BitVec 14) : Statement (.disi k) := by have := k.isLt; simp only [Statement, encodeFirst]; omega
theorem pwrsav (k : BitVec 1) : Statement (.pwrsav k) := by have := k.isLt; simp only [Statement, encodeFirst]; omega
theorem reset : Statement .reset := by unfold Statement; decide
theorem tblrdl (b : Size) (q : Mode) (rd : Reg) (p : PtrMode) (rs : Reg) : Statement (.tblrdl b q rd p rs) := by
  have := mode_code_le q; have := ptrMode_code_le p; exact encWsWd_lt (by omega) (by omega) (by omega) _ _ _
theorem tblrdh (b : Size) (q : Mode) (rd : Reg) (p : PtrMode) (rs : Reg) : Statement (.tblrdh b q rd p rs) := by
  have := mode_code_le q; have := ptrMode_code_le p; exact encWsWd_lt (by omega) (by omega) (by omega) _ _ _
theorem tblwtl (b : Size) (q : PtrMode) (rd : Reg) (p : Mode) (rs : Reg) : Statement (.tblwtl b q rd p rs) := by
  have := ptrMode_code_le q; have := mode_code_le p; exact encWsWd_lt (by omega) (by omega) (by omega) _ _ _
theorem tblwth (b : Size) (q : PtrMode) (rd : Reg) (p : Mode) (rs : Reg) : Statement (.tblwth b q rd p rs) := by
  have := ptrMode_code_le q; have := mode_code_le p; exact encWsWd_lt (by omega) (by omega) (by omega) _ _ _

end Sys2Proof.Laws.EncodingFits
end

