-- ==== Sys2Proof/Tests/Slice0.lean ====
section
/-! SUPPORT. The model's own tests: each check of WellFormed, one written-out word for every constructor, the worked examples of the
rules, and for every statement with hypotheses a state that meets them. Expected results are the spec's own examples, or worked
by hand from the rule named. -/

namespace Sys2Proof.Tests

set_option Elab.async false

open Sys2Proof.Machine

/-! ## WellFormed -/

/-- R104: the words of `MOV W3, [W15++]` and `MOV [--W15], W3` are `PUSH` and `POP`; one field off they are not. -/
theorem test_wf_move_push_pop :
    (Instr.movWsWd .word 0 (.ptr .postInc) 15 .direct 3).wellFormed = false ∧
    (Instr.movWsWd .word 0 .direct 3 (.ptr .preDec) 15).wellFormed = false ∧
    (Instr.movWsWd .byte 0 (.ptr .postInc) 15 .direct 3).wellFormed = true ∧
    (Instr.movWsWd .word 0 .direct 3 (.ptr .preDec) 14).wellFormed = true := by decide

theorem test_wf_pop_push : (Instr.pop 0 (.ptr .postInc) 15).wellFormed = false ∧
    (Instr.pop 0 (.ptr .postInc) 14).wellFormed = true := by decide

theorem test_wf_double_direct :
    (Instr.movDLd 0 .direct 5).wellFormed = false ∧ (Instr.movDLd 0 (.ptr .ind) 5).wellFormed = true ∧
    (Instr.movDSt .direct 5 0).wellFormed = false ∧ (Instr.movDSt (.ptr .ind) 5 0).wellFormed = true := by decide

theorem test_wf_bset_byte : (Instr.bsetWs 8 .byte .direct 0).wellFormed = false ∧
    (Instr.bsetWs 7 .byte .direct 0).wellFormed = true ∧ (Instr.bsetWs 8 .word .direct 0).wellFormed = true := by decide

theorem test_wf_divisor :
    (Instr.divSW 4 1).wellFormed = false ∧ (Instr.divSD 2 0).wellFormed = false ∧
    (Instr.divUW 4 1).wellFormed = false ∧ (Instr.divUD 2 1).wellFormed = false ∧
    (Instr.divSW 4 2).wellFormed = true := by decide

/-! ## Words, written out from the patterns of R103; the words are those of the rules' examples where a rule has one -/

theorem test_words_move :
    decode 0xBF8900 0 = .ok (.movF .word .wreg 0x0900) ∧ decode 0xB7A900 0 = .ok (.movWregF .word 0x0900) ∧
    decode 0x80002A 0 = .ok (.movFWnd 0x0002 10) ∧ decode 0x884013 0 = .ok (.movWnsF 0x0401 3) ∧
    decode 0xB3C344 0 = .ok (.movBLit8 0x34 4) ∧ decode 0x200030 0 = .ok (.movLit16 0x0003 0) ∧
    decode 0x97B86E 0 = .ok (.movOffLd .word 0x3FE 0 14) ∧ decode 0x980711 0 = .ok (.movOffSt .word 1 14 1) ∧
    decode 0x781901 0 = .ok (.movWsWd .word 0 (.ptr .postInc) 2 .direct 1) ∧
    decode 0xBE0034 0 = .ok (.movDLd 0 (.ptr .postInc) 4) ∧
    decode 0xBE9F80 0 = .ok (.movDSt (.ptr .postInc) 15 0) := by decide +kernel

theorem test_words_stack :
    decode 0x781F80 0 = .ok (.push 0 .direct 0) ∧ decode 0x7801CF 0 = .ok (.pop 0 .direct 3) ∧
    decode 0xFEA000 0 = .ok .pushS ∧ decode 0xFE8000 0 = .ok .popS ∧ decode 0xFA0004 0 = .ok (.lnk 2) ∧
    decode 0xFA8000 0 = .ok .ulnk := by decide +kernel

theorem test_words_alu :
    decode 0xB42900 0 = .ok (.addF .word .file 0x0900) ∧ decode 0xB00010 0 = .ok (.addLit10 .word 1 0) ∧
    decode 0x408161 0 = .ok (.addLit5 .word 1 .direct 2 1) ∧
    decode 0x400294 0 = .ok (.addWs .word 0 .direct 5 (.ptr .ind) 4) ∧
    decode 0xA86900 0 = .ok (.bsetF 3 0x0900) ∧ decode 0xA88901 0 = .ok (.bsetF 4 0x0901) ∧
    decode 0xA0F001 0 = .ok (.bsetWs 15 .word .direct 1) ∧ decode 0xAF2042 0 = .ok (.btscF 1 0x0042) ∧
    decode 0xA7F000 0 = .ok (.btscWs 15 .direct 0) := by decide +kernel

theorem test_words_muldiv :
    decode 0xB98101 0 = .ok (.mulSS 0 1 .direct 1) ∧ decode 0xB92305 0 = .ok (.mulSU 4 3 .direct 5) ∧
    decode 0xB9017F 0 = .ok (.mulSULit 0 1 31) ∧ decode 0xB88201 0 = .ok (.mulUS 0 2 .direct 1) ∧
    decode 0xB80101 0 = .ok (.mulUU 0 1 .direct 1) ∧ decode 0xB81C65 0 = .ok (.mulUULit 3 4 5) ∧
    decode 0xBC0900 0 = .ok (.mulF .word 0x0900) ∧ decode 0xD80203 0 = .ok (.divSW 4 3) ∧
    decode 0xD82A43 0 = .ok (.divSD 2 3) ∧ decode 0xD88203 0 = .ok (.divUW 4 3) ∧
    decode 0xD8AA43 0 = .ok (.divUD 2 3) := by decide +kernel

theorem test_words_shift :
    decode 0xD5A900 0 = .ok (.asrF .word .file 0x0900) ∧ decode 0xD1C101 0 = .ok (.asrWs .byte .direct 2 .direct 1) ∧
    decode 0xDE8944 0 = .ok (.asrLit 1 2 4) ∧ decode 0xDE8903 0 = .ok (.asrWns 1 2 3) ∧
    decode 0xD52900 0 = .ok (.lsrF .word .file 0x0900) ∧ decode 0xD10101 0 = .ok (.lsrWs .word .direct 2 .direct 1) ∧
    decode 0xDE0944 0 = .ok (.lsrLit 1 2 4) ∧ decode 0xDE0903 0 = .ok (.lsrWns 1 2 3) ∧
    decode 0xD42900 0 = .ok (.slF .word .file 0x0900) ∧ decode 0xD00101 0 = .ok (.slWs .word .direct 2 .direct 1) ∧
    decode 0xDD0944 0 = .ok (.slLit 1 2 4) ∧ decode 0xDD0903 0 = .ok (.slWns 1 2 3) := by decide +kernel

theorem test_words_branch :
    decode 0x370003 0 = .ok (.bra 3) ∧ decode 0x300001 0 = .ok (.braOV 1) ∧ decode 0x310001 0 = .ok (.braC 1) ∧
    decode 0x32FFFD 0 = .ok (.braZ 0xFFFD) ∧ decode 0x330001 0 = .ok (.braN 1) ∧ decode 0x340001 0 = .ok (.braLE 1) ∧
    decode 0x350001 0 = .ok (.braLT 1) ∧ decode 0x360001 0 = .ok (.braLEU 1) ∧ decode 0x380001 0 = .ok (.braNOV 1) ∧
    decode 0x390001 0 = .ok (.braNC 1) ∧ decode 0x3AFFFE 0 = .ok (.braNZ 0xFFFE) ∧ decode 0x3B0001 0 = .ok (.braNN 1) ∧
    decode 0x3C0001 0 = .ok (.braGT 1) ∧ decode 0x3D0001 0 = .ok (.braGE 1) ∧
    decode 0x3E0001 0 = .ok (.braGTU 1) := by decide +kernel

theorem test_words_call :
    decode 0x070004 0 = .ok (.rcall 4) ∧ decode 0x022344 0x000001 = .ok (.call 0x0091A2) ∧
    decode 0x04FFFE 0x00007F = .ok (.goto 0x3FFFFF) ∧ decode 0x060000 0 = .ok .ret ∧ decode 0x064000 0 = .ok .retfie ∧
    decode 0x050120 0 = .ok (.retlw .word 0x12 0) ∧ decode 0x054FF3 0 = .ok (.retlw .byte 0xFF 3) := by decide +kernel

theorem test_words_system :
    decode 0x090011 0 = .ok (.repeatLit 17) ∧ decode 0x098005 0 = .ok (.repeatWn 5) ∧
    decode 0x00007F 0 = .ok (.nop 0x007F) ∧ decode 0xFC0005 0 = .ok (.disi 5) ∧ decode 0xFE4001 0 = .ok (.pwrsav 1) ∧
    decode 0xFE0000 0 = .ok .reset ∧ decode 0xBA41B1 0 = .ok (.tblrdl .byte .direct 3 .postInc 1) ∧
    decode 0xBA8111 0 = .ok (.tblrdh .word .direct 2 .ind 1) ∧ decode 0xBB0882 0 = .ok (.tblwtl .word .ind 1 .direct 2) ∧
    decode 0xBB8882 0 = .ok (.tblwth .word .ind 1 .direct 2) := by decide +kernel

/-- R234: bits 23:7 of the second word are 0; R113: a word of no row, and one that breaks a constraint. -/
theorem test_words_refused :
    decode 0x040200 0x000080 = .error (.malformedSecondWord 0x000080) ∧
    decode 0xB98181 0 = .error (.unknownWord 0xB98181) ∧ decode 0xB98701 0 = .error (.unknownWord 0xB98701) ∧
    decode 0xD80201 0 = .error (.unknownWord 0xD80201) ∧ decode 0x3F0001 0 = .error (.unknownWord 0x3F0001) := by
  decide +kernel

/-! ## Worked examples of the rules, one instruction each -/

/-- The state after reset, with W0 to W14 initialised. -/
def start : State := { State.reset with winit := Vector.replicate 15 true }

/-- A word put in RAM. -/
def poke (a v : Word) (s : State) : State := { ramWrite .word a v s with notes := s.notes }

/-- A register loaded. -/
def put (r : Reg) (v : Word) (s : State) : State := s.writeReg r v

/-- What `f` reads after one instruction. -/
def after {α : Type} (i : Instr) (s : State) (f : State → α) : Option α :=
  match exec i s with
  | .next t => some (f t)
  | .fault _ => none
  | .refused _ => none

/-- The flags DC, N, OV, Z, C. -/
def flags (t : State) : List Bool := [t.sr.dc, t.sr.n, t.sr.ov, t.sr.z, t.sr.c]

/-- R130: `MOV 0x0900, WREG`. -/
theorem test_movF : after (.movF .word .wreg 0x0900) (poke 0x0900 0x8001 start) (fun t => (t.reg 0, t.sr.n, t.sr.z)) =
    some (0x8001, true, false) := by decide +kernel

/-- R131: `MOV WREG, 0x0900`. -/
theorem test_movWregF : after (.movWregF .word 0x0900) (put 0 0xABCD start) (fun t => (t.ramByte 0x0900, t.ramByte 0x0901)) =
    some (0xCD, 0xAB) := by decide +kernel

/-- R132: `MOV 0x0004, W10` is `MOV W2, W10`. -/
theorem test_movFWnd : after (.movFWnd 0x0002 10) (put 2 0x1234 start) (fun t => t.reg 10) = some 0x1234 := by
  decide +kernel

/-- R133: `MOV W3, 0x0802`; and `MOV W1, 0x0020` writes SPLIM and enables the check. -/
theorem test_movWnsF :
    after (.movWnsF 0x0401 3) (put 3 0x00FF start) (fun t => (t.ramByte 0x0802, t.ramByte 0x0803)) = some (0xFF, 0x00) ∧
    after (.movWnsF 0x0010 1) (put 1 0x1FFF start) (fun t => (t.splim, t.splimEn)) = some (0x1FFE, true) := by
  decide +kernel

/-- R134, R135: a literal keeps the high byte, and loses bit 0 in W15. -/
theorem test_movLiteral :
    after (.movBLit8 0x34 4) (put 4 0x1200 start) (fun t => t.reg 4) = some 0x1234 ∧
    after (.movLit16 0x0A01 15) start (fun t => t.reg 15) = some 0x0A00 := by decide +kernel

/-- R136, R137: `MOV [W14-4], W0` and `MOV W1, [W14+2]`. -/
theorem test_movOffset :
    after (.movOffLd .word 0x3FE 0 14) (put 14 0x0810 (poke 0x080C 0xBEEF start)) (fun t => t.reg 0) = some 0xBEEF ∧
    after (.movOffSt .word 1 14 1) (put 14 0x0810 (put 1 0x1234 start)) (fun t => (t.ramByte 0x0812, t.ramByte 0x0813)) =
      some (0x34, 0x12) := by decide +kernel

/-- R24, R138: the data write dominates in `MOV W1, [W2++]` with W2 = 0x0004. -/
theorem test_movDominates :
    after (.movWsWd .word 0 (.ptr .postInc) 2 .direct 1) (put 1 0x1234 (put 2 0x0004 start)) (fun t => t.reg 2) =
      some 0x1234 := by decide +kernel

/-- R139, R140: `MOV.D [W4++], W0` and `MOV.D W0, [W15++]`. -/
theorem test_movDouble :
    after (.movDLd 0 (.ptr .postInc) 4) (put 4 0x0900 (poke 0x0900 0x1111 (poke 0x0902 0x2222 start)))
      (fun t => (t.reg 0, t.reg 1, t.reg 4)) = some (0x1111, 0x2222, 0x0904) ∧
    after (.movDSt (.ptr .postInc) 15 0) (put 0 0x1111 (put 1 0x2222 start))
      (fun t => (ramRead t .word 0x0800, ramRead t .word 0x0802, t.reg 15)) = some (0x1111, 0x2222, 0x0804) := by
  decide +kernel

/-- R150, R151: `PUSH W0` and `POP W3`; R109: `PUSH W15` stores the old W15. -/
theorem test_pushPop :
    after (.push 0 .direct 0) (put 0 0x5A5A start) (fun t => (ramRead t .word 0x0800, t.reg 15)) =
      some (0x5A5A, 0x0802) ∧
    after (.push 0 .direct 15) start (fun t => ramRead t .word 0x0800) = some 0x0800 ∧
    after (.pop 0 .direct 3) (put 15 0x0804 (poke 0x0802 0x3636 start)) (fun t => (t.reg 3, t.reg 15)) =
      some (0x3636, 0x0802) := by decide +kernel

/-- R156, R157: `LNK #4` and the `ULNK` that undoes it. -/
theorem test_link :
    after (.lnk 2) start (fun t => (ramRead t .word 0x0800, t.reg 14, t.reg 15)) = some (0x0000, 0x0802, 0x0806) ∧
    after .ulnk (put 14 0x0802 (put 15 0x0806 (poke 0x0800 0x0000 start))) (fun t => (t.reg 15, t.reg 14)) =
      some (0x0800, 0x0000) := by decide +kernel

/-- R166 to R169: the examples of the four forms of `ADD`. -/
theorem test_add :
    after (.addF .word .file 0x0900) (put 0 1 (poke 0x0900 0x00FF start)) (fun t => (ramRead t .word 0x0900, flags t)) =
      some (0x0100, [true, false, false, false, false]) ∧
    after (.addLit10 .word 1 0) (put 0 0xFFFF start) (fun t => (t.reg 0, flags t)) =
      some (0x0000, [true, false, false, true, true]) ∧
    after (.addLit5 .word 1 .direct 2 1) (put 1 0x7FFF start) (fun t => (t.reg 2, flags t)) =
      some (0x8000, [true, true, true, false, false]) ∧
    after (.addWs .word 0 .direct 5 (.ptr .ind) 4) (put 0 0x0010 (put 4 0x0900 (poke 0x0900 0x0020 start)))
      (fun t => (t.reg 5, t.reg 4, flags t)) = some (0x0030, 0x0900, [false, false, false, false, false]) := by
  decide +kernel

/-- R170, R171: `BSET 0x0900, #3`, `BSET W1, #15`; R42: `BSET SR, #4` cannot set RA. -/
theorem test_bset :
    after (.bsetF 3 0x0900) (poke 0x0900 0x0001 start) (fun t => t.ramByte 0x0900) = some 0x09 ∧
    after (.bsetWs 15 .word .direct 1) (put 1 0x0001 start) (fun t => t.reg 1) = some 0x8001 ∧
    after (.bsetF 4 0x0042) start (fun t => t.sr.ra) = some false := by decide +kernel

/-- R172, R173: no skip where the bit is set, a skip where it is clear. -/
theorem test_btsc :
    after (.btscF 1 0x0042) { start with sr := { start.sr with z := true } } (fun t => t.pc) = some 2 ∧
    after (.btscWs 15 .direct 0) (put 0 0x7FFF start) (fun t => t.pc) = some 4 := by decide +kernel

/-- R181 to R186: the examples of the six multiplies into a pair. -/
theorem test_mul :
    after (.mulSS 0 1 .direct 1) (put 0 0xFFFF (put 1 2 start)) (fun t => (t.reg 3, t.reg 2)) = some (0xFFFF, 0xFFFE) ∧
    after (.mulSU 4 3 .direct 5) (put 4 0xFFFF (put 5 0xFFFF start)) (fun t => (t.reg 7, t.reg 6)) =
      some (0xFFFF, 0x0001) ∧
    after (.mulSULit 0 1 31) (put 0 0xFFFE start) (fun t => (t.reg 3, t.reg 2)) = some (0xFFFF, 0xFFC2) ∧
    after (.mulUS 0 2 .direct 1) (put 0 0xFFFF (put 1 0xFFFF start)) (fun t => (t.reg 5, t.reg 4)) =
      some (0xFFFF, 0x0001) ∧
    after (.mulUU 0 1 .direct 1) (put 0 0xFFFF (put 1 0xFFFF start)) (fun t => (t.reg 3, t.reg 2)) =
      some (0xFFFE, 0x0001) ∧
    after (.mulUULit 3 4 5) (put 3 0xFFFF start) (fun t => (t.reg 9, t.reg 8)) = some (0x0004, 0xFFFB) := by
  decide +kernel

/-- R187: `MUL 0x0900` and `MUL.B 0x0900`, which leaves W3. -/
theorem test_mulF :
    after (.mulF .word 0x0900) (put 0 3 (poke 0x0900 4 start)) (fun t => (t.reg 3, t.reg 2)) = some (0x0000, 0x000C) ∧
    after (.mulF .byte 0x0900) (put 0 0x12FF (put 3 0xAAAA (poke 0x0900 0x00FF start))) (fun t => (t.reg 2, t.reg 3)) =
      some (0xFE01, 0xAAAA) := by decide +kernel

/-- R189 to R193: the examples of the divides, and the two that leave no result. -/
theorem test_divResult :
    divResult true (0xFFFFFF9C#32) 7 = some (0xFFF2, 0xFFFE) ∧ divResult true (0xFFFFFF9C#32) 0xFFF9 = some (0x000E, 0xFFFE) ∧
    divResult false 100 7 = some (0x000E, 0x0002) ∧ divResult true (0xFFFF8000#32) 0xFFFF = none ∧
    divResult false 0x00010000 1 = none ∧ divResult false 5 0 = none := by decide +kernel

/-- R201, R205, R209: the file register shifts of 0x8003. -/
theorem test_shiftFile :
    after (.asrF .word .file 0x0900) (poke 0x0900 0x8003 start)
      (fun t => (ramRead t .word 0x0900, t.sr.n, t.sr.z, t.sr.c)) = some (0xC001, true, false, true) ∧
    after (.lsrF .word .file 0x0900) (poke 0x0900 0x8003 start)
      (fun t => (ramRead t .word 0x0900, t.sr.n, t.sr.z, t.sr.c)) = some (0x4001, false, false, true) ∧
    after (.slF .word .file 0x0900) (poke 0x0900 0x8003 start)
      (fun t => (ramRead t .word 0x0900, t.sr.n, t.sr.z, t.sr.c)) = some (0x0006, false, false, true) := by decide +kernel

/-- R202, R206, R210: the register shifts by one bit. -/
theorem test_shiftOne :
    after (.asrWs .byte .direct 2 .direct 1) (put 1 0x1280 (put 2 0xAB00 start))
      (fun t => (t.reg 2, t.sr.n, t.sr.z, t.sr.c)) = some (0xABC0, true, false, false) ∧
    after (.lsrWs .word .direct 2 .direct 1) (put 1 1 start) (fun t => (t.reg 2, t.sr.n, t.sr.z, t.sr.c)) =
      some (0, false, true, true) ∧
    after (.slWs .word .direct 2 .direct 1) (put 1 0x4000 start) (fun t => (t.reg 2, t.sr.n, t.sr.z, t.sr.c)) =
      some (0x8000, true, false, false) := by decide +kernel

/-- R203, R204, R207, R208, R211, R212: the shifts of the shifter. -/
theorem test_shiftMany :
    after (.asrLit 1 2 4) (put 1 0x8000 start) (fun t => t.reg 2) = some 0xF800 ∧
    after (.asrWns 1 2 3) (put 1 0x8000 (put 3 15 start)) (fun t => t.reg 2) = some 0xFFFF ∧
    after (.lsrLit 1 2 4) (put 1 0x8000 start) (fun t => t.reg 2) = some 0x0800 ∧
    after (.lsrWns 1 2 3) (put 1 0x8000 (put 3 15 start)) (fun t => t.reg 2) = some 0x0001 ∧
    after (.slLit 1 2 4) (put 1 0x0FFF start) (fun t => t.reg 2) = some 0xFFF0 ∧
    after (.slWns 1 2 3) (put 1 0x0001 (put 3 15 start)) (fun t => t.reg 2) = some 0x8000 := by decide +kernel

/-- R204: a count of 32 is refused. -/
theorem test_shiftCount : exec (.slWns 1 2 3) (put 3 32 start) = .refused .shiftCountAbove15 := rfl

/-- R216, R217: `BRA` at 0x000200, and `BRA OV` taken and not. -/
theorem test_branch :
    after (.bra 3) { start with pc := 0x000200 } (fun t => t.pc) = some 0x000208 ∧
    after (.bra 0xFFFF) { start with pc := 0x000200 } (fun t => t.pc) = some 0x000200 ∧
    after (.braOV 1) { start with pc := 0x000200, sr := { start.sr with ov := true } } (fun t => t.pc) =
      some 0x000204 ∧
    after (.braOV 1) { start with pc := 0x000200 } (fun t => t.pc) = some 0x000202 := by decide +kernel

/-- R232, R233: the words pushed by `RCALL` and by a `CALL` whose return address is above 0xFFFF. -/
theorem test_call :
    after (.rcall 4) { start with pc := 0x000200 }
      (fun t => (ramRead t .word 0x0800, ramRead t .word 0x0802, t.reg 15, t.pc)) =
        some (0x0202, 0x0000, 0x0804, 0x00020A) ∧
    after (.call 0x0091A2) { start with pc := 0x01FFFC }
      (fun t => (ramRead t .word 0x0800, ramRead t .word 0x0802, t.reg 15, t.pc)) =
        some (0x0000, 0x0002, 0x0804, 0x012344) := by decide +kernel

/-- R235, R236, R237: the three returns. -/
theorem test_return :
    after .ret (put 15 0x0804 (poke 0x0800 0x0104 (poke 0x0802 0x0000 start))) (fun t => (t.pc, t.reg 15)) =
      some (0x000104, 0x0800) ∧
    after .retfie (put 15 0x0804 (poke 0x0800 0x0204 (poke 0x0802 0x2300 start)))
      (fun t => (t.pc, srl t.sr, t.corcon.ipl3, t.reg 15)) = some (0x000204, 0x23, false, 0x0800) ∧
    after (.retlw .word 0x12 0) (put 15 0x0804 (poke 0x0800 0x0104 (poke 0x0802 0x0000 start)))
      (fun t => (t.reg 0, t.pc)) = some (0x0012, 0x000104) := by decide +kernel

/-- R250, R251, R253: `REPEAT #17`, `REPEAT #0`, and `REPEAT W5` with the high bits of W5 dropped. -/
theorem test_repeat :
    after (.repeatLit 17) start (fun t => (t.rcount, t.sr.ra)) = some (17, true) ∧
    after (.repeatLit 0) start (fun t => (t.rcount, t.sr.ra)) = some (0, false) ∧
    after (.repeatWn 5) (put 5 0x4003 start) (fun t => (t.rcount, t.sr.ra)) = some (3, true) := by decide +kernel

/-- R272, R273: the table reads of 0x123456 at 0x000200. -/
theorem test_table :
    after (.tblrdl .word .direct 2 .ind 1) (put 1 0x0200 (start.loadProgWord 0x200 0x123456)) (fun t => t.reg 2) =
      some 0x3456 ∧
    after (.tblrdl .byte .direct 3 .postInc 1) (put 1 0x0200 (start.loadProgWord 0x200 0x123456))
      (fun t => (lowByte (t.reg 3), t.reg 1)) = some (0x56, 0x0201) ∧
    after (.tblrdh .word .direct 2 .ind 1) (put 1 0x0200 (start.loadProgWord 0x200 0x123456)) (fun t => t.reg 2) =
      some 0x0012 ∧
    after (.tblrdh .byte .direct 3 .ind 1) (put 1 0x0201 (start.loadProgWord 0x200 0x123456))
      (fun t => lowByte (t.reg 3)) = some 0x00 := by decide +kernel

/-- R81: PSV = 1, PSVPAG = 0xAA, 0x8000 reads the program word at 0x550000. -/
theorem test_psv :
    after (.movWsWd .word 0 .direct 2 (.ptr .ind) 1)
      (put 1 0x8000
        { start.loadProgWord 0x550000 0x00BEEF with psvpag := 0xAA, corcon := { ipl3 := false, psv := true } })
      (fun t => t.reg 2) = some 0xBEEF := by decide +kernel

/-- R305: the entry of an interrupt of priority 4 from PC = 0x000204 with SR = 0x0003. -/
theorem test_enter :
    (match enter (.interrupt 0) 4
        { start with pc := 0x000204, sr := { start.sr with z := true, c := true }
                     device := { Device.default with vectors := [(.interrupt 0, 0x000400)] } } with
      | .ok t => some (ramRead t .word 0x0800, ramRead t .word 0x0802, t.reg 15, srWord t.sr, t.pc)
      | .error _ => none) = some (0x0204, 0x0300, 0x0804, 0x0083, 0x000400) := by decide +kernel

/-- R306, R319, and vector V-E10: without a VECTOR a stack error ends the run. -/
theorem test_noVector :
    (match step (start.raise .stackError) with
      | .fault f => some f
      | _ => none) = some (.noVector (.trap .stackError)) := by decide +kernel

/-- A loop about to run its iteration 17, before a `DIV.SW W4, W3` with W3 = 7. -/
def inLoop : State := put 3 7 { start with pc := 0x000200, sr := { start.sr with ra := true }, rcount := 17 }

/-- The divide of `d` in `inLoop`. -/
def dividing (d : BitVec 32) : LoopDivide := .running (divRecord .sw 3 7 d 17 inLoop)

/-- An exception interrupts a loop that stands as `l`, its frame put at address `a`, and the handler runs; the PC and RA are those
of the return again. -/
def interrupted (a : Word) (l : LoopDivide) (s : State) : State :=
  let t := { put 15 a s with divider := { s.divider with loop := l } }
  poke a 0x0200 (poke (a + 2) 0x1000 (put 15 (a + 4) { s with divider := dividerInterrupted t }))

/-- A `RETFIE` pops a frame from address `a`. -/
def resumed (a : Word) (s : State) : LoopDivide := (dividerResumed a s).loop

/-- The handler runs the instruction; the PC and RA are those of the return again. -/
def handled (i : Instr) (s : State) : State :=
  match runInstr i { s with sr := { s.sr with ra := false }, notes := .empty } with
  | .next t => { t with sr := { t.sr with ra := true }, pc := s.pc }
  | .fault _ => s
  | .refused _ => s

/-- The handler runs the instructions. -/
def handledAll (l : List Instr) (s : State) : State := l.foldl (fun s i => handled i s) s

/-- R188, R195: an interrupted loop goes on as it stood, improper where W0 was changed. -/
theorem test_resume_one :
    resumed 0x0800 (interrupted 0x0800 .fresh inLoop) = .fresh ∧
    resumed 0x0800 (put 0 1 (interrupted 0x0800 .spoiled inLoop)) = .spoiled ∧
    resumed 0x0800 (interrupted 0x0800 (dividing 100) inLoop) = dividing 100 ∧
    resumed 0x0800 (put 0 1 (interrupted 0x0800 (dividing 100) inLoop)) = .spoiled := by decide +kernel

/-- R188, R195: loops at one PC and RCOUNT, interrupted one inside the other, go on as each stood, whatever the other has left in
the registers. -/
theorem test_resume_nested :
    (let t := interrupted 0x0804 .fresh (put 0 2 (interrupted 0x0800 .spoiled inLoop))
     resumed 0x0804 t = .fresh ∧ resumed 0x0800 t = .spoiled) ∧
    (let t := interrupted 0x0804 (dividing 5) (interrupted 0x0800 (dividing 100) inLoop)
     resumed 0x0804 t = dividing 5 ∧ resumed 0x0800 t = dividing 100) := by decide +kernel

/-- R188, R195: so they do where the handler pops the frame and pushes it again: the inner loop with W6 changed meanwhile, and the
outer loop, of another W0, with the inner one dropped. -/
theorem test_resume_repushed :
    (let t := put 6 9 (interrupted 0x0804 .fresh (interrupted 0x0800 .spoiled inLoop))
     resumed 0x0804 (handledAll [.pop 0 .direct 5, .push 0 .direct 5] t) = .fresh) ∧
    (let t := put 15 0x0804 (interrupted 0x0804 .fresh (put 0 2 (interrupted 0x0800 .spoiled inLoop)))
     resumed 0x0800 (handledAll [.pop 0 .direct 5, .pop 0 .direct 6, .push 0 .direct 6, .push 0 .direct 5] t) = .spoiled) := by
  decide +kernel

/-- R188, R195: so they do where software makes the stacked SRL anew, or the whole frame in its place: the inner loop with a divide
in progress, and the outer one, improper, with the inner one dropped. -/
theorem test_resume_anew :
    let high : List Instr := [.movLit16 0x1000 5, .movOffSt .word (-1) 15 5]
    let both : List Instr := [.movLit16 0x0200 5, .movOffSt .word (-2) 15 5] ++ high
    (let t := interrupted 0x0804 (dividing 5) (interrupted 0x0800 (dividing 100) (put 0 1 inLoop))
     resumed 0x0804 (handledAll high (put 0 (inLoop.reg 0) t)) = dividing 5) ∧
    (let t := interrupted 0x0804 (dividing 5) (interrupted 0x0800 .spoiled inLoop)
     resumed 0x0804 (handledAll high t) = dividing 5 ∧ resumed 0x0804 (handledAll both t) = dividing 5) ∧
    (let t := put 15 0x0804 (interrupted 0x0804 .fresh (interrupted 0x0800 .spoiled { inLoop with rcount := 19 }))
     let u := { t with rcount := 17 }
     resumed 0x0800 (handledAll high u) = .spoiled ∧ resumed 0x0800 (handledAll both u) = .spoiled) := by decide +kernel

/-- R188, R195: so they do where a handler pops the inner frame, while the outer improper loop waits for its own, and makes it anew in
its place or elsewhere. -/
theorem test_resume_rebuilt :
    let t := interrupted 0x0904 (dividing 5) (interrupted 0x0900 .spoiled inLoop)
    let popped := handledAll [.pop 0 .direct 5, .pop 0 .direct 5, .movLit16 0x0200 5, .movLit16 0x1000 6] t
    let pushes : List Instr := [.push 0 .direct 5, .push 0 .direct 6]
    resumed 0x0904 (handledAll pushes popped) = dividing 5 ∧
    resumed 0x0A00 (handledAll pushes (put 15 0x0A00 popped)) = dividing 5 ∧
    resumed 0x0880 (handledAll pushes (put 15 0x0880 popped)) = dividing 5 ∧
    (let both := handledAll [.pop 0 .direct 3, .pop 0 .direct 3] (put 3 7 popped)
     resumed 0x0900 (handledAll (.movLit16 7 3 :: pushes) both) = .spoiled ∧
     resumed 0x0A00 (handledAll (.movLit16 7 3 :: pushes) (put 15 0x0A00 both)) = .spoiled) := by decide +kernel

/-- R188: a divide whose handler pushes equal words above its frame resumes, whatever divide at its PC was resumed before, from words
made anew and from ones copied from the frame that one left behind; so does a loop with no iteration run. -/
theorem test_resume_above :
    let pushes : List Instr := [.movLit16 0x0200 5, .push 0 .direct 5, .movLit16 0x1000 6, .push 0 .direct 6]
    let copies : List Instr :=
      [.movFWnd 0x0480 5, .push 0 .direct 5, .movFWnd 0x0481 5, .push 0 .direct 5]
    let before (l : LoopDivide) :=
      let t := interrupted 0x0900 l (put 0 9 inLoop)
      put 0 (inLoop.reg 0) { t with divider := dividerResumed 0x0900 t }
    let other : LoopDivide := .running (divRecord .sw 3 7 100 17 (put 0 9 inLoop))
    (before other).divider.suspended.map (·.returned) = [true] ∧
    resumed 0x0804 (handledAll pushes (interrupted 0x0800 (dividing 5) (before (dividing 100)))) = dividing 5 ∧
    [other, .fresh, .spoiled].all (fun l =>
      resumed 0x0804 (handledAll pushes (interrupted 0x0800 (dividing 5) (before l))) == dividing 5 &&
      resumed 0x0804 (handledAll copies (interrupted 0x0800 (dividing 5) (before l))) == dividing 5 &&
      resumed 0x0804 (handledAll pushes (interrupted 0x0800 .fresh (before l))) == .fresh) = true := by decide +kernel

/-- R194, R297: a handler that puts 17 into RCOUNT makes the divide improper, and the divisor is tested again. -/
theorem test_resume_recounted :
    let t := put 3 0 { interrupted 0x0800 (dividing 100) { inLoop with rcount := 9 } with rcount := 17 }
    resumed 0x0800 t = .spoiled ∧
    (divIteration .sw 5 3 { t with divider := dividerResumed 0x0800 t }).pendingTraps.arithmeticError = true := by
  decide +kernel

/-- R188, R195: so they do where a task switch copies the frame of the outer loop through registers, the shadow registers and a
frame of `LNK` to 0x0900, and another loop's frame is put where it stood. -/
theorem test_resume_copied :
    let moves : List Instr :=
      [.movFWnd 0x0401 0, .pushS, .movLit16 0x1000 0, .popS, .movWsWd .word 0 .direct 14 .direct 0, .lnk 0,
        .movLit16 0 14, .movWsWd .word 0 .direct 14 .direct 15, .ulnk, .movDSt (.ptr .ind) 9 7,
        .bsetF 0 0x0903]
    let t := handledAll moves (put 15 0x0A00 (put 9 0x0902 (interrupted 0x0800 .spoiled inLoop)))
    let u := interrupted 0x0800 .fresh t
    resumed 0x0900 u = .spoiled ∧ resumed 0x0800 u = .fresh := by decide +kernel

/-- R299: an uninitialised pointer resets the device. -/
theorem test_uninit :
    after (.movWsWd .word 0 .direct 2 (.ptr .ind) 1) { State.reset with pc := 0x000204 } (fun t => (t.pc, t.reg 15)) =
      some (0, 0x0800) := by decide +kernel

/-- R340, R300: right after a write to SPLIM a read past 0xFFFF raises the trap where the check is enabled, and a read that only
the limit could stop raises none where it is not. -/
theorem test_stackCheck_hazard :
    (stackCheck true 0x10000 { start with splimEn := true, splimJustWritten := true }).pendingTraps.stackError = true ∧
    (stackCheck true 0x1000 { start with splimJustWritten := true }).pendingTraps.stackError = false := by decide +kernel

/-- R300: with SPLIM = 0x1FFE and a slack of 2, the push at 0x2000 passes the check and the push at 0x2002 does not. -/
theorem test_stackCheck :
    (stackCheck false 0x2000 { start with splim := 0x1FFE, splimEn := true }).pendingTraps.stackError = false ∧
    (stackCheck false 0x2002 { start with splim := 0x1FFE, splimEn := true }).pendingTraps.stackError = true ∧
    (stackCheck true 0x07FE start).pendingTraps.stackError = true := by decide +kernel

/-! ## One step -/

/-- `PUSH W0` placed where `step` fetches runs as the first instruction after reset. -/
theorem test_step_first :
    (match step (State.reset.withFetchWord 24 0x781F80) with
      | .next t => some (t.reg 15, t.pc)
      | .fault _ => none
      | .refused _ => none) = some (0x0802, 2) := by decide +kernel

/-- A two-word instruction is numbered with its second word above the first. -/
theorem test_tableWord :
    decodeTableWord 48 0x00007F04FFFE = some (.goto 0x3FFFFF) ∧ decodeTableWord 24 0x040200 = some (.goto 0x000100) ∧
    decodeTableWord 24 0x0009A4 = some (.nop 0x09A4) := by decide +kernel

/-! ## Witnesses: states that meet the hypotheses of the statements -/

/-- One word in program memory at the PC. -/
def atWord (w : ProgWord) (s : State) : State := s.loadProgWord s.pc.toNat w

theorem test_wit_decodeOfEncode : (Instr.addWs .byte 1 (.ptr .preInc) 2 .direct 3).wellFormed = true := by decide

theorem test_wit_encodeOfDecode : decode 0x022344 0x000001 = .ok (.call 0x0091A2) ∧ isTwoWord 0x022344 = true := by
  decide +kernel

theorem test_wit_mulDestination :
    field 0xB98181 16 8 = 0xB9 ∧ field 0xB98181 7 1 = 1 ∧ field 0xB80701 16 8 = 0xB8 ∧ field 0xB80701 7 4 = 14 ∧
    quiet (atWord 0xB98181 start) = true ∧
    (atWord 0xB98181 start).progWord (atWord 0xB98181 start).pc.toNat = some 0xB98181 := by decide +kernel

theorem test_wit_stepRuns_one :
    quiet (atWord 0x200030 start) = true ∧ (atWord 0x200030 start).progWord 0 = some 0x200030 ∧
    isTwoWord 0x200030 = false ∧ decode 0x200030 0 = .ok (.movLit16 3 0) ∧ mayRepeat (.movLit16 3 0) = true := by
  decide +kernel

theorem test_wit_stepRuns_two :
    let s := (atWord 0x040200 start).loadProgWord 2 0x000000
    quiet s = true ∧ s.sr.ra = false ∧ s.progWord s.pc.toNat = some 0x040200 ∧ isTwoWord 0x040200 = true ∧
    s.progWord (s.pc.toNat + 2) = some 0 ∧ decode 0x040200 0 = .ok (.goto 0x000100) := by decide +kernel

/-- The three clauses on the loop and the two on DISICNT: RA clear, RA set with RCOUNT 0, RA set with RCOUNT 1. -/
theorem test_wit_endOfStep :
    start.notes.didReset = false ∧ start.sr.ra = false ∧ start.notes.wroteDisicnt = false ∧
    start.noteDisicnt.notes.wroteDisicnt = true ∧
    { start with sr := { start.sr with ra := true } }.rcount = 0 ∧
    { start with sr := { start.sr with ra := true }, rcount := 1 }.rcount ≠ 0 ∧
    start.noteLoop.notes.wroteLoop = true ∧ (deviceReset .software start).notes.didReset = true := by decide +kernel

theorem test_inv_reset : Inv State.reset :=
  ⟨by decide +kernel, by decide +kernel, by decide +kernel, reset_ram_wf, reset_prog_wf, rfl⟩

theorem test_wit_invKept : Inv (atWord 0x200030 start) ∧ ∃ t, step (atWord 0x200030 start) = .next t :=
  ⟨⟨by decide +kernel, by decide +kernel, by decide +kernel, by decide +kernel, by decide +kernel, rfl⟩, _, rfl⟩

/-- RCOUNT at both ends of its range. -/
theorem test_wit_loopCount :
    let s := { atWord 0x000000 start with sr := { start.sr with ra := true }, rcount := 0x3FFF }
    calm s = true ∧ s.sr.ra = true ∧ s.progWord s.pc.toNat = some (0x00#8 ++ (0 : BitVec 16)) ∧
    calm { s with rcount := 0 } = true := by decide +kernel

/-- The state that `REPEAT #17` leaves before `DIV.SW W4, W3`. -/
def beforeDivide : State :=
  { atWord 0xD80203 (put 4 0xFF9C (put 3 7 start)) with sr := { start.sr with ra := true }, rcount := 17 }

theorem test_wit_divideRuns :
    (∃ w, beforeDivide.progWord beforeDivide.pc.toNat = some w ∧ isTwoWord w = false ∧ decode w 0 = .ok (.divSW 4 3)) ∧
    divideParts (.divSW 4 3) beforeDivide = some (.sw, 0xFFFFFF9C, 3) ∧
    divResult DivKind.sw.signed 0xFFFFFF9C (beforeDivide.reg 3) = some (0xFFF2, 0xFFFE) ∧
    calm beforeDivide = true ∧ beforeDivide.sr.ra = true ∧ beforeDivide.rcount = 17 ∧
    beforeDivide.divider.loop = .fresh :=
  ⟨⟨0xD80203, by decide +kernel, by decide +kernel, by decide +kernel⟩, by decide +kernel, by decide +kernel,
    by decide +kernel, by decide +kernel, by decide +kernel, by decide +kernel⟩

theorem test_wit_divideByZero :
    let s := { atWord 0xD80203 start with sr := { start.sr with ra := true }, rcount := 17 }
    s.progWord s.pc.toNat = some 0xD80203 ∧ divideParts (.divSW 4 3) s = some (.sw, 0, 3) ∧ s.reg 3 = 0 ∧
    calm s = true ∧ s.divider.loop = .fresh := by decide +kernel

/-- The file register forms at the ends of RAM and at a W register, in both sizes and destinations. -/
theorem test_wit_file :
    readable start .word (fileAddr 0x0800) = true ∧ fileReady .word .file 0x0800 start = true ∧
    readable start .byte (fileAddr 0x1FFF) = true ∧ fileReady .byte .file 0x1FFF start = true ∧
    readable start .word (fileAddr 0x001E) = true ∧ fileReady .word .wreg 0x0042 start = true ∧
    fileReady .word .file 0x0042 start = false ∧ writable start .word (fileAddr 0x0020) = true ∧
    readable start .word ((0x13FF : BitVec 15) ++ 0#1) = true ∧ writable start .word ((0x13FF : BitVec 15) ++ 0#1) = true ∧
    readable start .word ((0x1400 : BitVec 15) ++ 0#1) = false := by decide +kernel

/-- The offset forms at the largest and the smallest offset. -/
theorem test_wit_offset :
    let s := put 14 0x1000 start
    s.initialised 14 = true ∧ readable s .word (trunc16 (0x1000 + 2 * (0x1FF : BitVec 10).toInt)) = true ∧
    readable s .byte (trunc16 (0x1000 + (0x200 : BitVec 10).toInt)) = true ∧
    writable s .word (trunc16 (0x1000 + 2 * (0x200 : BitVec 10).toInt)) = true := by decide +kernel

/-- The two-operand forms: memory to memory, byte mode, an offset operand, and the two stack forms. -/
theorem test_wit_operands :
    let s := put 1 0x0900 (put 2 0x0004 (put 3 0xFFFE start))
    collides (.ptr .postInc 1) (.ptr .preDec 2) = false ∧ sourceReady .word (.ptr .postInc 1) s = true ∧
    destReady .word (.ptr .preDec 2) s = true ∧ notSr .word (.ptr .preDec 2) s = true ∧
    sourceReady .byte (.ptr .preInc 1) s = true ∧ sourceReady .word (.offset 1 3) s = true ∧
    collides (.reg 3) (.ptr .postInc 15) = false ∧ destReady .word (.ptr .postInc 15) s = true ∧
    collides (.ptr .preDec 15) (.reg 3) = false ∧ sourceReady .word (.ptr .preDec 15) s = true ∧
    sourceReady .byte (.ptr .postInc 15) s = false := by decide +kernel

theorem test_wit_double :
    let s := put 4 0x27FC start
    (Instr.movDLd 7 .direct 14).wellFormed = true ∧ (Instr.movDSt .direct 14 7).wellFormed = true ∧
    (4 : Reg) ≠ pairLow 0 ∧ (4 : Reg) ≠ pairHigh 0 ∧ s.initialised 4 = true ∧
    readable s .word (trunc16 (ptrAddr 4 .ind 0x27FC)) = true ∧
    readable s .word (trunc16 (ptrAddr 4 .ind 0x27FC + 2)) = true ∧ ramWord s 0x27FE = true ∧
    writable s .word (trunc16 (ptrAddr 4 .preDec 0x27FC)) = true ∧
    writable s .word (trunc16 (ptrAddr 4 .preDec 0x27FC + 2)) = true := by decide +kernel

/-- The stack forms at the lowest and the highest place of RAM. -/
theorem test_wit_stack :
    ramWord start (start.reg 15) = true ∧ ramWord start (start.reg 15 + 2) = true ∧
    ramWord (put 15 0x27FC start) (0x27FC + 2) = true ∧
    ramWord (put 15 0x0804 start) (0x0804 - 2) = true ∧ ramWord (put 15 0x0804 start) (0x0804 - 4) = true ∧
    ramWord (put 14 0x0802 start) ((0x0802 &&& 0xFFFE) - 2) = true ∧ start.pc.getLsbD 0 = false := by decide +kernel

theorem test_wit_retlw : (14 : Reg) ≠ 15 ∧ (0x0FF : BitVec 10).toNat ≤ 255 ∧ 255 < (0x100 : BitVec 10).toNat := by decide

theorem test_wit_bits :
    readable start .byte (fileAddr 0x0042) = true ∧ writable start .byte (fileAddr 0x0042) = true ∧
    sourceReady .byte (.ptr .postInc 1) (put 1 0x27FF start) = true ∧
    destReady .byte (.ptr .postInc 1) (put 1 0x27FF start) = true := by decide +kernel

theorem test_wit_mul :
    (Operand.ptr .postInc 1).modified ≠ some (pairLow (pairOfMul 6)) ∧
    (Operand.ptr .postInc 1).modified ≠ some (pairHigh (pairOfMul 6)) ∧
    sourceReady .word (.ptr .postInc 1) (put 1 0x27FE start) = true := by decide +kernel

theorem test_wit_divideParts :
    divideParts (.divSW 15 2) start = some (.sw, 0x00000800, 2) ∧ divideParts (.divSD 7 15) start = some (.sd, 0x08000000, 15) ∧
    divideParts (.divUW 15 2) start = some (.uw, 0x00000800, 2) ∧
    divideParts (.divUD 7 15) start = some (.ud, 0x08000000, 15) := by decide +kernel

/-- Counts at the boundary, 15 and 16, and a count whose low five bits are 0. -/
theorem test_wit_shiftCount :
    ((put 3 15 start).reg 3).toNat ≤ 15 ∧ 15 < ((put 3 16 start).reg 3).toNat ∧ 15 < ((put 3 32 start).reg 3).toNat := by
  decide +kernel

theorem test_wit_halt :
    { start with power := .sleep }.power ≠ .running ∧ start.pending = [] ∧ start.pendingTraps = .none ∧
    { start with pending := [{ source := 0, priority := 1 }] }.pending ≠ [] := by decide +kernel

theorem test_wit_table :
    let s := put 1 0xFFFF ({ start.loadProgWord 0x7FFFFE 0x123456 with tblpag := 0x7F })
    collides (.ptr .ind 1) (.reg 2) = false ∧ (1 : Reg) ≠ 15 ∧ s.initialised 1 = true ∧
    destReady .byte (.reg 2) s = true ∧ s.tblpag.getLsbD 7 = false ∧
    s.progWord (s.tblpag.toNat * 2 ^ 16 + 0xFFFF / 2 * 2) = some 0x123456 ∧ ((put 1 0xFFFE s).reg 1).getLsbD 0 = false ∧
    collides (.ptr .ind 15) (.reg 2) = false := by decide +kernel

/-- One pair of operands for each of the four collisions, a byte-mode modification of W15 as source and as destination, an SR
destination in each form, aligned and not, and an excluded target of one word and of two. -/
theorem test_wit_refused :
    operandsOf (.addWs .word 1 (.ptr .postInc) 2 (.ptr .postInc) 2) = some (.word, .ptr .postInc 2, .ptr .postInc 2) ∧
    (Operand.ptr .postInc 2).modified = some 2 ∧ (Operand.ptr .ind 2).addresses 2 = true ∧
    (Operand.offset 1 2).addresses 2 = true ∧ (2 : Reg) = pairLow 1 ∧ (3 : Reg) = pairHigh (pairOfMul 1) ∧
    collides (.ptr .postInc 15) (.reg 2) = false ∧ collides (.reg 2) (.ptr .postInc 15) = false ∧
    sourceReady .byte (.reg 2) start = true ∧ tableReady .byte .ind 1 start = true ∧
    collides (.ptr .ind 1) (modeOperand (.ptr .postInc) 15) = false ∧
    readable start .word (fileAddr 0x0042) = true ∧ coreRegAt start.device.sfr (fileAddr 0x0042) = some .sr ∧
    coreRegAt start.device.sfr (trunc16 (ptrAddr 2 .ind ((put 1 0x0042 start).reg 1))) = some .sr ∧
    coreRegAt start.device.sfr (trunc16 (ptrAddr 2 .ind ((put 1 0x0043 start).reg 1))) = some .sr ∧
    misaligned .word 0x0043 = true ∧ byteModifiesW15 2 (.ptr .ind 1) = false ∧ mayRepeat (.bra 0) = false ∧
    decode 0x370000 0 = .ok (.bra 0) ∧ isTwoWord 0x370000 = false ∧ isTwoWord 0x040200 = true ∧
    quiet { atWord 0x370000 start with sr := { start.sr with ra := true } } = true := by decide +kernel

/-- Every family has an instruction that runs in `start`, which the frame statements speak of. -/
theorem test_wit_frames :
    (∃ t, familyOf (.movLit16 3 0) = .move ∧ exec (.movLit16 3 0) start = .next t ∧ Ran t) ∧
    (∃ t, familyOf (.push 0 .direct 0) = .stack ∧ exec (.push 0 .direct 0) start = .next t ∧ Ran t) ∧
    (∃ t, familyOf (.addLit10 .word 1 0) = .alu ∧ exec (.addLit10 .word 1 0) start = .next t ∧ Ran t) ∧
    (∃ t, familyOf (.mulUULit 3 4 5) = .multiply ∧ exec (.mulUULit 3 4 5) start = .next t ∧ Ran t) ∧
    (∃ t, familyOf (.divSW 4 3) = .divide ∧ exec (.divSW 4 3) start = .next t ∧ Ran t) ∧
    (∃ t, familyOf (.slLit 1 2 4) = .shift ∧ exec (.slLit 1 2 4) start = .next t ∧ Ran t) ∧
    (∃ t, familyOf (.rcall 4) = .flow ∧ exec (.rcall 4) start = .next t ∧ Ran t) ∧
    (∃ t, familyOf (.repeatLit 17) = .loop ∧ exec (.repeatLit 17) start = .next t ∧ Ran t) ∧
    (∃ t, familyOf (.disi 5) = .system ∧ exec (.disi 5) start = .next t ∧ Ran t) ∧
    (∃ t, familyOf (.tblrdl .word .direct 2 .ind 1) = .table ∧
      exec (.tblrdl .word .direct 2 .ind 1) start = .next t ∧ Ran t) :=
  ⟨⟨_, rfl, rfl, rfl⟩, ⟨_, rfl, rfl, rfl⟩, ⟨_, rfl, rfl, rfl⟩, ⟨_, rfl, rfl, rfl⟩, ⟨_, rfl, rfl, rfl⟩,
    ⟨_, rfl, rfl, rfl⟩, ⟨_, rfl, rfl, rfl⟩, ⟨_, rfl, rfl, rfl⟩, ⟨_, rfl, rfl, rfl⟩, ⟨_, rfl, rfl, rfl⟩⟩

/-- `beforeDivide` on a device that gives a VECTOR. -/
def vectored : State :=
  { beforeDivide with device := { beforeDivide.device with vectors := [(.interrupt 0, 0x000400)] } }

/-- The frame of an interrupted loop, left where it was, and made anew at 0x0900. -/
theorem test_wit_returnUndoes :
    ∃ t, enter (.interrupt 0) 4 vectored = .ok t ∧
      (let h := put 15 0x0904 (poke 0x0900 0x0000 (poke 0x0902 0x1000 t))
       ramWord h (h.reg 15 - 2) = true ∧ ramWord h (h.reg 15 - 4) = true ∧ vectored.sr.ra = true ∧
       ramRead h .word (h.reg 15 - 4) = ramRead t .word (vectored.reg 15) ∧
       ramRead h .word (h.reg 15 - 2) = ramRead t .word (vectored.reg 15 + 2) ∧
       h.divider.suspended = [] ++ { suspendedLoop vectored with returned := false, stacked := true } :: [] ∧
       (∀ k : Fin 4, h.divider.originOf (.ram (h.reg 15 - 4 + BitVec.ofNat 16 k).toNat) = none) ∧
       h.reg 15 - 4 ≠ vectored.reg 15 ∧
       (∀ k : Fin 4,
         t.divider.originOf (.ram (vectored.reg 15 + BitVec.ofNat 16 k).toNat) = some (suspendedLoop vectored).id) ∧
       (let g := { t with divider := { t.divider with origins := [] } }
        g.reg 15 - 4 = vectored.reg 15 ∧ g.divider.suspended = [] ++ suspendedLoop vectored :: []) ∧
       t.divider = h.divider ∧ h.rcount = vectored.rcount ∧
       vectored.divider = { loop := .fresh, suspended := [], origins := [] } ∧
       t.reg 15 - 4 = vectored.reg 15 ∧ ramWord t (t.reg 15 - 2) = true ∧ ramWord t (t.reg 15 - 4) = true ∧
       vectored.pc.getLsbD 0 = false) :=
  ⟨_, rfl, by decide +kernel⟩

/-- The frame of an interrupted loop made anew elsewhere: with a byte of the frame of a loop at its PC that was returned into; and, W0
changed, with no byte of any frame and no loop that stands as it was. -/
theorem test_wit_returnUndoesAmong :
    ∃ t, enter (.interrupt 0) 4 vectored = .ok t ∧
      (let x := suspendedLoop vectored
       let y := { x with id := 7, scratch := { x.scratch with w0 := x.scratch.w0 + 1 }, returned := true }
       let h := put 15 0x0904 (poke 0x0900 0x0000 (poke 0x0902 0x1000 t))
       let h1 := { h with divider := { h.divider with suspended := [y] ++ x :: [], origins := [(.ram 0x0902, 7)] } }
       let h2 := put 0 (x.scratch.w0 + 2) { h with divider := { h.divider with suspended := [y] ++ x :: [] } }
       after .retfie h1 (fun u => (x.standsIn u, y.standsIn u, h1.divider.originOf (.ram 0x0902), u.divider.loop)) =
         some (true, false, some y.id, .fresh) ∧
       after .retfie h2 (fun u => (x.standsIn u, y.standsIn u, h2.divider.originOf (.ram 0x0902), u.divider.loop)) =
         some (false, false, none, .fresh) ∧
       x.returned = false ∧ y.returned = true ∧ x.waits h2 = true ∧ y.waits h2 = false) :=
  ⟨_, rfl, by decide +kernel⟩

/-- Where VECTOR gives a handler, and where it gives none. -/
theorem test_wit_vector :
    vectorOf vectored (.interrupt 0) = some 0x000400 ∧ ramWord vectored (vectored.reg 15) = true ∧
    ramWord vectored (vectored.reg 15 + 2) = true ∧ vectorOf start (.interrupt 0) = none := by decide +kernel

/-- The clauses on traps and on interrupts: each trap alone, a request above the level, one at the level, and one held back. -/
theorem test_wit_acceptance :
    bestRequest [{ source := 5, priority := 3 }, { source := 2, priority := 3 }] = some { source := 2, priority := 3 } ∧
    accepts start 1 = true ∧ accepts start 0 = false ∧ accepts { start with disicnt := 1 } 6 = false ∧
    accepts { start with disicnt := 1 } 7 = true ∧
    (start.raise .stackError).pendingTraps.highest = some .stackError ∧
    (start.raise .arithmeticError).pendingTraps.highest = some .arithmeticError ∧
    ((start.raise .addressError).raise .stackError).pendingTraps.highest = some .addressError ∧
    ((start.raise .addressError).raise .oscillatorFailure).pendingTraps.highest = some .oscillatorFailure := by
  decide +kernel

theorem test_wit_uninit :
    State.reset.initialised 1 = false ∧ collides (.ptr .postInc 1) (.reg 2) = false ∧
    operandsOf (.slWs .word .direct 2 (.ptr .postInc) 1) = some (.word, .ptr .postInc 1, .reg 2) ∧
    operandsOf (.addWs .word 0 (.ptr .ind) 1 .direct 2) = some (.word, .reg 2, .ptr .ind 1) ∧
    sourceReady .word (.reg 2) State.reset = true ∧ (Operand.ptr .ind 1).initialised State.reset = false ∧
    (Operand.offset 15 1).initialised State.reset = false ∧ familyOf (.addWs .word 0 (.ptr .ind) 1 .direct 2) ≠ .table ∧
    tableReady .word .ind 2 (put 2 0x0200 State.reset) = true ∧ (put 2 0x0200 State.reset).initialised 1 = false ∧
    collides (.ptr .ind 2) (.ptr .ind 1) = false ∧ (1 : Reg) ≠ pairLow 1 ∧ (1 : Reg) ≠ pairHigh 1 ∧
    (Operand.ptr .postInc 1).modified ≠ some (pairLow (pairOfMul 1)) := by decide +kernel

/-- The ends of RAM, and the addresses just outside it. -/
theorem test_wit_ram :
    ramWord start 0x0800 = true ∧ ramWord start 0x27FE = true ∧ regionOf start .byte 0x27FF = .ram ∧
    ramWord start 0x2800 = false ∧ regionOf start .byte 0x2800 = .unimplemented ∧
    regionOf start .byte 0xFFFF = .unimplemented ∧ regionOf start .byte 0x07FF = .peripheral := by decide +kernel

theorem test_wit_badAddresses :
    (0x0801 : Word).getLsbD 0 = true ∧ start.device.ramEnd.toNat < (0x2800 : Word).toNat + sizeBytes .word - 1 ∧
    start.corcon.psv = false ∧ quiet start = true ∧ start.progWord start.pc.toNat = none ∧
    coreRegAt start.device.sfr 0x002E = some .pcl ∧ coreRegAt start.device.sfr 0x0031 = some .pch ∧
    { start with pcOut := true }.power = .running := by decide +kernel

/-- The core registers are at the addresses of R23, and elsewhere where SFR_ADDR says so. -/
theorem test_wit_coreRegisters :
    coreRegAt start.device.sfr 0x0000 = some (.w 0) ∧ coreRegAt start.device.sfr 0x001E = some (.w 15) ∧
    coreRegAt start.device.sfr 0x0020 = some .splim ∧ coreRegAt start.device.sfr 0x0032 = some .tblpag ∧
    coreRegAt start.device.sfr 0x0034 = some .psvpag ∧ coreRegAt start.device.sfr 0x0036 = some .rcount ∧
    coreRegAt start.device.sfr 0x0042 = some .sr ∧ coreRegAt start.device.sfr 0x0044 = some .corcon ∧
    coreRegAt start.device.sfr 0x0052 = some .disicnt ∧ coreRegAt start.device.sfr 0x0054 = none ∧
    coreRegAt { defaultSfr with sr := 0x3FF } 0x07FE = some .sr ∧ coreRegAt { defaultSfr with sr := 0x3FF } 0x0042 = none := by
  decide +kernel

theorem test_wit_psv :
    let s := { start.loadProgWord 0x557FFE 0x00BEEF with psvpag := 0xAA, corcon := { ipl3 := false, psv := true } }
    s.corcon.psv = true ∧ 0x8000 ≤ (0xFFFE : Word).toNat ∧
    s.progWord (s.psvpag.toNat * 2 ^ 15 + (0xFFFE : Word).toNat % 2 ^ 15 / 2 * 2) = some 0x00BEEF ∧
    (0xFFFE : Word).getLsbD 0 = false := by decide +kernel

end Sys2Proof.Tests
end

section
/-! SUPPORT. What every step keeps (O8, O9, O58): one relation between the state an operation begins in and the one it leaves, proved once
for each shared operation, then for each instruction, then for the step. -/

namespace Sys2Proof.Machine

/-! ## The relation -/

/-- Which of the guarded bits a part of a step may change against the rules that hold of every other: the shadow registers (R56), RA
from 0 to 1 (R39), IPL3 from 0 to 1 (R45), and IPL while NSTDIS = 1 (R40). -/
structure Waiver where
  shadow : Bool := false
  ra : Bool := false
  ipl3 : Bool := false
  ipl : Bool := false

/-- What any part of a step that is no device reset keeps, the waived bits apart: program memory and what the device fixes, the
hard-wired zero bits, the canonical form of RAM, the sticky bits and the guarded bits. -/
structure Evolves (x : Waiver) (s t : State) : Prop where
  prog : t.prog = s.prog
  device : t.device = s.device
  nstdis : t.nstdis = s.nstdis
  w15_even : (s.reg 15).getLsbD 0 = false → (t.reg 15).getLsbD 0 = false
  splim_even : s.splim.getLsbD 0 = false → t.splim.getLsbD 0 = false
  pc_even : s.pc.getLsbD 0 = false → t.pc.getLsbD 0 = false
  ram_wf : Memory.wf s.device.ramEnd s.ram → Memory.wf t.device.ramEnd t.ram
  splimEn : s.splimEn = true → t.splimEn = true
  initialised : ∀ r, s.initialised r = true → t.initialised r = true
  shadow : x.shadow = false → t.shadow = s.shadow
  ra : x.ra = false → s.sr.ra = false → t.sr.ra = false
  ipl3 : x.ipl3 = false → s.corcon.ipl3 = false → t.corcon.ipl3 = false
  ipl : x.ipl = false → s.nstdis = true → t.sr.ipl = s.sr.ipl

namespace Evolves

variable {x : Waiver} {s u t : State}

theorem refl (s : State) : Evolves x s s :=
  ⟨rfl, rfl, rfl, id, id, id, id, id, fun _ => id, fun _ => rfl, fun _ => id, fun _ => id, fun _ _ => rfl⟩

theorem trans (h : Evolves x s u) (k : Evolves x u t) : Evolves x s t where
  prog := k.prog.trans h.prog
  device := k.device.trans h.device
  nstdis := k.nstdis.trans h.nstdis
  w15_even := k.w15_even ∘ h.w15_even
  splim_even := k.splim_even ∘ h.splim_even
  pc_even := k.pc_even ∘ h.pc_even
  ram_wf := k.ram_wf ∘ h.ram_wf
  splimEn := k.splimEn ∘ h.splimEn
  initialised r := k.initialised r ∘ h.initialised r
  shadow hx := (k.shadow hx).trans (h.shadow hx)
  ra hx := k.ra hx ∘ h.ra hx
  ipl3 hx := k.ipl3 hx ∘ h.ipl3 hx
  ipl hx hn := (k.ipl hx (h.nstdis.trans hn)).trans (h.ipl hx hn)

/-- A change of what the relation does not speak of: the ALU flags, the page registers, RCOUNT and DISICNT, pending conditions, power,
the peripheral record, the divider, the free values, the notes, and whether the PC has left its range. -/
theorem of_rest (h : t = { s with
    sr := { t.sr with ra := s.sr.ra, ipl := s.sr.ipl }
    pcOut := t.pcOut, splimJustWritten := t.splimJustWritten, tblpag := t.tblpag, psvpag := t.psvpag, rcount := t.rcount
    disicnt := t.disicnt, pendingTraps := t.pendingTraps, pending := t.pending, power := t.power
    periphWrites := t.periphWrites, divider := t.divider, free := t.free, notes := t.notes }) : Evolves x s t := by
  rw [h]
  exact ⟨rfl, rfl, rfl, id, id, id, id, id, fun _ => id, fun _ => rfl, fun _ => id, fun _ => id, fun _ _ => rfl⟩

/-! ## Registers and the PC -/

theorem setReg (s : State) (r : Reg) (v : Word) : Evolves x s (s.setReg r v) := by
  refine { refl s with w15_even := fun h => ?_ }
  rw [State.setReg_reg]
  split
  · next e => subst e; exact fixReg_even v
  · exact h

theorem markInit (s : State) (r : Reg) : Evolves x s (s.markInit r) := by
  refine { refl s with initialised := fun q h => ?_ }
  rw [State.markInit_initialised]
  split
  · rfl
  · exact h

theorem writeReg (s : State) (r : Reg) (v : Word) : Evolves x s (s.writeReg r v) := (setReg s r v).trans (markInit _ r)

theorem writeRegSized (s : State) (b : Size) (r : Reg) (v : Word) : Evolves x s (s.writeRegSized b r v) := by
  cases b
  · exact writeReg s r v
  · exact setReg s r _

theorem writeTwo (s : State) (r q : Reg) (v w : Word) : Evolves x s (s.writeTwo r q v w) :=
  (writeReg s r v).trans (writeReg _ q w)

/-- PC<0> is 0 wherever a jump or an increment leads (R30). -/
theorem goto (s : State) (a : Int) : Evolves x s (s.goto a) := { refl s with pc_even := fun _ => by simp [State.goto] }

theorem advance (s : State) : Evolves x s s.advance := goto s _

theorem setPc (s : State) (a : ProgAddr) : Evolves x s (s.setPc a) := { refl s with pc_even := fun _ => by simp [State.setPc] }

theorem skipIfClear (bit : Bool) (s : State) : Evolves x s (Machine.skipIfClear bit s) := goto s _

theorem branchIf (cond : Cond) (n : BitVec 16) (s : State) : Evolves x s (Machine.branchIf cond n s) := by
  unfold Machine.branchIf
  split
  · exact goto s _
  · exact advance s

theorem modifyPtr (step : Nat) (p : PtrMode) (r : Reg) (base : Word) (s : State) :
    Evolves x s (Machine.modifyPtr step p r base s) := by
  cases p
  · exact refl s
  all_goals exact setReg s r _

/-! ## Data memory -/

theorem touch (s : State) (e : Bool) (n k : Nat) : Evolves x s (s.touch e n k) := of_rest rfl

theorem memRead {b : Size} {a v : Word} (h : Machine.memRead b a s = .ok (v, t)) : Evolves x s t := by
  obtain ⟨n, k, rfl⟩ := memRead_ok h
  exact touch s _ n k

/-- SPLIM<0> is fixed to 0, and SplimEn is set or kept (R50, R51). -/
theorem setSplim (s : State) (v : Word) {e : Bool} (he : s.splimEn = true → e = true) :
    Evolves x s { s with splim := v &&& 0xFFFE, splimEn := e } :=
  { refl s with splim_even := fun _ => by simp, splimEn := he }

/-- A data write of SR leaves RA, and IPL while NSTDIS = 1 (R42). -/
theorem setSr (h : t = { s with sr := t.sr, notes := t.notes }) (hra : t.sr.ra = s.sr.ra)
    (hipl : s.nstdis = true → t.sr.ipl = s.sr.ipl) : Evolves x s t := by
  have hsr : Evolves x s { s with sr := t.sr, notes := t.notes } :=
    { refl s with ra := fun _ hs => hra.trans hs, ipl := fun _ => hipl }
  rwa [← h] at hsr

/-- A data write of CORCON can only clear IPL3 (R45). -/
theorem writeCorcon (s : State) (v : Byte) : Evolves x s { s with corcon := writeCorconLow v s.corcon } :=
  { refl s with ipl3 := fun _ h => by simp [writeCorconLow, h] }

theorem coreWriteWord {c : CoreReg} {v : Word} (h : Machine.coreWriteWord c v s = .ok t) : Evolves x s t := by
  cases c with
  | w r => cases h; exact writeReg s r v
  | splim => cases h; exact (setSplim s v fun _ => rfl).trans (of_rest rfl)
  | pcl | pch => cases h
  | tblpag | psvpag | rcount | disicnt => cases h; exact of_rest rfl
  | sr => cases h; exact setSr rfl rfl fun hn => by simp [writeSrh, writeSrl, hn]
  | corcon => cases h; exact writeCorcon s _

theorem coreWriteByte {hi : Bool} {c : CoreReg} {v : Byte} (h : Machine.coreWriteByte hi c v s = .ok t) :
    Evolves x s t := by
  cases c with
  | w r => cases h; cases hi <;> exact setReg s r _
  | splim => cases h; exact (setSplim s _ id).trans (of_rest rfl)
  | pcl | pch => cases h
  | tblpag | psvpag => cases h; cases hi <;> exact of_rest rfl
  | rcount | disicnt => cases h; exact of_rest rfl
  | sr =>
    cases h
    cases hi
    · exact setSr rfl rfl fun hn => by simp [writeSrl, hn]
    · exact of_rest rfl
  | corcon =>
    cases h
    cases hi
    · exact writeCorcon s v
    · exact refl s

theorem memWrite {b : Size} {a v : Word} (h : Machine.memWrite b a v s = .ok t) : Evolves x s t := by
  rcases (memWrite_ok h).2 with ⟨c, -, -, hc⟩ | ⟨hr, rfl⟩ | ⟨-, rfl⟩
  · cases b
    · exact coreWriteWord hc
    · exact coreWriteByte hc
  · have hw : Memory.wf s.device.ramEnd s.ram → _ := fun hs => ramWrite_wf v hs hr
    cases b <;> exact { refl s with ram_wf := hw }
  · exact of_rest rfl

theorem readPlace {b : Size} {p : Place} {v : Word} (h : Machine.readPlace b p s = .ok (v, t)) : Evolves x s t := by
  cases p with
  | reg r => cases h; exact refl s
  | mem a => exact memRead h

theorem writePlace {b : Size} {p : Place} {v : Word} (h : Machine.writePlace b p v s = .ok t) : Evolves x s t := by
  cases p with
  | reg r => cases h; exact writeRegSized s b r v
  | mem a => exact memWrite h

/-! ## The stack and the operands -/

theorem stackCheckIf (r : Reg) (isRead : Bool) (a : Int) (s : State) : Evolves x s (Machine.stackCheckIf r isRead a s) := by
  obtain ⟨v, n, he, -⟩ := stackCheckIf_eq r isRead a s
  rw [he]
  exact touch s v n _

theorem push16 {v : Word} (h : Machine.push16 v s = .ok t) : Evolves x s t := by
  obtain ⟨e, n, hw, -⟩ := push16_ok h
  exact ((setReg s 15 _).trans (touch _ e n _)).trans (memWrite hw)

theorem pop16 {v : Word} (h : Machine.pop16 s = .ok (v, t)) : Evolves x s t := by
  obtain ⟨e, n, k, rfl, -⟩ := pop16_ok h
  exact (setReg s 15 _).trans (touch _ e n k)

theorem pushPc {a : ProgAddr} (h : Machine.pushPc a s = .ok t) : Evolves x s t := by
  obtain ⟨s1, h1, h2⟩ := pushPc_ok h
  exact (push16 h1).trans (push16 h2)

theorem popPc {a : ProgAddr} (h : Machine.popPc s = .ok (a, t)) : Evolves x s t := by
  obtain ⟨hi, lo, s1, h1, h2, -⟩ := popPc_ok h
  exact (pop16 h1).trans (pop16 h2)

theorem ea {step : Nat} {isRead : Bool} {o : Operand} {p : Place} (h : Machine.ea step isRead o s = .ok (p, t)) :
    Evolves x s t := by
  obtain ⟨-, -, e, n, -, -, h⟩ := ea_ok h
  cases o with
  | reg r => rw [h.2]; exact refl s
  | ptr m r => rw [h.2]; exact (modifyPtr step m r _ s).trans (touch _ e n _)
  | offset r q => rw [h.2]; exact touch s e n _

theorem eaSlit10 {b : Size} {isRead : Bool} {k : BitVec 10} {r : Reg} {a : Int}
    (h : Machine.eaSlit10 b isRead k r s = .ok (a, t)) : Evolves x s t := by
  obtain ⟨base, -, h⟩ := bind_ok h
  cases h
  exact stackCheckIf r isRead _ s

theorem srcVal {b : Size} {o : Operand} {v : Word} (h : Machine.srcVal b o s = .ok (v, t)) : Evolves x s t := by
  obtain ⟨⟨p, u⟩, h1, h2⟩ := bind_ok h
  exact (ea h1).trans (readPlace h2)

theorem dstWrite {b : Size} {o : Operand} {v : Word} (h : Machine.dstWrite b o v s = .ok t) : Evolves x s t := by
  obtain ⟨⟨p, u⟩, h1, h2⟩ := bind_ok h
  exact (ea h1).trans (writePlace h2)

theorem dstWriteFlagged {b : Size} {o : Operand} {v : Word} (h : Machine.dstWriteFlagged b o v s = .ok t) :
    Evolves x s t := by
  obtain ⟨⟨p, u⟩, h1, h2⟩ := bind_ok h
  obtain ⟨_, -, h3⟩ := bind_ok h2
  exact (ea h1).trans (writePlace h3)

theorem fileWriteFlagged {b : Size} {d : Dest} {f : BitVec 13} {v : Word}
    (h : Machine.fileWriteFlagged b d f v s = .ok t) : Evolves x s t := by
  cases d with
  | wreg => cases h; exact writeRegSized s b 0 v
  | file =>
    obtain ⟨_, -, h2⟩ := bind_ok h
    exact memWrite h2

theorem readDouble {r : Reg} {a : Int} {lo hi : Word} (h : Machine.readDouble r a s = .ok (lo, hi, t)) : Evolves x s t := by
  obtain ⟨⟨l, s1⟩, h1, h⟩ := bind_ok h
  obtain ⟨⟨g, s2⟩, h2, h⟩ := bind_ok h
  cases h
  exact ((memRead h1).trans (stackCheckIf r true _ s1)).trans (memRead h2)

theorem writeDouble {r : Reg} {a : Int} {lo hi : Word} (h : Machine.writeDouble r a lo hi s = .ok t) : Evolves x s t := by
  obtain ⟨s1, h1, h2⟩ := bind_ok h
  exact ((memWrite h1).trans (stackCheckIf r false _ s1)).trans (memWrite h2)

theorem tblWord {b : Size} {p : PtrMode} {r : Reg} {w : ProgWord} {a : Word} (h : Machine.tblWord b p r s = .ok (w, a, t)) :
    Evolves x s t := by
  obtain ⟨_, -, h⟩ := bind_ok h
  obtain ⟨base, -, h⟩ := bind_ok h
  obtain ⟨_, -, h⟩ := bind_ok h
  have hm : Evolves x s (Machine.modifyPtr (sizeBytes b) p r base s) := modifyPtr _ p r base s
  cases hb : s.tblpag.getLsbD 7 with
  | true =>
    simp only [hb, if_true] at h
    cases h
    exact hm.trans (of_rest rfl)
  | false =>
    simp only [hb, Bool.false_eq_true, if_false] at h
    obtain ⟨w', n, he⟩ := progRead_eq (tblProgAddr s (trunc16 (ptrAddr (sizeBytes b) p base)))
      (Machine.modifyPtr (sizeBytes b) p r base s)
    rw [he] at h
    cases h
    exact hm.trans (touch _ _ n _)

/-! ## Flags, multiplies, divides and shifts -/

theorem setAddFlags (s : State) (a : AddResult) : Evolves x s (s.setAddFlags a) := of_rest rfl
theorem setNZ (s : State) (n z : Bool) : Evolves x s (s.setNZ n z) := of_rest rfl
theorem setShiftFlags (s : State) (a : ShiftResult) : Evolves x s (s.setShiftFlags a) := of_rest rfl
theorem setLoop (s : State) (l : LoopDivide) : Evolves x s (s.setLoop l) := of_rest rfl
theorem freeDivFlags (s : State) : Evolves x s s.freeDivFlags := of_rest rfl

theorem freeDivResult (s : State) : Evolves x s s.freeDivResult :=
  have hd : Evolves x s s.drawWord.2.drawWord.2 := of_rest rfl
  (hd.trans (writeTwo _ 0 1 _ _)).trans (freeDivFlags _)

theorem improperDivide (s : State) : Evolves x s (Machine.improperDivide s) := (freeDivResult s).trans (setLoop _ _)

theorem testDivisor (rn : Reg) (s : State) : Evolves x s (Machine.testDivisor rn s) := by
  unfold Machine.testDivisor
  split
  · exact of_rest rfl
  · exact refl s

theorem divLater (e : DivEntry) (kind : DivKind) (rn : Reg) (s : State) : Evolves x s (Machine.divLater e kind rn s) := by
  unfold Machine.divLater
  split
  · split
    · exact ((writeTwo s 0 1 _ _).trans (freeDivFlags _)).trans (setLoop _ _)
    · exact (freeDivResult s).trans (setLoop _ _)
  · exact (freeDivResult s).trans (setLoop _ _)

theorem divIteration (kind : DivKind) (d : BitVec 32) (rn : Reg) (s : State) :
    Evolves x s (Machine.divIteration kind d rn s) := by
  have ht : Evolves x s (Machine.testDivisor rn s) := testDivisor rn s
  have himp := ht.trans (improperDivide _)
  unfold Machine.divIteration
  split
  · exact improperDivide s
  · dsimp only
    split
    · exact himp
    · split
      · exact ht.trans ((freeDivResult _).trans (setLoop _ _))
      · exact himp
    · split
      · exact ht.trans (divLater _ kind rn _)
      · exact himp

theorem mulOperand {p q : Bool} {rb : Reg} {d : MulPair} {o : Operand} (h : Machine.mulOperand p q rb d o s = .ok t) :
    Evolves x s t := by
  obtain ⟨_, -, h⟩ := bind_ok h
  obtain ⟨⟨y, s1⟩, h1, h⟩ := bind_ok h
  cases h
  exact ((srcVal h1).trans (writeTwo s1 _ _ _ _)).trans (advance _)

theorem mulLiteral (p : Bool) (rb : Reg) (d : MulPair) (k : BitVec 5) (s : State) :
    Evolves x s (Machine.mulLiteral p rb d k s) := (writeTwo s _ _ _ _).trans (advance _)

theorem shiftFile {op : ShiftOp} {b : Size} {d : Dest} {f : BitVec 13} (h : Machine.shiftFile op b d f s = .ok t) :
    Evolves x s t := by
  obtain ⟨⟨v, s1⟩, h1, h⟩ := bind_ok h
  obtain ⟨s2, h2, h⟩ := bind_ok h
  cases h
  exact (((memRead h1).trans (fileWriteFlagged h2)).trans (setShiftFlags s2 _)).trans (advance _)

theorem shiftOne {op : ShiftOp} {b : Size} {src dst : Operand} (h : Machine.shiftOne op b src dst s = .ok t) :
    Evolves x s t := by
  obtain ⟨_, -, h⟩ := bind_ok h
  obtain ⟨⟨v, s1⟩, h1, h⟩ := bind_ok h
  obtain ⟨s2, h2, h⟩ := bind_ok h
  cases h
  exact (((srcVal h1).trans (dstWriteFlagged h2)).trans (setShiftFlags s2 _)).trans (advance _)

theorem shiftMany (op : ShiftOp) (v : Word) (k : BitVec 4) (rd : Reg) (s : State) :
    Evolves x s (Machine.shiftMany op v k rd s) := ((writeReg s rd _).trans (setNZ _ _ _)).trans (advance _)

theorem shiftByReg {op : ShiftOp} {rb rd rs : Reg} (h : Machine.shiftByReg op rb rd rs s = .ok t) : Evolves x s t := by
  obtain ⟨_, -, h⟩ := bind_ok h
  cases h
  exact shiftMany op _ _ rd s

theorem moveBetween {b : Size} {src dst : Operand} (h : Machine.moveBetween b src dst s = .ok t) : Evolves x s t := by
  obtain ⟨_, -, h⟩ := bind_ok h
  obtain ⟨⟨v, s1⟩, h1, h⟩ := bind_ok h
  obtain ⟨s2, h2, h⟩ := bind_ok h
  cases h
  exact ((srcVal h1).trans (dstWrite h2)).trans (advance s2)

theorem tableRead {pick : Size → Word → ProgWord → Word} {b : Size} {p : PtrMode} {rs : Reg} {dst : Operand}
    (h : Machine.tableRead pick b p rs dst s = .ok t) : Evolves x s t := by
  obtain ⟨_, -, h⟩ := bind_ok h
  obtain ⟨⟨w, a, s1⟩, h1, h⟩ := bind_ok h
  obtain ⟨s2, h2, h⟩ := bind_ok h
  cases h
  exact ((tblWord h1).trans (dstWrite h2)).trans (advance s2)

/-! ## Exceptions and loops: where a waiver is needed -/

/-- A new loop may set RA, and no more (R250). -/
theorem startLoop (hx : x.ra = true) (k : BitVec 14) (s : State) : Evolves x s (Machine.startLoop k s) :=
  have hset : Evolves x s { s with rcount := k, sr := { s.sr with ra := if k = 0 then s.sr.ra else true } } :=
    { refl s with ra := fun h => by simp [hx] at h }
  (hset.trans (setLoop _ _)).trans (advance _)

/-- A return from an exception restores SRL and IPL3, and no more of what is guarded (R236). -/
theorem returnFromException (hra : x.ra = true) (hipl3 : x.ipl3 = true) (hipl : x.ipl = true)
    (h : Machine.returnFromException s = .ok t) : Evolves x s t := by
  obtain ⟨hi, lo, s1, s2, h1, h2, s3, rfl, rfl⟩ := returnFromException_ok h
  have hrestore : Evolves x s2 { s2 with
      sr := restoreSrl (highByte hi) s2.sr, corcon := { s2.corcon with ipl3 := hi.getLsbD 7 } } :=
    { refl s2 with ra := by simp [hra], ipl3 := by simp [hipl3], ipl := by simp [hipl] }
  exact (((pop16 h1).trans (pop16 h2)).trans hrestore).trans ((setPc _ _).trans (of_rest rfl))

/-- Taking an exception clears RA and raises IPL; a trap alone sets IPL3 (R305). -/
theorem enter {e : ExcSource} {p : BitVec 3} (hipl : x.ipl = true) (hipl3 : x.ipl3 = true ∨ ∃ n, e = .interrupt n)
    (h : Machine.enter e p s = .ok t) : Evolves x s t := by
  obtain ⟨handler, s1, s2, -, h1, h2, rfl⟩ := enter_ok h
  have hclear : Evolves x s2 { s2 with
      sr := { s2.sr with ra := false }, splimJustWritten := false, notes := .empty, divider := dividerInterrupted s } :=
    { refl s2 with ra := fun _ _ => rfl }
  refine (((push16 h1).trans (push16 h2)).trans hclear).trans (.trans ?_ (setPc _ handler))
  cases e with
  | interrupt n => exact { refl _ with ipl := by simp [hipl] }
  | trap c =>
    have hx : x.ipl3 = true := by simpa using hipl3
    exact { refl _ with ipl3 := by simp [hx], ipl := by simp [hipl] }

end Evolves
end Sys2Proof.Machine
end

section
/-! SUPPORT. What every instruction keeps, one lemma for each meaning that is written out, and what every step keeps. -/

namespace Sys2Proof.Machine

/-! ## Instructions -/

/-- Where an instruction that began in `s` can end: it stops, it resets the device, or it evolves the state. -/
def Lands (x : Waiver) (s : State) (o : Outcome) : Prop :=
  ∀ t, o = .next t → (∃ c, t = deviceReset c s) ∨ Evolves x s t

namespace Lands

variable {x : Waiver} {s : State}

theorem finish {r : Res State} (h : ∀ t, r = .ok t → Evolves x s t) : Lands x s (Machine.finish s r) := by
  intro t ht
  cases r with
  | ok u => cases ht; exact .inr (h _ rfl)
  | error e =>
    cases e with
    | reset c => cases ht; exact .inl ⟨c, rfl⟩
    | fault f => cases ht
    | refuse q => cases ht

theorem done {t : State} (h : Evolves x s t) : Lands x s (Machine.finish s (.ok t)) := by
  rintro u ⟨⟩
  exact .inr h

theorem refused (q : Refusal) : Lands x s (.refused q) := fun _ h => by cases h

theorem execMovF (b : Size) (d : Dest) (f : BitVec 13) : Lands x s (Machine.execMovF b d f s) := by
  refine finish fun t h => ?_
  obtain ⟨⟨v, s1⟩, h1, h⟩ := bind_ok h
  obtain ⟨s2, h2, h⟩ := bind_ok h
  cases h
  exact (((Evolves.memRead h1).trans (.fileWriteFlagged h2)).trans (.setNZ s2 _ _)).trans (.advance _)

theorem execMovWregF (b : Size) (f : BitVec 13) : Lands x s (Machine.execMovWregF b f s) := by
  refine finish fun t h => ?_
  obtain ⟨s1, h1, h⟩ := bind_ok h
  cases h
  exact (Evolves.memWrite h1).trans (.advance s1)

theorem execMovFWnd (f : BitVec 15) (rd : Reg) : Lands x s (Machine.execMovFWnd f rd s) := by
  refine finish fun t h => ?_
  obtain ⟨⟨v, s1⟩, h1, h⟩ := bind_ok h
  cases h
  exact ((Evolves.memRead h1).trans (.writeReg s1 rd v)).trans (.advance _)

theorem execMovWnsF (f : BitVec 15) (rs : Reg) : Lands x s (Machine.execMovWnsF f rs s) := by
  refine finish fun t h => ?_
  obtain ⟨s1, h1, h⟩ := bind_ok h
  cases h
  exact (Evolves.memWrite h1).trans (.advance s1)

theorem execMovOffLd (b : Size) (k : BitVec 10) (rd rs : Reg) : Lands x s (Machine.execMovOffLd b k rd rs s) := by
  refine finish fun t h => ?_
  obtain ⟨⟨a, s1⟩, h1, h⟩ := bind_ok h
  obtain ⟨⟨v, s2⟩, h2, h⟩ := bind_ok h
  cases h
  exact (((Evolves.eaSlit10 h1).trans (.memRead h2)).trans (.writeRegSized s2 b rd v)).trans (.advance _)

theorem execMovOffSt (b : Size) (k : BitVec 10) (rd rs : Reg) : Lands x s (Machine.execMovOffSt b k rd rs s) := by
  refine finish fun t h => ?_
  obtain ⟨⟨a, s1⟩, h1, h⟩ := bind_ok h
  obtain ⟨s2, h2, h⟩ := bind_ok h
  cases h
  exact ((Evolves.eaSlit10 h1).trans (.memWrite h2)).trans (.advance s2)

theorem execMovDLd (rd : Pair) (p : Mode) (rs : Reg) : Lands x s (Machine.execMovDLd rd p rs s) := by
  refine finish fun t h => ?_
  obtain ⟨_, -, h⟩ := bind_ok h
  obtain ⟨⟨place, s1⟩, h1, h⟩ := bind_ok h
  cases place with
  | reg r => cases h; exact ((Evolves.ea h1).trans (.writeTwo s1 _ _ _ _)).trans (.advance _)
  | mem a =>
    obtain ⟨⟨lo, hi, s2⟩, h2, h⟩ := bind_ok h
    cases h
    exact (((Evolves.ea h1).trans (.readDouble h2)).trans (.writeTwo s2 _ _ _ _)).trans (.advance _)

theorem execMovDSt (q : Mode) (rd : Reg) (rs : Pair) : Lands x s (Machine.execMovDSt q rd rs s) := by
  refine finish fun t h => ?_
  obtain ⟨⟨place, s1⟩, h1, h⟩ := bind_ok h
  cases place with
  | reg r => cases h; exact ((Evolves.ea h1).trans (.writeTwo s1 _ _ _ _)).trans (.advance _)
  | mem a =>
    obtain ⟨s2, h2, h⟩ := bind_ok h
    cases h
    exact ((Evolves.ea h1).trans (.writeDouble h2)).trans (.advance s2)

/-- `PUSH.S` alone changes the shadow registers (R154, R56). -/
theorem execPushS (hx : x.shadow = true) : Lands x s (Machine.execPushS s) := by
  refine done (Evolves.trans ?_ (.advance _))
  exact { Evolves.refl s with shadow := fun h => by simp [hx] at h }

theorem execPopS : Lands x s (Machine.execPopS s) :=
  have hregs := ((((Evolves.writeReg (x := x) s 0 s.shadow.w0).trans (.writeReg _ 1 s.shadow.w1)).trans
    (.writeReg _ 2 s.shadow.w2)).trans (.writeReg _ 3 s.shadow.w3))
  done ((hregs.trans (.of_rest rfl)).trans (.advance _))

theorem execLnk (k : BitVec 13) : Lands x s (Machine.execLnk k s) := by
  refine finish fun t h => ?_
  obtain ⟨s1, h1, h⟩ := bind_ok h
  cases h
  exact (((Evolves.push16 h1).trans (.writeReg s1 14 _)).trans (.writeReg _ 15 _)).trans (.advance _)

theorem execUlnk : Lands x s (Machine.execUlnk s) := by
  refine finish fun t h => ?_
  obtain ⟨⟨v, s1⟩, h1, h⟩ := bind_ok h
  cases h
  exact (((Evolves.writeReg s 15 _).trans (.pop16 h1)).trans (.writeReg s1 14 v)).trans (.advance _)

theorem execAddF (b : Size) (d : Dest) (f : BitVec 13) : Lands x s (Machine.execAddF b d f s) := by
  refine finish fun t h => ?_
  obtain ⟨⟨v, s1⟩, h1, h⟩ := bind_ok h
  obtain ⟨s2, h2, h⟩ := bind_ok h
  cases h
  exact (((Evolves.memRead h1).trans (.fileWriteFlagged h2)).trans (.setAddFlags s2 _)).trans (.advance _)

theorem execAddLit10 (b : Size) (k : BitVec 10) (rd : Reg) : Lands x s (Machine.execAddLit10 b k rd s) := by
  refine finish fun t h => ?_
  obtain ⟨_, -, h⟩ := bind_ok h
  cases h
  exact ((Evolves.writeRegSized s b rd _).trans (.setAddFlags _ _)).trans (.advance _)

theorem execAddLit5 (b : Size) (rb : Reg) (q : Mode) (rd : Reg) (k : BitVec 5) :
    Lands x s (Machine.execAddLit5 b rb q rd k s) := by
  refine finish fun t h => ?_
  obtain ⟨s1, h1, h⟩ := bind_ok h
  cases h
  exact ((Evolves.dstWriteFlagged h1).trans (.setAddFlags s1 _)).trans (.advance _)

theorem execAddWs (b : Size) (rb : Reg) (q : Mode) (rd : Reg) (p : Mode) (rs : Reg) :
    Lands x s (Machine.execAddWs b rb q rd p rs s) := by
  refine finish fun t h => ?_
  obtain ⟨_, -, h⟩ := bind_ok h
  obtain ⟨⟨y, s1⟩, h1, h⟩ := bind_ok h
  obtain ⟨s2, h2, h⟩ := bind_ok h
  cases h
  exact (((Evolves.srcVal h1).trans (.dstWriteFlagged h2)).trans (.setAddFlags s2 _)).trans (.advance _)

theorem execBsetF (j : BitVec 3) (f : BitVec 13) : Lands x s (Machine.execBsetF j f s) := by
  refine finish fun t h => ?_
  obtain ⟨⟨v, s1⟩, h1, h⟩ := bind_ok h
  obtain ⟨s2, h2, h⟩ := bind_ok h
  cases h
  exact ((Evolves.memRead h1).trans (.memWrite h2)).trans (.advance s2)

theorem execBsetWs (j : BitVec 4) (b : Size) (p : Mode) (rs : Reg) : Lands x s (Machine.execBsetWs j b p rs s) := by
  refine finish fun t h => ?_
  obtain ⟨⟨place, s1⟩, h1, h⟩ := bind_ok h
  obtain ⟨⟨v, s2⟩, h2, h⟩ := bind_ok h
  obtain ⟨s3, h3, h⟩ := bind_ok h
  cases h
  exact (((Evolves.ea h1).trans (.readPlace h2)).trans (.writePlace h3)).trans (.advance s3)

theorem execBtscF (j : BitVec 3) (f : BitVec 13) : Lands x s (Machine.execBtscF j f s) := by
  refine finish fun t h => ?_
  obtain ⟨⟨v, s1⟩, h1, h⟩ := bind_ok h
  cases h
  exact (Evolves.memRead h1).trans (.skipIfClear _ s1)

theorem execBtscWs (j : BitVec 4) (p : Mode) (rs : Reg) : Lands x s (Machine.execBtscWs j p rs s) := by
  refine finish fun t h => ?_
  obtain ⟨⟨v, s1⟩, h1, h⟩ := bind_ok h
  cases h
  exact (Evolves.srcVal h1).trans (.skipIfClear _ s1)

theorem execMulF (b : Size) (f : BitVec 13) : Lands x s (Machine.execMulF b f s) := by
  refine finish fun t h => ?_
  obtain ⟨⟨y, s1⟩, h1, h⟩ := bind_ok h
  cases b with
  | word => cases h; exact ((Evolves.memRead h1).trans (.writeTwo s1 _ _ _ _)).trans (.advance _)
  | byte => cases h; exact ((Evolves.memRead h1).trans (.writeReg s1 2 _)).trans (.advance _)

theorem execRcall (n : BitVec 16) : Lands x s (Machine.execRcall n s) := by
  refine finish fun t h => ?_
  obtain ⟨s1, h1, h⟩ := bind_ok h
  cases h
  exact (Evolves.pushPc h1).trans (.goto s1 _)

theorem execCall (a : BitVec 22) : Lands x s (Machine.execCall a s) := by
  refine finish fun t h => ?_
  obtain ⟨s1, h1, h⟩ := bind_ok h
  cases h
  exact (Evolves.pushPc h1).trans (.setPc s1 _)

theorem execRet : Lands x s (Machine.execRet s) := by
  refine finish fun t h => ?_
  obtain ⟨⟨a, s1⟩, h1, h⟩ := bind_ok h
  cases h
  exact (Evolves.popPc h1).trans (.setPc s1 a)

theorem execRetlw (b : Size) (k : BitVec 10) (rd : Reg) : Lands x s (Machine.execRetlw b k rd s) := by
  refine finish fun t h => ?_
  obtain ⟨_, -, h⟩ := bind_ok h
  obtain ⟨_, -, h⟩ := bind_ok h
  obtain ⟨⟨a, s1⟩, h1, h⟩ := bind_ok h
  cases h
  exact ((Evolves.writeRegSized s b rd _).trans (.popPc h1)).trans (.setPc s1 a)

theorem execDisi (k : BitVec 14) : Lands x s (Machine.execDisi k s) :=
  done ((Evolves.of_rest rfl).trans (.advance { s with disicnt := k }.noteDisicnt))

theorem execPwrsav (k : BitVec 1) : Lands x s (Machine.execPwrsav k s) :=
  done ((Evolves.of_rest rfl).trans (.advance { s with power := if k = 0 then .sleep else .idle }))

end Lands

/-- The guarded bits that an instruction's own rule changes: `PUSH.S` the shadow registers (R56), `REPEAT` RA (R39), `RETFIE` RA, IPL3
and IPL (R39, R40, R45). -/
def waiverOf : Instr → Waiver
  | .pushS => { shadow := true }
  | .repeatLit _ | .repeatWn _ => { ra := true }
  | .retfie => { ra := true, ipl3 := true, ipl := true }
  | _ => {}

/-- Every instruction that runs to its end keeps what the relation says, its own waiver apart. -/
theorem exec_lands (i : Instr) (s : State) : Lands (waiverOf i) s (exec i s) := by
  cases i with
  | movF b d f => exact .execMovF b d f
  | movWregF b f => exact .execMovWregF b f
  | movFWnd f rd => exact .execMovFWnd f rd
  | movWnsF f rs => exact .execMovWnsF f rs
  | movBLit8 k rd => exact .done ((Evolves.setReg s rd _).trans (.advance _))
  | movLit16 k rd => exact .done ((Evolves.writeReg s rd k).trans (.advance _))
  | movOffLd b k rd rs => exact .execMovOffLd b k rd rs
  | movOffSt b k rd rs => exact .execMovOffSt b k rd rs
  | movWsWd | push | pop => exact .finish fun _ => .moveBetween
  | movDLd rd p rs => exact .execMovDLd rd p rs
  | movDSt q rd rs => exact .execMovDSt q rd rs
  | pushS => exact .execPushS rfl
  | popS => exact .execPopS
  | lnk k => exact .execLnk k
  | ulnk => exact .execUlnk
  | addF b d f => exact .execAddF b d f
  | addLit10 b k rd => exact .execAddLit10 b k rd
  | addLit5 b rb q rd k => exact .execAddLit5 b rb q rd k
  | addWs b rb q rd p rs => exact .execAddWs b rb q rd p rs
  | bsetF j f => exact .execBsetF j f
  | bsetWs j b p rs => exact .execBsetWs j b p rs
  | btscF j f => exact .execBtscF j f
  | btscWs j p rs => exact .execBtscWs j p rs
  | mulSS | mulSU | mulUS | mulUU => exact .finish fun _ => .mulOperand
  | mulSULit rb d k | mulUULit rb d k => exact .done (.mulLiteral _ rb d k s)
  | mulF b f => exact .execMulF b f
  | divSW rm rn | divSD rm rn | divUW rm rn | divUD rm rn =>
    exact .done ((Evolves.divIteration _ _ rn s).trans (.advance _))
  | asrF | lsrF | slF => exact .finish fun _ => .shiftFile
  | asrWs | lsrWs | slWs => exact .finish fun _ => .shiftOne
  | asrLit rb rd k | lsrLit rb rd k | slLit rb rd k => exact .done (.shiftMany _ _ k rd s)
  | asrWns | lsrWns | slWns => exact .finish fun _ => .shiftByReg
  | bra n => exact .done (.goto s _)
  | braOV n | braC n | braZ n | braN n | braLE n | braLT n | braLEU n | braNOV n | braNC n | braNZ n | braNN n | braGT n
  | braGE n | braGTU n => exact .done (.branchIf _ n s)
  | rcall n => exact .execRcall n
  | call a => exact .execCall a
  | goto a => exact .done (.setPc s _)
  | ret => exact .execRet
  | retfie => exact .finish fun _ => .returnFromException rfl rfl rfl
  | retlw b k rd => exact .execRetlw b k rd
  | repeatLit k => exact .done (.startLoop rfl k s)
  | repeatWn rs => exact .done (.startLoop rfl _ s)
  | nop _ => exact .done (.advance s)
  | disi k => exact .execDisi k
  | pwrsav k => exact .execPwrsav k
  | reset => exact .finish (r := .error (.reset .software)) fun _ h => by cases h
  | tblrdl | tblrdh => exact .finish fun _ => .tableRead
  | tblwtl | tblwth => exact .refused .tableWrite

/-! ## Steps -/

theorem fetch_ne_reset (s : State) (c : ResetCause) : fetch s ≠ .error (.reset c) := by
  have hd : ∀ w w2, decodeRes w w2 ≠ .error (.reset c) := by
    intro w w2
    unfold decodeRes
    split <;> nofun
  unfold fetch
  split
  · nofun
  · split
    · nofun
    · split
      · split
        · nofun
        · split
          · nofun
          · exact hd _ _
      · exact hd _ _

/-- No data write resets the device. -/
theorem memWrite_ne_reset (b : Size) (a v : Word) (s : State) (c : ResetCause) :
    memWrite b a v s ≠ .error (.reset c) := by
  unfold memWrite
  split
  · nofun
  · split
    · next r _ => cases r <;> cases b <;> nofun
    all_goals nofun

theorem push16_ne_reset (v : Word) (s : State) (c : ResetCause) : push16 v s ≠ .error (.reset c) :=
  memWrite_ne_reset .word _ v _ c

/-- Taking an exception resets nothing: its pushes use W15, which is always initialised (R28, R305). -/
theorem enter_ne_reset (e : ExcSource) (p : BitVec 3) (s : State) (c : ResetCause) : enter e p s ≠ .error (.reset c) := by
  unfold enter
  split
  · nofun
  · cases h1 : push16 (pcLow s.pc) s with
    | error z => rintro ⟨⟩; exact push16_ne_reset _ _ c h1
    | ok s1 =>
      rw [ok_bind]
      cases h2 : push16 (frameHigh s1) s1 with
      | error z => rintro ⟨⟩; exact push16_ne_reset _ _ c h2
      | ok s2 => nofun

theorem finish_enter {e : ExcSource} {p : BitVec 3} {s t : State} (h : finish s (enter e p s) = .next t) :
    enter e p s = .ok t := by
  cases he : enter e p s with
  | ok u => rw [he] at h; cases h; rfl
  | error z =>
    rw [he] at h
    cases z with
    | reset c => exact absurd he (enter_ne_reset e p s c)
    | fault f => cases h
    | refuse q => cases h

/-- Between steps there are no notes: taking an exception empties them. -/
theorem enter_notes {e : ExcSource} {p : BitVec 3} {s t : State} (h : enter e p s = .ok t) : t.notes = .empty := by
  obtain ⟨handler, s1, s2, -, -, -, rfl⟩ := enter_ok h
  cases e <;> rfl

/-- The end of a step empties the notes, and keeps what the instruction kept: the loop mechanism puts the PC back and clears RA at
most (R252). -/
theorem endStep_evolves {x : Waiver} {i : Instr} {s t u : State} (h : Evolves x s t) (hu : endStep i s t = .next u) :
    Evolves x s u ∧ u.notes = .empty := by
  unfold endStep at hu
  split at hu
  · cases hu; exact ⟨h.trans (.of_rest rfl), rfl⟩
  · split at hu
    · cases hu
    · cases hu
      refine ⟨?_, rfl⟩
      have hloop : Evolves x s (loopUpdate s t) := by
        rcases loopUpdate_cases s t with ⟨-, e⟩ | ⟨-, -, e⟩ | ⟨-, -, e⟩
        · rw [e]; exact h
        · rw [e]; exact { h with ra := fun _ _ => rfl }
        · rw [e]; exact { h with pc_even := id }
      obtain ⟨c, n, e, -⟩ := countDown_eq (stepCyclesMax i t) (loopUpdate s t)
      rw [e]
      exact hloop.trans (.of_rest rfl)

theorem endStep_deviceReset {i : Instr} {c : ResetCause} {s t u : State} (h : endStep i s (deviceReset c u) = .next t) :
    t = { deviceReset c u with notes := .empty } := by
  cases h
  rfl

/-- What a step that does not wait can do, said once: a device reset; one instruction, or one iteration of it; a trap; or an accepted
interrupt. -/
inductive StepCase (s t : State) : Prop where
  | resets (c : ResetCause) (h : t = { deviceReset c s with notes := .empty })
  | runs (i : Instr) (hf : fetch s = .ok i) (h : Evolves (waiverOf i) s t) (hn : t.notes = .empty)
  | traps (hp : s.pendingTraps ≠ .none) (h : Evolves { ipl3 := true, ipl := true } s t) (hn : t.notes = .empty)
  | interrupts (r : Request) (hr : bestRequest s.pending = some r) (ha : accepts s r.priority = true)
      (h : Evolves { ipl := true } s t) (hn : t.notes = .empty)

theorem runInstr_case {i : Instr} {s t : State} (hf : fetch s = .ok i) (h : runInstr i s = .next t) : StepCase s t := by
  unfold runInstr at h
  split at h
  · cases h
  · split at h
    · next u hu =>
      rcases exec_lands i s u hu with ⟨c, rfl⟩ | hev
      · exact .resets c (endStep_deviceReset h)
      · obtain ⟨hev', hn⟩ := endStep_evolves hev h
        exact .runs i hf hev' hn
    · cases h
    · cases h

theorem stepInstruction_case {s t : State} (h : stepInstruction s = .next t) : StepCase s t := by
  unfold stepInstruction at h
  split at h
  · next e he =>
    cases e with
    | reset c => exact absurd he (fetch_ne_reset s c)
    | fault f => cases h
    | refuse q => cases h
  · next i hf => exact runInstr_case hf h

theorem boundary_case {s t : State} (h : boundary s = .next t) : StepCase s t := by
  unfold boundary at h
  split at h
  · cases h
  · split at h
    · next c hc =>
      have he := finish_enter h
      exact .traps (fun e => by rw [e] at hc; cases hc) (.enter rfl (.inl rfl) he) (enter_notes he)
    · split at h
      · exact stepInstruction_case h
      · next r hr =>
        split at h
        · next ha =>
          have he := finish_enter h
          exact .interrupts r hr ha (.enter rfl (.inr ⟨_, rfl⟩) he) (enter_notes he)
        · exact stepInstruction_case h

/-- Waking changes `power` alone, so a boundary after it is one of the state that waited (R269). -/
theorem StepCase.of_woken {s t : State} (h : StepCase { s with power := .running } t) : StepCase s t := by
  have hwake {x : Waiver} : Evolves x s { s with power := .running } := .of_rest rfl
  cases h with
  | resets c h => exact .resets c h
  | runs i hf h hn => exact .runs i hf (hwake.trans h) hn
  | traps hp h hn => exact .traps hp (hwake.trans h) hn
  | interrupts r hr ha h hn => exact .interrupts r hr ha (hwake.trans h) hn

/-- A step waits and changes nothing, or does one of the four things. -/
theorem step_cases {s t : State} (h : step s = .next t) : t = s ∨ StepCase s t := by
  unfold step cpuStep at h
  split at h
  · exact .inr (boundary_case h)
  all_goals
    split at h
    · exact .inr (boundary_case h).of_woken
    · cases h; exact .inl rfl

/-! ## The invariant -/

/-- The invariant of an evolved state without notes. -/
theorem Evolves.inv {x : Waiver} {s t : State} (h : Evolves x s t) (hs : Inv s) (hn : t.notes = .empty) : Inv t where
  w15_even := h.w15_even hs.w15_even
  splim_even := h.splim_even hs.splim_even
  pc_even := h.pc_even hs.pc_even
  ram_wf := h.ram_wf hs.ram_wf
  prog_wf := h.prog ▸ hs.prog_wf
  notes_empty := hn

/-- A device reset meets the invariant: its fixed values have the zero bits, and RAM is kept or cleared (R330). -/
theorem deviceReset_inv (c : ResetCause) {s : State} (hs : Inv s) : Inv { deviceReset c s with notes := .empty } where
  w15_even := by simp [State.reg, deviceReset]
  splim_even := by simp [deviceReset]
  pc_even := by simp [deviceReset]
  ram_wf := by
    by_cases hc : c = .powerOn
    · simp [deviceReset, hc, Memory.wf, assocWf]
    · simpa [deviceReset, hc] using hs.ram_wf
  prog_wf := hs.prog_wf
  notes_empty := rfl

/-- Settles O8: each of the things a step can do keeps the invariant. -/
theorem invKeptByStep : Obligations.InvKeptByStep := by
  intro s t hs h
  rcases step_cases h with rfl | ⟨c, rfl⟩ | ⟨i, -, h, hn⟩ | ⟨-, h, hn⟩ | ⟨r, -, -, h, hn⟩
  · exact hs
  · exact deviceReset_inv c hs
  · exact h.inv hs hn
  · exact h.inv hs hn
  · exact h.inv hs hn

theorem reset_inv : Inv State.reset where
  w15_even := rfl
  splim_even := rfl
  pc_even := rfl
  ram_wf := reset_ram_wf
  prog_wf := reset_prog_wf
  notes_empty := rfl

/-- Settles O9: no event touches a zero bit or a memory, but a reset from outside, which meets the invariant anew. -/
theorem invAtResetAndEvents : Obligations.InvAtResetAndEvents := by
  refine ⟨reset_inv, fun e s hs => ?_⟩
  cases e with
  | deviceReset c => exact deviceReset_inv c hs
  | setPending l => exact { hs with }
  | raiseTrap c => exact { hs with }
  | setNstdis v => exact { hs with }
  | wake => exact { hs with }

/-! ## The sticky bits -/

/-- A waiver of the shadow registers names the instruction, as the three waivers below do. -/
theorem waiverOf_shadow {i : Instr} (h : (waiverOf i).shadow = true) : i = .pushS := by
  unfold waiverOf at h
  split at h <;> simp_all

theorem waiverOf_ra {i : Instr} (h : (waiverOf i).ra = true) :
    (∃ k, i = .repeatLit k) ∨ (∃ r, i = .repeatWn r) ∨ i = .retfie := by
  unfold waiverOf at h
  split at h <;> simp_all

theorem waiverOf_ipl3 {i : Instr} (h : (waiverOf i).ipl3 = true) : i = .retfie := by
  unfold waiverOf at h
  split at h <;> simp_all

theorem waiverOf_ipl {i : Instr} (h : (waiverOf i).ipl = true) : i = .retfie := by
  unfold waiverOf at h
  split at h <;> simp_all

namespace Evolves

variable {x : Waiver} {s t : State}

/-- Shadow registers that changed were waived, as are the guarded bits below that changed against their rule. -/
theorem shadow_waived (h : Evolves x s t) (ht : t.shadow ≠ s.shadow) : x.shadow = true := by
  by_contra hx
  exact ht (h.shadow (by simpa using hx))

theorem ra_waived (h : Evolves x s t) (hs : s.sr.ra = false) (ht : t.sr.ra = true) : x.ra = true := by
  by_contra hx
  simp [h.ra (by simpa using hx) hs] at ht

theorem ipl3_waived (h : Evolves x s t) (hs : s.corcon.ipl3 = false) (ht : t.corcon.ipl3 = true) : x.ipl3 = true := by
  by_contra hx
  simp [h.ipl3 (by simpa using hx) hs] at ht

theorem ipl_waived (h : Evolves x s t) (hs : s.nstdis = true) (ht : t.sr.ipl ≠ s.sr.ipl) : x.ipl = true := by
  by_contra hx
  exact ht (h.ipl (by simpa using hx) hs)

end Evolves

/-- Settles O58: in each of the things a step can do, a guarded bit changes where the relation waives it, and each waiver names its
rule. -/
theorem stickyBits : Obligations.StickyBits := by
  intro s t h
  rcases step_cases h with rfl | ⟨c, rfl⟩ | ⟨i, hf, h, -⟩ | ⟨hp, h, -⟩ | ⟨r, hr, ha, h, -⟩
  · exact ⟨rfl, rfl, .inr ⟨id, fun _ => id, fun hs ht => by simp [hs] at ht, fun hs ht => by simp [hs] at ht,
      fun ht => absurd rfl ht, fun _ ht => absurd rfl ht⟩⟩
  · exact ⟨rfl, rfl, .inl ⟨c, s, rfl⟩⟩
  · exact ⟨h.prog, h.device, .inr ⟨h.splimEn, h.initialised,
      fun hs ht => ⟨i, hf, waiverOf_ra (h.ra_waived hs ht)⟩,
      fun hs ht => .inr (waiverOf_ipl3 (h.ipl3_waived hs ht) ▸ hf),
      fun ht => waiverOf_shadow (h.shadow_waived ht) ▸ hf,
      fun hs ht => .inr (.inr (waiverOf_ipl (h.ipl_waived hs ht) ▸ hf))⟩⟩
  · exact ⟨h.prog, h.device, .inr ⟨h.splimEn, h.initialised,
      fun hs ht => absurd (h.ra_waived hs ht) nofun, fun _ _ => .inl hp,
      fun ht => absurd (h.shadow_waived ht) nofun, fun _ _ => .inl hp⟩⟩
  · exact ⟨h.prog, h.device, .inr ⟨h.splimEn, h.initialised,
      fun hs ht => absurd (h.ra_waived hs ht) nofun, fun hs ht => absurd (h.ipl3_waived hs ht) nofun,
      fun ht => absurd (h.shadow_waived ht) nofun, fun _ _ => .inr (.inl ⟨r, hr, ha⟩)⟩⟩

end Sys2Proof.Machine
end

section
/-! SUPPORT. The memory-mapped core registers (O55, O56, O57): what a data access at the address of one reads and writes, and where
SFR_ADDR puts each. -/

namespace Sys2Proof.Machine

/-! ## Bytes of words -/

theorem lowByte_getLsbD (v : Word) {i : Nat} (h : i < 8) : (lowByte v).getLsbD i = v.getLsbD i := by
  simp [lowByte, h]

theorem highByte_getLsbD (v : Word) {i : Nat} (h : i < 8) : (highByte v).getLsbD i = v.getLsbD (8 + i) := by
  simp [highByte, h]

@[simp] theorem lowByte_getElem (v : Word) {i : Nat} (h : i < 8) : (lowByte v)[i] = v[i] := by
  simpa only [BitVec.getLsbD_eq_getElem h, BitVec.getLsbD_eq_getElem (show i < 16 by omega)] using lowByte_getLsbD v h

@[simp] theorem highByte_getElem (v : Word) {i : Nat} (h : i < 8) : (highByte v)[i] = v[8 + i] := by
  simpa only [BitVec.getLsbD_eq_getElem h, BitVec.getLsbD_eq_getElem (show 8 + i < 16 by omega)] using
    highByte_getLsbD v h

/-- A field that lies in the low byte can be taken from it. -/
theorem extractLsb'_lowByte (v : Word) {i n : Nat} (h : i + n ≤ 8) : (lowByte v).extractLsb' i n = v.extractLsb' i n := by
  apply BitVec.eq_of_getLsbD_eq
  intro k hk
  simp only [BitVec.getLsbD_extractLsb', hk, decide_true, Bool.true_and]
  exact lowByte_getLsbD v (by omega)

/-- Fixing bit 0 of W15 leaves the high byte (R26). -/
theorem highByte_fixReg (r : Reg) (v : Word) : highByte (fixReg r v) = highByte v := by
  unfold fixReg
  split
  · apply BitVec.eq_of_getLsbD_eq
    intro k hk
    simp only [highByte_getLsbD _ hk, BitVec.getLsbD_and]
    interval_cases k <;> simp
  · rfl

/-- The low byte that a register takes depends on the low byte written alone. -/
theorem lowByte_fixReg_congr (r : Reg) {v w : Word} (h : lowByte v = lowByte w) :
    lowByte (fixReg r v) = lowByte (fixReg r w) := by
  unfold fixReg
  split
  · apply BitVec.eq_of_getLsbD_eq
    intro k hk
    have hb := congrArg (·.getLsbD k) h
    simp only [lowByte_getLsbD _ hk] at hb
    simp only [lowByte_getLsbD _ hk, BitVec.getLsbD_and, hb]
  · exact h

@[simp] theorem lowByte_append (hi lo : Byte) : lowByte (hi ++ lo) = lo := by
  apply BitVec.eq_of_getLsbD_eq
  intro k hk
  rw [lowByte_getLsbD _ hk, BitVec.getLsbD_append, if_pos hk]

@[simp] theorem highByte_append (hi lo : Byte) : highByte (hi ++ lo) = hi := by
  apply BitVec.eq_of_getLsbD_eq
  intro k hk
  rw [highByte_getLsbD _ hk, BitVec.getLsbD_append, if_neg (by omega), Nat.add_sub_cancel_left]

/-! ## Accesses at the address of a core register -/

/-- The byte after an even address is at an odd one. -/
theorem isOdd_next {a : Word} (ea : a.getLsbD 0 = false) : isOdd (a + 1) = true := by
  have e : a.toNat % 2 = 0 := by simpa [BitVec.getLsbD, Nat.testBit_zero] using ea
  have hn : (a + 1).toNat % 2 = 1 := by rw [BitVec.toNat_add, show (1 : Word).toNat = 1 from rfl]; omega
  simpa [isOdd, BitVec.getLsbD, Nat.testBit_zero] using hn

section Mapped

variable {a v : Word} {c : CoreReg} {s t : State}

theorem memRead_core {b : Size} (hc : coreRegAt s.device.sfr a = some c) (hm : misaligned b a = false)
    (hv : coreRead b a c s = .ok v) : memRead b a s = .ok (v, s) := by
  simp [memRead, hm, regionOf_core hc, hv]

theorem memRead_core_word (hc : coreRegAt s.device.sfr a = some c) (ea : a.getLsbD 0 = false)
    (hv : coreWord s c = .ok v) : memRead .word a s = .ok (v, s) :=
  memRead_core hc (by simpa [misaligned, isOdd] using ea) (by simp [coreRead, hv])

theorem memRead_core_low (hc : coreRegAt s.device.sfr a = some c) (ea : a.getLsbD 0 = false)
    (hv : coreWord s c = .ok v) : memRead .byte a s = .ok (byteWord (lowByte v), s) := by
  refine memRead_core hc rfl ?_
  simp only [coreRead, hv, selectByte, show isOdd a = false from ea, Bool.false_eq_true, if_false]

theorem memRead_core_high (hc : coreRegAt s.device.sfr a = some c) (ea : a.getLsbD 0 = false)
    (hv : coreWord s c = .ok v) : memRead .byte (a + 1) s = .ok (byteWord (highByte v), s) := by
  refine memRead_core ((coreRegAt_next _ ea).trans hc) rfl ?_
  simp only [coreRead, hv, selectByte, isOdd_next ea, if_true]

/-- A word read of a core register is a read of its word. -/
theorem coreWord_of_memRead (hc : coreRegAt s.device.sfr a = some c) (h : memRead .word a s = .ok (v, t)) :
    coreWord s c = .ok v := by
  cases hw : coreWord s c with
  | error e => unfold memRead at h; split at h <;> simp [regionOf_core hc, coreRead, hw] at h
  | ok w =>
    cases hm : misaligned .word a with
    | true => simp [memRead, hm] at h
    | false =>
      rw [memRead_core hc hm (show coreRead .word a c s = .ok w by simp [coreRead, hw])] at h
      cases h
      rfl

theorem memWrite_core {b : Size} (hc : coreRegAt s.device.sfr a = some c) (hm : misaligned b a = false) (v : Word) :
    memWrite b a v s = coreWrite b a c v s := by
  simp [memWrite, hm, regionOf_core hc]

theorem memWrite_core_word (hc : coreRegAt s.device.sfr a = some c) (ea : a.getLsbD 0 = false) (v : Word) :
    memWrite .word a v s = coreWriteWord c v s :=
  memWrite_core hc (by simpa [misaligned, isOdd] using ea) v

theorem memWrite_core_low (hc : coreRegAt s.device.sfr a = some c) (ea : a.getLsbD 0 = false) (v : Word) :
    memWrite .byte a v s = coreWriteByte false c (lowByte v) s := by
  rw [memWrite_core hc rfl, coreWrite, show isOdd a = false from ea]

theorem memWrite_core_high (hc : coreRegAt s.device.sfr a = some c) (ea : a.getLsbD 0 = false) (v : Word) :
    memWrite .byte (a + 1) v s = coreWriteByte true c (lowByte v) s := by
  rw [memWrite_core ((coreRegAt_next _ ea).trans hc) rfl, coreWrite, isOdd_next ea]

/-- A write at the address of a core register that has an effect is a write of the register. -/
theorem coreWrite_of_memWrite {b : Size} (hc : coreRegAt s.device.sfr a = some c) (h : memWrite b a v s = .ok t) :
    coreWrite b a c v s = .ok t :=
  (memWrite_core hc (memWrite_ok h).1 v).symm.trans h

end Mapped

/-! ## What a write leaves -/

/-- The word of SR, field by field (R42). -/
theorem srWord_eq (r : Sr) : srWord r = 0#7 ++ BitVec.ofBool r.dc ++ r.ipl ++ BitVec.ofBool r.ra ++ BitVec.ofBool r.n ++
    BitVec.ofBool r.ov ++ BitVec.ofBool r.z ++ BitVec.ofBool r.c := by
  simp only [srWord, srl, joinBytes, BitVec.append_assoc, BitVec.cast_eq]
  exact BitVec.append_assoc.trans (BitVec.cast_eq _ _)

/-- A data write of SRL, field by field (R42). -/
theorem writeSrl_lowByte (nstdis : Bool) (v : Word) (r : Sr) :
    writeSrl nstdis (lowByte v) r =
      { r with
        ipl := if nstdis then r.ipl else v.extractLsb' 5 3
        n := v.getLsbD 3, ov := v.getLsbD 2, z := v.getLsbD 1, c := v.getLsbD 0 } := by
  simp [writeSrl, extractLsb'_lowByte]

/-- A data write of CORCON, field by field (R45). -/
theorem writeCorconLow_lowByte (v : Word) (r : Corcon) :
    writeCorconLow (lowByte v) r = { ipl3 := if v.getLsbD 3 then r.ipl3 else false, psv := v.getLsbD 2 } := by
  simp [writeCorconLow, Bool.and_comm]

/-- A write of a core register other than PCL and PCH leaves in it what R76 says, with its notes. -/
theorem coreWrite_holds {c : CoreReg} (h1 : c ≠ .pcl) (h2 : c ≠ .pch) (b : Size) (a v : Word) (s : State) :
    ∃ t, coreWrite b a c v s = .ok t ∧ CoreHolds b a v c s t := by
  cases c with
  | pcl => exact absurd rfl h1
  | pch => exact absurd rfl h2
  | w r =>
    cases b with
    | word =>
      refine ⟨s.writeReg r v, rfl, fun _ => ⟨s.writeReg_reg_same r v, ?_⟩, nofun⟩
      rw [State.writeReg_initialised, if_pos rfl]
    | byte =>
      cases ho : isOdd a with
      | true =>
        refine ⟨s.writeRegHigh r (lowByte v), by simp [coreWrite, coreWriteByte, ho], nofun, fun _ => ⟨?_, rfl⟩⟩
        simp [State.writeRegHigh, selectByte, ho, highByte_fixReg, joinBytes]
      | false =>
        refine ⟨s.writeRegLow r (lowByte v), by simp [coreWrite, coreWriteByte, ho], nofun, fun _ => ⟨?_, rfl⟩⟩
        simp only [State.writeRegLow, State.setReg_reg_same, selectByte, ho, Bool.false_eq_true, if_false]
        exact lowByte_fixReg_congr r (by simp [joinBytes])
  | splim => cases b <;> exact ⟨_, rfl, by simp [CoreHolds, State.noteSplim, joinBytes]⟩
  | tblpag | psvpag => cases b <;> cases ho : isOdd a <;> exact ⟨_, rfl, by simp [CoreHolds, ho]⟩
  | rcount => cases b <;> exact ⟨_, rfl, by simp [CoreHolds, State.noteLoop, extractLsb'_lowByte]⟩
  | sr =>
    cases b with
    | word => exact ⟨_, rfl, by simp [CoreHolds, State.noteLoop, writeSrl_lowByte, writeSrh]⟩
    | byte =>
      cases ho : isOdd a <;>
        exact ⟨_, rfl, by simp [CoreHolds, State.noteLoop, writeSrl_lowByte, writeSrh, ho]⟩
  | corcon =>
    cases b with
    | word => exact ⟨_, rfl, by simp [CoreHolds, writeCorconLow_lowByte]⟩
    | byte => cases ho : isOdd a <;> exact ⟨_, rfl, by simp [CoreHolds, writeCorconLow_lowByte, ho]⟩
  | disicnt => cases b <;> exact ⟨_, rfl, by simp [CoreHolds, State.noteDisicnt]⟩

/-- The notes that a write of a core register makes: SPLIM its own, RCOUNT and SR one, DISICNT its own (R252, R268, R340). -/
theorem coreWrite_notes {b : Size} {a v : Word} {c : CoreReg} {s t : State} (h : coreWrite b a c v s = .ok t) :
    (c ≠ .splim → t.notes.wroteSplim = s.notes.wroteSplim) ∧
    (c ≠ .rcount → c ≠ .sr → t.notes.wroteLoop = s.notes.wroteLoop) ∧
    (c ≠ .disicnt → t.notes.wroteDisicnt = s.notes.wroteDisicnt) := by
  cases c with
  | pcl | pch => cases b <;> cases h
  | splim => cases b <;> cases h <;> exact ⟨fun hn => absurd rfl hn, fun _ _ => rfl, fun _ => rfl⟩
  | rcount => cases b <;> cases h <;> exact ⟨fun _ => rfl, fun hn => absurd rfl hn, fun _ => rfl⟩
  | sr => cases b <;> cases h <;> exact ⟨fun _ => rfl, fun _ hn => absurd rfl hn, fun _ => rfl⟩
  | disicnt => cases b <;> cases h <;> exact ⟨fun _ => rfl, fun _ _ => rfl, fun hn => absurd rfl hn⟩
  | w | tblpag | psvpag | corcon =>
    cases b
    · cases h; exact ⟨fun _ => rfl, fun _ _ => rfl, fun _ => rfl⟩
    · rw [coreWrite] at h
      generalize isOdd a = o at h
      cases o <;> cases h <;> exact ⟨fun _ => rfl, fun _ _ => rfl, fun _ => rfl⟩

/-- The upper half of TBLPAG and PSVPAG is not implemented: a byte write there changes nothing (R76). -/
theorem coreWriteByte_page_high {c : CoreReg} (hc : c = .tblpag ∨ c = .psvpag) (v : Byte) (s : State) :
    coreWriteByte true c v s = .ok s := by
  rcases hc with rfl | rfl <;> rfl

/-- Settles O57: the accesses at CORCON's address are those of the register, and a write of its low byte is `writeCorconLow`. -/
theorem corconRegister : Obligations.CorconRegister := by
  refine ⟨fun _ _ => rfl, rfl, fun a v s hc ea => ⟨memRead_core_word hc ea rfl, ?_, ?_, ?_⟩⟩
  · rw [memWrite_core_word hc ea, ← writeCorconLow_lowByte]; rfl
  · rw [memWrite_core_low hc ea, ← writeCorconLow_lowByte]; rfl
  · rw [memWrite_core_high hc ea]; rfl

/-- Settles O56: what each register holds after a write, what a write notes, and what a read gives. -/
theorem specialRegisters : Obligations.SpecialRegisters := by
  refine ⟨fun b a v c s hc h1 h2 hb => ?_, fun b a v c s t hc h => coreWrite_notes (coreWrite_of_memWrite hc h),
    fun a c s hc ea => ⟨?_, ?_, ?_, ?_, ?_, ?_, fun hp v => ?_, fun v hv => ?_⟩⟩
  · have hm : misaligned b a = false := by
      cases b with
      | word => simpa [misaligned, isOdd] using hb rfl
      | byte => rfl
    rw [memWrite_core hc hm]
    exact coreWrite_holds h1 h2 b a v s
  · rintro rfl; rw [memRead_core_word hc ea rfl, srWord_eq]
  · rintro rfl; exact memRead_core_word hc ea rfl
  · rintro rfl; exact memRead_core_word hc ea rfl
  · rintro rfl; exact memRead_core_word hc ea rfl
  · rintro rfl; exact memRead_core_word hc ea rfl
  · rintro rfl; exact memRead_core_word hc ea rfl
  · rw [memWrite_core_high hc ea, coreWriteByte_page_high hp]
  · have hw := coreWord_of_memRead hc hv
    exact ⟨memRead_core_low hc ea hw, memRead_core_high hc ea hw⟩

/-! ## Where the registers stand -/

theorem mem_coreRegs (c : CoreReg) : c ∈ coreRegs := by
  cases c <;> simp [coreRegs, List.mem_finRange]

/-- In a map that gives no two registers one place, each register is at its two bytes and nowhere else (R23). -/
theorem coreRegAt_iff {m : SfrMap} (hm : ∀ c d, sfrIndex m c = sfrIndex m d → c = d) (a : Word) (c : CoreReg) :
    coreRegAt m a = some c ↔ a.toNat / 2 = (sfrIndex m c).toNat := by
  have hidx : a.toNat < 0x0800 → (a.extractLsb' 1 10).toNat = a.toNat / 2 := fun ha => by
    rw [BitVec.extractLsb'_toNat, Nat.shiftRight_eq_div_pow]
    omega
  constructor
  · intro h
    obtain ⟨ha, hi⟩ := coreRegAt_some h
    rw [hi, hidx ha]
  · intro h
    have ha : a.toNat < 0x0800 := by have := (sfrIndex m c).isLt; omega
    have hi : sfrIndex m c = a.extractLsb' 1 10 := BitVec.eq_of_toNat_eq (by rw [hidx ha, h])
    rw [coreRegAt, if_pos ha]
    cases hf : coreRegs.find? fun c => sfrIndex m c == a.extractLsb' 1 10 with
    | none => simpa [hi] using List.find?_eq_none.mp hf c (mem_coreRegs c)
    | some d =>
      have hd : sfrIndex m d = a.extractLsb' 1 10 := by simpa using List.find?_some hf
      rw [hm d c (hd.trans hi.symm)]

/-- The default map gives no two registers one place (R23). -/
theorem defaultSfr_inj (c d : CoreReg) (h : sfrIndex defaultSfr c = sfrIndex defaultSfr d) : c = d := by
  have hall : ∀ c ∈ coreRegs, ∀ d ∈ coreRegs, sfrIndex defaultSfr c = sfrIndex defaultSfr d → c = d := by decide
  exact hall c (mem_coreRegs c) d (mem_coreRegs d) h

theorem defaultSfr_w (r : Reg) : (sfrIndex defaultSfr (.w r)).toNat = r.val := by
  revert r
  decide

/-- Settles O55: an access at the address of Wn is one of the register, and in the default map Wn is at word n. -/
theorem wRegisterMapped : Obligations.WRegisterMapped := by
  refine ⟨fun r a v s hc ea => ⟨memRead_core_word hc ea rfl, memRead_core_low hc ea rfl, memRead_core_high hc ea rfl,
    ⟨s.writeReg r v, memWrite_core_word hc ea v, s.writeReg_reg_same r v, ?_, fun q hq => ?_⟩,
    ⟨s.writeRegLow r (lowByte v), memWrite_core_low hc ea v, s.setReg_reg_same r _, rfl,
      fun q hq => s.writeRegLow_reg_ne _ hq⟩,
    ⟨s.writeRegHigh r (lowByte v), memWrite_core_high hc ea v, s.setReg_reg_same r _, rfl,
      fun q hq => s.writeRegHigh_reg_ne _ hq⟩⟩, fun a c => ?_⟩
  · rw [State.writeReg_initialised, if_pos rfl]
  · simp [State.writeReg_reg, State.writeReg_initialised, hq]
  · rw [coreRegAt_iff defaultSfr_inj]
    cases c with
    | w r => simp [defaultSfr_w]
    | splim | pcl | pch | tblpag | psvpag | rcount | sr | corcon | disicnt =>
      simp [sfrIndex, defaultSfr]
      omega

end Sys2Proof.Machine
end

section
/-! SUPPORT. Uninitialised pointers (O52): where an operand's address is formed from a register that no word write has initialised, the
device is reset instead of the instruction (10_state.md R28; 60_exceptions.md R299). -/

namespace Sys2Proof.Machine

/-- The reset that stands instead of an instruction (R299). -/
theorem finish_uninit {s : State} {r : Res State} (h : r = .error (.reset .uninitW)) :
    finish s r = .next (deviceReset .uninitW s) := by
  rw [h]
  rfl

theorem error_bind {ε α β : Type} {e : ε} {x : Except ε α} (h : x = .error e) (f : α → Except ε β) :
    (x >>= f) = .error e := by
  rw [h]
  rfl

theorem refuseIf_false (q : Refusal) : refuseIf false q = .ok () := rfl

theorem ptrValue_uninit {s : State} {r : Reg} (h : s.initialised r = false) :
    ptrValue s r = .error (.reset .uninitW) := by
  simp [ptrValue, h]

/-- W15 is always initialised (R28). -/
theorem ne_15_of_uninit {s : State} {r : Reg} (h : s.initialised r = false) : r ≠ 15 := by
  rintro rfl
  exact absurd h (by simp [State.initialised])

/-- A byte-mode modification of W15 uses no uninitialised register. -/
theorem byteModifiesW15_of_uninit {s : State} {o : Operand} (step : Nat) (h : o.initialised s = false) :
    byteModifiesW15 step o = false := by
  cases o with
  | reg r => cases h
  | offset r q => simp [byteModifiesW15, Operand.modified]
  | ptr p r => cases p <;> simp [byteModifiesW15, Operand.modified, ne_15_of_uninit (show s.initialised r = false from h)]

/-- An effective address that is formed from an uninitialised register is none (R108, R299). -/
theorem ea_uninit {s : State} {o : Operand} (step : Nat) (isRead : Bool) (h : o.initialised s = false) :
    ea step isRead o s = .error (.reset .uninitW) := by
  unfold ea
  rw [byteModifiesW15_of_uninit step h, refuseIf_false, ok_bind]
  cases o with
  | reg r => cases h
  | ptr p r => exact error_bind (ptrValue_uninit h) _
  | offset r q =>
    simp only [Operand.initialised, Bool.and_eq_false_iff] at h
    by_cases hr : s.initialised r = false
    · exact error_bind (ptrValue_uninit hr) _
    · simp only [ptrValue, hr, h.resolve_left hr]
      rfl

theorem eaSlit10_uninit {s : State} {r : Reg} (b : Size) (isRead : Bool) (k : BitVec 10) (h : s.initialised r = false) :
    eaSlit10 b isRead k r s = .error (.reset .uninitW) := error_bind (ptrValue_uninit h) _

theorem srcVal_uninit {s : State} {o : Operand} (b : Size) (h : o.initialised s = false) :
    srcVal b o s = .error (.reset .uninitW) := error_bind (ea_uninit _ _ h) _

theorem dstWrite_uninit {s : State} {o : Operand} (b : Size) (v : Word) (h : o.initialised s = false) :
    dstWrite b o v s = .error (.reset .uninitW) := error_bind (ea_uninit _ _ h) _

theorem dstWriteFlagged_uninit {s : State} {o : Operand} (b : Size) (v : Word) (h : o.initialised s = false) :
    dstWriteFlagged b o v s = .error (.reset .uninitW) := error_bind (ea_uninit _ _ h) _

theorem tblWord_uninit {s : State} {r : Reg} (b : Size) (p : PtrMode) (h : s.initialised r = false) :
    tblWord b p r s = .error (.reset .uninitW) := by
  unfold tblWord
  rw [beq_eq_false_iff_ne.mpr (ne_15_of_uninit h), refuseIf_false, ok_bind]
  exact error_bind (ptrValue_uninit h) _

/-! ## After a source that can be read -/

@[simp] theorem modifyPtr_initialised (step : Nat) (p : PtrMode) (r q : Reg) (base : Word) (s : State) :
    (modifyPtr step p r base s).initialised q = s.initialised q := by
  cases p <;> rfl

theorem ptrValue_init {s : State} {r : Reg} (h : s.initialised r = true) : ptrValue s r = .ok (s.reg r) := by
  simp [ptrValue, h]

/-- An effective address formed from initialised registers is one (R108). -/
theorem ea_isOk {step : Nat} {o : Operand} {s : State} (isRead : Bool) (hi : o.initialised s = true)
    (hb : byteModifiesW15 step o = false) : ∃ p t, ea step isRead o s = .ok (p, t) := by
  unfold ea
  rw [hb, refuseIf_false, ok_bind]
  cases o with
  | reg r => exact ⟨_, _, rfl⟩
  | ptr m r => simp only [ptrValue_init hi, ok_bind]; exact ⟨_, _, rfl⟩
  | offset r q =>
    simp only [Operand.initialised, Bool.and_eq_true] at hi
    simp only [ptrValue_init hi.1, ptrValue_init hi.2, ok_bind]
    exact ⟨_, _, rfl⟩

/-- Forming an address is that of the operand, initialises nothing, and touches nothing that decides what the address reaches. -/
theorem ea_keeps {step : Nat} {isRead : Bool} {o : Operand} {s t : State} {p : Place} (h : ea step isRead o s = .ok (p, t)) :
    t.corcon = s.corcon ∧ t.device = s.device ∧ (∀ r, t.initialised r = s.initialised r) ∧
      ∀ a, p = .mem a → o.addr step s = some a := by
  obtain ⟨-, -, e, n, -, -, h⟩ := ea_ok h
  cases o with
  | reg r => obtain ⟨rfl, ht⟩ := h; rw [ht]; exact ⟨rfl, rfl, fun _ => rfl, nofun⟩
  | ptr m r => obtain ⟨rfl, rfl⟩ := h; cases m <;> exact ⟨rfl, rfl, fun _ => rfl, by rintro a ⟨⟩; rfl⟩
  | offset r q => obtain ⟨rfl, rfl⟩ := h; exact ⟨rfl, rfl, fun _ => rfl, by rintro a ⟨⟩; rfl⟩

/-- A source operand that is ready has a value (R109). -/
theorem srcVal_ready {b : Size} {o : Operand} {s : State} (h : sourceReady b o s = true) :
    ∃ v t, srcVal b o s = .ok (v, t) := by
  simp only [sourceReady, Bool.and_eq_true, Bool.not_eq_true'] at h
  obtain ⟨⟨hi, hb⟩, hr⟩ := h
  obtain ⟨p, t, he⟩ := ea_isOk true hi hb
  obtain ⟨hcor, hdev, -, ha⟩ := ea_keeps he
  rw [srcVal, he, ok_bind]
  cases p with
  | reg r => exact ⟨_, _, rfl⟩
  | mem a =>
    rw [ha a rfl] at hr
    have hread : readable t b (trunc16 a) = true := by
      simpa only [readable, regionOf_congr b (trunc16 a) hcor hdev] using hr
    obtain ⟨⟨v, u⟩, hx⟩ := (memRead_isOk b (trunc16 a) t).mpr hread
    exact ⟨v, u, hx⟩

/-- Reading a source changes nothing of which registers are initialised (R28). -/
theorem srcVal_initialised {b : Size} {o : Operand} {s t : State} {v : Word} (h : srcVal b o s = .ok (v, t)) (r : Reg) :
    t.initialised r = s.initialised r := by
  obtain ⟨⟨p, u⟩, h1, h2⟩ := bind_ok h
  obtain ⟨-, -, hu, -⟩ := ea_keeps h1
  cases p with
  | reg q => cases h2; exact hu r
  | mem a =>
    obtain ⟨n, k, rfl⟩ := memRead_ok h2
    exact hu r

theorem Operand.initialised_congr {s t : State} (o : Operand) (h : ∀ r, t.initialised r = s.initialised r) :
    o.initialised t = o.initialised s := by
  cases o <;> simp [Operand.initialised, h]

/-! ## Instructions -/

/-- The order of R109 for a source and a destination operand: an instruction that tests for a collision, reads the source and writes
the destination is replaced by the reset where the source's address, or the destination's after a readable source, is formed
from an uninitialised register. -/
theorem operands_uninit {b : Size} {src dst : Operand} {s : State} (hc : collides src dst = false)
    (h : src.initialised s = false ∨ (sourceReady b src s = true ∧ dst.initialised s = false))
    {w : Word → State → Res State}
    (hw : ∀ v u, dst.initialised u = false → w v u = .error (.reset .uninitW)) (g : Word → State → Res State) :
    finish s (refuseIf (collides src dst) .registerCollision >>= fun _ =>
      srcVal b src s >>= fun x => w x.1 x.2 >>= g x.1) = .next (deviceReset .uninitW s) := by
  refine finish_uninit ?_
  rw [hc, refuseIf_false, ok_bind]
  rcases h with h | ⟨hs, hd⟩
  · exact error_bind (srcVal_uninit b h) _
  · obtain ⟨v, t, hv⟩ := srcVal_ready hs
    rw [hv, ok_bind]
    exact error_bind (hw v t (by rwa [dst.initialised_congr (srcVal_initialised hv)])) _

theorem moveBetween_uninit {b : Size} {src dst : Operand} {s : State} (hc : collides src dst = false)
    (h : src.initialised s = false ∨ (sourceReady b src s = true ∧ dst.initialised s = false)) :
    finish s (moveBetween b src dst s) = .next (deviceReset .uninitW s) :=
  operands_uninit hc h (fun v _ hd => dstWrite_uninit b v hd) fun _ s2 => .ok s2.advance

theorem shiftOne_uninit {b : Size} {src dst : Operand} {s : State} (op : ShiftOp) (hc : collides src dst = false)
    (h : src.initialised s = false ∨ (sourceReady b src s = true ∧ dst.initialised s = false)) :
    finish s (shiftOne op b src dst s) = .next (deviceReset .uninitW s) :=
  operands_uninit hc h (fun v _ hd => dstWriteFlagged_uninit b (shift1 op b v).res hd) fun v s2 =>
    .ok (s2.setShiftFlags (shift1 op b v)).advance

theorem execAddWs_uninit {b : Size} {q p : Mode} {rd rs : Reg} {s : State} (rb : Reg)
    (hc : collides (modeOperand p rs) (modeOperand q rd) = false)
    (h : (modeOperand p rs).initialised s = false ∨
      (sourceReady b (modeOperand p rs) s = true ∧ (modeOperand q rd).initialised s = false)) :
    execAddWs b rb q rd p rs s = .next (deviceReset .uninitW s) :=
  operands_uninit hc h (fun v _ hd => dstWriteFlagged_uninit b (addFlags b (s.regVal b rb) v).res hd) fun v s2 =>
    .ok (s2.setAddFlags (addFlags b (s.regVal b rb) v)).advance

theorem tableRead_uninit {b : Size} {p : PtrMode} {rs : Reg} {dst : Operand} {s : State}
    (pick : Size → Word → ProgWord → Word) (hc : collides (.ptr p rs) dst = false) (h : s.initialised rs = false) :
    finish s (tableRead pick b p rs dst s) = .next (deviceReset .uninitW s) := by
  refine finish_uninit ?_
  rw [tableRead, hc, refuseIf_false, ok_bind]
  exact error_bind (tblWord_uninit b p h) _

/-- A table pointer that is ready gives a word, and initialises no register (R271, R28). -/
theorem tblWord_ready {b : Size} {p : PtrMode} {r : Reg} {s : State} (h : tableReady b p r s = true) :
    ∃ w a t, tblWord b p r s = .ok (w, a, t) ∧ ∀ q, t.initialised q = s.initialised q := by
  simp only [tableReady, Bool.and_eq_true, Bool.not_eq_true', bne_iff_ne] at h
  obtain ⟨⟨hr, hi⟩, hm⟩ := h
  unfold tblWord
  rw [beq_eq_false_iff_ne.mpr hr, refuseIf_false, ok_bind, ptrValue_init hi, ok_bind]
  simp only [hm, refuseIf_false, ok_bind]
  refine ⟨_, _, _, rfl, fun q => ?_⟩
  split
  · exact modifyPtr_initialised ..
  · obtain ⟨w, n, he⟩ := progRead_eq (tblProgAddr s (trunc16 (ptrAddr (sizeBytes b) p (s.reg r))))
      (modifyPtr (sizeBytes b) p r (s.reg r) s)
    rw [he]
    simp

theorem tableRead_dst_uninit {b : Size} {p : PtrMode} {rs : Reg} {dst : Operand} {s : State}
    (pick : Size → Word → ProgWord → Word) (hc : collides (.ptr p rs) dst = false) (hs : tableReady b p rs s = true)
    (hd : dst.initialised s = false) : finish s (tableRead pick b p rs dst s) = .next (deviceReset .uninitW s) := by
  refine finish_uninit ?_
  obtain ⟨w, a, t, hw, hi⟩ := tblWord_ready hs
  rw [tableRead, hc, refuseIf_false, ok_bind, hw, ok_bind]
  exact error_bind (dstWrite_uninit b _ (by rwa [dst.initialised_congr hi])) _

theorem mulOperand_uninit {d : MulPair} {p : PtrMode} {rs : Reg} {s : State} (x y : Bool) (rb : Reg)
    (h : s.initialised rs = false) (h1 : (Operand.ptr p rs).modified ≠ some (pairLow (pairOfMul d)))
    (h2 : (Operand.ptr p rs).modified ≠ some (pairHigh (pairOfMul d))) :
    finish s (mulOperand x y rb d (.ptr p rs) s) = .next (deviceReset .uninitW s) := by
  refine finish_uninit ?_
  have hsrc : srcVal .word (.ptr p rs) s = .error (.reset .uninitW) := srcVal_uninit .word h
  cases hm : (Operand.ptr p rs).modified with
  | none => simp only [mulOperand, hm, refuseIf_false, ok_bind, hsrc]; rfl
  | some r =>
    have hl : (r == pairLow (pairOfMul d)) = false := by simpa [hm] using h1
    have hh : (r == pairHigh (pairOfMul d)) = false := by simpa [hm] using h2
    simp only [mulOperand, hm, hl, hh, Bool.or_false, refuseIf_false, ok_bind, hsrc]
    rfl

theorem execMovDLd_uninit {rd : Pair} {p : PtrMode} {rs : Reg} {s : State} (h : s.initialised rs = false)
    (h1 : rs ≠ pairLow rd) (h2 : rs ≠ pairHigh rd) :
    execMovDLd rd (.ptr p) rs s = .next (deviceReset .uninitW s) := by
  refine finish_uninit ?_
  simp only [modeOperand, Operand.addresses, beq_eq_false_iff_ne.mpr h1, beq_eq_false_iff_ne.mpr h2, Bool.or_false,
    refuseIf_false, ok_bind]
  exact error_bind (ea_uninit (o := .ptr p rs) 4 true h) _

/-- The instructions with two operands go through the shared operations above; a table read tests its own pointer (R271), so only its
source is claimed here. -/
theorem operandsOf_uninit {i : Instr} {b : Size} {src dst : Operand} {s : State} (hi : operandsOf i = some (b, src, dst))
    (hc : collides src dst = false)
    (h : src.initialised s = false ∨ (familyOf i ≠ .table ∧ sourceReady b src s = true ∧ dst.initialised s = false)) :
    exec i s = .next (deviceReset .uninitW s) := by
  have hany : src.initialised s = false ∨ (sourceReady b src s = true ∧ dst.initialised s = false) :=
    h.imp_right And.right
  unfold operandsOf at hi
  split at hi
  · cases hi; exact moveBetween_uninit hc hany
  · cases hi; exact moveBetween_uninit hc hany
  · cases hi; exact moveBetween_uninit hc hany
  · cases hi; exact execAddWs_uninit _ hc hany
  · cases hi; exact shiftOne_uninit .asr hc hany
  · cases hi; exact shiftOne_uninit .lsr hc hany
  · cases hi; exact shiftOne_uninit .sl hc hany
  · cases hi; exact tableRead_uninit tblLow hc (h.resolve_right fun hn => hn.1 rfl)
  · cases hi; exact tableRead_uninit tblHigh hc (h.resolve_right fun hn => hn.1 rfl)
  · cases hi

/-- Settles O52: each form reaches the address of its uninitialised register before it changes anything. -/
theorem uninitPointerResets : Obligations.UninitPointerResets := by
  refine ⟨?movOffLd, ?movOffSt, ?operands, ?tables, ?addLit5, ?bits, ?multiplies, ?movDLd, ?movDSt⟩
  case movOffLd =>
    intro b k rd rs s h
    exact finish_uninit (error_bind (eaSlit10_uninit b true k h) _)
  case movOffSt =>
    intro b k rd rs s h
    exact finish_uninit (error_bind (eaSlit10_uninit b false k h) _)
  case operands =>
    intro i b src dst s hi hc h
    exact operandsOf_uninit hi hc h
  case tables =>
    intro b q rd p rs s hc hs h
    exact ⟨tableRead_dst_uninit tblLow hc hs h, tableRead_dst_uninit tblHigh hc hs h⟩
  case addLit5 =>
    intro b rb q rd k s h
    exact finish_uninit (error_bind (dstWriteFlagged_uninit b _ (o := .ptr q rd) h) _)
  case bits =>
    intro j b p rs s h
    exact ⟨finish_uninit (error_bind (ea_uninit (o := .ptr p rs) (sizeBytes b) true h) _),
      finish_uninit (error_bind (srcVal_uninit (o := .ptr p rs) .word h) _)⟩
  case multiplies =>
    intro rb d p rs s h h1 h2
    exact ⟨mulOperand_uninit true true rb h h1 h2, mulOperand_uninit true false rb h h1 h2,
      mulOperand_uninit false true rb h h1 h2, mulOperand_uninit false false rb h h1 h2⟩
  case movDLd =>
    intro rd p rs s h h1 h2
    exact execMovDLd_uninit h h1 h2
  case movDSt =>
    intro p rd rs s h
    exact finish_uninit (error_bind (ea_uninit (o := .ptr p rd) 4 false h) _)

end Sys2Proof.Machine
end

section
/-! SUPPORT. Data memory outside the core registers (O54, O59, O60): what an address from 0x0800 on reaches, and what an access to
RAM, to the PSV window, and to nothing does. -/

namespace Sys2Proof.Machine

/-! ## Dispatch -/

section Dispatch

variable {s : State} {b : Size} {a : Word}

/-- From 0x0800 on there is no core register and no peripheral (R70, R72). -/
theorem regionOf_high (b : Size) (s : State) (h : 0x0800 ≤ a.toNat) :
    regionOf s b a =
      if s.corcon.psv ∧ 0x8000 ≤ a.toNat then .psv
      else if a.toNat + sizeBytes b - 1 ≤ s.device.ramEnd.toNat then .ram
      else .unimplemented := by
  have hc : coreRegAt s.device.sfr a = none := if_neg (Nat.not_lt.mpr h)
  have hp : ¬ a.toNat ≤ 0x07FF := by omega
  simp only [regionOf, hc, h, hp, true_and, if_false]

/-- The open window hides what else is at its addresses (R72). -/
theorem regionOf_psv (b : Size) (hp : s.corcon.psv = true) (h : 0x8000 ≤ a.toNat) : regionOf s b a = .psv := by
  rw [regionOf_high b s (by omega), if_pos ⟨hp, h⟩]

theorem regionOf_unimplemented (h : 0x0800 ≤ a.toNat) (hr : s.device.ramEnd.toNat < a.toNat + sizeBytes b - 1)
    (hw : s.corcon.psv = false ∨ a.toNat < 0x8000) : regionOf s b a = .unimplemented := by
  have hp : ¬ (s.corcon.psv = true ∧ 0x8000 ≤ a.toNat) := by
    rintro ⟨h1, h2⟩
    rcases hw with h3 | h3
    · exact absurd (h1.symm.trans h3) nofun
    · omega
  rw [regionOf_high b s h, if_neg hp, if_neg (Nat.not_le.mpr hr)]

/-- RAM is what is implemented and not behind the open window (R72, R77). -/
theorem regionOf_ram_iff : regionOf s b a = .ram ↔
    0x0800 ≤ a.toNat ∧ a.toNat + sizeBytes b - 1 ≤ s.device.ramEnd.toNat ∧
      ¬ (s.corcon.psv = true ∧ 0x8000 ≤ a.toNat) := by
  constructor
  · intro h
    obtain ⟨h1, h2⟩ := regionOf_ram h
    exact ⟨h1, h2, fun ⟨hp, hw⟩ => nomatch (regionOf_psv b hp hw).symm.trans h⟩
  · rintro ⟨h1, h2, h3⟩
    rw [regionOf_high b s h1, if_neg h3, if_pos h2]

theorem misaligned_eq_false (h : b = .word → a.getLsbD 0 = false) : misaligned b a = false := by
  cases b with
  | word => exact h rfl
  | byte => rfl

/-- An address error comes before anything else that the access would do (R74). -/
theorem memRead_misaligned (h : misaligned b a = true) : memRead b a s = .error (.fault (.addressError a)) := if_pos h

theorem memWrite_misaligned (v : Word) (h : misaligned b a = true) :
    memWrite b a v s = .error (.fault (.addressError a)) := if_pos h

/-- Where nothing is, an access is an address error whether it is aligned or not (R74, R79). -/
theorem memRead_unimplemented (h : regionOf s b a = .unimplemented) :
    memRead b a s = .error (.fault (.addressError a)) := by
  cases hm : misaligned b a with
  | true => exact memRead_misaligned hm
  | false => simp [memRead, hm, h]

theorem memWrite_unimplemented (v : Word) (h : regionOf s b a = .unimplemented) :
    memWrite b a v s = .error (.fault (.addressError a)) := by
  cases hm : misaligned b a with
  | true => exact memWrite_misaligned v hm
  | false => simp [memWrite, hm, h]

theorem memRead_of_ram (hm : misaligned b a = false) (h : regionOf s b a = .ram) :
    memRead b a s = .ok (ramRead s b a, s) := by
  simp [memRead, hm, h]

theorem memWrite_of_ram (v : Word) (hm : misaligned b a = false) (h : regionOf s b a = .ram) :
    memWrite b a v s = .ok (ramWrite b a v s) := by
  simp [memWrite, hm, h]

theorem memRead_of_psv (hm : misaligned b a = false) (h : regionOf s b a = .psv) :
    memRead b a s = .ok (psvRead b a s) := by
  simp [memRead, hm, h]

theorem memWrite_of_psv (v : Word) (hm : misaligned b a = false) (h : regionOf s b a = .psv) :
    memWrite b a v s = .error (.refuse .psvWrite) := by
  simp [memWrite, hm, h]

/-- PCL and PCH are not accessible as data (R32). -/
theorem memRead_pc {c : CoreReg} (hm : misaligned b a = false) (hc : coreRegAt s.device.sfr a = some c)
    (h : coreWord s c = .error (.refuse .pcDataAccess)) : memRead b a s = .error (.refuse .pcDataAccess) := by
  simp [memRead, hm, regionOf_core hc, coreRead, h]

theorem coreWrite_pc {c : CoreReg} (h : c = .pcl ∨ c = .pch) (b : Size) (a v : Word) (s : State) :
    coreWrite b a c v s = .error (.refuse .pcDataAccess) := by
  rcases h with rfl | rfl <;> cases b <;> rfl

end Dispatch

/-! ## RAM -/

section Ram

variable {s : State} {a : Word}

@[simp] theorem ramWrite_corcon (b : Size) (a v : Word) (s : State) : (ramWrite b a v s).corcon = s.corcon := by
  cases b <;> rfl

@[simp] theorem ramWrite_device (b : Size) (a v : Word) (s : State) : (ramWrite b a v s).device = s.device := by
  cases b <;> rfl

/-- A RAM write changes no address's region. -/
theorem regionOf_ramWrite (b c : Size) (a x v : Word) (s : State) :
    regionOf (ramWrite b a v s) c x = regionOf s c x :=
  regionOf_congr c x (ramWrite_corcon b a v s) (ramWrite_device b a v s)

theorem joinBytes_high_low (v : Word) : joinBytes (highByte v) (lowByte v) = v := by
  have h : v.extractLsb' 8 8 ++ v.extractLsb' 0 8 = v.extractLsb' 0 16 :=
    BitVec.extractLsb'_append_extractLsb'_eq_extractLsb' rfl
  rw [joinBytes, highByte, lowByte, h, BitVec.extractLsb'_eq_self]

/-- A byte at the address of a RAM write is the low byte of the value, at either size (R71). -/
theorem ramRead_ramWrite_low (b : Size) (a v : Word) (s : State) :
    ramRead (ramWrite b a v s) .byte a = byteWord (lowByte v) := by
  rw [ramRead, ramWrite_ramByte, if_pos rfl]

/-- The byte after it is the high byte of a word written (R71). -/
theorem ramByte_ramWrite_high (a v : Word) (s : State) :
    (ramWrite .word a v s).ramByte (a.toNat + 1) = highByte v := by
  rw [ramWrite_ramByte, if_neg (by omega), if_pos ⟨rfl, rfl⟩]

theorem ramRead_ramWrite_word (a v : Word) (s : State) : ramRead (ramWrite .word a v s) .word a = v := by
  rw [ramRead, ramByte_ramWrite_high, ramWrite_ramByte, if_pos rfl, joinBytes_high_low]

theorem toNat_next_of_even (ea : a.getLsbD 0 = false) : (a + 1).toNat = a.toNat + 1 := by
  have e : a.toNat % 2 = 0 := by simpa [BitVec.getLsbD, Nat.testBit_zero] using ea
  have hl := a.isLt
  rw [BitVec.toNat_add, show (1 : Word).toNat = 1 from rfl]
  omega

/-- An aligned word of RAM is two bytes of RAM: neither data space nor the window ends inside it (R71, R77). -/
theorem ramWord_regions (h : ramWord s a = true) :
    a.getLsbD 0 = false ∧ regionOf s .word a = .ram ∧ regionOf s .byte a = .ram ∧ regionOf s .byte (a + 1) = .ram := by
  simp only [ramWord, Bool.and_eq_true, Bool.not_eq_true', beq_iff_eq] at h
  obtain ⟨ea, hr⟩ := h
  have e : a.toNat % 2 = 0 := by simpa [isOdd, BitVec.getLsbD, Nat.testBit_zero] using ea
  obtain ⟨h1, h2, h3⟩ := regionOf_ram_iff.mp hr
  simp only [sizeBytes] at h2
  refine ⟨ea, hr, regionOf_ram_iff.mpr ⟨h1, ?_, h3⟩, regionOf_ram_iff.mpr ?_⟩
  · simp only [sizeBytes]; omega
  · rw [toNat_next_of_even ea]
    exact ⟨by omega, h2, fun ⟨hp, hw⟩ => h3 ⟨hp, by omega⟩⟩

end Ram

/-- Settles O54: a write of RAM is `ramWrite`, which changes no region, so that the reads after it are RAM reads of the bytes that
it left. -/
theorem ramReadAfterWrite : Obligations.RamReadAfterWrite := by
  refine ⟨fun a v s h => ?word, fun a v s hr => ?byte⟩
  case word =>
    obtain ⟨ea, hw, hlo, hhi⟩ := ramWord_regions h
    have hm : misaligned .word a = false := misaligned_eq_false fun _ => ea
    refine ⟨ramWrite .word a v s, memWrite_of_ram v hm hw, ?_, ?_, ?_, fun n h1 h2 => ?_, fun hs => ramWrite_wf v hs hw⟩
    · rw [memRead_of_ram hm (by rwa [regionOf_ramWrite]), ramRead_ramWrite_word]
    · rw [memRead_of_ram rfl (by rwa [regionOf_ramWrite]), ramRead_ramWrite_low]
    · rw [memRead_of_ram rfl (by rwa [regionOf_ramWrite]), ramRead, toNat_next_of_even ea, ramByte_ramWrite_high]
    · rw [ramWrite_ramByte, if_neg h1, if_neg fun h => h2 h.2]
  case byte =>
    refine ⟨ramWrite .byte a v s, memWrite_of_ram v rfl hr, ?_, fun n h1 => ?_, fun hs => ramWrite_wf v hs hr⟩
    · rw [memRead_of_ram rfl (by rwa [regionOf_ramWrite]), ramRead_ramWrite_low]
    · rw [ramWrite_ramByte, if_neg h1, if_neg nofun]

/-! ## Accesses and fetches that do not exist -/

theorem quiet_iff {s : State} : quiet s = true ↔
    s.power = .running ∧ s.pcOut = false ∧ s.pendingTraps.highest = none ∧
      ∀ r, bestRequest s.pending = some r → accepts s r.priority = false := by
  unfold quiet
  cases bestRequest s.pending <;> simp [and_assoc]

/-- A quiet step runs the instruction at the PC, or stops at its fetch (R303). -/
theorem step_quiet {s : State} (h : quiet s = true) : step s = stepInstruction s := by
  obtain ⟨hpow, hpc, htrap, hreq⟩ := quiet_iff.mp h
  simp only [step, cpuStep, hpow, boundary, hpc, htrap, Bool.false_eq_true, if_false]
  split
  · rfl
  · next r hr => simp only [hreq r hr, Bool.false_eq_true, if_false]

theorem fetch_outside {s : State} (hpc : s.pcOut = false) (h : s.progWord s.pc.toNat = none) :
    fetch s = .error (.fault (.fetch s.pc.toNat)) := by
  simp [fetch, hpc, h]

/-- Settles O59: the alignment test comes first, then what the address reaches, and a fetch stops before
anything is decoded. -/
theorem badAddressesStop : Obligations.BadAddressesStop := by
  refine ⟨fun a v s h => ⟨memRead_misaligned h, memWrite_misaligned v h⟩, fun b a v s h hr hw => ?nothing,
    fun b a v s hb hc => ?pc, fun s hq hn => ?fetch, fun s hp ho => ?range⟩
  case nothing =>
    have hu : regionOf s b a = .unimplemented := regionOf_unimplemented h hr hw
    exact ⟨memRead_unimplemented hu, memWrite_unimplemented v hu⟩
  case pc =>
    have hm : misaligned b a = false := misaligned_eq_false hb
    rcases hc with hc | hc
    · exact ⟨memRead_pc hm hc rfl, (memWrite_core hc hm v).trans (coreWrite_pc (.inl rfl) b a v s)⟩
    · exact ⟨memRead_pc hm hc rfl, (memWrite_core hc hm v).trans (coreWrite_pc (.inr rfl) b a v s)⟩
  case fetch =>
    obtain ⟨-, hpc, -, -⟩ := quiet_iff.mp hq
    rw [step_quiet hq, stepInstruction, fetch_outside hpc hn]
    rfl
  case range =>
    simp [step, cpuStep, hp, boundary, ho]

/-! ## The PSV window -/

/-- Masking an address with 0x7FFE keeps its bits 14 to 1 and clears bit 0. -/
theorem extractLsb'_and_7FFE (a : Word) : (a &&& 0x7FFE).extractLsb' 0 15 = a.extractLsb' 1 14 ++ 0#1 := by
  apply BitVec.eq_of_getLsbD_eq
  intro i hi
  simp only [BitVec.getLsbD_extractLsb', BitVec.getLsbD_and, BitVec.getLsbD_append]
  interval_cases i <;> simp

/-- The program address of a PSV access in numbers (R81). -/
theorem psvAddr_toNat (s : State) (a : Word) :
    (psvAddr s a).toNat = s.psvpag.toNat * 2 ^ 15 + a.toNat % 2 ^ 15 / 2 * 2 := by
  have hlow : (a.extractLsb' 1 14 ++ 0#1).toNat = a.toNat % 2 ^ 15 / 2 * 2 := by
    rw [BitVec.toNat_append, BitVec.extractLsb'_toNat, Nat.shiftRight_eq_div_pow, BitVec.toNat_zero, Nat.or_zero,
      Nat.shiftLeft_eq]
    omega
  rw [psvAddr, extractLsb'_and_7FFE, BitVec.toNat_append, ← Nat.shiftLeft_add_eq_or_of_lt (BitVec.isLt _), hlow,
    Nat.shiftLeft_eq]

theorem progRead_of_progWord {s : State} {p : ProgAddr} {w : ProgWord} (h : s.progWord p.toNat = some w) :
    progRead p s = (w, s) := by
  rw [progRead, h]

/-- A word read through the window gives the low 16 bits of the program word, where program memory has it, and leaves only its
note (R81). -/
theorem psvRead_word {s : State} {a : Word} {w : ProgWord} (h : s.progWord (psvAddr s a).toNat = some w) :
    psvRead .word a s = (w.extractLsb' 0 16, s.touch s.pendingTraps.stackError s.free (s.notes.psvReads + 1)) := by
  rw [psvRead, progRead_of_progWord h]
  rfl

/-- The bytes of the low word of a program word. -/
theorem selectByte_progWord (a : Word) (w : ProgWord) :
    selectByte a (w.extractLsb' 0 16) = if a.getLsbD 0 then w.extractLsb' 8 8 else w.extractLsb' 0 8 := by
  have hi : highByte (w.extractLsb' 0 16) = w.extractLsb' 8 8 := by
    simp [highByte, BitVec.extractLsb'_extractLsb'_of_le]
  have lo : lowByte (w.extractLsb' 0 16) = w.extractLsb' 0 8 := by
    simp [lowByte, BitVec.extractLsb'_extractLsb'_of_le]
  rw [selectByte, hi, lo, isOdd]

/-- A byte read gives the half of them that the address selects (R71, R81). -/
theorem psvRead_byte {s : State} {a : Word} {w : ProgWord} (h : s.progWord (psvAddr s a).toNat = some w) :
    psvRead .byte a s =
      (byteWord (if a.getLsbD 0 then w.extractLsb' 8 8 else w.extractLsb' 0 8),
        s.touch s.pendingTraps.stackError s.free (s.notes.psvReads + 1)) := by
  rw [psvRead, progRead_of_progWord h, ← selectByte_progWord]
  rfl

/-- Settles O60: the open window is reached before RAM, and a read of it is a read of program memory at R81's address. -/
theorem psvWindow : Obligations.PsvWindow := by
  refine ⟨fun a w s hp ha hw => ?read, fun b a v s hp ha hb => ?write⟩
  case read =>
    rw [← psvAddr_toNat] at hw
    have hr (b : Size) : regionOf s b a = .psv := regionOf_psv b hp ha
    have word (ea : a.getLsbD 0 = false) :=
      (memRead_of_psv (misaligned_eq_false fun _ => ea) (hr .word)).trans (congrArg _ (psvRead_word hw))
    have byte := (memRead_of_psv rfl (hr .byte)).trans (congrArg _ (psvRead_byte hw))
    exact ⟨fun ea => ⟨_, word ea, rfl, rfl, rfl⟩, ⟨_, byte, rfl, rfl, rfl⟩⟩
  case write => exact memWrite_of_psv v (misaligned_eq_false hb) (regionOf_psv b hp ha)

end Sys2Proof.Machine
end

section
/-! SUPPORT. The formats of the instruction words (O1, O2, O3; 30_encoding.md R102, R105 to R107, R110): a word has the encoding of a
format with some operands exactly where its fields are those operands, so that one lemma for each format serves the decoder and the
encoder. -/

namespace Sys2Proof.Laws

/-! ## Fields -/

section Fields

variable {w : ProgWord} {lo len : Nat}

theorem field_lt (w : ProgWord) (lo len : Nat) : field w lo len < 2 ^ len := Nat.mod_lt _ (Nat.two_pow_pos len)

theorem regField_eq_iff {r : Reg} : regField w lo = r ↔ field w lo 4 = r.val := by
  rw [Fin.ext_iff, regField, Fin.val_ofNat, Nat.mod_eq_of_lt (b := 16) (field_lt w lo 4)]

theorem pairField_eq_iff {d : Pair} : pairField w lo = d ↔ field w lo 3 = d.val := by
  rw [Fin.ext_iff, pairField, Fin.val_ofNat, Nat.mod_eq_of_lt (b := 8) (field_lt w lo 3)]

theorem bitsField_eq_iff {k : BitVec len} : bitsField w lo len = k ↔ field w lo len = k.toNat := by
  rw [← BitVec.toNat_inj, bitsField, BitVec.toNat_ofNat, Nat.mod_eq_of_lt (field_lt w lo len)]

theorem bit_eq_one_of_ne (h : ¬ field w lo 1 = 0) : field w lo 1 = 1 := by
  have := field_lt w lo 1
  omega

theorem bit_eq_zero_of_ne (h : ¬ field w lo 1 = 1) : field w lo 1 = 0 := by
  have := field_lt w lo 1
  omega

theorem sizeField_eq_iff {b : Size} : sizeField w lo = b ↔ field w lo 1 = b.code := by
  unfold sizeField
  split
  · next h => cases b <;> simp [h, Size.code]
  · next h => cases b <;> simp [bit_eq_zero_of_ne h, Size.code]

theorem destField_eq_iff {d : Dest} : destField w = d ↔ field w 13 1 = d.code := by
  unfold destField
  split
  · next h => cases d <;> simp [h, Dest.code]
  · next h => cases d <;> simp [bit_eq_zero_of_ne h, Dest.code]

theorem slit10Field_eq_iff {k : BitVec 10} :
    slit10Field w = k ↔
      field w 15 4 = k.toNat / 64 ∧ field w 11 3 = k.toNat / 8 % 8 ∧ field w 4 3 = k.toNat % 8 := by
  have := field_lt w 15 4; have := field_lt w 11 3; have := field_lt w 4 3
  rw [← BitVec.toNat_inj, slit10Field, BitVec.toNat_ofNat, Nat.mod_eq_of_lt (by omega)]
  omega

/-- A multiply's destination number is even, and not 14 (R103, R106). -/
theorem mulPairField_eq_some_iff {d : MulPair} : mulPairField w = some d ↔ field w 7 4 = 2 * d.val := by
  simp only [mulPairField, Option.ite_none_right_eq_some, Option.dite_none_right_eq_some, Option.some.injEq, Fin.ext_iff,
    exists_prop]
  omega

/-! ## Modes -/

theorem ptrMode_code_lt (p : PtrMode) : p.code < 8 := (ptrMode_code_le p).trans_lt (by decide)

theorem mode_code_lt (m : Mode) : m.code < 8 := (mode_code_le m).trans_lt (by decide)

theorem moveMode_code_lt (m : MoveMode) : m.code < 8 := (moveMode_code_le m).trans_lt (by decide)

/-- The literal forms have 11 in bits 6:5, which no mode has (R104). -/
theorem mode_code_high (m : Mode) : m.code / 2 ≠ 3 := by
  have := mode_code_le m
  omega

theorem ptrModeOf_eq_some_iff {n : Nat} {p : PtrMode} : ptrModeOf n = some p ↔ n = p.code := by
  constructor
  · unfold ptrModeOf
    split <;> rintro ⟨⟩ <;> rfl
  · rintro rfl
    cases p <;> rfl

theorem modeOf_eq_some_iff {n : Nat} {m : Mode} : modeOf n = some m ↔ n = m.code := by
  constructor
  · unfold modeOf
    split
    · rintro ⟨⟩; assumption
    · intro h
      obtain ⟨p, hp, rfl⟩ := Option.map_eq_some_iff.mp h
      exact ptrModeOf_eq_some_iff.mp hp
  · rintro rfl
    rcases m with _ | p
    · rfl
    · cases p <;> rfl

theorem moveModeOf_eq_some_iff {n : Nat} {m : MoveMode} : moveModeOf n = some m ↔ n = m.code := by
  constructor
  · unfold moveModeOf
    split_ifs
    · rintro ⟨⟩; assumption
    · rintro ⟨⟩; assumption
    · rintro ⟨⟩; assumption
    · intro h
      obtain ⟨p, hp, rfl⟩ := Option.map_eq_some_iff.mp h
      exact ptrModeOf_eq_some_iff.mp hp
  · rintro rfl
    rcases m with _ | p | _ | _
    · rfl
    · cases p <;> rfl
    · rfl
    · rfl

/-! ## Opcodes -/

variable {op : Nat}

/-- The decoder goes by the top four bits, the next four, and then bit 15 or bit 19. -/
theorem field_15_9 {a b c : Nat} (h20 : field w 20 4 = a) (h16 : field w 16 4 = b) (h15 : field w 15 1 = c) :
    field w 15 9 = a * 32 + b * 2 + c := by
  simp only [field] at *
  omega

theorem field_16_8 {a b : Nat} (h20 : field w 20 4 = a) (h16 : field w 16 4 = b) : field w 16 8 = a * 16 + b := by
  simp only [field] at *
  omega

theorem field_19_5 {a b : Nat} (h20 : field w 20 4 = a) (h19 : field w 19 1 = b) : field w 19 5 = a * 2 + b := by
  simp only [field] at *
  omega

theorem parts_of_field_15_9 (h : field w 15 9 = op) :
    field w 20 4 = op / 32 ∧ field w 16 4 = op / 2 % 16 ∧ field w 15 1 = op % 2 := by
  simp only [field] at *
  omega

theorem parts_of_field_16_8 (h : field w 16 8 = op) : field w 20 4 = op / 16 ∧ field w 16 4 = op % 16 := by
  simp only [field] at *
  omega

theorem parts_of_field_19_5 (h : field w 19 5 = op) : field w 20 4 = op / 2 ∧ field w 19 1 = op % 2 := by
  simp only [field] at *
  omega

end Fields

/-! ## Formats -/

section Formats

variable {w : ProgWord} {op : Nat}

theorem eq_ofNat_iff {n : Nat} (h : n < 2 ^ 24) : w = BitVec.ofNat 24 n ↔ w.toNat = n := by
  rw [← BitVec.toNat_inj, BitVec.toNat_ofNat, Nat.mod_eq_of_lt h]

theorem eq_encFile_iff {b : Size} {d : Dest} {f : BitVec 13} (hop : op < 2 ^ 9) :
    w = BitVec.ofNat 24 (encFile op b d f) ↔
      field w 15 9 = op ∧ sizeField w 14 = b ∧ destField w = d ∧ bitsField w 0 13 = f := by
  rw [eq_ofNat_iff (encFile_lt hop b d f), sizeField_eq_iff, destField_eq_iff, bitsField_eq_iff]
  have := size_code_le b; have := dest_code_le d; have := f.isLt; have := w.isLt
  simp only [encFile, field]
  omega

theorem eq_encWsWd_iff {b : Size} {q p : Nat} {rd rs : Reg} (hop : op < 2 ^ 9) (hq : q < 8) (hp : p < 8) :
    w = BitVec.ofNat 24 (encWsWd op b q rd p rs) ↔
      field w 15 9 = op ∧ sizeField w 14 = b ∧ field w 11 3 = q ∧ regField w 7 = rd ∧ field w 4 3 = p ∧
        regField w 0 = rs := by
  rw [eq_ofNat_iff (encWsWd_lt hop hq hp b rd rs), sizeField_eq_iff, regField_eq_iff, regField_eq_iff]
  have := size_code_le b; have := w.isLt
  simp only [encWsWd, field]
  omega

theorem eq_encWbWsWd_iff {rb : Reg} {b : Size} {q p : Nat} {rd rs : Reg} (hop : op < 2 ^ 5) (hq : q < 8) (hp : p < 8) :
    w = BitVec.ofNat 24 (encWbWsWd op rb b q rd p rs) ↔
      field w 19 5 = op ∧ regField w 15 = rb ∧ sizeField w 14 = b ∧ field w 11 3 = q ∧ regField w 7 = rd ∧
        field w 4 3 = p ∧ regField w 0 = rs := by
  have henc : encWbWsWd op rb b q rd p rs = encWsWd (op * 2 ^ 4 + rb.val) b q rd p rs := by
    unfold encWbWsWd encWsWd
    omega
  have hsplit : field w 15 9 = op * 2 ^ 4 + rb.val ↔ field w 19 5 = op ∧ regField w 15 = rb := by
    rw [regField_eq_iff]
    simp only [field]
    omega
  rw [henc, eq_encWsWd_iff (by omega) hq hp, hsplit, and_assoc]

theorem eq_encMul_iff {rb : Reg} {d : MulPair} {p : Mode} {rs : Reg} (hop : op < 2 ^ 9) :
    w = BitVec.ofNat 24 (encMul op rb d p rs) ↔
      field w 15 9 = op ∧ regField w 11 = rb ∧ mulPairField w = some d ∧ field w 4 3 = p.code ∧
        regField w 0 = rs := by
  rw [eq_ofNat_iff (encMul_lt hop rb d p rs), regField_eq_iff, mulPairField_eq_some_iff, regField_eq_iff]
  have := mode_code_lt p; have := w.isLt
  simp only [encMul, field]
  omega

theorem eq_encMulLit_iff {rb : Reg} {d : MulPair} {k : BitVec 5} (hop : op < 2 ^ 9) :
    w = BitVec.ofNat 24 (encMulLit op rb d k) ↔
      field w 15 9 = op ∧ regField w 11 = rb ∧ mulPairField w = some d ∧ field w 5 2 = 3 ∧ bitsField w 0 5 = k := by
  rw [eq_ofNat_iff (encMulLit_lt hop rb d k), regField_eq_iff, mulPairField_eq_some_iff, bitsField_eq_iff]
  have := k.isLt; have := w.isLt
  simp only [encMulLit, field]
  omega

theorem eq_encShiftN_iff {rb rd : Reg} {sel k : Nat} (hop : op < 2 ^ 9) (hs : sel < 8) (hk : k < 16) :
    w = BitVec.ofNat 24 (encShiftN op rb rd sel k) ↔
      field w 15 9 = op ∧ regField w 11 = rb ∧ regField w 7 = rd ∧ field w 4 3 = sel ∧ field w 0 4 = k := by
  rw [eq_ofNat_iff (encShiftN_lt hop hs hk rb rd), regField_eq_iff, regField_eq_iff]
  have := w.isLt
  simp only [encShiftN, field]
  omega

theorem eq_encDiv_iff {u t v d : Nat} {rn : Reg} (hu : u < 2) (ht : t < 16) (hv : v < 16) (hd : d < 2) :
    w = BitVec.ofNat 24 (encDiv u t v d rn) ↔
      field w 15 9 = 0x1B0 + u ∧ field w 11 4 = t ∧ field w 7 4 = v ∧ field w 6 1 = d ∧ field w 4 2 = 0 ∧
        regField w 0 = rn := by
  rw [eq_ofNat_iff (encDiv_lt hu ht hv hd rn), regField_eq_iff]
  have := w.isLt
  simp only [encDiv, field]
  omega

theorem eq_encOff10_iff {b : Size} {k : BitVec 10} {rd rs : Reg} (hop : op < 2 ^ 5) :
    w = BitVec.ofNat 24 (encOff10 op b k rd rs) ↔
      field w 19 5 = op ∧ sizeField w 14 = b ∧ slit10Field w = k ∧ regField w 7 = rd ∧ regField w 0 = rs := by
  have henc : encOff10 op b k rd rs =
      encWbWsWd op ⟨k.toNat / 64, by omega⟩ b (k.toNat / 8 % 8) rd (k.toNat % 8) rs := rfl
  rw [henc, eq_encWbWsWd_iff hop (by omega) (by omega), regField_eq_iff, slit10Field_eq_iff]
  tauto

theorem eq_encLit10_iff {b : Size} {k : BitVec 10} {rd : Reg} (hop : op < 2 ^ 9) :
    w = BitVec.ofNat 24 (encLit10 op b k rd) ↔
      field w 15 9 = op ∧ sizeField w 14 = b ∧ bitsField w 4 10 = k ∧ regField w 0 = rd := by
  rw [eq_ofNat_iff (encLit10_lt hop b k rd), sizeField_eq_iff, bitsField_eq_iff, regField_eq_iff]
  have := size_code_le b; have := k.isLt; have := w.isLt
  simp only [encLit10, field]
  omega

theorem eq_encBitF_iff {j : BitVec 3} {f : BitVec 13} (hop : op < 2 ^ 8) :
    w = BitVec.ofNat 24 (encBitF op j f) ↔ field w 16 8 = op ∧ bitsField w 13 3 = j ∧ bitsField w 0 13 = f := by
  rw [eq_ofNat_iff (encBitF_lt hop j f), bitsField_eq_iff, bitsField_eq_iff]
  have := j.isLt; have := f.isLt; have := w.isLt
  simp only [encBitF, field]
  omega

theorem eq_encRel_iff {n : BitVec 16} (hop : op < 2 ^ 8) :
    w = BitVec.ofNat 24 (encRel op n) ↔ field w 16 8 = op ∧ bitsField w 0 16 = n := by
  rw [eq_ofNat_iff (encRel_lt hop n), bitsField_eq_iff]
  have := n.isLt; have := w.isLt
  simp only [encRel, field]
  omega

end Formats

/-! ## Rows with a format of their own -/

section Rows

variable {w : ProgWord} {op : Nat}

theorem eq_directMove_iff {f : BitVec 15} {r : Reg} (hop : op < 2 ^ 5) :
    w = BitVec.ofNat 24 (op * 2 ^ 19 + f.toNat * 2 ^ 4 + r.val) ↔
      field w 19 5 = op ∧ bitsField w 4 15 = f ∧ regField w 0 = r := by
  have := f.isLt; have := w.isLt
  rw [eq_ofNat_iff (by omega), bitsField_eq_iff, regField_eq_iff]
  simp only [field]
  omega

theorem eq_lit14_iff {k : BitVec 14} (hop : op < 2 ^ 8) :
    w = BitVec.ofNat 24 (op * 2 ^ 16 + k.toNat) ↔
      field w 16 8 = op ∧ field w 14 2 = 0 ∧ bitsField w 0 14 = k := by
  have := k.isLt; have := w.isLt
  rw [eq_ofNat_iff (by omega), bitsField_eq_iff]
  simp only [field]
  omega

theorem eq_abs23_iff {t : BitVec 22} (hop : op < 2 ^ 8) :
    w = BitVec.ofNat 24 (op * 2 ^ 16 + t.toNat % 2 ^ 15 * 2) ↔
      field w 16 8 = op ∧ field w 0 1 = 0 ∧ field w 1 15 = t.toNat % 2 ^ 15 := by
  have := w.isLt
  rw [eq_ofNat_iff (by omega)]
  simp only [field]
  omega

theorem eq_movBLit8_iff {k : BitVec 8} {rd : Reg} :
    w = BitVec.ofNat 24 (encodeFirst (.movBLit8 k rd)) ↔
      field w 16 8 = 0xB3 ∧ field w 12 4 = 0xC ∧ bitsField w 4 8 = k ∧ regField w 0 = rd := by
  have := k.isLt; have := w.isLt
  rw [eq_ofNat_iff (EncodingFits.movBLit8 k rd), bitsField_eq_iff, regField_eq_iff]
  simp only [encodeFirst, field]
  omega

theorem eq_movLit16_iff {k : BitVec 16} {rd : Reg} :
    w = BitVec.ofNat 24 (encodeFirst (.movLit16 k rd)) ↔
      field w 20 4 = 0x2 ∧ bitsField w 4 16 = k ∧ regField w 0 = rd := by
  have := k.isLt; have := w.isLt
  rw [eq_ofNat_iff (EncodingFits.movLit16 k rd), bitsField_eq_iff, regField_eq_iff]
  simp only [encodeFirst, field]
  omega

theorem eq_movDLd_iff {rd : Pair} {p : Mode} {rs : Reg} :
    w = BitVec.ofNat 24 (encodeFirst (.movDLd rd p rs)) ↔
      field w 16 8 = 0xBE ∧ field w 11 5 = 0 ∧ pairField w 8 = rd ∧ field w 7 1 = 0 ∧ field w 4 3 = p.code ∧
        regField w 0 = rs := by
  have := mode_code_lt p; have := w.isLt
  rw [eq_ofNat_iff (EncodingFits.movDLd rd p rs), pairField_eq_iff, regField_eq_iff]
  simp only [encodeFirst, field]
  omega

theorem eq_movDSt_iff {q : Mode} {rd : Reg} {rs : Pair} :
    w = BitVec.ofNat 24 (encodeFirst (.movDSt q rd rs)) ↔
      field w 16 8 = 0xBE ∧ field w 14 2 = 2 ∧ field w 11 3 = q.code ∧ regField w 7 = rd ∧ field w 4 3 = 0 ∧
        pairField w 1 = rs ∧ field w 0 1 = 0 := by
  have := mode_code_lt q; have := w.isLt
  rw [eq_ofNat_iff (EncodingFits.movDSt q rd rs), pairField_eq_iff, regField_eq_iff]
  simp only [encodeFirst, field]
  omega

theorem eq_lnk_iff {k : BitVec 13} :
    w = BitVec.ofNat 24 (encodeFirst (.lnk k)) ↔
      field w 16 8 = 0xFA ∧ field w 14 2 = 0 ∧ bitsField w 1 13 = k ∧ field w 0 1 = 0 := by
  have := k.isLt; have := w.isLt
  rw [eq_ofNat_iff (EncodingFits.lnk k), bitsField_eq_iff]
  simp only [encodeFirst, field]
  omega

theorem eq_addLit5_iff {b : Size} {rb : Reg} {q : Mode} {rd : Reg} {k : BitVec 5} :
    w = BitVec.ofNat 24 (encodeFirst (.addLit5 b rb q rd k)) ↔
      field w 19 5 = 0x08 ∧ sizeField w 14 = b ∧ regField w 15 = rb ∧ field w 11 3 = q.code ∧ regField w 7 = rd ∧
        field w 5 2 = 3 ∧ bitsField w 0 5 = k := by
  have := size_code_le b; have := mode_code_lt q; have := k.isLt; have := w.isLt
  rw [eq_ofNat_iff (EncodingFits.addLit5 b rb q rd k), sizeField_eq_iff, regField_eq_iff, regField_eq_iff,
    bitsField_eq_iff]
  simp only [encodeFirst, field]
  omega

theorem eq_bsetWs_iff {j : BitVec 4} {b : Size} {p : Mode} {rs : Reg} :
    w = BitVec.ofNat 24 (encodeFirst (.bsetWs j b p rs)) ↔
      field w 16 8 = 0xA0 ∧ bitsField w 12 4 = j ∧ field w 11 1 = 0 ∧ sizeField w 10 = b ∧ field w 7 3 = 0 ∧
        field w 4 3 = p.code ∧ regField w 0 = rs := by
  have := j.isLt; have := size_code_le b; have := mode_code_lt p; have := w.isLt
  rw [eq_ofNat_iff (EncodingFits.bsetWs j b p rs), bitsField_eq_iff, sizeField_eq_iff, regField_eq_iff]
  simp only [encodeFirst, field]
  omega

theorem eq_btscWs_iff {j : BitVec 4} {p : Mode} {rs : Reg} :
    w = BitVec.ofNat 24 (encodeFirst (.btscWs j p rs)) ↔
      field w 16 8 = 0xA7 ∧ bitsField w 12 4 = j ∧ field w 7 5 = 0 ∧ field w 4 3 = p.code ∧ regField w 0 = rs := by
  have := j.isLt; have := mode_code_lt p; have := w.isLt
  rw [eq_ofNat_iff (EncodingFits.btscWs j p rs), bitsField_eq_iff, regField_eq_iff]
  simp only [encodeFirst, field]
  omega

theorem eq_repeatWn_iff {rs : Reg} :
    w = BitVec.ofNat 24 (encodeFirst (.repeatWn rs)) ↔
      field w 16 8 = 0x09 ∧ field w 4 12 = 0x800 ∧ regField w 0 = rs := by
  have := w.isLt
  rw [eq_ofNat_iff (EncodingFits.repeatWn rs), regField_eq_iff]
  simp only [encodeFirst, field]
  omega

theorem eq_pwrsav_iff {k : BitVec 1} :
    w = BitVec.ofNat 24 (encodeFirst (.pwrsav k)) ↔
      field w 16 8 = 0xFE ∧ field w 1 15 = 0x2000 ∧ bitsField w 0 1 = k := by
  have := k.isLt; have := w.isLt
  rw [eq_ofNat_iff (EncodingFits.pwrsav k), bitsField_eq_iff]
  simp only [encodeFirst, field]
  omega

/-- A word without operands is its top byte and its low 16 bits. -/
theorem eq_fixed {x : Nat} (h16 : field w 16 8 = op) (h0 : field w 0 16 = x) :
    w = BitVec.ofNat 24 (op * 2 ^ 16 + x) := by
  have := w.isLt
  simp only [field] at h16 h0
  exact (eq_ofNat_iff (by omega)).mpr (by omega)

theorem encodeFirst_nop (x : BitVec 16) : encodeFirst (.nop x) = encRel 0x00 x := (Nat.zero_add _).symm

end Rows

end Sys2Proof.Laws
end

section
/-! SUPPORT. The decoder and the encoder agree (O1, O2, O3): what the decoder accepts is well formed and encodes to its word, branch by
branch of the decoder, and the word of a well-formed instruction decodes to it, constructor by constructor (30_encoding.md R103,
R104, R113). -/

namespace Sys2Proof.Laws

/-! ## Decoders that several rows share -/

section Shared

variable {w : ProgWord} {op : Nat} {i : Instr}

/-- The modes of a word of format WS_WD or TBL, read through the codes of the table (R107). -/
theorem wsWd_eq_some_iff {α β : Type} {f : Nat → Option α} {g : Nat → Option β} {cf : α → Nat} {cg : β → Nat}
    {mk : Size → α → Reg → β → Reg → Instr} (hf : ∀ {n x}, f n = some x ↔ n = cf x) (hg : ∀ {n x}, g n = some x ↔ n = cg x)
    (hcf : ∀ x, cf x < 8) (hcg : ∀ x, cg x < 8) (hop : op < 2 ^ 9) (h : field w 15 9 = op) :
    ((f (field w 11 3)).bind fun q =>
      (g (field w 4 3)).map fun p => mk (sizeField w 14) q (regField w 7) p (regField w 0)) = some i ↔
      ∃ b q rd p rs, w = BitVec.ofNat 24 (encWsWd op b (cf q) rd (cg p) rs) ∧ mk b q rd p rs = i := by
  simp only [Option.bind_eq_some_iff, Option.map_eq_some_iff, hf, hg]
  constructor
  · rintro ⟨q, hq, p, hp, rfl⟩
    exact ⟨_, q, _, p, _, (eq_encWsWd_iff hop (hcf q) (hcg p)).mpr ⟨h, rfl, hq, rfl, hp, rfl⟩, rfl⟩
  · rintro ⟨b, q, rd, p, rs, hw, rfl⟩
    obtain ⟨-, rfl, hq, rfl, hp, rfl⟩ := (eq_encWsWd_iff hop (hcf q) (hcg p)).mp hw
    exact ⟨q, hq, p, hp, rfl⟩

theorem decodeWsWd_eq_some_iff {mk : Size → Mode → Reg → Mode → Reg → Instr} (hop : op < 2 ^ 9) (h : field w 15 9 = op) :
    decodeWsWd w mk = some i ↔
      ∃ b q rd p rs, w = BitVec.ofNat 24 (encWsWd op b q.code rd p.code rs) ∧ mk b q rd p rs = i :=
  wsWd_eq_some_iff modeOf_eq_some_iff modeOf_eq_some_iff mode_code_lt mode_code_lt hop h

theorem decodeTblRd_eq_some_iff {mk : Size → Mode → Reg → PtrMode → Reg → Instr} (hop : op < 2 ^ 9)
    (h : field w 15 9 = op) :
    decodeTblRd w mk = some i ↔
      ∃ b q rd p rs, w = BitVec.ofNat 24 (encWsWd op b q.code rd p.code rs) ∧ mk b q rd p rs = i :=
  wsWd_eq_some_iff modeOf_eq_some_iff ptrModeOf_eq_some_iff mode_code_lt ptrMode_code_lt hop h

theorem decodeTblWt_eq_some_iff {mk : Size → PtrMode → Reg → Mode → Reg → Instr} (hop : op < 2 ^ 9)
    (h : field w 15 9 = op) :
    decodeTblWt w mk = some i ↔
      ∃ b q rd p rs, w = BitVec.ofNat 24 (encWsWd op b q.code rd p.code rs) ∧ mk b q rd p rs = i :=
  wsWd_eq_some_iff ptrModeOf_eq_some_iff modeOf_eq_some_iff ptrMode_code_lt mode_code_lt hop h

theorem field_5_2 (w : ProgWord) : field w 5 2 = field w 4 3 / 2 := by
  simp only [field]
  omega

/-- A mode in bits 6:4 is not the mark of a literal form (R104). -/
theorem field_5_2_of_mode {p : Mode} (h : field w 4 3 = p.code) : field w 5 2 ≠ 3 := by
  rw [field_5_2, h]
  exact mode_code_high p

theorem decodeMul_eq_some_iff {reg : Reg → MulPair → Mode → Reg → Instr}
    {lit : Option (Reg → MulPair → BitVec 5 → Instr)} (hop : op < 2 ^ 9) (h : field w 15 9 = op) :
    decodeMul w reg lit = some i ↔
      (∃ rb d p rs, w = BitVec.ofNat 24 (encMul op rb d p rs) ∧ reg rb d p rs = i) ∨
      (∃ rb d k mk, lit = some mk ∧ w = BitVec.ofNat 24 (encMulLit op rb d k) ∧ mk rb d k = i) := by
  simp only [decodeMul, Option.bind_eq_some_iff]
  constructor
  · rintro ⟨d, hd, hi⟩
    split at hi
    · next hl =>
      obtain ⟨mk, hm, rfl⟩ := Option.map_eq_some_iff.mp hi
      exact .inr ⟨_, d, _, mk, hm, (eq_encMulLit_iff hop).mpr ⟨h, rfl, hd, hl, rfl⟩, rfl⟩
    · obtain ⟨p, hp, rfl⟩ := Option.map_eq_some_iff.mp hi
      exact .inl ⟨_, d, p, _, (eq_encMul_iff hop).mpr ⟨h, rfl, hd, modeOf_eq_some_iff.mp hp, rfl⟩, rfl⟩
  · rintro (⟨rb, d, p, rs, hw, rfl⟩ | ⟨rb, d, k, mk, rfl, hw, rfl⟩)
    · obtain ⟨-, rfl, hd, hp, rfl⟩ := (eq_encMul_iff hop).mp hw
      refine ⟨d, hd, ?_⟩
      rw [if_neg (field_5_2_of_mode hp), modeOf_eq_some_iff.mpr hp, Option.map_some]
    · obtain ⟨-, rfl, hd, hl, rfl⟩ := (eq_encMulLit_iff hop).mp hw
      refine ⟨d, hd, ?_⟩
      rw [if_pos hl, Option.map_some]

theorem decodeShiftN_eq_some_iff {lit : Reg → Reg → BitVec 4 → Instr} {reg : Reg → Reg → Reg → Instr} (hop : op < 2 ^ 9)
    (h : field w 15 9 = op) :
    decodeShiftN w lit reg = some i ↔
      (∃ rb rd k, w = BitVec.ofNat 24 (encShiftN op rb rd 4 k.toNat) ∧ lit rb rd k = i) ∨
      (∃ rb rd rs, w = BitVec.ofNat 24 (encShiftN op rb rd 0 rs.val) ∧ reg rb rd rs = i) := by
  unfold decodeShiftN
  constructor
  · intro hi
    split_ifs at hi with h4 h0
    · cases hi
      exact .inl ⟨_, _, _, (eq_encShiftN_iff hop (by decide) (BitVec.isLt _)).mpr
        ⟨h, rfl, rfl, h4, bitsField_eq_iff.mp rfl⟩, rfl⟩
    · cases hi
      exact .inr ⟨_, _, _, (eq_encShiftN_iff hop (by decide) (Fin.isLt _)).mpr
        ⟨h, rfl, rfl, h0, regField_eq_iff.mp rfl⟩, rfl⟩
  · rintro (⟨rb, rd, k, hw, rfl⟩ | ⟨rb, rd, rs, hw, rfl⟩)
    · obtain ⟨-, rfl, rfl, h4, hk⟩ := (eq_encShiftN_iff hop (by decide) k.isLt).mp hw
      rw [if_pos h4, bitsField_eq_iff.mpr hk]
    · obtain ⟨-, rfl, rfl, h0, hs⟩ := (eq_encShiftN_iff hop (by decide) rs.isLt).mp hw
      rw [if_neg (by omega), if_pos h0, regField_eq_iff.mpr hs]

/-- The dividend of a double divide stands twice in its word: its high register is the next one after its low one (R103). -/
theorem pair_eq_iff {d : Pair} : field w 7 4 = 2 * d.val ↔ pairField w 8 = d ∧ field w 7 1 = 0 := by
  rw [pairField_eq_iff]
  simp only [field]
  omega

theorem decodeDiv_eq_some_iff {single : Reg → Reg → Instr} {double : Pair → Reg → Instr} {u : Nat} (hu : u < 2)
    (h : field w 15 9 = 0x1B0 + u) :
    decodeDiv w single double = some i ↔
      (∃ rm rn, 2 ≤ rn.val ∧ w = BitVec.ofNat 24 (encDiv u 0 rm.val 0 rn) ∧ single rm rn = i) ∨
      (∃ rm rn, 2 ≤ rn.val ∧ w = BitVec.ofNat 24 (encDiv u (2 * rm.val + 1) (2 * rm.val) 1 rn) ∧ double rm rn = i) := by
  have hn : (regField w 0).val = field w 0 4 := (regField_eq_iff.mp rfl).symm
  unfold decodeDiv
  constructor
  · intro hi
    split_ifs at hi with h2 hs ht hd
    · cases hi
      exact .inl ⟨_, _, hn ▸ h2.1, (eq_encDiv_iff hu (by decide) (Fin.isLt _) (by decide)).mpr
        ⟨h, ht, regField_eq_iff.mp rfl, hs, h2.2, rfl⟩, rfl⟩
    · cases hi
      have hv := pair_eq_iff.mpr ⟨rfl, hd.1⟩
      exact .inr ⟨_, _, hn ▸ h2.1, (eq_encDiv_iff hu (by omega) (by omega) (by decide)).mpr
        ⟨h, by rw [hd.2, hv], hv, bit_eq_one_of_ne hs, h2.2, rfl⟩, rfl⟩
  · rintro (⟨rm, rn, h2, hw, rfl⟩ | ⟨rm, rn, h2, hw, rfl⟩)
    · obtain ⟨-, ht, hv, hs, h0, rfl⟩ := (eq_encDiv_iff hu (by decide) rm.isLt (by decide)).mp hw
      rw [if_pos ⟨hn ▸ h2, h0⟩, if_pos hs, if_pos ht, regField_eq_iff.mpr hv]
    · obtain ⟨-, ht, hv, hs, h0, rfl⟩ := (eq_encDiv_iff hu (by omega) (by omega) (by decide)).mp hw
      obtain ⟨hp, h7⟩ := pair_eq_iff.mp hv
      rw [if_pos ⟨hn ▸ h2, h0⟩, if_neg (by omega), if_pos ⟨h7, by omega⟩, hp]

end Shared

/-! ## What a decoded word encodes -/

/-- The instruction has an encoding whose first word is `w`. -/
structure Encodes (w : ProgWord) (i : Instr) : Prop where
  wf : i.wellFormed = true
  word : w = BitVec.ofNat 24 (encodeFirst i)

section Sound

variable {w w2 : ProgWord} {i : Instr}

theorem absTarget_low (w w2 : ProgWord) : (absTarget w w2).toNat % 2 ^ 15 = field w 1 15 := by
  have := field_lt w 1 15; have := field_lt w2 0 7
  rw [absTarget, BitVec.toNat_ofNat]
  omega

theorem decode0_sound (h20 : field w 20 4 = 0x0) (h : decode0 w w2 = some i) : Encodes w i := by
  unfold decode0 at h
  split at h
  · next h16 =>
    cases h
    refine ⟨rfl, ?_⟩
    rw [encodeFirst_nop, eq_encRel_iff (by decide)]
    exact ⟨field_16_8 h20 h16, rfl⟩
  · next h16 =>
    split_ifs at h with h0
    cases h
    exact ⟨rfl, (eq_abs23_iff (by decide)).mpr ⟨field_16_8 h20 h16, h0, (absTarget_low w w2).symm⟩⟩
  · next h16 =>
    split_ifs at h with h0
    cases h
    exact ⟨rfl, (eq_abs23_iff (by decide)).mpr ⟨field_16_8 h20 h16, h0, (absTarget_low w w2).symm⟩⟩
  · next h16 =>
    split_ifs at h with h15
    cases h
    exact ⟨rfl, (eq_encLit10_iff (by decide)).mpr ⟨field_15_9 h20 h16 h15, rfl, rfl, rfl⟩⟩
  · next h16 =>
    split_ifs at h with h0 h0
    · cases h
      exact ⟨rfl, eq_fixed (field_16_8 h20 h16) h0⟩
    · cases h
      exact ⟨rfl, eq_fixed (field_16_8 h20 h16) h0⟩
  · next h16 =>
    cases h
    exact ⟨rfl, (eq_encRel_iff (by decide)).mpr ⟨field_16_8 h20 h16, rfl⟩⟩
  · next h16 =>
    split_ifs at h with h14 h4
    · cases h
      exact ⟨rfl, (eq_lit14_iff (by decide)).mpr ⟨field_16_8 h20 h16, h14, rfl⟩⟩
    · cases h
      exact ⟨rfl, eq_repeatWn_iff.mpr ⟨field_16_8 h20 h16, h4, rfl⟩⟩
  · cases h

theorem decode3_sound (h20 : field w 20 4 = 0x3) (h : decode3 w = some i) : Encodes w i := by
  unfold decode3 at h
  split at h <;> cases h <;> exact ⟨rfl, (eq_encRel_iff (by decide)).mpr ⟨field_16_8 h20 ‹_›, rfl⟩⟩

theorem decode4_sound (h20 : field w 20 4 = 0x4) (h : decode4 w = some i) : Encodes w i := by
  unfold decode4 at h
  split at h
  · next h19 =>
    obtain ⟨q, hq, hi⟩ := Option.bind_eq_some_iff.mp h
    rw [modeOf_eq_some_iff] at hq
    split at hi
    · next hl =>
      cases hi
      exact ⟨rfl, eq_addLit5_iff.mpr ⟨field_19_5 h20 h19, rfl, rfl, hq, rfl, hl, rfl⟩⟩
    · obtain ⟨p, hp, rfl⟩ := Option.map_eq_some_iff.mp hi
      rw [modeOf_eq_some_iff] at hp
      exact ⟨rfl, (eq_encWbWsWd_iff (by decide) (mode_code_lt q) (mode_code_lt p)).mpr
        ⟨field_19_5 h20 h19, rfl, rfl, hq, rfl, hp, rfl⟩⟩
  · cases h

theorem isPushForm_iff {b : Size} {h : MoveMode} {rd : Reg} :
    isPushForm b h rd = true ↔ b = .word ∧ h = .ptr .postInc ∧ rd = 15 := by
  simp [isPushForm, and_assoc]

theorem isPopForm_iff {b : Size} {g : MoveMode} {rs : Reg} :
    isPopForm b g rs = true ↔ b = .word ∧ g = .ptr .preDec ∧ rs = 15 := by
  simp [isPopForm, and_assoc]

/-- The three instructions of P9 words are well formed and have the word of the move (R104). -/
theorem moveForm_encodes (b : Size) (rb : Reg) (h : MoveMode) (rd : Reg) (g : MoveMode) (rs : Reg) :
    (moveForm b rb h rd g rs).wellFormed = true ∧
      encodeFirst (moveForm b rb h rd g rs) = encWbWsWd 0x0F rb b h.code rd g.code rs := by
  unfold moveForm
  split_ifs with hpush hpop
  · obtain ⟨rfl, rfl, rfl⟩ := isPushForm_iff.mp hpush
    exact ⟨rfl, rfl⟩
  · obtain ⟨rfl, rfl, rfl⟩ := isPopForm_iff.mp hpop
    exact ⟨by simpa [Instr.wellFormed] using hpush, rfl⟩
  · exact ⟨by simp [Instr.wellFormed, hpush, hpop], rfl⟩

theorem decode7_sound (h20 : field w 20 4 = 0x7) (h : decode7 w = some i) : Encodes w i := by
  unfold decode7 at h
  split at h
  · next h19 =>
    obtain ⟨m, hm, hi⟩ := Option.bind_eq_some_iff.mp h
    obtain ⟨g, hg, rfl⟩ := Option.map_eq_some_iff.mp hi
    obtain ⟨hwf, henc⟩ := moveForm_encodes (sizeField w 14) (regField w 15) m (regField w 7) g (regField w 0)
    refine ⟨hwf, ?_⟩
    rw [henc, eq_encWbWsWd_iff (by decide) (moveMode_code_lt m) (moveMode_code_lt g)]
    exact ⟨field_19_5 h20 h19, rfl, rfl, moveModeOf_eq_some_iff.mp hm, rfl, moveModeOf_eq_some_iff.mp hg, rfl⟩
  · cases h

theorem decode8_sound (h20 : field w 20 4 = 0x8) (h : decode8 w = some i) : Encodes w i := by
  unfold decode8 at h
  split at h
  · next h19 =>
    cases h
    exact ⟨rfl, (eq_directMove_iff (by decide)).mpr ⟨field_19_5 h20 h19, rfl, rfl⟩⟩
  · next h19 =>
    cases h
    exact ⟨rfl, (eq_directMove_iff (by decide)).mpr ⟨field_19_5 h20 (bit_eq_one_of_ne h19), rfl, rfl⟩⟩

theorem decode9_sound (h20 : field w 20 4 = 0x9) (h : decode9 w = some i) : Encodes w i := by
  unfold decode9 at h
  split at h
  · next h19 =>
    cases h
    exact ⟨rfl, (eq_encOff10_iff (by decide)).mpr ⟨field_19_5 h20 h19, rfl, rfl, rfl, rfl⟩⟩
  · next h19 =>
    cases h
    exact ⟨rfl, (eq_encOff10_iff (by decide)).mpr ⟨field_19_5 h20 (bit_eq_one_of_ne h19), rfl, rfl, rfl, rfl⟩⟩

theorem bsetWs_wellFormed_iff {j : BitVec 4} {b : Size} {p : Mode} {rs : Reg} :
    (Instr.bsetWs j b p rs).wellFormed = true ↔ ¬ (b = .byte ∧ 7 < j.toNat) := by
  cases b <;> simp [Instr.wellFormed]

theorem decodeA_sound (h20 : field w 20 4 = 0xA) (h : decodeA w = some i) : Encodes w i := by
  unfold decodeA at h
  split at h
  · next h16 =>
    split at h
    · next hz =>
      obtain ⟨p, hp, hi⟩ := Option.bind_eq_some_iff.mp h
      split_ifs at hi with hj
      cases hi
      refine ⟨bsetWs_wellFormed_iff.mpr ?_, eq_bsetWs_iff.mpr
        ⟨field_16_8 h20 h16, rfl, hz.1, rfl, hz.2, modeOf_eq_some_iff.mp hp, rfl⟩⟩
      rwa [← bitsField_eq_iff.mp rfl]
    · cases h
  · next h16 =>
    split_ifs at h with h7
    obtain ⟨p, hp, rfl⟩ := Option.map_eq_some_iff.mp h
    exact ⟨rfl, eq_btscWs_iff.mpr ⟨field_16_8 h20 h16, rfl, h7, modeOf_eq_some_iff.mp hp, rfl⟩⟩
  · next h16 =>
    cases h
    exact ⟨rfl, (eq_encBitF_iff (by decide)).mpr ⟨field_16_8 h20 h16, rfl, rfl⟩⟩
  · next h16 =>
    cases h
    exact ⟨rfl, (eq_encBitF_iff (by decide)).mpr ⟨field_16_8 h20 h16, rfl, rfl⟩⟩
  · cases h

theorem movDLd_wellFormed_iff {d : Pair} {p : Mode} {rs : Reg} :
    (Instr.movDLd d p rs).wellFormed = true ↔ ¬ (p = .direct ∧ rs.val % 2 = 1) := by
  by_cases h : p = .direct <;> simp [Instr.wellFormed, h]

theorem movDSt_wellFormed_iff {q : Mode} {rd : Reg} {d : Pair} :
    (Instr.movDSt q rd d).wellFormed = true ↔ ¬ (q = .direct ∧ rd.val % 2 = 1) := by
  by_cases h : q = .direct <;> simp [Instr.wellFormed, h]

theorem regField_mod_two {lo : Nat} : (regField w lo).val % 2 = field w lo 1 := by
  rw [← regField_eq_iff.mp rfl]
  simp only [field]
  omega

theorem decodeMovD_sound (hop : field w 16 8 = 0xBE) (h : decodeMovD w = some i) : Encodes w i := by
  unfold decodeMovD at h
  split at h
  · next h11 =>
    split at h
    · next h7 =>
      obtain ⟨p, hp, hi⟩ := Option.bind_eq_some_iff.mp h
      split_ifs at hi with ho
      cases hi
      refine ⟨movDLd_wellFormed_iff.mpr ?_, eq_movDLd_iff.mpr ⟨hop, h11, rfl, h7, modeOf_eq_some_iff.mp hp, rfl⟩⟩
      rwa [regField_mod_two]
    · cases h
  · split at h
    · next hst =>
      obtain ⟨q, hq, hi⟩ := Option.bind_eq_some_iff.mp h
      split_ifs at hi with ho
      cases hi
      refine ⟨movDSt_wellFormed_iff.mpr ?_,
        eq_movDSt_iff.mpr ⟨hop, hst.1, modeOf_eq_some_iff.mp hq, rfl, hst.2.1, rfl, hst.2.2⟩⟩
      rwa [regField_mod_two]
    · cases h

theorem decodeB_sound (h20 : field w 20 4 = 0xB) (h : decodeB w = some i) : Encodes w i := by
  unfold decodeB at h
  split at h
  · next h16 =>
    split_ifs at h with h15
    cases h
    exact ⟨rfl, (eq_encLit10_iff (by decide)).mpr ⟨field_15_9 h20 h16 h15, rfl, rfl, rfl⟩⟩
  · next h16 =>
    split_ifs at h with h12
    cases h
    exact ⟨rfl, eq_movBLit8_iff.mpr ⟨field_16_8 h20 h16, h12, rfl, rfl⟩⟩
  · next h16 =>
    split_ifs at h with h15
    cases h
    exact ⟨rfl, (eq_encFile_iff (by decide)).mpr ⟨field_15_9 h20 h16 h15, rfl, rfl, rfl⟩⟩
  · next h16 =>
    split_ifs at h with hb
    cases h
    exact ⟨rfl, (eq_encFile_iff (by decide)).mpr ⟨field_15_9 h20 h16 hb.1, rfl, destField_eq_iff.mpr hb.2, rfl⟩⟩
  · next h16 =>
    split at h
    · next h15 =>
      rcases (decodeMul_eq_some_iff (by decide) (field_15_9 h20 h16 h15)).mp h with
        ⟨rb, d, p, rs, hw, rfl⟩ | ⟨rb, d, k, mk, hm, -⟩
      · exact ⟨rfl, hw⟩
      · cases hm
    · next h15 =>
      rcases (decodeMul_eq_some_iff (by decide) (field_15_9 h20 h16 (bit_eq_zero_of_ne h15))).mp h with
        ⟨rb, d, p, rs, hw, rfl⟩ | ⟨rb, d, k, mk, hm, hw, rfl⟩
      · exact ⟨rfl, hw⟩
      · cases hm
        exact ⟨rfl, hw⟩
  · next h16 =>
    split at h
    · next h15 =>
      rcases (decodeMul_eq_some_iff (by decide) (field_15_9 h20 h16 h15)).mp h with
        ⟨rb, d, p, rs, hw, rfl⟩ | ⟨rb, d, k, mk, hm, -⟩
      · exact ⟨rfl, hw⟩
      · cases hm
    · next h15 =>
      rcases (decodeMul_eq_some_iff (by decide) (field_15_9 h20 h16 (bit_eq_zero_of_ne h15))).mp h with
        ⟨rb, d, p, rs, hw, rfl⟩ | ⟨rb, d, k, mk, hm, hw, rfl⟩
      · exact ⟨rfl, hw⟩
      · cases hm
        exact ⟨rfl, hw⟩
  · next h16 =>
    split_ifs at h with h15
    · obtain ⟨b, q, rd, p, rs, hw, rfl⟩ := (decodeTblRd_eq_some_iff (by decide) (field_15_9 h20 h16 h15)).mp h
      exact ⟨rfl, hw⟩
    · obtain ⟨b, q, rd, p, rs, hw, rfl⟩ :=
        (decodeTblRd_eq_some_iff (by decide) (field_15_9 h20 h16 (bit_eq_one_of_ne h15))).mp h
      exact ⟨rfl, hw⟩
  · next h16 =>
    split_ifs at h with h15
    · obtain ⟨b, q, rd, p, rs, hw, rfl⟩ := (decodeTblWt_eq_some_iff (by decide) (field_15_9 h20 h16 h15)).mp h
      exact ⟨rfl, hw⟩
    · obtain ⟨b, q, rd, p, rs, hw, rfl⟩ :=
        (decodeTblWt_eq_some_iff (by decide) (field_15_9 h20 h16 (bit_eq_one_of_ne h15))).mp h
      exact ⟨rfl, hw⟩
  · next h16 =>
    split_ifs at h with hb
    cases h
    exact ⟨rfl, (eq_encFile_iff (by decide)).mpr ⟨field_15_9 h20 h16 hb.1, rfl, destField_eq_iff.mpr hb.2, rfl⟩⟩
  · next h16 => exact decodeMovD_sound (field_16_8 h20 h16) h
  · next h16 =>
    split_ifs at h with h15
    cases h
    exact ⟨rfl, (eq_encFile_iff (by decide)).mpr ⟨field_15_9 h20 h16 h15, rfl, rfl, rfl⟩⟩
  · cases h

theorem decodeD_sound (h20 : field w 20 4 = 0xD) (h : decodeD w = some i) : Encodes w i := by
  unfold decodeD at h
  split at h
  · next h16 =>
    split_ifs at h with h15
    obtain ⟨b, q, rd, p, rs, hw, rfl⟩ := (decodeWsWd_eq_some_iff (by decide) (field_15_9 h20 h16 h15)).mp h
    exact ⟨rfl, hw⟩
  · next h16 =>
    split_ifs at h with h15
    · obtain ⟨b, q, rd, p, rs, hw, rfl⟩ := (decodeWsWd_eq_some_iff (by decide) (field_15_9 h20 h16 h15)).mp h
      exact ⟨rfl, hw⟩
    · obtain ⟨b, q, rd, p, rs, hw, rfl⟩ :=
        (decodeWsWd_eq_some_iff (by decide) (field_15_9 h20 h16 (bit_eq_zero_of_ne h15))).mp h
      exact ⟨rfl, hw⟩
  · next h16 =>
    split_ifs at h with h15
    cases h
    exact ⟨rfl, (eq_encFile_iff (by decide)).mpr ⟨field_15_9 h20 h16 h15, rfl, rfl, rfl⟩⟩
  · next h16 =>
    split_ifs at h with h15
    · cases h
      exact ⟨rfl, (eq_encFile_iff (by decide)).mpr ⟨field_15_9 h20 h16 h15, rfl, rfl, rfl⟩⟩
    · cases h
      exact ⟨rfl, (eq_encFile_iff (by decide)).mpr ⟨field_15_9 h20 h16 (bit_eq_zero_of_ne h15), rfl, rfl, rfl⟩⟩
  · next h16 =>
    split_ifs at h with h15
    · rcases (decodeDiv_eq_some_iff (u := 0) (by decide) (field_15_9 h20 h16 h15)).mp h with
        ⟨rm, rn, h2, hw, rfl⟩ | ⟨rm, rn, h2, hw, rfl⟩
      · exact ⟨decide_eq_true h2, hw⟩
      · exact ⟨decide_eq_true h2, hw⟩
    · rcases (decodeDiv_eq_some_iff (u := 1) (by decide) (field_15_9 h20 h16 (bit_eq_one_of_ne h15))).mp h with
        ⟨rm, rn, h2, hw, rfl⟩ | ⟨rm, rn, h2, hw, rfl⟩
      · exact ⟨decide_eq_true h2, hw⟩
      · exact ⟨decide_eq_true h2, hw⟩
  · next h16 =>
    split_ifs at h with h15
    rcases (decodeShiftN_eq_some_iff (by decide) (field_15_9 h20 h16 h15)).mp h with
      ⟨rb, rd, k, hw, rfl⟩ | ⟨rb, rd, rs, hw, rfl⟩
    · exact ⟨rfl, hw⟩
    · exact ⟨rfl, hw⟩
  · next h16 =>
    split_ifs at h with h15
    · rcases (decodeShiftN_eq_some_iff (by decide) (field_15_9 h20 h16 h15)).mp h with
        ⟨rb, rd, k, hw, rfl⟩ | ⟨rb, rd, rs, hw, rfl⟩
      · exact ⟨rfl, hw⟩
      · exact ⟨rfl, hw⟩
    · rcases (decodeShiftN_eq_some_iff (by decide) (field_15_9 h20 h16 (bit_eq_zero_of_ne h15))).mp h with
        ⟨rb, rd, k, hw, rfl⟩ | ⟨rb, rd, rs, hw, rfl⟩
      · exact ⟨rfl, hw⟩
      · exact ⟨rfl, hw⟩
  · cases h

theorem decodeF_sound (h20 : field w 20 4 = 0xF) (h : decodeF w = some i) : Encodes w i := by
  unfold decodeF at h
  split at h
  · next h16 =>
    split_ifs at h with hk h0
    · cases h
      exact ⟨rfl, eq_lnk_iff.mpr ⟨field_16_8 h20 h16, hk.1, rfl, hk.2⟩⟩
    · cases h
      exact ⟨rfl, eq_fixed (field_16_8 h20 h16) h0⟩
  · next h16 =>
    split_ifs at h with h14
    cases h
    exact ⟨rfl, (eq_lit14_iff (by decide)).mpr ⟨field_16_8 h20 h16, h14, rfl⟩⟩
  · next h16 =>
    split_ifs at h with hpush hpop h1 hreset
    · cases h
      exact ⟨rfl, eq_fixed (field_16_8 h20 h16) hpush⟩
    · cases h
      exact ⟨rfl, eq_fixed (field_16_8 h20 h16) hpop⟩
    · cases h
      exact ⟨rfl, eq_pwrsav_iff.mpr ⟨field_16_8 h20 h16, h1, rfl⟩⟩
    · cases h
      exact ⟨rfl, eq_fixed (field_16_8 h20 h16) hreset⟩
  · cases h

/-- What the decoder accepts is well formed, and the word is its first (R104). -/
theorem decodeFirst_sound (h : decodeFirst w w2 = some i) : Encodes w i := by
  unfold decodeFirst at h
  split at h
  · next h20 => exact decode0_sound h20 h
  · next h20 =>
    cases h
    exact ⟨rfl, eq_movLit16_iff.mpr ⟨h20, rfl, rfl⟩⟩
  · next h20 => exact decode3_sound h20 h
  · next h20 => exact decode4_sound h20 h
  · next h20 => exact decode7_sound h20 h
  · next h20 => exact decode8_sound h20 h
  · next h20 => exact decode9_sound h20 h
  · next h20 => exact decodeA_sound h20 h
  · next h20 => exact decodeB_sound h20 h
  · next h20 => exact decodeD_sound h20 h
  · next h20 => exact decodeF_sound h20 h
  · cases h

end Sound

/-! ## The decoder on an encoding -/

section Complete

variable {w w2 : ProgWord} {i : Instr}

theorem moveForm_movWsWd {b : Size} {rb : Reg} {h : MoveMode} {rd : Reg} {g : MoveMode} {rs : Reg}
    (hwf : (Instr.movWsWd b rb h rd g rs).wellFormed = true) : moveForm b rb h rd g rs = .movWsWd b rb h rd g rs := by
  simp only [Instr.wellFormed, Bool.and_eq_true, Bool.not_eq_true'] at hwf
  simp [moveForm, hwf]

theorem moveForm_push (rb : Reg) (g : MoveMode) (rs : Reg) :
    moveForm .word rb (.ptr .postInc) 15 g rs = .push rb g rs := rfl

theorem moveForm_pop {rb : Reg} {h : MoveMode} {rd : Reg} (hwf : (Instr.pop rb h rd).wellFormed = true) :
    moveForm .word rb h rd (.ptr .preDec) 15 = .pop rb h rd := by
  simp only [Instr.wellFormed, Bool.not_eq_true'] at hwf
  simp only [moveForm, hwf, Bool.false_eq_true, if_false]
  rfl

/-- A P9 word is decoded by its fields (R104). -/
theorem decodeFirst_encWbWsWd {b : Size} {rb : Reg} {h : MoveMode} {rd : Reg} {g : MoveMode} {rs : Reg}
    (hw : w = BitVec.ofNat 24 (encWbWsWd 0x0F rb b h.code rd g.code rs)) :
    decodeFirst w w2 = some (moveForm b rb h rd g rs) := by
  obtain ⟨hop, rfl, rfl, hh, rfl, hg, rfl⟩ :=
    (eq_encWbWsWd_iff (by decide) (moveMode_code_lt h) (moveMode_code_lt g)).mp hw
  obtain ⟨h20, h19⟩ := parts_of_field_19_5 hop
  simp [decodeFirst, decode7, h20, h19, moveModeOf_eq_some_iff.mpr hh, moveModeOf_eq_some_iff.mpr hg]

/-- The instruction is `CALL` or `GOTO` of the target `t`, the two rows of two words (R100). -/
def IsLong (i : Instr) (t : BitVec 22) : Prop := i = .call t ∨ i = .goto t

/-- The decoder gives back an instruction from its first word, and from the target's part in the second (R104). -/
theorem decodeFirst_complete (h : Encodes w i) (ht : ∀ t, IsLong i t → absTarget w w2 = t) :
    decodeFirst w w2 = some i := by
  have hw := h.word
  cases i with
  | movF b d f | addF b d f | asrF b d f | lsrF b d f | slF b d f =>
    obtain ⟨hop, rfl, rfl, rfl⟩ := (eq_encFile_iff (by decide)).mp hw
    obtain ⟨h20, h16, h15⟩ := parts_of_field_15_9 hop
    simp [decodeFirst, decodeB, decodeD, h20, h16, h15]
  | movWregF b f | mulF b f =>
    obtain ⟨hop, rfl, hd, rfl⟩ := (eq_encFile_iff (by decide)).mp hw
    obtain ⟨h20, h16, h15⟩ := parts_of_field_15_9 hop
    simp [decodeFirst, decodeB, h20, h16, h15, destField_eq_iff.mp hd, Dest.code]
  | movFWnd f r | movWnsF f r =>
    obtain ⟨hop, rfl, rfl⟩ := (eq_directMove_iff (by decide)).mp hw
    obtain ⟨h20, h19⟩ := parts_of_field_19_5 hop
    simp [decodeFirst, decode8, h20, h19]
  | movBLit8 k rd =>
    obtain ⟨hop, h12, rfl, rfl⟩ := eq_movBLit8_iff.mp hw
    obtain ⟨h20, h16⟩ := parts_of_field_16_8 hop
    simp [decodeFirst, decodeB, h20, h16, h12]
  | movLit16 k rd =>
    obtain ⟨h20, rfl, rfl⟩ := eq_movLit16_iff.mp hw
    simp [decodeFirst, h20]
  | movOffLd b k rd rs | movOffSt b k rd rs =>
    obtain ⟨hop, rfl, rfl, rfl, rfl⟩ := (eq_encOff10_iff (by decide)).mp hw
    obtain ⟨h20, h19⟩ := parts_of_field_19_5 hop
    simp [decodeFirst, decode9, h20, h19]
  | movWsWd b rb m rd g rs => rw [decodeFirst_encWbWsWd hw, moveForm_movWsWd h.wf]
  | push rb g rs => rw [decodeFirst_encWbWsWd (h := .ptr .postInc) hw, moveForm_push]
  | pop rb m rd => rw [decodeFirst_encWbWsWd (g := .ptr .preDec) hw, moveForm_pop h.wf]
  | movDLd rd p rs =>
    obtain ⟨hop, h11, rfl, h7, hp, rfl⟩ := eq_movDLd_iff.mp hw
    obtain ⟨h20, h16⟩ := parts_of_field_16_8 hop
    have hodd := movDLd_wellFormed_iff.mp h.wf
    rw [regField_mod_two] at hodd
    simp [decodeFirst, decodeB, decodeMovD, h20, h16, h11, h7, modeOf_eq_some_iff.mpr hp, hodd]
  | movDSt q rd rs =>
    obtain ⟨hop, h14, hq, rfl, h4, rfl, h0⟩ := eq_movDSt_iff.mp hw
    obtain ⟨h20, h16⟩ := parts_of_field_16_8 hop
    have hodd := movDSt_wellFormed_iff.mp h.wf
    rw [regField_mod_two] at hodd
    have h11 : field w 11 5 ≠ 0 := by
      simp only [field] at *
      omega
    simp [decodeFirst, decodeB, decodeMovD, h20, h16, h11, h14, h4, h0, modeOf_eq_some_iff.mpr hq, hodd]
  | pushS | popS | ulnk | ret | retfie | reset => rw [hw]; rfl
  | lnk k =>
    obtain ⟨hop, h14, rfl, h0⟩ := eq_lnk_iff.mp hw
    obtain ⟨h20, h16⟩ := parts_of_field_16_8 hop
    simp [decodeFirst, decodeF, h20, h16, h14, h0]
  | addLit10 b k rd | retlw b k rd =>
    obtain ⟨hop, rfl, rfl, rfl⟩ := (eq_encLit10_iff (by decide)).mp hw
    obtain ⟨h20, h16, h15⟩ := parts_of_field_15_9 hop
    simp [decodeFirst, decode0, decodeB, h20, h16, h15]
  | addLit5 b rb q rd k =>
    obtain ⟨hop, rfl, rfl, hq, rfl, hl, rfl⟩ := eq_addLit5_iff.mp hw
    obtain ⟨h20, h19⟩ := parts_of_field_19_5 hop
    simp [decodeFirst, decode4, h20, h19, modeOf_eq_some_iff.mpr hq, hl]
  | addWs b rb q rd p rs =>
    obtain ⟨hop, rfl, rfl, hq, rfl, hp, rfl⟩ :=
      (eq_encWbWsWd_iff (by decide) (mode_code_lt q) (mode_code_lt p)).mp hw
    obtain ⟨h20, h19⟩ := parts_of_field_19_5 hop
    simp [decodeFirst, decode4, h20, h19, modeOf_eq_some_iff.mpr hq, modeOf_eq_some_iff.mpr hp, field_5_2_of_mode hp]
  | bsetF j f | btscF j f =>
    obtain ⟨hop, rfl, rfl⟩ := (eq_encBitF_iff (by decide)).mp hw
    obtain ⟨h20, h16⟩ := parts_of_field_16_8 hop
    simp [decodeFirst, decodeA, h20, h16]
  | bsetWs j b p rs =>
    obtain ⟨hop, rfl, h11, rfl, h7, hp, rfl⟩ := eq_bsetWs_iff.mp hw
    obtain ⟨h20, h16⟩ := parts_of_field_16_8 hop
    have hbit := bsetWs_wellFormed_iff.mp h.wf
    rw [← bitsField_eq_iff.mp rfl] at hbit
    simp only [decodeFirst, decodeA, h20, h16, h11, h7, modeOf_eq_some_iff.mpr hp, if_neg hbit]
    rfl
  | btscWs j p rs =>
    obtain ⟨hop, rfl, h7, hp, rfl⟩ := eq_btscWs_iff.mp hw
    obtain ⟨h20, h16⟩ := parts_of_field_16_8 hop
    simp [decodeFirst, decodeA, h20, h16, h7, modeOf_eq_some_iff.mpr hp]
  | mulSS rb d p rs | mulSU rb d p rs | mulUS rb d p rs | mulUU rb d p rs =>
    have hop := ((eq_encMul_iff (by decide)).mp hw).1
    obtain ⟨h20, h16, h15⟩ := parts_of_field_15_9 hop
    simp only [decodeFirst, decodeB, h20, h16, h15]
    exact (decodeMul_eq_some_iff (by decide) hop).mpr (.inl ⟨rb, d, p, rs, hw, rfl⟩)
  | mulSULit rb d k | mulUULit rb d k =>
    have hop := ((eq_encMulLit_iff (by decide)).mp hw).1
    obtain ⟨h20, h16, h15⟩ := parts_of_field_15_9 hop
    simp only [decodeFirst, decodeB, h20, h16, h15]
    exact (decodeMul_eq_some_iff (by decide) hop).mpr (.inr ⟨rb, d, k, _, rfl, hw, rfl⟩)
  | divSW rm rn | divUW rm rn =>
    have hop := ((eq_encDiv_iff (by decide) (by decide) rm.isLt (by decide)).mp hw).1
    obtain ⟨h20, h16, h15⟩ := parts_of_field_15_9 hop
    simp only [decodeFirst, decodeD, h20, h16, h15]
    exact (decodeDiv_eq_some_iff (by decide) hop).mpr (.inl ⟨rm, rn, of_decide_eq_true h.wf, hw, rfl⟩)
  | divSD rm rn | divUD rm rn =>
    have hop := ((eq_encDiv_iff (by decide) (by omega) (by omega) (by decide)).mp hw).1
    obtain ⟨h20, h16, h15⟩ := parts_of_field_15_9 hop
    simp only [decodeFirst, decodeD, h20, h16, h15]
    exact (decodeDiv_eq_some_iff (by decide) hop).mpr (.inr ⟨rm, rn, of_decide_eq_true h.wf, hw, rfl⟩)
  | asrWs b q rd p rs | lsrWs b q rd p rs | slWs b q rd p rs =>
    have hop := ((eq_encWsWd_iff (by decide) (mode_code_lt q) (mode_code_lt p)).mp hw).1
    obtain ⟨h20, h16, h15⟩ := parts_of_field_15_9 hop
    simp only [decodeFirst, decodeD, h20, h16, h15]
    exact (decodeWsWd_eq_some_iff (by decide) hop).mpr ⟨b, q, rd, p, rs, hw, rfl⟩
  | asrLit rb rd k | lsrLit rb rd k | slLit rb rd k =>
    have hop := ((eq_encShiftN_iff (by decide) (by decide) k.isLt).mp hw).1
    obtain ⟨h20, h16, h15⟩ := parts_of_field_15_9 hop
    simp only [decodeFirst, decodeD, h20, h16, h15]
    exact (decodeShiftN_eq_some_iff (by decide) hop).mpr (.inl ⟨rb, rd, k, hw, rfl⟩)
  | asrWns rb rd rs | lsrWns rb rd rs | slWns rb rd rs =>
    have hop := ((eq_encShiftN_iff (by decide) (by decide) rs.isLt).mp hw).1
    obtain ⟨h20, h16, h15⟩ := parts_of_field_15_9 hop
    simp only [decodeFirst, decodeD, h20, h16, h15]
    exact (decodeShiftN_eq_some_iff (by decide) hop).mpr (.inr ⟨rb, rd, rs, hw, rfl⟩)
  | bra n | braOV n | braC n | braZ n | braN n | braLE n | braLT n | braLEU n | braNOV n | braNC n | braNZ n | braNN n
  | braGT n | braGE n | braGTU n | rcall n =>
    obtain ⟨hop, rfl⟩ := (eq_encRel_iff (by decide)).mp hw
    obtain ⟨h20, h16⟩ := parts_of_field_16_8 hop
    simp [decodeFirst, decode0, decode3, h20, h16]
  | call t | goto t =>
    have htarget : absTarget w w2 = t := ht t (by simp [IsLong])
    obtain ⟨hop, h0, -⟩ := (eq_abs23_iff (by decide)).mp hw
    obtain ⟨h20, h16⟩ := parts_of_field_16_8 hop
    simp [decodeFirst, decode0, h20, h16, h0, htarget]
  | repeatLit k | disi k =>
    obtain ⟨hop, h14, rfl⟩ := (eq_lit14_iff (by decide)).mp hw
    obtain ⟨h20, h16⟩ := parts_of_field_16_8 hop
    simp [decodeFirst, decode0, decodeF, h20, h16, h14]
  | repeatWn rs =>
    obtain ⟨hop, h4, rfl⟩ := eq_repeatWn_iff.mp hw
    obtain ⟨h20, h16⟩ := parts_of_field_16_8 hop
    have h14 : field w 14 2 ≠ 0 := by
      simp only [field] at *
      omega
    simp [decodeFirst, decode0, h20, h16, h14, h4]
  | nop x =>
    obtain ⟨hop, rfl⟩ := (eq_encRel_iff (by decide)).mp (encodeFirst_nop x ▸ hw)
    obtain ⟨h20, h16⟩ := parts_of_field_16_8 hop
    simp [decodeFirst, decode0, h20, h16]
  | pwrsav k =>
    obtain ⟨hop, h1, rfl⟩ := eq_pwrsav_iff.mp hw
    obtain ⟨h20, h16⟩ := parts_of_field_16_8 hop
    have h0 : field w 0 16 < 0xA000 ∧ field w 0 16 ≠ 0x8000 := by
      simp only [field] at *
      omega
    simp [decodeFirst, decodeF, h20, h16, h1, h0.1.ne, h0.2]
  | tblrdl b q rd p rs | tblrdh b q rd p rs =>
    have hop := ((eq_encWsWd_iff (by decide) (mode_code_lt q) (ptrMode_code_lt p)).mp hw).1
    obtain ⟨h20, h16, h15⟩ := parts_of_field_15_9 hop
    simp only [decodeFirst, decodeB, h20, h16, h15]
    exact (decodeTblRd_eq_some_iff (by decide) hop).mpr ⟨b, q, rd, p, rs, hw, rfl⟩
  | tblwtl b q rd p rs | tblwth b q rd p rs =>
    have hop := ((eq_encWsWd_iff (by decide) (ptrMode_code_lt q) (mode_code_lt p)).mp hw).1
    obtain ⟨h20, h16, h15⟩ := parts_of_field_15_9 hop
    simp only [decodeFirst, decodeB, h20, h16, h15]
    exact (decodeTblWt_eq_some_iff (by decide) hop).mpr ⟨b, q, rd, p, rs, hw, rfl⟩

end Complete

/-! ## Two-word instructions -/

section Long

variable {w w2 : ProgWord} {i : Instr} {t : BitVec 22}

theorem encode_of_long (h : IsLong i t) :
    encode i = [BitVec.ofNat 24 (encodeFirst i), BitVec.ofNat 24 (t.toNat / 2 ^ 15)] := by
  rcases h with rfl | rfl <;> rfl

theorem encode_of_short (h : ∀ t, ¬ IsLong i t) : encode i = [BitVec.ofNat 24 (encodeFirst i)] := by
  unfold encode
  split
  · next t => exact absurd (.inl rfl) (h t)
  · next t => exact absurd (.inr rfl) (h t)
  · rfl

/-- The second word holds the high bits of the target (R110, R234). -/
theorem eq_secondWord_iff :
    w2 = BitVec.ofNat 24 (t.toNat / 2 ^ 15) ↔ field w2 7 17 = 0 ∧ field w2 0 7 = t.toNat / 2 ^ 15 := by
  have := w2.isLt
  rw [eq_ofNat_iff (by omega)]
  simp only [field]
  omega

theorem absTarget_eq_iff :
    absTarget w w2 = t ↔ field w2 0 7 = t.toNat / 2 ^ 15 ∧ field w 1 15 = t.toNat % 2 ^ 15 := by
  have := field_lt w 1 15; have := field_lt w2 0 7
  rw [← BitVec.toNat_inj, absTarget, BitVec.toNat_ofNat]
  omega

theorem isTwoWord_iff : isTwoWord w = true ↔ (field w 16 8 = 0x02 ∨ field w 16 8 = 0x04) ∧ field w 0 1 = 0 := by
  simp [isTwoWord]

theorem decodeFirst_of_isTwoWord (w2 : ProgWord) (h : isTwoWord w = true) :
    ∃ i, IsLong i (absTarget w w2) ∧ decodeFirst w w2 = some i := by
  obtain ⟨hop | hop, h0⟩ := isTwoWord_iff.mp h
  · obtain ⟨h20, h16⟩ := parts_of_field_16_8 hop
    exact ⟨_, .inl rfl, by simp [decodeFirst, decode0, h20, h16, h0]⟩
  · obtain ⟨h20, h16⟩ := parts_of_field_16_8 hop
    exact ⟨_, .inr rfl, by simp [decodeFirst, decode0, h20, h16, h0]⟩

theorem Encodes.fields_of_long (h : Encodes w i) (hi : IsLong i t) :
    isTwoWord w = true ∧ field w 1 15 = t.toNat % 2 ^ 15 := by
  rcases hi with rfl | rfl
  · obtain ⟨hop, h0, hlow⟩ := (eq_abs23_iff (by decide)).mp h.word
    exact ⟨isTwoWord_iff.mpr ⟨.inl hop, h0⟩, hlow⟩
  · obtain ⟨hop, h0, hlow⟩ := (eq_abs23_iff (by decide)).mp h.word
    exact ⟨isTwoWord_iff.mpr ⟨.inr hop, h0⟩, hlow⟩

theorem Encodes.isTwoWord_of_short (h : Encodes w i) (hi : ∀ t, ¬ IsLong i t) : isTwoWord w = false := by
  by_contra htwo
  obtain ⟨j, hj, hd⟩ := decodeFirst_of_isTwoWord 0 (eq_true_of_ne_false htwo)
  have hi' : decodeFirst w 0 = some i := decodeFirst_complete h fun t ht => absurd ht (hi t)
  obtain rfl : j = i := Option.some.inj (hd.symm.trans hi')
  exact hi _ hj

theorem IsLong.target_unique {u : BitVec 22} (h : IsLong i t) (hu : IsLong i u) : t = u := by
  rcases h with rfl | rfl <;> rcases hu with h | h <;> cases h <;> rfl

end Long

/-! ## The decoder and the encoder -/

theorem decode_eq_ok_iff {w w2 : ProgWord} {i : Instr} :
    decode w w2 = .ok i ↔ (isTwoWord w = true → field w2 7 17 = 0) ∧ decodeFirst w w2 = some i := by
  unfold decode
  by_cases hm : isTwoWord w = true ∧ field w2 7 17 ≠ 0
  · simp [hm]
  · have hm' : (isTwoWord w && field w2 7 17 != 0) = false := by simpa using hm
    rw [hm']
    cases decodeFirst w w2 <;> simp_all

/-- Settles O1: each field is read back from where the encoder puts it, and `CALL` and `GOTO` alone look at the second word. -/
theorem decodeOfEncode : Obligations.DecodeOfEncode := by
  intro i x hwf
  have h : Encodes (BitVec.ofNat 24 (encodeFirst i)) i := ⟨hwf, rfl⟩
  by_cases hi : ∃ t, IsLong i t
  · obtain ⟨t, hi⟩ := hi
    rw [encode_of_long hi]
    obtain ⟨hz, hhigh⟩ := eq_secondWord_iff.mp (rfl : BitVec.ofNat 24 (t.toNat / 2 ^ 15) = _)
    refine decode_eq_ok_iff.mpr ⟨fun _ => hz, decodeFirst_complete h fun u hu => ?_⟩
    rw [← hi.target_unique hu]
    exact absTarget_eq_iff.mpr ⟨hhigh, (h.fields_of_long hi).2⟩
  · have hi' : ∀ t, ¬ IsLong i t := not_exists.mp hi
    rw [encode_of_short hi']
    refine decode_eq_ok_iff.mpr ⟨fun htwo => ?_, decodeFirst_complete h fun t ht => absurd ht (hi' t)⟩
    exact absurd htwo (by simp [h.isTwoWord_of_short hi'])

/-- Settles O2: the fields that the decoder reads and the bits that it tests are all of the word. -/
theorem encodeOfDecode : Obligations.EncodeOfDecode := by
  intro w w2 i hd
  obtain ⟨hz, hd⟩ := decode_eq_ok_iff.mp hd
  have h : Encodes w i := decodeFirst_sound hd
  refine ⟨h.wf, ?_⟩
  by_cases hi : ∃ t, IsLong i t
  · obtain ⟨t, hi⟩ := hi
    have htwo := (h.fields_of_long hi).1
    obtain ⟨j, hj, hjd⟩ := decodeFirst_of_isTwoWord w2 htwo
    obtain rfl : j = i := Option.some.inj (hjd.symm.trans hd)
    have hhigh := (absTarget_eq_iff.mp (hj.target_unique hi)).1
    rw [encode_of_long hi, if_pos htwo, ← h.word, ← eq_secondWord_iff.mpr ⟨hz htwo, hhigh⟩]
  · have hi' : ∀ t, ¬ IsLong i t := not_exists.mp hi
    rw [encode_of_short hi', if_neg (by simp [h.isTwoWord_of_short hi']), ← h.word]

/-- Settles O3: each word is the one of its instruction, whose decoding O1 gives, and the word of no row is refused. -/
theorem writtenWordsDecode : Obligations.WrittenWordsDecode :=
  ⟨decodeOfEncode (.movWsWd .word 0 .direct 1 .direct 2) 0 rfl,
    decodeOfEncode (.push 0 .direct 3) 0 rfl,
    decodeOfEncode (.addWs .word 0 .direct 5 (.ptr .ind) 4) 0 rfl,
    rfl,
    decodeOfEncode (.mulSS 0 1 .direct 1) 0 rfl,
    decodeOfEncode (.divSD 2 3) 0 rfl,
    decodeOfEncode (.asrWs .byte .direct 2 .direct 1) 0 rfl,
    decodeOfEncode (.braZ 0xFFFD) 0 rfl,
    decodeOfEncode (.call 0x0091A2) 0 rfl,
    decodeOfEncode (.repeatLit 17) 0 rfl,
    decodeOfEncode (.disi 5) 0 rfl,
    decodeOfEncode (.tblrdl .byte .direct 3 .postInc 1) 0 rfl⟩

end Sys2Proof.Laws
end

section
/-! SUPPORT. The refused forms (O38): each test that refuses an operand combination, and what comes before it in its instruction
(30_encoding.md R108 to R110; 10_state.md R42; 45_flow.md R237; 46_repeat.md R257; 47_system.md R271). -/

namespace Sys2Proof.Machine

/-! ## Stops -/

theorem finish_refuse {s : State} {r : Res State} {q : Refusal} (h : r = .error (.refuse q)) : finish s r = .refused q := by
  rw [h]
  rfl

theorem refuseIf_bind {α : Type} {hit : Bool} {q : Refusal} (h : hit = true) (f : Unit → Res α) :
    (refuseIf hit q >>= f) = .error (.refuse q) := by
  rw [h]
  rfl

/-- An instruction whose first test refuses it does nothing else. -/
theorem finish_refuseIf {s : State} {hit : Bool} {q : Refusal} (h : hit = true) (f : Unit → Res State) :
    finish s (refuseIf hit q >>= f) = .refused q := finish_refuse (refuseIf_bind h f)

/-! ## Collisions -/

theorem addresses_of_modified {o : Operand} {r : Reg} (h : o.modified = some r) : o.addresses r = true := by
  cases o with
  | reg x => cases h
  | ptr p x => cases p <;> simp_all [Operand.modified, Operand.addresses]
  | offset x y => cases h

/-- The four collisions of R109. -/
theorem collides_of_shared {src dst : Operand} {r : Reg}
    (h : (src.modified = some r ∧ dst.modified = some r) ∨ (src.modified = some r ∧ dst = .reg r) ∨
      (src.modified = some r ∧ dst.addresses r = true) ∨ (dst.modified = some r ∧ src.addresses r = true)) :
    collides src dst = true := by
  rcases h with ⟨hs, hd⟩ | ⟨hs, rfl⟩ | ⟨hs, hd⟩ | ⟨hd, hs⟩
  · simp [collides, hs, addresses_of_modified hd]
  · simp [collides, hs, Operand.isReg]
  · simp [collides, hs, hd]
  · simp [collides, hd, hs]

/-- The test for a collision comes first in every instruction with two operands (R109). -/
theorem exec_collides {i : Instr} {b : Size} {src dst : Operand} {s : State} (hi : operandsOf i = some (b, src, dst))
    (hc : collides src dst = true) : exec i s = .refused .registerCollision := by
  unfold operandsOf at hi
  split at hi <;> cases hi <;> exact finish_refuseIf hc _

theorem mulOperand_collides {d : MulPair} {src : Operand} {r : Reg} {s : State} (x y : Bool) (rb : Reg)
    (hm : src.modified = some r) (hr : r = pairLow (pairOfMul d) ∨ r = pairHigh (pairOfMul d)) :
    finish s (mulOperand x y rb d src s) = .refused .registerCollision := by
  refine finish_refuseIf ?_ _
  rw [hm]
  simpa using hr

theorem execMovDLd_collides {rd : Pair} {p : PtrMode} {rs : Reg} {s : State} (h : rs = pairLow rd ∨ rs = pairHigh rd) :
    execMovDLd rd (.ptr p) rs s = .refused .registerCollision := by
  refine finish_refuseIf ?_ _
  simpa [modeOperand, Operand.addresses] using h

/-! ## Operands that stop an instruction -/

/-- A byte-mode modification of W15 is refused before the pointer is read (R108). -/
theorem ea_byteW15 {o : Operand} (isRead : Bool) (s : State) (h : o.modified = some 15) :
    ea (sizeBytes .byte) isRead o s = .error (.refuse .byteModifyW15) :=
  refuseIf_bind (by simp [byteModifiesW15, sizeBytes, h]) _

theorem srcVal_byteW15 {o : Operand} (s : State) (h : o.modified = some 15) :
    srcVal .byte o s = .error (.refuse .byteModifyW15) := error_bind (ea_byteW15 true s h) _

theorem dstWrite_byteW15 {o : Operand} (v : Word) (s : State) (h : o.modified = some 15) :
    dstWrite .byte o v s = .error (.refuse .byteModifyW15) := error_bind (ea_byteW15 false s h) _

theorem dstWriteFlagged_byteW15 {o : Operand} (v : Word) (s : State) (h : o.modified = some 15) :
    dstWriteFlagged .byte o v s = .error (.refuse .byteModifyW15) := error_bind (ea_byteW15 false s h) _

theorem ea_mem {step : Nat} {isRead : Bool} {o : Operand} {s t : State} {p : Place} {a : Int}
    (h : ea step isRead o s = .ok (p, t)) (ha : o.addr step s = some a) : p = .mem a := by
  obtain ⟨-, -, e, n, -, -, h⟩ := ea_ok h
  cases o with
  | reg r => cases ha
  | ptr m r => cases ha; exact h.1
  | offset r q => cases ha; exact h.1

/-- What a flag-setting store to SR answers: an address error where it is misaligned, else the refusal (R42, R74; log 21). -/
def srStop (b : Size) (a : Word) : Stop := if misaligned b a then .fault (.addressError a) else .refuse .srDestination

theorem finish_srStop (b : Size) (a : Word) (s : State) :
    finish s (.error (srStop b a)) =
      if misaligned b a then .fault (.addressError a) else .refused .srDestination := by
  unfold srStop
  split <;> rfl

/-- The test for SR and the write after it, at an address of SR. -/
theorem refuseSr_write {b : Size} {a : Int} {s : State} (v : Word) (h : coreRegAt s.device.sfr (trunc16 a) = some .sr) :
    (refuseIf (reachesSr s.device.sfr b (.mem a)) .srDestination >>= fun _ => memWrite b (trunc16 a) v s) =
      .error (srStop b (trunc16 a)) := by
  cases hm : misaligned b (trunc16 a) with
  | true => simp [reachesSr, srStop, hm, refuseIf_false, memWrite_misaligned v hm]
  | false => exact (refuseIf_bind (by simp [reachesSr, isSrAddr, hm, h]) _).trans (by simp [srStop, hm])

theorem dstWriteFlagged_sr {b : Size} {o : Operand} {s : State} {a : Int} (v : Word) (hi : o.initialised s = true)
    (hb : byteModifiesW15 (sizeBytes b) o = false) (ha : o.addr (sizeBytes b) s = some a)
    (hsr : coreRegAt s.device.sfr (trunc16 a) = some .sr) :
    dstWriteFlagged b o v s = .error (srStop b (trunc16 a)) := by
  obtain ⟨p, t, he⟩ := ea_isOk false hi hb
  obtain ⟨-, hdev, -, -⟩ := ea_keeps he
  obtain rfl := ea_mem he ha
  rw [dstWriteFlagged, he, ok_bind, ← hdev]
  exact refuseSr_write v (by rwa [hdev])

/-! ## Instructions with two operands -/

/-- After the test for a collision an instruction stops where its source or its destination does (R109). -/
theorem operands_stop {b : Size} {src dst : Operand} {s : State} {e : Stop} {w : Word → State → Res State}
    (hc : collides src dst = false)
    (h : srcVal b src s = .error e ∨ ∃ v t, srcVal b src s = .ok (v, t) ∧ w v t = .error e)
    (g : Word → State → Res State) :
    finish s (refuseIf (collides src dst) .registerCollision >>= fun _ =>
      srcVal b src s >>= fun x => w x.1 x.2 >>= g x.1) = finish s (.error e) := by
  rw [hc, refuseIf_false, ok_bind]
  rcases h with h | ⟨v, t, hv, hw⟩
  · rw [error_bind h]
  · rw [hv, ok_bind, error_bind hw]

/-- The same by the instruction: the families that set flags write through the test for SR (R42). -/
theorem exec_stop {i : Instr} {b : Size} {src dst : Operand} {s : State} {e : Stop}
    (hi : operandsOf i = some (b, src, dst)) (ht : familyOf i ≠ .table) (hc : collides src dst = false)
    (h : srcVal b src s = .error e ∨ ∃ v t, srcVal b src s = .ok (v, t) ∧
      (∀ x, dstWriteFlagged b dst x t = .error e) ∧
      (familyOf i = .move ∨ familyOf i = .stack → ∀ x, dstWrite b dst x t = .error e)) :
    exec i s = finish s (.error e) := by
  have plain (hp : familyOf i = .move ∨ familyOf i = .stack) :
      finish s (moveBetween b src dst s) = finish s (.error e) :=
    operands_stop (w := dstWrite b dst) hc (h.imp_right fun ⟨v, t, hv, _, hw⟩ => ⟨v, t, hv, hw hp v⟩) fun _ s2 =>
      .ok s2.advance
  have flagged (res : Word → Word) (g : Word → State → Res State) :=
    operands_stop (w := fun v => dstWriteFlagged b dst (res v)) hc
      (h.imp_right fun ⟨v, t, hv, hw, _⟩ => ⟨v, t, hv, hw (res v)⟩) g
  unfold operandsOf at hi
  split at hi
  · cases hi; exact plain (.inl rfl)
  · cases hi; exact plain (.inr rfl)
  · cases hi; exact plain (.inr rfl)
  · next rb _ _ _ _ =>
    cases hi
    exact flagged (fun v => (addFlags b (s.regVal b rb) v).res) fun v s2 =>
      .ok (s2.setAddFlags (addFlags b (s.regVal b rb) v)).advance
  · cases hi; exact flagged (fun v => (shift1 .asr b v).res) fun v s2 => .ok (s2.setShiftFlags (shift1 .asr b v)).advance
  · cases hi; exact flagged (fun v => (shift1 .lsr b v).res) fun v s2 => .ok (s2.setShiftFlags (shift1 .lsr b v)).advance
  · cases hi; exact flagged (fun v => (shift1 .sl b v).res) fun v s2 => .ok (s2.setShiftFlags (shift1 .sl b v)).advance
  · exact absurd rfl ht
  · exact absurd rfl ht
  · cases hi

theorem exec_byteW15 {i : Instr} {src dst : Operand} {s : State} (hi : operandsOf i = some (.byte, src, dst))
    (ht : familyOf i ≠ .table) (hc : collides src dst = false)
    (h : src.modified = some 15 ∨ (sourceReady .byte src s = true ∧ dst.modified = some 15)) :
    exec i s = .refused .byteModifyW15 := by
  refine exec_stop (e := .refuse .byteModifyW15) hi ht hc ?_
  rcases h with h | ⟨hs, h⟩
  · exact .inl (srcVal_byteW15 s h)
  · obtain ⟨v, t, hv⟩ := srcVal_ready hs
    exact .inr ⟨v, t, hv, fun x => dstWriteFlagged_byteW15 x t h, fun _ x => dstWrite_byteW15 x t h⟩

/-- Reading the source leaves the destination's address what it was, as no register collides (R109). -/
theorem srcVal_addr {b : Size} {src dst : Operand} {s t : State} {v : Word} (hc : collides src dst = false)
    (h : srcVal b src s = .ok (v, t)) : dst.addr (sizeBytes b) t = dst.addr (sizeBytes b) s :=
  Operand.addr_kept (Frame.srcVal h).1 rfl (collides_addresses hc)

theorem srcVal_device {b : Size} {o : Operand} {s t : State} {v : Word} (h : srcVal b o s = .ok (v, t)) :
    t.device = s.device := by
  obtain ⟨-, -, -, -, -, -, hdev⟩ := Frame.srcVal h
  exact hdev

theorem exec_srDestination {i : Instr} {b : Size} {src dst : Operand} {a : Int} {s : State}
    (hi : operandsOf i = some (b, src, dst)) (hf : familyOf i = .alu ∨ familyOf i = .shift) (hc : collides src dst = false)
    (hs : sourceReady b src s = true) (hd : dst.initialised s = true) (hb : byteModifiesW15 (sizeBytes b) dst = false)
    (ha : dst.addr (sizeBytes b) s = some a) (hsr : coreRegAt s.device.sfr (trunc16 a) = some .sr) :
    exec i s = finish s (.error (srStop b (trunc16 a))) := by
  obtain ⟨v, t, hv⟩ := srcVal_ready hs
  refine exec_stop hi (by rcases hf with hf | hf <;> simp [hf]) hc (.inr ⟨v, t, hv, fun x => ?_, ?_⟩)
  · refine dstWriteFlagged_sr x ?_ hb ((srcVal_addr hc hv).trans ha) (by rwa [srcVal_device hv])
    rwa [dst.initialised_congr (srcVal_initialised hv)]
  · rcases hf with hf | hf <;> simp [hf]

/-! ## File registers -/

theorem trunc16_toNat (a : Word) : trunc16 a.toNat = a := by
  rw [trunc16, BitVec.ofInt_natCast, BitVec.ofNat_toNat, BitVec.setWidth_eq]

/-- SR as the destination of a file register instruction that sets flags, after its read (R42). -/
theorem file_srDestination {b : Size} {f : BitVec 13} {s : State} (hr : readable s b (fileAddr f) = true)
    (hsr : coreRegAt s.device.sfr (fileAddr f) = some .sr) (res : Word → Word) (g : Word → State → Res State) :
    finish s (memRead b (fileAddr f) s >>= fun x => fileWriteFlagged b .file f (res x.1) x.2 >>= g x.1) =
      .refused .srDestination := by
  have hm : misaligned b (fileAddr f) = false := by
    simp only [readable, Bool.and_eq_true, Bool.not_eq_true'] at hr
    exact hr.1
  obtain ⟨⟨v, t⟩, hv⟩ := (memRead_isOk b (fileAddr f) s).mpr hr
  obtain ⟨n, k, rfl⟩ := memRead_ok hv
  rw [hv, ok_bind]
  refine finish_refuse (error_bind ?_ _)
  exact refuseIf_bind (by simp [reachesSr, isSrAddr, trunc16_toNat, hm, hsr]) _

/-! ## Table reads -/

theorem tableRead_pointer {b : Size} {p : PtrMode} {rs : Reg} {dst : Operand} {s : State} {q : Refusal}
    (pick : Size → Word → ProgWord → Word) (hc : collides (.ptr p rs) dst = false)
    (h : tblWord b p rs s = .error (.refuse q)) : finish s (tableRead pick b p rs dst s) = .refused q := by
  rw [tableRead, hc, refuseIf_false, ok_bind]
  exact finish_refuse (error_bind h _)

theorem tableRead_byteW15 {p : PtrMode} {rs : Reg} {dst : Operand} {s : State} (pick : Size → Word → ProgWord → Word)
    (hc : collides (.ptr p rs) dst = false) (hs : tableReady .byte p rs s = true) (hd : dst.modified = some 15) :
    finish s (tableRead pick .byte p rs dst s) = .refused .byteModifyW15 := by
  obtain ⟨w, a, t, hw, -⟩ := tblWord_ready hs
  rw [tableRead, hc, refuseIf_false, ok_bind, hw, ok_bind]
  exact finish_refuse (error_bind (dstWrite_byteW15 _ t hd) _)

theorem isOdd_trunc16 (z : Int) : isOdd (trunc16 z) = decide (z % 2 = 1) := by
  simp only [isOdd, trunc16, BitVec.getLsbD, BitVec.toNat_ofInt, Nat.testBit_zero, decide_eq_decide]
  omega

/-- A word-mode step keeps the lowest bit of a pointer. -/
theorem isOdd_ptrAddr_word (p : PtrMode) (base : Word) : isOdd (trunc16 (ptrAddr 2 p base)) = isOdd base := by
  rw [isOdd_trunc16, ← trunc16_toNat base, isOdd_trunc16, decide_eq_decide, trunc16_toNat]
  cases p <;> simp only [ptrAddr] <;> omega

theorem tblWord_misaligned {p : PtrMode} {rs : Reg} {s : State} (hr : rs ≠ 15) (hi : s.initialised rs = true)
    (ho : (s.reg rs).getLsbD 0 = true) : tblWord .word p rs s = .error (.refuse .tableMisaligned) := by
  rw [tblWord, beq_eq_false_iff_ne.mpr hr, refuseIf_false, ok_bind, ptrValue_init hi, ok_bind]
  refine refuseIf_bind ?_ _
  rw [misaligned, sizeBytes, isOdd_ptrAddr_word]
  exact ho

/-! ## Targets of an active loop -/

theorem fetch_atInstr {s : State} {i : Instr} (hpc : s.pcOut = false) (h : atInstr s i) : fetch s = .ok i := by
  obtain ⟨w, hw, h2, hd⟩ := h
  have hres : decodeRes w 0 = .ok i := by rw [decodeRes, hd]
  simp only [fetch, hpc, hw, h2, hres, Bool.false_eq_true, if_false]

theorem step_notRepeatable {s : State} {i : Instr} (hq : quiet s = true) (h : atInstr s i) (hra : s.sr.ra = true)
    (hi : mayRepeat i = false) : step s = .refused .invalidRepeatTarget := by
  obtain ⟨-, hpc, -, -⟩ := quiet_iff.mp hq
  rw [step_quiet hq, stepInstruction, fetch_atInstr hpc h]
  simp [runInstr, hra, hi]

/-- `CALL` and `GOTO` are refused before their second word is read (R257). -/
theorem step_twoWord {s : State} {w : ProgWord} (hq : quiet s = true) (hw : s.progWord s.pc.toNat = some w)
    (h2 : isTwoWord w = true) (hra : s.sr.ra = true) : step s = .refused .invalidRepeatTarget := by
  obtain ⟨-, hpc, -, -⟩ := quiet_iff.mp hq
  have hf : fetch s = .error (.refuse .invalidRepeatTarget) := by simp [fetch, hpc, hw, h2, hra]
  rw [step_quiet hq, stepInstruction, hf]
  rfl

/-- R257 names the excluded instructions, row by row. -/
theorem mayRepeat_eq_false_iff (i : Instr) : mayRepeat i = false ↔
    relativeBranch i ∨ (∃ j f, i = .btscF j f) ∨ (∃ j p r, i = .btscWs j p r) ∨ (∃ n, i = .rcall n) ∨
      (∃ a, i = .call a) ∨ (∃ a, i = .goto a) ∨ i = .ret ∨ i = .retfie ∨ (∃ b k r, i = .retlw b k r) ∨
      (∃ k, i = .repeatLit k) ∨ (∃ r, i = .repeatWn r) ∨ (∃ k, i = .disi k) ∨ i = .ulnk ∨ (∃ k, i = .lnk k) ∨
      (∃ k, i = .pwrsav k) ∨ i = .reset ∨ (∃ d p r, i = .movDLd d p r) ∨ (∃ q r d, i = .movDSt q r d) := by
  cases i <;> simp [mayRepeat, relativeBranch]

/-! ## The statement -/

theorem execRetlw_w15 (b : Size) (k : BitVec 10) (s : State) : execRetlw b k 15 s = .refused .registerCollision := by
  unfold execRetlw
  exact finish_refuseIf (beq_self_eq_true _) _

theorem lit10_refused {k : BitVec 10} (hk : 255 < k.toNat) (rd : Reg) (s : State) :
    exec (.addLit10 .byte k rd) s = .refused .lit10AboveByte ∧
      (rd ≠ 15 → exec (.retlw .byte k rd) s = .refused .lit10AboveByte) := by
  have hbig : lit10TooLarge .byte k = true := by simp [lit10TooLarge, hk]
  refine ⟨finish_refuseIf hbig _, fun hrd => finish_refuse ?_⟩
  rw [beq_eq_false_iff_ne.mpr hrd, refuseIf_false, ok_bind]
  exact refuseIf_bind hbig _

/-- Settles O38: each refusal is the first test that fails, after operands that can be read. -/
theorem refusedForms : Obligations.RefusedForms := by
  refine ⟨?collision, ?movDLd, ?multiplies, ?retlw, ?lit10, ?byteW15, ?tableByteW15, ?bits, ?srFile, ?srOperand, ?srLit5,
    ?tableW15, ?tableOdd, mayRepeat_eq_false_iff, fun s i => step_notRepeatable, fun s w => step_twoWord⟩
  case collision => exact fun i b src dst r s hi h => exec_collides hi (collides_of_shared h)
  case movDLd => exact fun rd p rs s h => execMovDLd_collides h
  case multiplies =>
    rintro i rb d p rs r s (rfl | rfl | rfl | rfl) hm hr
    · exact mulOperand_collides true true rb hm hr
    · exact mulOperand_collides true false rb hm hr
    · exact mulOperand_collides false true rb hm hr
    · exact mulOperand_collides false false rb hm hr
  case retlw => exact fun b k s => execRetlw_w15 b k s
  case lit10 => exact fun k rd s hk => lit10_refused hk rd s
  case byteW15 => exact fun i src dst s hi ht hc h => exec_byteW15 hi ht hc h
  case tableByteW15 =>
    exact fun q p rs rd s hc hs hd => ⟨tableRead_byteW15 tblLow hc hs hd, tableRead_byteW15 tblHigh hc hs hd⟩
  case bits =>
    exact fun m r rb j k s h => ⟨finish_refuse (error_bind (ea_byteW15 true s h) _),
      finish_refuse (error_bind (dstWriteFlagged_byteW15 _ s h) _)⟩
  case srFile =>
    intro b f s hr hsr
    have shift (op : ShiftOp) : finish s (shiftFile op b .file f s) = .refused .srDestination :=
      file_srDestination hr hsr (fun x => (shift1 op b x).res) fun x s2 => .ok (s2.setShiftFlags (shift1 op b x)).advance
    exact ⟨file_srDestination hr hsr id fun x s2 => .ok (s2.setNZ (topBit b x) (x == 0)).advance,
      file_srDestination hr hsr (fun x => (addFlags b x (s.regVal b 0)).res) fun x s2 =>
        .ok (s2.setAddFlags (addFlags b x (s.regVal b 0))).advance,
      shift .asr, shift .lsr, shift .sl⟩
  case srOperand =>
    intro i b src dst a s hi hf hc hs hd hb ha hsr
    rw [exec_srDestination hi hf hc hs hd hb ha hsr, finish_srStop]
  case srLit5 =>
    intro b rb p rd k s a hi hb hsr
    rw [← finish_srStop b a s]
    exact congrArg (finish s) (error_bind (dstWriteFlagged_sr (o := .ptr p rd) _ hi hb rfl hsr) _)
  case tableW15 =>
    intro b q rd p s hc
    have hw : tblWord b p 15 s = .error (.refuse .tablePointerW15) := refuseIf_bind rfl _
    exact ⟨tableRead_pointer tblLow hc hw, tableRead_pointer tblHigh hc hw⟩
  case tableOdd =>
    intro q rd p rs s hc hr hi ho
    have hw := tblWord_misaligned (p := p) hr hi ho
    exact ⟨tableRead_pointer tblLow hc hw, tableRead_pointer tblHigh hc hw⟩

end Sys2Proof.Machine
end

section
/-! SUPPORT. What reading an operand, checking an address, writing a destination and advancing the PC leave (O17 to O21): each
said once, in the terms of the claims. -/

namespace Sys2Proof.Machine

/-! ## The PC -/

/-- The PC is at the next instruction after an advance from where the instruction began (R31, R33). -/
theorem atNext_advance {s t : State} (h : t.pc = s.pc) : AtNext s t.advance := by
  have hpc : BitVec.ofInt 23 ((s.pc.toNat : Int) + 2) = s.pc + 2 := by
    rw [BitVec.ofInt_add, BitVec.ofInt_natCast, BitVec.ofNat_toNat, BitVec.setWidth_eq]
    rfl
  refine ⟨?_, ?_⟩
  · simp only [State.advance, State.goto, h, hpc]
  · simp only [State.advance, State.goto, h, decide_eq_decide]
    omega

/-! ## Reads -/

/-- What forming addresses, checking them and reading can change: W registers, `StackError`, the counter of free values, and the
note of PSV reads. -/
def ReadsTo (s u : State) : Prop := ∃ w e n k, u = { s with w := w }.touch e n k

namespace ReadsTo

variable {s u t : State}

theorem refl (s : State) : ReadsTo s s := ⟨s.w, s.pendingTraps.stackError, s.free, s.notes.psvReads, rfl⟩

theorem trans (h : ReadsTo s u) (k : ReadsTo u t) : ReadsTo s t := by
  obtain ⟨w, e, n, k, rfl⟩ := h
  obtain ⟨w', e', n', k', rfl⟩ := k
  exact ⟨w', e', n', k', rfl⟩

theorem touch (s : State) (e : Bool) (n k : Nat) : ReadsTo s (s.touch e n k) := ⟨s.w, e, n, k, rfl⟩

theorem modifyPtr (step : Nat) (p : PtrMode) (r : Reg) (base : Word) (s : State) :
    ReadsTo s (Machine.modifyPtr step p r base s) := by
  cases p
  · exact refl s
  all_goals exact ⟨_, s.pendingTraps.stackError, s.free, s.notes.psvReads, rfl⟩

theorem stackCheckIf (r : Reg) (isRead : Bool) (a : Int) (s : State) : ReadsTo s (Machine.stackCheckIf r isRead a s) := by
  obtain ⟨e, n, h, -⟩ := stackCheckIf_eq r isRead a s
  rw [h]
  exact touch s e n _

theorem memRead {b : Size} {a v : Word} (h : Machine.memRead b a s = .ok (v, t)) : ReadsTo s t := by
  obtain ⟨n, k, rfl⟩ := memRead_ok h
  exact touch s _ n k

theorem ea {step : Nat} {isRead : Bool} {o : Operand} {p : Place} (h : Machine.ea step isRead o s = .ok (p, t)) :
    ReadsTo s t := by
  obtain ⟨-, -, e, n, -, -, h⟩ := ea_ok h
  cases o with
  | reg r => rw [h.2]; exact refl s
  | ptr m r => rw [h.2]; exact (modifyPtr step m r _ s).trans (touch _ e n _)
  | offset r q => rw [h.2]; exact touch s e n _

theorem srcVal {b : Size} {o : Operand} {v : Word} (h : Machine.srcVal b o s = .ok (v, t)) : ReadsTo s t := by
  obtain ⟨⟨p, u⟩, h1, h2⟩ := bind_ok h
  cases p with
  | reg r => cases h2; exact ea h1
  | mem a => exact (ea h1).trans (memRead h2)

theorem regionOf (h : ReadsTo s u) (b : Size) (a : Word) : Machine.regionOf u b a = Machine.regionOf s b a := by
  obtain ⟨w, e, n, k, rfl⟩ := h
  rfl

theorem readable (h : ReadsTo s u) (b : Size) (a : Word) : Machine.readable u b a = Machine.readable s b a := by
  simp only [Machine.readable, h.regionOf]

theorem writable (h : ReadsTo s u) (b : Size) (a : Word) : Machine.writable u b a = Machine.writable s b a := by
  simp only [Machine.writable, h.regionOf]

theorem pc (h : ReadsTo s u) : u.pc = s.pc := by
  obtain ⟨w, e, n, k, rfl⟩ := h
  rfl

theorem initialised (h : ReadsTo s u) (r : Reg) : u.initialised r = s.initialised r := by
  obtain ⟨w, e, n, k, rfl⟩ := h
  rfl

theorem ramRead (h : ReadsTo s u) (b : Size) (a : Word) : Machine.ramRead u b a = Machine.ramRead s b a := by
  obtain ⟨w, e, n, k, rfl⟩ := h
  rfl

theorem periphWrites (h : ReadsTo s u) : u.periphWrites = s.periphWrites := by
  obtain ⟨w, e, n, k, rfl⟩ := h
  rfl

end ReadsTo

/-- A read of memory that has an answer gives `memValue`, and moves no register. -/
theorem memRead_readable {b : Size} {a : Word} {s : State} (h : readable s b a = true) :
    ∃ t, memRead b a s = .ok (memValue b a s, t) ∧ ReadsTo s t ∧ t.w = s.w ∧ t.pendingTraps = s.pendingTraps := by
  obtain ⟨⟨v, t⟩, hv⟩ := (memRead_isOk b a s).mpr h
  obtain ⟨n, k, rfl⟩ := memRead_ok hv
  exact ⟨_, by simp only [memValue, hv], .touch s _ n k, rfl, rfl⟩

/-! ## Stack checks -/

/-- The stack checks of `u` have the limit of those of `s` (R300). -/
structure SameLimit (s u : State) : Prop where
  splim : u.splim = s.splim
  splimEn : u.splimEn = s.splimEn
  justWritten : u.splimJustWritten = s.splimJustWritten
  device : u.device = s.device

theorem ReadsTo.sameLimit {s u : State} (h : ReadsTo s u) : SameLimit s u := by
  obtain ⟨w, e, n, k, rfl⟩ := h
  exact ⟨rfl, rfl, rfl, rfl⟩

/-- A failing address fails the lower test, the wrap test or the limit comparison (R300). -/
theorem badStackAddr_eq (a : Int) (s : State) :
    badStackAddr a s = (decide (a < 0x0800) || pastDataSpace a s || overLimit a s) := by
  unfold badStackAddr pastDataSpace overLimit slackValue
  cases s.device.splimSlack <;> cases s.splimEn <;> simp [Bool.or_assoc]

theorem outsideStackSpace_eq (a : Int) (s : State) :
    outsideStackSpace a s = (decide (a < 0x0800) || pastDataSpace a s) := rfl

/-- The stack checks of addresses that source operands form, or destinations. -/
def Checked (isRead : Bool) (l : List Int) (s t : State) : Prop :=
  StackMarked (if isRead then l else []) (if isRead then [] else l) s t

namespace StackMarked

variable {reads writes reads' writes' : List Int} {s u t : State}

/-- Where no address is formed from W15, the traps are kept. -/
theorem of_kept (h : t.pendingTraps = s.pendingTraps) : StackMarked [] [] s t := by
  simp [StackMarked, h]

theorem trans (h : StackMarked reads writes s u) (hl : SameLimit s u) (k : StackMarked reads' writes' u t) :
    StackMarked (reads ++ reads') (writes ++ writes') s t := by
  obtain ⟨h1, h2, h3, heq, hset⟩ := h
  obtain ⟨k1, k2, k3, keq, kset⟩ := k
  have hbad : (badStackAddr · u) = (badStackAddr · s) := by
    funext a
    simp only [badStackAddr, hl.splim, hl.splimEn, hl.device]
  have hout : (outsideStackSpace · u) = (outsideStackSpace · s) := by
    funext a
    simp only [outsideStackSpace, hl.splimEn]
  simp only [hl.justWritten, hl.splimEn, hbad] at keq
  simp only [fun a => congrFun hbad a, fun a => congrFun hout a] at kset
  refine ⟨k1.trans h1, k2.trans h2, k3.trans h3, fun ho => ?_, ?_⟩
  · rw [keq (ho.imp_right (.imp_right fun e => (List.append_eq_nil_iff.mp e).2)),
      heq (ho.imp_right (.imp_right fun e => (List.append_eq_nil_iff.mp e).1)), List.any_append, List.any_append]
    ac_rfl
  · rintro (hs | ⟨a, ha, hb⟩ | ⟨a, ha, hb⟩)
    · exact kset (.inl (hset (.inl hs)))
    · rcases List.mem_append.mp ha with ha | ha
      · exact kset (.inl (hset (.inr (.inl ⟨a, ha, hb⟩))))
      · exact kset (.inr (.inl ⟨a, ha, hb⟩))
    · rcases List.mem_append.mp ha with ha | ha
      · exact kset (.inl (hset (.inr (.inr ⟨a, ha, hb⟩))))
      · exact kset (.inr (.inr ⟨a, ha, hb⟩))

/-- What follows the checks and keeps the traps does not matter to them. -/
theorem then_kept (h : StackMarked reads writes s u) (ht : t.pendingTraps = u.pendingTraps) :
    StackMarked reads writes s t := by
  simpa only [StackMarked, ht] using h

/-- What comes before the checks and keeps the traps and the limit does not matter to them. -/
theorem after_kept (hp : u.pendingTraps = s.pendingTraps) (hl : SameLimit s u) (h : StackMarked reads writes u t) :
    StackMarked reads writes s t := (of_kept hp).trans hl h

end StackMarked

/-- What a stack check makes of `StackError` (R300). -/
theorem stackCheck_stackError (isRead : Bool) (a : Int) (s : State) :
    (stackCheck isRead a s).pendingTraps.stackError =
      (s.pendingTraps.stackError || outsideStackSpace a s || (limitTest isRead a s).1) := by
  have hlim : (limitTest isRead a s).2.pendingTraps = s.pendingTraps := by
    unfold limitTest
    split <;> rfl
  rw [outsideStackSpace_eq]
  simp only [stackCheck]
  split
  · next h => simp only [State.raise, TrapSet.put, Bool.or_assoc] at *; simp [h]
  · next h => simp only [hlim, Bool.or_assoc] at *; simp [h]

/-- The check of an address that a destination operand forms (R300). -/
theorem stackCheck_marks_write (a : Int) (s : State) : StackMarked [] [a] s (stackCheck false a s) := by
  have h : (stackCheck false a s).pendingTraps.stackError = (s.pendingTraps.stackError || badStackAddr a s) := by
    rw [stackCheck_stackError, badStackAddr_eq, outsideStackSpace_eq, Bool.or_assoc]
    rfl
  obtain ⟨e, n, he, -⟩ := stackCheck_eq false a s
  refine ⟨by rw [he]; rfl, by rw [he]; rfl, by rw [he]; rfl, fun _ => by simp [h], ?_⟩
  simp [h]

/-- The check of an address that a source operand forms: in the hazard of R340 its limit comparison is open (R300). -/
theorem stackCheck_marks_read (a : Int) (s : State) : StackMarked [a] [] s (stackCheck true a s) := by
  have h := stackCheck_stackError true a s
  have hlim (ho : s.splimJustWritten = false ∨ s.splimEn = false) : (limitTest true a s).1 = overLimit a s := by
    unfold limitTest
    rcases ho with ho | ho
    · simp [ho]
    · split <;> simp [overLimit, ho]
  obtain ⟨e, n, he, -⟩ := stackCheck_eq true a s
  refine ⟨by rw [he]; rfl, by rw [he]; rfl, by rw [he]; rfl, fun ho => ?_, ?_⟩
  · rw [h, hlim (by simpa using ho), outsideStackSpace_eq]
    simp [badStackAddr_eq, Bool.or_assoc]
  · rw [h]
    simp +contextual

/-- A check that is made where the pointer is W15 only. -/
theorem stackCheckIf_checks (r : Reg) (isRead : Bool) (a : Int) (s : State) :
    Checked isRead (if r = 15 then [a] else []) s (stackCheckIf r isRead a s) := by
  unfold stackCheckIf
  split
  · cases isRead
    · exact stackCheck_marks_write a s
    · exact stackCheck_marks_read a s
  · cases isRead <;> exact .of_kept rfl

/-! ## Pointers -/

theorem modifyPtr_pendingTraps (step : Nat) (p : PtrMode) (r : Reg) (base : Word) (s : State) :
    (modifyPtr step p r base s).pendingTraps = s.pendingTraps := by
  cases p <;> rfl

/-- The modes that modify their pointer leave in it what R108 says. -/
theorem modifyPtr_reg {p : PtrMode} {r : Reg} (step : Nat) (base : Word) (s : State)
    (h : (Operand.ptr p r).modified = some r) :
    (modifyPtr step p r base s).reg r = fixReg r (trunc16 (movedPtr step p base)) := by
  cases p with
  | ind => cases h
  | postDec | postInc | preDec | preInc => exact s.setReg_reg_same r _

theorem stackAddrs_ptr (step : Nat) (p : PtrMode) (r : Reg) (s : State) :
    (Operand.ptr p r).stackAddrs step s = if r = 15 then [ptrAddr step p (s.reg r)] else [] := by
  simp [Operand.stackAddrs, Operand.usesStack, Operand.addr]

theorem ea_reg {step : Nat} {isRead : Bool} {r : Reg} {s t : State} {p : Place}
    (h : ea step isRead (.reg r) s = .ok (p, t)) : p = .reg r ∧ t = s := by
  obtain ⟨_, -, h⟩ := bind_ok h
  cases h
  exact ⟨rfl, rfl⟩

/-- An address that an indirect mode forms is checked after the pointer is modified (R108). -/
theorem ea_ptr {step : Nat} {isRead : Bool} {m : PtrMode} {r : Reg} {s t : State} {p : Place}
    (h : ea step isRead (.ptr m r) s = .ok (p, t)) :
    p = .mem (ptrAddr step m (s.reg r)) ∧
      t = stackCheckIf r isRead (ptrAddr step m (s.reg r)) (modifyPtr step m r (s.reg r) s) := by
  obtain ⟨_, -, h⟩ := bind_ok h
  obtain ⟨base, hb, h⟩ := bind_ok h
  obtain ⟨-, rfl⟩ := ptrValue_ok hb
  cases h
  exact ⟨rfl, rfl⟩

theorem ea_offset {step : Nat} {isRead : Bool} {r q : Reg} {s t : State} {p : Place}
    (h : ea step isRead (.offset r q) s = .ok (p, t)) :
    p = .mem ((s.reg r).toNat + (s.reg q).toInt) ∧
      t = stackCheckIf r isRead ((s.reg r).toNat + (s.reg q).toInt) s := by
  obtain ⟨_, -, h⟩ := bind_ok h
  obtain ⟨base, hb, h⟩ := bind_ok h
  obtain ⟨off, ho, h⟩ := bind_ok h
  obtain ⟨-, rfl⟩ := ptrValue_ok hb
  obtain ⟨-, rfl⟩ := ptrValue_ok ho
  cases h
  exact ⟨rfl, rfl⟩

/-- An effective address makes the stack check of the address it forms, where that is formed from W15 (R108). -/
theorem ea_checks {step : Nat} {isRead : Bool} {o : Operand} {s t : State} {p : Place}
    (h : ea step isRead o s = .ok (p, t)) : Checked isRead (o.stackAddrs step s) s t := by
  cases o with
  | reg r =>
    obtain ⟨-, rfl⟩ := ea_reg h
    cases isRead <;> exact .of_kept rfl
  | ptr m r =>
    obtain ⟨-, rfl⟩ := ea_ptr h
    have hk := stackCheckIf_checks r isRead (ptrAddr step m (s.reg r)) (modifyPtr step m r (s.reg r) s)
    have hm := StackMarked.after_kept (modifyPtr_pendingTraps step m r (s.reg r) s)
      (ReadsTo.modifyPtr step m r _ s).sameLimit hk
    simpa only [Checked, stackAddrs_ptr, ite_self, List.nil_append] using hm
  | offset r q =>
    obtain ⟨-, rfl⟩ := ea_offset h
    simpa [Operand.stackAddrs, Operand.usesStack, Operand.addr] using
      stackCheckIf_checks r isRead ((s.reg r).toNat + (s.reg q).toInt) s

/-- An effective address leaves the pointer as its mode says. -/
theorem ea_pointer {step : Nat} {isRead : Bool} {o : Operand} {s t : State} {p : Place} (e : Effect)
    (h : ea step isRead o s = .ok (p, t)) : PointerMoved step o e s t := by
  rintro m r rfl hm -
  obtain ⟨-, rfl⟩ := ea_ptr h
  obtain ⟨v, n, hc, -⟩ := stackCheckIf_eq r isRead (ptrAddr step m (s.reg r)) (modifyPtr step m r (s.reg r) s)
  rw [hc, State.touch_reg, modifyPtr_reg step _ s hm]

/-- A pointer stays as its mode left it through what writes neither the register nor its address. -/
theorem PointerMoved.kept {step : Nat} {o : Operand} {e f : Effect} {s u t : State} (h : PointerMoved step o e s u)
    (k : Frame f u t) (hd : u.device = s.device) (hf : f.stores = e.stores) (hr : ∀ r ∈ o.moved, r ∉ f.regs) :
    PointerMoved step o e s t := by
  intro p r ho hm hh
  have hfu : f.hits u.device.sfr (.w r) = false := by rw [hd, ← hh, Effect.hits, Effect.hits, hf]
  rw [(k.1 r (hr r (by simp [Operand.moved, hm])) hfu).1]
  exact h p r ho hm hh

/-- What was read before a pointer is modified does not matter to what its mode leaves in it. -/
theorem PointerMoved.of_reads {step : Nat} {o : Operand} {e : Effect} {s u t : State} (h : PointerMoved step o e u t)
    (hu : ReadsTo s u) (hr : ∀ r ∈ o.moved, u.reg r = s.reg r) : PointerMoved step o e s t := by
  intro p r ho hm hh
  rw [← hr r (by simp [Operand.moved, hm])]
  exact h p r ho hm (by rwa [hu.sameLimit.device])

/-! ## Sources -/

theorem sourceValue_eq {b : Size} {o : Operand} {s t : State} {v : Word} (h : srcVal b o s = .ok (v, t)) :
    sourceValue b o s = v := by
  rw [sourceValue, h]

/-- Reading a source makes its stack check and leaves its pointer as its mode says (R109). -/
theorem srcVal_marks {b : Size} {o : Operand} {s t : State} {v : Word} (h : srcVal b o s = .ok (v, t)) :
    StackMarked (o.stackAddrs (sizeBytes b) s) [] s t := by
  obtain ⟨⟨p, u⟩, h1, h2⟩ := bind_ok h
  refine StackMarked.then_kept (ea_checks h1) ?_
  cases p with
  | reg r => cases h2; rfl
  | mem a => obtain ⟨n, k, rfl⟩ := memRead_ok h2; rfl

theorem srcVal_pointer {b : Size} {o : Operand} {s t : State} {v : Word} (e : Effect)
    (h : srcVal b o s = .ok (v, t)) : PointerMoved (sizeBytes b) o e s t := by
  obtain ⟨⟨p, u⟩, h1, h2⟩ := bind_ok h
  cases p with
  | reg r => cases h2; exact ea_pointer e h1
  | mem a =>
    obtain ⟨n, k, rfl⟩ := memRead_ok h2
    have hp := ea_pointer e h1
    exact hp

/-! ## Stores -/

theorem coreRegAt_of_region {s : State} {b : Size} {a : Word} {c : CoreReg} (h : regionOf s b a = .core c) :
    coreRegAt s.device.sfr a = some c := by
  unfold regionOf at h
  split at h
  · next hc => cases h; exact hc
  · split at h
    · cases h
    · split at h
      · cases h
      · split at h <;> cases h

/-- A data write leaves the PC and the traps (R73). -/
theorem memWrite_kept {b : Size} {a v : Word} {s t : State} (h : memWrite b a v s = .ok t) :
    t.pc = s.pc ∧ t.pendingTraps = s.pendingTraps ∧ t.splimJustWritten = s.splimJustWritten := by
  rcases (memWrite_ok h).2 with ⟨c, -, -, hc⟩ | ⟨-, rfl⟩ | ⟨-, rfl⟩
  · obtain ⟨-, -, -, -, -, hpc, -, -, ht, -, -, -, -, hj, -⟩ := coreWrite_ok hc
    exact ⟨hpc, ht, hj⟩
  · cases b <;> exact ⟨rfl, rfl, rfl⟩
  · exact ⟨rfl, rfl, rfl⟩

/-- A write of a core register leaves in it what R76 says. -/
theorem coreHolds_of_coreWrite {b : Size} {a v : Word} {c : CoreReg} {s t : State} (h : coreWrite b a c v s = .ok t) :
    CoreHolds b a v c s t := by
  have hpc : ¬(c = .pcl ∨ c = .pch) := by
    intro e
    cases (coreWrite_pc e b a v s).symm.trans h
  obtain ⟨u, hu, hh⟩ := coreWrite_holds (fun e => hpc (.inl e)) (fun e => hpc (.inr e)) b a v s
  cases h.symm.trans hu
  exact hh

theorem ramRead_ramWrite (b : Size) (a v : Word) (s : State) : ramRead (ramWrite b a v s) b a = sized b v := by
  cases b with
  | word => exact ramRead_ramWrite_word a v s
  | byte => exact ramRead_ramWrite_low .byte a v s

/-- A data write stores its value (R73). -/
theorem storedAt_of_memWrite {b : Size} {a v : Word} {s t : State} (h : memWrite b a v s = .ok t) :
    StoredAt b a v s t := by
  rcases (memWrite_ok h).2 with ⟨c, -, hr, hc⟩ | ⟨hr, rfl⟩ | ⟨hr, rfl⟩
  · refine ⟨fun e => ?_, fun d e => ?_, fun e => ?_⟩
    · cases hr.symm.trans e
    · cases hr.symm.trans e; exact coreHolds_of_coreWrite hc
    · cases hr.symm.trans e
  · refine ⟨fun _ => ⟨ramRead_ramWrite b a v s, ?_⟩, fun d e => ?_, fun e => ?_⟩
    · cases b <;> exact List.mem_cons_self
    · cases hr.symm.trans e
    · cases hr.symm.trans e
  · refine ⟨fun e => ?_, fun d e => ?_, fun _ => ?_⟩
    · cases hr.symm.trans e
    · cases hr.symm.trans e
    · cases b <;> rfl

/-- What was read before a store does not matter to what it leaves. -/
theorem StoredAt.of_reads {b : Size} {a v : Word} {s u t : State} (h : ReadsTo s u) (k : StoredAt b a v u t) :
    StoredAt b a v s t := by
  obtain ⟨w, e, n, p, rfl⟩ := h
  exact k

theorem memWrite_writable {b : Size} {a : Word} {s : State} (v : Word) (h : writable s b a = true) :
    ∃ t, memWrite b a v s = .ok t ∧ StoredAt b a v s t ∧ t.pc = s.pc ∧ t.pendingTraps = s.pendingTraps := by
  obtain ⟨t, ht⟩ := (memWrite_isOk b a v s).mpr h
  obtain ⟨hpc, htr, -⟩ := memWrite_kept ht
  exact ⟨t, ht, storedAt_of_memWrite ht, hpc, htr⟩

/-- Flags set after a store do not change what it left, where it was not to SR. -/
theorem StoredAt.setSr {b : Size} {a v : Word} {s t : State} (q : Sr) (n : Nat) (h : StoredAt b a v s t)
    (hsr : isSrAddr s.device.sfr a = false) : StoredAt b a v s { t with sr := q, free := n } := by
  obtain ⟨hram, hcore, hper⟩ := h
  refine ⟨hram, fun c hc => ?_, hper⟩
  have hk := hcore c hc
  cases c with
  | sr => simp [isSrAddr, coreRegAt_of_region hc] at hsr
  | w | splim | pcl | pch | tblpag | psvpag | rcount | corcon | disicnt => exact hk

/-! ## Destinations -/

/-- A register written in its size holds the value, its high byte kept by a byte write (R25, R26, R28). -/
theorem writeRegSized_delivers (b : Size) (r : Reg) (v : Word) (s : State) :
    Delivered b (.reg r) v s (s.writeRegSized b r v) := by
  refine ⟨?_, nofun⟩
  rintro _ ⟨⟩
  cases b with
  | word =>
    refine ⟨s.writeReg_reg_same r v, fun _ => ?_, nofun⟩
    rw [State.writeRegSized, State.writeReg_initialised, if_pos rfl]
  | byte =>
    have hreg : (s.writeRegSized .byte r v).reg r = fixReg r (joinBytes (highByte (s.reg r)) (lowByte v)) :=
      s.setReg_reg_same r _
    refine ⟨?_, nofun, fun _ => ⟨?_, rfl⟩⟩
    · rw [State.regVal, hreg, sized, lowByte_fixReg_congr r (show lowByte (joinBytes _ _) = _ from lowByte_append _ _)]
    · rw [hreg, highByte_fixReg, joinBytes, highByte_append]

/-- What was read before a write does not matter to what it leaves, where it left the operand's registers. -/
theorem Delivered.of_reads {b : Size} {o : Operand} {v : Word} {s u t : State} (h : ReadsTo s u)
    (ha : o.addr (sizeBytes b) u = o.addr (sizeBytes b) s) (hr : ∀ r, o = .reg r → u.reg r = s.reg r)
    (k : Delivered b o v u t) : Delivered b o v s t := by
  obtain ⟨kreg, kmem⟩ := k
  refine ⟨fun r ho => ?_, fun a hs => (kmem a (ha.trans hs)).of_reads h⟩
  have hk := kreg r ho
  rwa [hr r ho, h.initialised] at hk

/-- Flags set after a write do not change what it left, where it was not to SR (R42). -/
theorem Delivered.setSr {b : Size} {o : Operand} {v : Word} {s t : State} (q : Sr) (n : Nat) (h : Delivered b o v s t)
    (hsr : notSr b o s = true) : Delivered b o v s { t with sr := q, free := n } := by
  obtain ⟨hreg, hmem⟩ := h
  refine ⟨fun r ho => ?_, fun a ha => (hmem a ha).setSr q n (by simpa [notSr, ha] using hsr)⟩
  have hk := hreg r ho
  cases b <;> exact hk

theorem dstWrite_delivers {b : Size} {o : Operand} {v : Word} {s t : State} (h : dstWrite b o v s = .ok t) :
    Delivered b o v s t := by
  obtain ⟨⟨p, u⟩, h1, h2⟩ := bind_ok h
  refine ⟨?_, fun a ha => ?_⟩
  · rintro r rfl
    obtain ⟨rfl, rfl⟩ := ea_reg h1
    cases h2
    exact (writeRegSized_delivers b r v u).1 r rfl
  · obtain rfl := ea_mem h1 ha
    exact (storedAt_of_memWrite h2).of_reads (.ea h1)

theorem writePlace_kept {b : Size} {p : Place} {v : Word} {s t : State} (h : writePlace b p v s = .ok t) :
    t.pc = s.pc ∧ t.pendingTraps = s.pendingTraps := by
  cases p with
  | reg r => cases h; simp
  | mem a => obtain ⟨hpc, ht, -⟩ := memWrite_kept h; exact ⟨hpc, ht⟩

theorem dstWrite_pc {b : Size} {o : Operand} {v : Word} {s t : State} (h : dstWrite b o v s = .ok t) : t.pc = s.pc := by
  obtain ⟨⟨p, u⟩, h1, h2⟩ := bind_ok h
  exact (writePlace_kept h2).1.trans (ReadsTo.ea h1).pc

/-- Writing a destination makes its stack check (R109). -/
theorem dstWrite_marks {b : Size} {o : Operand} {v : Word} {s t : State} (h : dstWrite b o v s = .ok t) :
    StackMarked [] (o.stackAddrs (sizeBytes b) s) s t := by
  obtain ⟨⟨p, u⟩, h1, h2⟩ := bind_ok h
  exact StackMarked.then_kept (ea_checks h1) (writePlace_kept h2).2

/-- Writing a destination leaves its pointer as its mode says, unless the write replaces it (R24, R109). -/
theorem dstWrite_pointer {b : Size} {o : Operand} {v : Word} {s t : State} {e : Effect} (he : e.stores = o.store b s)
    (h : dstWrite b o v s = .ok t) : PointerMoved (sizeBytes b) o e s t := by
  obtain ⟨⟨p, u⟩, h1, h2⟩ := bind_ok h
  have hw := Frame.writePlace h2
  rw [placeEffect_ea h1] at hw
  refine (ea_pointer e h1).kept hw (ReadsTo.ea h1).sameLimit.device he.symm ?_
  cases o <;> simp [Operand.direct, Operand.moved, Operand.modified]

/-- A destination operand that is ready can be written (R109). -/
theorem dstWrite_ready {b : Size} {o : Operand} {s : State} (v : Word) (h : destReady b o s = true) :
    ∃ t, dstWrite b o v s = .ok t := by
  simp only [destReady, Bool.and_eq_true, Bool.not_eq_true'] at h
  obtain ⟨⟨hi, hb⟩, hw⟩ := h
  obtain ⟨p, u, he⟩ := ea_isOk false hi hb
  rw [dstWrite, he, ok_bind]
  cases p with
  | reg r => exact ⟨_, rfl⟩
  | mem a =>
    obtain ⟨-, -, -, ha⟩ := ea_keeps he
    rw [ha a rfl] at hw
    exact (memWrite_isOk b (trunc16 a) v u).mpr (((ReadsTo.ea he).writable b _).trans hw)

theorem destReady_of_reads {b : Size} {o : Operand} {s u : State} (h : ReadsTo s u)
    (ha : o.addr (sizeBytes b) u = o.addr (sizeBytes b) s) : destReady b o u = destReady b o s := by
  simp only [destReady, o.initialised_congr h.initialised, ha, h.writable]

/-- A destination that does not collide does not write the source's pointer but through memory (R109). -/
theorem collides_not_written {src dst : Operand} {r : Reg} (hc : collides src dst = false) (hr : r ∈ src.moved) :
    r ∉ dst.moved ++ dst.direct := by
  have hm : src.modified = some r := by simpa [Operand.moved] using hr
  rw [List.mem_append, not_or]
  refine ⟨fun hd => ?_, fun hd => ?_⟩
  · have hdm : dst.modified = some r := by simpa [Operand.moved] using hd
    cases (collides_of_shared (.inl ⟨hm, hdm⟩)).symm.trans hc
  · have hdr : dst = .reg r := by cases dst <;> simp_all [Operand.direct]
    cases (collides_of_shared (.inr (.inl ⟨hm, hdr⟩))).symm.trans hc

/-- Reading a source that does not collide leaves the destination's registers (R109). -/
theorem srcVal_reg {b : Size} {src dst : Operand} {s t : State} {v : Word} {r : Reg} (hc : collides src dst = false)
    (h : srcVal b src s = .ok (v, t)) (hr : r ∈ dst.moved ++ dst.direct) : t.reg r = s.reg r :=
  ((Frame.srcVal h).1 r (fun hm => collides_not_written hc hm hr) rfl).1

end Sys2Proof.Machine
end

section
/-! SUPPORT. The frame of each move (O39; 40_move.md R141), from those of the operations it is made of. -/

namespace Sys2Proof.Machine

/-! ## Frames of the shared operations -/

/-- An effect that writes no bit of SR is within another by its registers, its stores and what it owns. -/
theorem Effect.Within.of_subset {e f : Effect} (hr : e.regs ⊆ f.regs) (hs : e.stores ⊆ f.stores) (ho : e.own ⊆ f.own)
    (hm : e.sr = {}) : e.Within f :=
  ⟨hr, hs, by simp [hm], by simp [hm], by simp [hm], by simp [hm], by simp [hm], by simp [hm], by simp [hm], ho⟩

theorem stackOwn_append_subset (x y : Bool) : stackOwn x ++ stackOwn y ⊆ stackOwn (x || y) := by
  cases x <;> cases y <;> decide

namespace Frame

variable {s t : State}

theorem stackCheckIf (r : Reg) (isRead : Bool) (a : Int) (s : State) :
    Frame { own := stackOwn (r == 15) } s (Machine.stackCheckIf r isRead a s) := by
  obtain ⟨e, n, h, he, hn⟩ := stackCheckIf_eq r isRead a s
  rw [h]
  exact touch s he fun hr => hn (by simpa using hr)

theorem eaSlit10 {b : Size} {isRead : Bool} {k : BitVec 10} {r : Reg} {a : Int}
    (h : Machine.eaSlit10 b isRead k r s = .ok (a, t)) :
    Frame { own := stackOwn (r == 15) } s t ∧ a = (s.reg r).toNat + slit10Offset b k := by
  obtain ⟨base, hb, h⟩ := bind_ok h
  obtain ⟨-, rfl⟩ := ptrValue_ok hb
  cases h
  exact ⟨stackCheckIf r isRead _ s, rfl⟩

theorem readDouble {r : Reg} {a : Int} {lo hi : Word} (h : Machine.readDouble r a s = .ok (lo, hi, t)) :
    Frame { own := stackOwn (r == 15) } s t := by
  obtain ⟨⟨l, s1⟩, h1, h⟩ := bind_ok h
  obtain ⟨⟨g, s2⟩, h2, h⟩ := bind_ok h
  cases h
  simpa [Effect.join, SrMask.join] using ((memRead h1).trans (stackCheckIf r true (a + 2) s1)).trans (memRead h2)

theorem writeDouble {r : Reg} {a : Int} {lo hi : Word} (h : Machine.writeDouble r a lo hi s = .ok t) :
    Frame { stores := [(.word, trunc16 a), (.word, trunc16 (a + 2))], own := stackOwn (r == 15) } s t := by
  obtain ⟨s1, h1, h2⟩ := bind_ok h
  simpa [Effect.join, SrMask.join] using ((memWrite h1).trans (stackCheckIf r false (a + 2) s1)).trans (memWrite h2)

/-- A move changes what its two operands change (R138). -/
theorem moveBetween {b : Size} {src dst : Operand} (h : Machine.moveBetween b src dst s = .ok t) :
    Frame (operandEffect b src dst {} s) s t := by
  obtain ⟨_, hc, h⟩ := bind_ok h
  obtain ⟨⟨v, s1⟩, h1, h⟩ := bind_ok h
  obtain ⟨s2, h2, h⟩ := bind_ok h
  cases h
  have haddr := srcVal_addr (refuseIf_ok hc) h1
  have hstore : dst.store b s1 = dst.store b s := by simp only [Operand.store, haddr]
  have hd := dstWrite h2
  rw [hstore] at hd
  refine (((srcVal h1).trans hd).trans (advance s2)).mono (.of_subset ?_ ?_ ?_ rfl)
  · simp [Effect.join, operandEffect]
  · simp [Effect.join, operandEffect]
  · simpa [Effect.join, operandEffect] using stackOwn_append_subset src.usesStack dst.usesStack

/-! ## Frames of the moves -/

theorem movF {b : Size} {d : Dest} {f : BitVec 13} (h : execMovF b d f s = .next t) (hr : Ran t) :
    Frame (fileEffect b d f nzMask) s t := by
  obtain ⟨⟨v, s1⟩, h1, h⟩ := bind_ok (finish_ran h hr)
  obtain ⟨s2, h2, h⟩ := bind_ok h
  cases h
  have hf := (((memRead h1).trans (fileWriteFlagged h2)).trans (setNZ s2 (topBit b v) (v == 0))).trans (advance _)
  cases d <;> simpa [Effect.join, SrMask.join, fileEffect] using hf

theorem movWregF {b : Size} {f : BitVec 13} (h : execMovWregF b f s = .next t) (hr : Ran t) :
    Frame { stores := [(b, fileAddr f)] } s t := by
  obtain ⟨s1, h1, h⟩ := bind_ok (finish_ran h hr)
  cases h
  simpa [Effect.join, SrMask.join] using (memWrite h1).trans (advance s1)

theorem movFWnd {f : BitVec 15} {rd : Reg} (h : execMovFWnd f rd s = .next t) (hr : Ran t) :
    Frame { regs := [rd] } s t := by
  obtain ⟨⟨v, s1⟩, h1, h⟩ := bind_ok (finish_ran h hr)
  cases h
  exact (memRead h1).trans (writeReg s1 rd v)

theorem movWnsF {f : BitVec 15} {rs : Reg} (h : execMovWnsF f rs s = .next t) (hr : Ran t) :
    Frame { stores := [(.word, directAddr f)] } s t := by
  obtain ⟨s1, h1, h⟩ := bind_ok (finish_ran h hr)
  cases h
  simpa [Effect.join, SrMask.join] using (memWrite h1).trans (advance s1)

theorem movOffLd {b : Size} {k : BitVec 10} {rd rs : Reg} (h : execMovOffLd b k rd rs s = .next t) (hr : Ran t) :
    Frame { regs := [rd], own := stackOwn (rs == 15) } s t := by
  obtain ⟨⟨a, s1⟩, h1, h⟩ := bind_ok (finish_ran h hr)
  obtain ⟨⟨v, s2⟩, h2, h⟩ := bind_ok h
  cases h
  simpa [Effect.join, SrMask.join] using
    (((eaSlit10 h1).1.trans (memRead h2)).trans (writeRegSized s2 b rd v)).trans (advance _)

theorem movOffSt {b : Size} {k : BitVec 10} {rd rs : Reg} (h : execMovOffSt b k rd rs s = .next t) (hr : Ran t) :
    Frame (effectOf (.movOffSt b k rd rs) s) s t := by
  obtain ⟨⟨a, s1⟩, h1, h⟩ := bind_ok (finish_ran h hr)
  obtain ⟨s2, h2, h⟩ := bind_ok h
  cases h
  obtain ⟨hf, rfl⟩ := eaSlit10 h1
  simpa [Effect.join, SrMask.join, effectOf] using (hf.trans (memWrite h2)).trans (advance s2)

theorem movDLd {rd : Pair} {p : Mode} {rs : Reg} (h : execMovDLd rd p rs s = .next t) (hr : Ran t) :
    Frame (effectOf (.movDLd rd p rs) s) s t := by
  obtain ⟨_, -, h⟩ := bind_ok (finish_ran h hr)
  obtain ⟨⟨place, s1⟩, h1, h⟩ := bind_ok h
  cases p with
  | direct =>
    obtain ⟨rfl, rfl⟩ := ea_reg h1
    cases h
    exact writeTwo s1 _ _ _ _
  | ptr m =>
    obtain ⟨rfl, -⟩ := ea_ptr h1
    obtain ⟨⟨lo, hi, s2⟩, h2, h⟩ := bind_ok h
    cases h
    refine ((((ea h1).trans (readDouble h2)).trans (writeTwo s2 _ _ lo hi)).trans (advance _)).mono
      (.of_subset ?_ ?_ ?_ rfl)
    all_goals simp [Effect.join, effectOf, modeOperand, Operand.usesStack]

theorem movDSt {q : Mode} {rd : Reg} {rs : Pair} (h : execMovDSt q rd rs s = .next t) (hr : Ran t) :
    Frame (effectOf (.movDSt q rd rs) s) s t := by
  obtain ⟨⟨place, s1⟩, h1, h⟩ := bind_ok (finish_ran h hr)
  cases q with
  | direct =>
    obtain ⟨rfl, rfl⟩ := ea_reg h1
    cases h
    exact writeTwo s1 _ _ _ _
  | ptr m =>
    obtain ⟨rfl, -⟩ := ea_ptr h1
    obtain ⟨s2, h2, h⟩ := bind_ok h
    cases h
    refine (((ea h1).trans (writeDouble h2)).trans (advance s2)).mono (.of_subset ?_ ?_ ?_ rfl)
    all_goals simp [Effect.join, effectOf, modeOperand, Operand.usesStack, Operand.addr]

end Frame

/-- Settles O39: the frame of each move is that of its operations, composed. -/
theorem moveFrame : Obligations.MoveFrame := by
  intro i s t hi h hr
  cases i <;> cases hi
  case movF => exact .movF h hr
  case movWregF => exact .movWregF h hr
  case movFWnd => exact .movFWnd h hr
  case movWnsF => exact .movWnsF h hr
  case movBLit8 k rd => cases h; exact .writeRegLow s rd k
  case movLit16 k rd => cases h; exact .writeReg s rd k
  case movOffLd => exact .movOffLd h hr
  case movOffSt => exact .movOffSt h hr
  case movWsWd => exact .moveBetween (finish_ran h hr)
  case movDLd => exact .movDLd h hr
  case movDSt => exact .movDSt h hr

end Sys2Proof.Machine
end

section
/-! SUPPORT. The literal, file register, offset and operand moves, `PUSH` and `POP` (O17 to O20; 40_move.md R130 to R138;
41_stack.md R150, R151). -/

namespace Sys2Proof.Machine

/-! ## Literals and file registers -/

/-- Settles O17: each is one register write and an advance. -/
theorem literalMoves : Obligations.LiteralMoves := by
  refine fun rd s => ⟨fun k => ⟨_, rfl, s.setReg_reg_same rd _, rfl, atNext_advance rfl⟩,
    fun k => ⟨_, rfl, s.writeReg_reg_same rd k, ?_, atNext_advance rfl⟩⟩
  exact (s.writeReg_initialised rd rd k).trans (if_pos rfl)

theorem reg_congr {s t : State} (h : t.w = s.w) (r : Reg) : t.reg r = s.reg r := by
  simp only [State.reg, h]

/-- A file register destination that is ready can be written, and holds what was written after flags are set too (R105, R42). -/
theorem fileWriteFlagged_ready {b : Size} {d : Dest} {f : BitVec 13} {s u : State} (v : Word)
    (h : fileReady b d f s = true) (hu : ReadsTo s u) (hw : u.w = s.w) :
    ∃ t, fileWriteFlagged b d f v u = .ok t ∧ t.pc = s.pc ∧
      ∀ q n, FileResult b d f v s { t with sr := q, free := n } := by
  cases d with
  | wreg =>
    refine ⟨_, rfl, (State.writeRegSized_pc ..).trans hu.pc, fun q n => ?_⟩
    have hdel : Delivered b (.reg 0) v s (u.writeRegSized b 0 v) :=
      (writeRegSized_delivers b 0 v u).of_reads hu rfl fun r _ => reg_congr hw r
    exact hdel.setSr q n rfl
  | file =>
    simp only [fileReady, Bool.and_eq_true, Bool.not_eq_true'] at h
    obtain ⟨hwr, hsr⟩ := h
    obtain ⟨t, ht, hst, hpc, -⟩ := memWrite_writable v ((hu.writable b (fileAddr f)).trans hwr)
    refine ⟨t, ?_, hpc.trans hu.pc, fun q n => (hst.of_reads hu).setSr q n hsr⟩
    have hns : reachesSr u.device.sfr b (.mem (fileAddr f).toNat) = false := by
      simp [reachesSr, trunc16_toNat, hu.sameLimit.device, hsr]
    rw [fileWriteFlagged, hns, refuseIf_false, ok_bind, ht]

theorem movF_completes {b : Size} {d : Dest} {f : BitVec 13} {s : State} (hr : readable s b (fileAddr f) = true)
    (hd : fileReady b d f s = true) :
    ∃ t, exec (.movF b d f) s = .next t ∧ FileResult b d f (memValue b (fileAddr f) s) s t ∧
      t.sr.n = topBit b (memValue b (fileAddr f) s) ∧ t.sr.z = (memValue b (fileAddr f) s == 0) ∧ AtNext s t := by
  obtain ⟨u, hv, hu, hw, -⟩ := memRead_readable hr
  obtain ⟨t, ht, hpc, hres⟩ := fileWriteFlagged_ready (memValue b (fileAddr f) s) hd hu hw
  refine ⟨(t.setNZ (topBit b _) (memValue b (fileAddr f) s == 0)).advance, ?_, hres _ t.free, rfl, rfl, atNext_advance hpc⟩
  simp only [exec, execMovF, hv, ok_bind, ht]
  rfl

theorem movWregF_completes {b : Size} {f : BitVec 13} {s : State} (h : writable s b (fileAddr f) = true) :
    ∃ t, exec (.movWregF b f) s = .next t ∧ StoredAt b (fileAddr f) (s.regVal b 0) s t ∧ AtNext s t := by
  obtain ⟨t, ht, hst, hpc, -⟩ := memWrite_writable (s.regVal b 0) h
  refine ⟨t.advance, ?_, hst, atNext_advance hpc⟩
  rw [exec, execMovWregF, ht]
  rfl

theorem movFWnd_completes {f : BitVec 15} {rd : Reg} {s : State} (h : readable s .word (f ++ 0#1) = true) :
    ∃ t, exec (.movFWnd f rd) s = .next t ∧ t.reg rd = fixReg rd (memValue .word (f ++ 0#1) s) ∧
      t.initialised rd = true ∧ AtNext s t := by
  obtain ⟨u, hv, hu, -⟩ := memRead_readable h
  refine ⟨(u.writeReg rd (memValue .word (f ++ 0#1) s)).advance, ?_, u.writeReg_reg_same rd _, ?_,
    atNext_advance hu.pc⟩
  · rw [exec, execMovFWnd, directAddr, hv]
    rfl
  · exact (u.writeReg_initialised rd rd _).trans (if_pos rfl)

theorem movWnsF_completes {f : BitVec 15} {rs : Reg} {s : State} (h : writable s .word (f ++ 0#1) = true) :
    ∃ t, exec (.movWnsF f rs) s = .next t ∧ StoredAt .word (f ++ 0#1) (s.reg rs) s t ∧ AtNext s t := by
  obtain ⟨t, ht, hst, hpc, -⟩ := memWrite_writable (s.reg rs) h
  refine ⟨t.advance, ?_, hst, atNext_advance hpc⟩
  rw [exec, execMovWnsF, directAddr, ht]
  rfl

/-- Settles O18: each is one data access and one write of its destination. -/
theorem fileMoves : Obligations.FileMoves :=
  ⟨fun _ _ _ _ => movF_completes, fun _ _ _ => movWregF_completes, fun _ _ _ => movFWnd_completes,
    fun _ _ _ => movWnsF_completes⟩

/-! ## Offsets -/

/-- An address with a signed 10-bit offset makes its stack check and nothing else (R136, R137). -/
theorem eaSlit10_eq {b : Size} {isRead : Bool} {k : BitVec 10} {r : Reg} {s : State} (h : s.initialised r = true) :
    eaSlit10 b isRead k r s =
      .ok ((s.reg r).toNat + slit10Offset b k, stackCheckIf r isRead ((s.reg r).toNat + slit10Offset b k) s) := by
  rw [eaSlit10, ptrValue_init h, ok_bind]
  rfl

theorem stackCheckIf_w (r : Reg) (isRead : Bool) (a : Int) (s : State) : (stackCheckIf r isRead a s).w = s.w := by
  obtain ⟨e, n, h, -⟩ := stackCheckIf_eq r isRead a s
  rw [h, State.touch_w]

theorem movOffLd_completes {b : Size} {k : BitVec 10} {rd rs : Reg} {s : State} {a : Int}
    (ha : a = (s.reg rs).toNat + slit10Offset b k) (hi : s.initialised rs = true)
    (hr : readable s b (trunc16 a) = true) :
    ∃ t, exec (.movOffLd b k rd rs) s = .next t ∧
      Delivered b (.reg rd) (memValue b (trunc16 a) (stackCheckIf rs true a s)) s t ∧
      (rs ≠ rd → t.reg rs = s.reg rs) ∧ StackMarked (if rs = 15 then [a] else []) [] s t ∧ AtNext s t := by
  have hc : ReadsTo s (stackCheckIf rs true a s) := .stackCheckIf rs true a s
  obtain ⟨u, hv, hu, hw, htr⟩ := memRead_readable ((hc.readable b (trunc16 a)).trans hr)
  have hreg (r : Reg) : u.reg r = s.reg r := reg_congr (hw.trans (stackCheckIf_w rs true a s)) r
  refine ⟨(u.writeRegSized b rd (memValue b (trunc16 a) (stackCheckIf rs true a s))).advance, ?_, ?_, fun hne => ?_, ?_,
    atNext_advance ((State.writeRegSized_pc ..).trans (hc.trans hu).pc)⟩
  · simp only [exec, execMovOffLd, eaSlit10_eq hi, ok_bind, ← ha, hv]
    rfl
  · exact (writeRegSized_delivers b rd _ u).of_reads (hc.trans hu) rfl fun r _ => hreg r
  · exact (State.writeRegSized_reg_ne u b _ hne).trans (hreg rs)
  · exact (stackCheckIf_checks rs true a s).then_kept ((State.writeRegSized_pendingTraps ..).trans htr)

theorem movOffSt_completes {b : Size} {k : BitVec 10} {rd rs : Reg} {s : State} {a : Int}
    (ha : a = (s.reg rd).toNat + slit10Offset b k) (hi : s.initialised rd = true)
    (hw : writable s b (trunc16 a) = true) :
    ∃ t, exec (.movOffSt b k rd rs) s = .next t ∧ StoredAt b (trunc16 a) (s.regVal b rs) s t ∧
      ((effectOf (.movOffSt b k rd rs) s).hits s.device.sfr (.w rd) = false → t.reg rd = s.reg rd) ∧
      StackMarked [] (if rd = 15 then [a] else []) s t ∧ AtNext s t := by
  have hc : ReadsTo s (stackCheckIf rd false a s) := .stackCheckIf rd false a s
  obtain ⟨t, ht, hst, hpc, htr⟩ := memWrite_writable (s.regVal b rs) ((hc.writable b (trunc16 a)).trans hw)
  refine ⟨t.advance, ?_, hst.of_reads hc, fun hh => ?_, (stackCheckIf_checks rd false a s).then_kept htr,
    atNext_advance (hpc.trans hc.pc)⟩
  · simp only [exec, execMovOffSt, eaSlit10_eq hi, ok_bind, ← ha, ht]
    rfl
  · have hk := ((Frame.memWrite ht).1 rd List.not_mem_nil ?_).1
    · exact hk.trans (reg_congr (stackCheckIf_w rd false a s) rd)
    · rw [hc.sameLimit.device, ← hh, ha]
      rfl

/-- Settles O19: the check is made in the state the instruction begins in, and the base is read only. -/
theorem offsetMoves : Obligations.OffsetMoves := by
  refine ⟨fun b k rd rs s => ?_, fun b k rd rs s => ?_⟩
  · cases b <;> exact movOffLd_completes rfl
  · cases b <;> exact movOffSt_completes rfl

/-! ## Any operand to any other -/

/-- A move between operands that are ready and do not collide reads the source, then writes the destination (R109, R138). -/
theorem moveBetween_completes {b : Size} {src dst : Operand} {s : State} (hc : collides src dst = false)
    (hs : sourceReady b src s = true) (hd : destReady b dst s = true) :
    ∃ t, moveBetween b src dst s = .ok t ∧ Delivered b dst (sourceValue b src s) s t ∧
      PointerMoved (sizeBytes b) src (operandEffect b src dst {} s) s t ∧
      PointerMoved (sizeBytes b) dst (operandEffect b src dst {} s) s t ∧
      StackMarked (src.stackAddrs (sizeBytes b) s) (dst.stackAddrs (sizeBytes b) s) s t ∧ AtNext s t := by
  obtain ⟨v, u, hv⟩ := srcVal_ready hs
  have hu : ReadsTo s u := .srcVal hv
  have haddr := srcVal_addr hc hv
  obtain ⟨t, ht⟩ := dstWrite_ready v ((destReady_of_reads hu haddr).trans hd)
  have hstore : dst.store b u = dst.store b s := by simp only [Operand.store, haddr]
  refine ⟨t.advance, ?_, ?_, ?_, ?_, ?_, atNext_advance ((dstWrite_pc ht).trans hu.pc)⟩
  · simp only [moveBetween, hc, refuseIf_false, ok_bind, hv, ht]
    rfl
  · rw [sourceValue_eq hv]
    refine (dstWrite_delivers ht).of_reads hu haddr fun r hr => ?_
    exact srcVal_reg hc hv (by simp [hr, Operand.direct])
  · have hp := (srcVal_pointer (operandEffect b src dst {} s) hv).kept (Frame.dstWrite ht) hu.sameLimit.device hstore
      fun r hr => collides_not_written hc hr
    exact hp
  · refine (dstWrite_pointer hstore.symm ht).of_reads hu fun r hr => ?_
    exact srcVal_reg hc hv (List.mem_append_left _ hr)
  · have haddrs : dst.stackAddrs (sizeBytes b) u = dst.stackAddrs (sizeBytes b) s := by
      simp only [Operand.stackAddrs, haddr]
    have hm := (srcVal_marks hv).trans hu.sameLimit (dstWrite_marks ht)
    rwa [List.append_nil, List.nil_append, haddrs] at hm

/-- Settles O20: `PUSH` and `POP` are the same move with `[W15++]` and `[--W15]`. -/
theorem movePushPop : Obligations.MovePushPop := by
  intro i b src dst s hform hc hs hd
  obtain ⟨t, ht, hspec⟩ := moveBetween_completes hc hs hd
  have hnext : finish s (moveBetween b src dst s) = .next t := by rw [ht, finish_ok]
  rcases hform with ⟨rb, h, rd, g, rs, rfl, rfl, rfl⟩ | ⟨rb, g, rs, rfl, rfl, rfl, rfl⟩ |
    ⟨rb, h, rd, rfl, rfl, rfl, rfl⟩
  all_goals exact ⟨t, hnext, hspec⟩

end Sys2Proof.Machine
end

section
/-! SUPPORT. The double moves (O21; 40_move.md R139, R140): two accesses in a row, of which the first leaves alone what
the second reaches. -/

namespace Sys2Proof.Machine

/-! ## Register pairs -/

theorem pairLow_ne_pairHigh (k : Pair) : pairLow k ≠ pairHigh k := by
  intro h
  have := congrArg Fin.val h
  simp only [pairLow, pairHigh] at this
  omega

theorem pairLow_ne_15 (k : Pair) : pairLow k ≠ 15 := by
  intro h
  have := congrArg Fin.val h
  simp only [pairLow] at this
  omega

theorem writeTwo_reg_high (s : State) (r q : Reg) (v x : Word) : (s.writeTwo r q v x).reg q = fixReg q x :=
  State.writeReg_reg_same _ q x

theorem writeTwo_reg_low {r q : Reg} (s : State) (v x : Word) (h : r ≠ q) : (s.writeTwo r q v x).reg r = fixReg r v := by
  rw [State.writeTwo, State.writeReg_reg_ne _ x h, State.writeReg_reg_same]

theorem writeTwo_initialised (s : State) (r q : Reg) (v x : Word) :
    (s.writeTwo r q v x).initialised r = true ∧ (s.writeTwo r q v x).initialised q = true := by
  simp [State.writeTwo, State.writeReg_initialised]

theorem movDLd_direct_completes (rd : Pair) (rs : Reg) (s : State) :
    ∃ t, exec (.movDLd rd .direct rs) s = .next t ∧ t.reg (pairLow rd) = s.reg rs ∧
      t.reg (pairHigh rd) = fixReg (pairHigh rd) (s.reg (nextReg rs)) ∧
      t.initialised (pairLow rd) = true ∧ t.initialised (pairHigh rd) = true ∧ AtNext s t := by
  obtain ⟨hlo, hhi⟩ := writeTwo_initialised s (pairLow rd) (pairHigh rd) (s.reg rs) (s.reg (nextReg rs))
  refine ⟨_, rfl, ?_, writeTwo_reg_high s _ _ _ _, hlo, hhi, atNext_advance rfl⟩
  exact (writeTwo_reg_low s _ _ (pairLow_ne_pairHigh rd)).trans (fixReg_ne _ (pairLow_ne_15 rd))

/-- A register-direct pair number is even, so it is not 15 and is followed by another register (R106). -/
theorem even_reg {rd : Reg} (h : rd.val % 2 = 0) : rd ≠ 15 ∧ rd ≠ nextReg rd := by
  revert rd
  decide

theorem movDSt_direct_completes (rd : Reg) (rs : Pair) (s : State) (h : (Instr.movDSt .direct rd rs).wellFormed = true) :
    ∃ t, exec (.movDSt .direct rd rs) s = .next t ∧ t.reg rd = s.reg (pairLow rs) ∧
      t.reg (nextReg rd) = fixReg (nextReg rd) (s.reg (pairHigh rs)) ∧
      t.initialised rd = true ∧ t.initialised (nextReg rd) = true ∧ AtNext s t := by
  obtain ⟨h15, hne⟩ := even_reg (rd := rd) (by simpa [Instr.wellFormed] using h)
  obtain ⟨hlo, hhi⟩ := writeTwo_initialised s rd (nextReg rd) (s.reg (pairLow rs)) (s.reg (pairHigh rs))
  refine ⟨_, rfl, ?_, writeTwo_reg_high s _ _ _ _, hlo, hhi, atNext_advance rfl⟩
  exact (writeTwo_reg_low s _ _ hne).trans (fixReg_ne _ h15)

/-! ## Two reads -/

theorem stackAddrs_append (r : Reg) (a x : Int) :
    (if r = 15 then [a] else []) ++ (if r = 15 then [x] else []) = if r = 15 then [a, x] else [] := by
  split <;> rfl

theorem memValue_of_ram {s u : State} {a : Word} (hu : ReadsTo s u) (h : ramWord s a = true) :
    memValue .word a u = ramRead s .word a := by
  obtain ⟨ea, hr, -, -⟩ := ramWord_regions h
  rw [memValue, memRead_of_ram (misaligned_eq_false fun _ => ea) ((hu.regionOf .word a).trans hr), hu.ramRead]

/-- Two word reads that have answers: the second address is checked between them, and no register moves (R80, R139). -/
theorem readDouble_readable {r : Reg} {a : Int} {s : State} (h1 : readable s .word (trunc16 a) = true)
    (h2 : readable s .word (trunc16 (a + 2)) = true) :
    ∃ lo hi t, readDouble r a s = .ok (lo, hi, t) ∧ ReadsTo s t ∧
      StackMarked (if r = 15 then [a + 2] else []) [] s t ∧
      (ramWord s (trunc16 a) = true → lo = ramRead s .word (trunc16 a)) ∧
      (ramWord s (trunc16 (a + 2)) = true → hi = ramRead s .word (trunc16 (a + 2))) := by
  obtain ⟨s1, hv1, hs1, -, ht1⟩ := memRead_readable h1
  have hs2 : ReadsTo s (secondWord r true a s1) := hs1.trans (.stackCheckIf r true (a + 2) s1)
  obtain ⟨t, hv2, ht, -, ht2⟩ := memRead_readable ((hs2.readable .word (trunc16 (a + 2))).trans h2)
  refine ⟨_, _, t, ?_, hs2.trans ht, ?_, memValue_of_ram (.refl s), memValue_of_ram hs2⟩
  · simp only [readDouble, hv1, ok_bind, hv2]
    rfl
  · exact StackMarked.then_kept (.after_kept ht1 hs1.sameLimit (stackCheckIf_checks r true (a + 2) s1)) ht2

theorem movDLd_ptr_completes {rd : Pair} {p : PtrMode} {rs : Reg} {s : State} {a : Int} (ha : a = ptrAddr 4 p (s.reg rs))
    (hlo : rs ≠ pairLow rd) (hhi : rs ≠ pairHigh rd) (hi : s.initialised rs = true)
    (h1 : readable s .word (trunc16 a) = true) (h2 : readable s .word (trunc16 (a + 2)) = true) :
    ∃ t, exec (.movDLd rd (.ptr p) rs) s = .next t ∧ t.reg (pairLow rd) = (doubleValue p rs s).1 ∧
      t.reg (pairHigh rd) = fixReg (pairHigh rd) (doubleValue p rs s).2 ∧
      t.initialised (pairLow rd) = true ∧ t.initialised (pairHigh rd) = true ∧
      (ramWord s (trunc16 a) = true → (doubleValue p rs s).1 = ramRead s .word (trunc16 a)) ∧
      (ramWord s (trunc16 (a + 2)) = true → (doubleValue p rs s).2 = ramRead s .word (trunc16 (a + 2))) ∧
      PointerMoved 4 (.ptr p rs) {} s t ∧ StackMarked (if rs = 15 then [a, a + 2] else []) [] s t ∧ AtNext s t := by
  obtain ⟨place, u, he⟩ := ea_isOk (step := 4) (o := .ptr p rs) true hi rfl
  obtain ⟨rfl, -⟩ := ea_ptr he
  rw [← ha] at he
  have hu : ReadsTo s u := .ea he
  obtain ⟨lo, hi', v, hrd, hv, hmark, hram1, hram2⟩ := readDouble_readable (r := rs)
    ((hu.readable .word (trunc16 a)).trans h1) ((hu.readable .word (trunc16 (a + 2))).trans h2)
  have hval : doubleValue p rs s = (lo, hi') := by simp only [doubleValue, he, hrd]
  obtain ⟨hilo, hihi⟩ := writeTwo_initialised v (pairLow rd) (pairHigh rd) lo hi'
  rw [hval]
  refine ⟨(v.writeTwo (pairLow rd) (pairHigh rd) lo hi').advance, ?_, ?_, writeTwo_reg_high v _ _ _ _, hilo, hihi,
    fun hr => ?_, fun hr => ?_, ?_, ?_, atNext_advance (hu.trans hv).pc⟩
  · have hc : ((Operand.ptr p rs).addresses (pairLow rd) || (Operand.ptr p rs).addresses (pairHigh rd)) = false := by
      simp [Operand.addresses, hlo, hhi]
    simp only [exec, execMovDLd, modeOperand, hc, refuseIf_false, ok_bind, he, hrd]
    rfl
  · exact (writeTwo_reg_low v _ _ (pairLow_ne_pairHigh rd)).trans (fixReg_ne _ (pairLow_ne_15 rd))
  · rw [← hu.ramRead]
    exact hram1 (by rwa [ramWord, hu.regionOf])
  · rw [← hu.ramRead]
    exact hram2 (by rwa [ramWord, hu.regionOf])
  · refine (ea_pointer {} he).kept ((Frame.readDouble hrd).trans (.writeTwo v (pairLow rd) (pairHigh rd) lo hi'))
      hu.sameLimit.device rfl fun r hr => ?_
    have hrs : r = rs := by cases p <;> simp_all [Operand.moved, Operand.modified]
    simp [Effect.join, hrs, hlo, hhi]
  · have hm := StackMarked.trans (ea_checks he) hu.sameLimit hmark
    rwa [stackAddrs_ptr, ← ha, if_pos rfl, stackAddrs_append] at hm

/-! ## Two writes -/

/-- Two even addresses that differ reach different core registers (R23). -/
theorem coreRegAt_ne {m : SfrMap} {a x : Word} {c : CoreReg} (hc : coreRegAt m a = some c) (ea : a.getLsbD 0 = false)
    (ex : x.getLsbD 0 = false) (hne : x ≠ a) : coreRegAt m x ≠ some c :=
  fun hx => hne (coreRegAt_inj hx hc ex ea)

theorem sr_eq_of_kept {r q : Sr} (h : SrKept {} r q) : q = r := by
  cases r
  cases q
  simp_all [SrKept]

theorem writable_even {s : State} {a : Word} (h : writable s .word a = true) : a.getLsbD 0 = false := by
  simp only [writable, Bool.and_eq_true, Bool.not_eq_true'] at h
  simpa [misaligned, isOdd] using h.1

theorem hits_store {b : Size} {a : Word} {m : SfrMap} {c : CoreReg} (h : coreRegAt m a ≠ some c) :
    Effect.hits { stores := [(b, a)] } m c = false := by
  simpa [Effect.hits] using h

/-- A note for the end of the step, once made, stands (R252, R268, R340). -/
theorem memWrite_notes {b : Size} {a v : Word} {s t : State} (h : memWrite b a v s = .ok t) :
    (s.notes.wroteSplim = true → t.notes.wroteSplim = true) ∧ (s.notes.wroteLoop = true → t.notes.wroteLoop = true) ∧
      (s.notes.wroteDisicnt = true → t.notes.wroteDisicnt = true) := by
  rcases (memWrite_ok h).2 with ⟨c, -, -, hc⟩ | ⟨-, rfl⟩ | ⟨-, rfl⟩
  · have hh := coreHolds_of_coreWrite hc
    obtain ⟨hs, hl, hd⟩ := coreWrite_notes hc
    cases c with
    | pcl | pch => exact hh.elim
    | splim => exact ⟨fun _ => hh.2.2, fun h => by rw [hl nofun nofun, h], fun h => by rw [hd nofun, h]⟩
    | rcount => exact ⟨fun h => by rw [hs nofun, h], fun _ => hh.2.2, fun h => by rw [hd nofun, h]⟩
    | sr => exact ⟨fun h => by rw [hs nofun, h], fun _ => hh.2, fun h => by rw [hd nofun, h]⟩
    | disicnt => exact ⟨fun h => by rw [hs nofun, h], fun h => by rw [hl nofun nofun, h], fun _ => hh.2⟩
    | w | tblpag | psvpag | corcon =>
      exact ⟨fun h => by rw [hs nofun, h], fun h => by rw [hl nofun nofun, h], fun h => by rw [hd nofun, h]⟩
  · cases b <;> exact ⟨id, id, id⟩
  · exact ⟨id, id, id⟩

/-- What a store left in a core register stands through a store that does not reach it. -/
theorem CoreHolds.memWrite_other {b d : Size} {a v x y : Word} {c : CoreReg} {s u t : State} (h : CoreHolds b a v c s u)
    (hw : memWrite d x y u = .ok t) (hne : coreRegAt u.device.sfr x ≠ some c) : CoreHolds b a v c s t := by
  obtain ⟨kreg, ⟨ksr, kcorcon, ksplim, ktblpag, kpsvpag, krcount, kdisicnt, -⟩, -⟩ := Frame.memWrite hw
  obtain ⟨nsplim, nloop, ndisicnt⟩ := memWrite_notes hw
  have hh := hits_store (b := d) hne
  cases c with
  | pcl | pch => exact h
  | w r =>
    obtain ⟨hreg, hinit⟩ := kreg r List.not_mem_nil hh
    simpa only [CoreHolds, hreg, hinit] using h
  | splim =>
    obtain ⟨hs, he⟩ := ksplim hh
    obtain ⟨h1, h2, h3⟩ := h
    simp only [CoreHolds, hs, he]
    exact ⟨h1, h2, nsplim h3⟩
  | tblpag => simpa only [CoreHolds, ktblpag hh] using h
  | psvpag => simpa only [CoreHolds, kpsvpag hh] using h
  | rcount =>
    obtain ⟨h1, h2, h3⟩ := h
    simp only [CoreHolds, krcount hh List.not_mem_nil]
    exact ⟨h1, h2, nloop h3⟩
  | sr => exact ⟨(sr_eq_of_kept (ksr hh)).trans h.1, nloop h.2⟩
  | corcon =>
    have hc : t.corcon = u.corcon := by
      obtain ⟨hp, hi⟩ := kcorcon hh
      cases hu : u.corcon
      cases ht : t.corcon
      simp_all
    simpa only [CoreHolds, hc] using h
  | disicnt =>
    simp only [CoreHolds, kdisicnt hh List.not_mem_nil]
    exact ⟨h.1, ndisicnt h.2⟩

/-- The words of RAM but the one stored to stand (R71, R77). -/
theorem ramRead_memWrite_other {a x y : Word} {u t : State} (hw : memWrite .word x y u = .ok t)
    (ea : a.getLsbD 0 = false) (ex : x.getLsbD 0 = false) (hne : x ≠ a) : ramRead t .word a = ramRead u .word a := by
  obtain ⟨-, -, -, hbyte, -⟩ := Frame.memWrite hw
  have ha : a.toNat % 2 = 0 := by simpa [BitVec.getLsbD, Nat.testBit_zero] using ea
  have hx : x.toNat % 2 = 0 := by simpa [BitVec.getLsbD, Nat.testBit_zero] using ex
  have hn : x.toNat ≠ a.toNat := fun h => hne (BitVec.eq_of_toNat_eq h)
  have hout (n : Nat) (h : n = a.toNat ∨ n = a.toNat + 1) :
      Effect.storesByte { stores := [(.word, x)] } n = false := by
    rw [Bool.eq_false_iff]
    intro hs
    simp only [Effect.storesByte, List.any_cons, List.any_nil, Bool.or_false, Bool.and_eq_true, decide_eq_true_eq] at hs
    simp only [sizeBytes] at hs
    omega
  rw [ramRead, ramRead, hbyte _ (hout _ (.inl rfl)), hbyte _ (hout _ (.inr rfl))]

/-- A word that a store left stands through a store of another word. -/
theorem HoldsWord.memWrite_other {a v x y : Word} {s u t : State} (h : HoldsWord a v s u)
    (hw : memWrite .word x y u = .ok t) (hd : u.device = s.device) (ea : a.getLsbD 0 = false)
    (ex : x.getLsbD 0 = false) (hne : x ≠ a) : HoldsWord a v s t := by
  refine ⟨fun hr => (ramRead_memWrite_other hw ea ex hne).trans (h.1 hr), fun c hc => ?_⟩
  refine (h.2 c hc).memWrite_other hw ?_
  rw [hd]
  exact coreRegAt_ne (coreRegAt_of_region hc) ea ex hne

/-- What a word store leaves does not depend on a store of another word before it. -/
theorem HoldsWord.after_memWrite {a v x y : Word} {s u t : State} (h : HoldsWord a v u t)
    (hw : memWrite .word x y s = .ok u) (hr : regionOf u .word a = regionOf s .word a) (ea : a.getLsbD 0 = false)
    (ex : x.getLsbD 0 = false) (hne : x ≠ a) : HoldsWord a v s t := by
  refine ⟨fun hs => h.1 (hr.trans hs), fun c hc => ?_⟩
  obtain ⟨-, ⟨ksr, kcorcon, -⟩, ⟨-, -, -, -, -, -, -, -, -, -, hnst⟩, -⟩ := Frame.memWrite hw
  have hh := hits_store (b := .word) (coreRegAt_ne (coreRegAt_of_region hc) ea ex hne)
  have hk := h.2 c (hr.trans hc)
  cases c with
  | sr => simpa only [CoreHolds, sr_eq_of_kept (ksr hh), hnst] using hk
  | corcon =>
    simp only [CoreHolds, reduceCtorEq, false_and, if_false, (kcorcon hh).2 List.not_mem_nil] at hk ⊢
    exact hk
  | pcl | pch => exact hk
  | tblpag => simpa only [CoreHolds, reduceCtorEq, false_and, if_false] using hk
  | psvpag => simpa only [CoreHolds, reduceCtorEq, false_and, if_false] using hk
  | w => exact ⟨hk.1, nofun⟩
  | splim => exact ⟨hk.1, nofun, hk.2.2⟩
  | rcount => exact ⟨hk.1, nofun, hk.2.2⟩
  | disicnt => exact hk

/-- A store opens or closes the PSV window only from below 0x0800, so that the word after it is reached as before (R70, R72). -/
theorem regionOf_after_memWrite {a v : Word} {s t : State} (h : memWrite .word a v s = .ok t) :
    regionOf t .word (a + 2) = regionOf s .word (a + 2) := by
  obtain ⟨-, hd⟩ := memWrite_prog h
  rcases (memWrite_ok h).2 with ⟨c, hc, -, -⟩ | ⟨-, rfl⟩ | ⟨-, rfl⟩
  · have hlow : ¬ 0x8000 ≤ (a + 2).toNat := by
      have ha := (coreRegAt_some hc).1
      rw [BitVec.toNat_add, show (2 : Word).toNat = 2 from rfl]
      omega
    simp only [regionOf, hd, hlow, and_false, if_false]
  · exact regionOf_ramWrite .word .word a (a + 2) v s
  · rfl

/-- What a word store adds to the record of peripheral writes (R78). -/
theorem memWrite_periphWrites {a v : Word} {s t : State} (h : memWrite .word a v s = .ok t) :
    t.periphWrites = periphEntry a v s ++ s.periphWrites := by
  rcases (memWrite_ok h).2 with ⟨c, -, hr, hc⟩ | ⟨hr, rfl⟩ | ⟨hr, rfl⟩
  · obtain ⟨-, -, -, -, hp, -⟩ := coreWrite_ok hc
    simp [periphEntry, hr, hp]
  · simp only [periphEntry, hr]
    rfl
  · simp only [periphEntry, hr]
    rfl

theorem holdsWord_of_storedAt {a v : Word} {s t : State} (h : StoredAt .word a v s t) : HoldsWord a v s t :=
  ⟨fun hr => (h.1 hr).1, h.2.1⟩

/-- A store that is not to SPLIM leaves the limit of the stack checks (R51, R300). -/
theorem sameLimit_of_memWrite {b : Size} {a v : Word} {s t : State} (h : memWrite b a v s = .ok t)
    (hs : regionOf s b a ≠ .core .splim) : SameLimit s t := by
  obtain ⟨-, ⟨-, -, ksplim, -⟩, -, -, -, -, hd⟩ := Frame.memWrite h
  obtain ⟨hlim, hen⟩ := ksplim (hits_store (b := b) fun hc => hs (regionOf_core hc))
  exact ⟨hlim, hen, (memWrite_kept h).2.2, hd⟩

theorem trunc16_add_two (a : Int) : trunc16 (a + 2) = trunc16 a + 2 := by
  rw [trunc16, BitVec.ofInt_add]
  rfl

theorem HoldsWord.of_reads {a v : Word} {s u t : State} (h : ReadsTo s u) (k : HoldsWord a v u t) : HoldsWord a v s t := by
  obtain ⟨w, e, n, p, rfl⟩ := h
  exact k

/-- A stack check after a store leaves what it stored. -/
theorem HoldsWord.then_check {a v : Word} {s u : State} (h : HoldsWord a v s u) (r : Reg) (isRead : Bool) (x : Int) :
    HoldsWord a v s (stackCheckIf r isRead x u) := by
  obtain ⟨e, n, hc, -⟩ := stackCheckIf_eq r isRead x u
  rw [hc]
  exact h

theorem periphEntry_congr {a : Word} {s u : State} (v : Word) (h : regionOf u .word a = regionOf s .word a) :
    periphEntry a v u = periphEntry a v s := by
  simp only [periphEntry, h]

/-- Two word writes that have effects: each leaves its word, and the second address is checked between them (R80, R140). -/
theorem writeDouble_writable {r : Reg} {a : Int} {lo hi : Word} {s : State} (h1 : writable s .word (trunc16 a) = true)
    (h2 : writable s .word (trunc16 (a + 2)) = true) :
    ∃ t, writeDouble r a lo hi s = .ok t ∧ HoldsWord (trunc16 a) lo s t ∧ HoldsWord (trunc16 (a + 2)) hi s t ∧
      t.periphWrites = periphEntry (trunc16 (a + 2)) hi s ++ periphEntry (trunc16 a) lo s ++ s.periphWrites ∧
      t.pc = s.pc ∧
      (regionOf s .word (trunc16 a) ≠ .core .splim → StackMarked [] (if r = 15 then [a + 2] else []) s t) := by
  have hnext := trunc16_add_two a
  have ea := writable_even h1
  have ex := writable_even h2
  have hne : trunc16 (a + 2) ≠ trunc16 a := by rw [hnext]; simp
  obtain ⟨s1, hw1, hst1, hpc1, htr1⟩ := memWrite_writable lo h1
  have hreg1 : regionOf s1 .word (trunc16 (a + 2)) = regionOf s .word (trunc16 (a + 2)) := by
    rw [hnext]
    exact regionOf_after_memWrite hw1
  have hs2 : ReadsTo s1 (secondWord r false a s1) := .stackCheckIf r false (a + 2) s1
  have hdev : (secondWord r false a s1).device = s.device := hs2.sameLimit.device.trans (memWrite_prog hw1).2
  have hper2 : (secondWord r false a s1).periphWrites = s1.periphWrites := hs2.periphWrites
  have hwr2 : writable (secondWord r false a s1) .word (trunc16 (a + 2)) = true := by
    simpa only [writable, hs2.regionOf, hreg1] using h2
  obtain ⟨t, hw2, hst2, hpc2, htr2⟩ := memWrite_writable hi hwr2
  refine ⟨t, ?_, ?_, ?_, ?_, hpc2.trans (hs2.pc.trans hpc1), fun hsp => ?_⟩
  · simp only [writeDouble, hw1, ok_bind, hw2]
  · exact ((holdsWord_of_storedAt hst1).then_check r false (a + 2)).memWrite_other hw2 hdev ea ex hne
  · exact ((holdsWord_of_storedAt hst2).of_reads hs2).after_memWrite hw1 hreg1 ex ea hne.symm
  · rw [memWrite_periphWrites hw2, periphEntry_congr _ ((hs2.regionOf ..).trans hreg1), hper2,
      memWrite_periphWrites hw1, List.append_assoc]
  · exact StackMarked.then_kept (.after_kept htr1 (sameLimit_of_memWrite hw1 hsp)
      (stackCheckIf_checks r false (a + 2) s1)) htr2

theorem movDSt_ptr_completes {p : PtrMode} {rd : Reg} {rs : Pair} {s : State} {a : Int} (ha : a = ptrAddr 4 p (s.reg rd))
    (hi : s.initialised rd = true) (h1 : writable s .word (trunc16 a) = true)
    (h2 : writable s .word (trunc16 (a + 2)) = true) :
    ∃ t, exec (.movDSt (.ptr p) rd rs) s = .next t ∧
      HoldsWord (trunc16 a) (s.reg (pairLow rs)) s t ∧ HoldsWord (trunc16 (a + 2)) (s.reg (pairHigh rs)) s t ∧
      t.periphWrites = periphEntry (trunc16 (a + 2)) (s.reg (pairHigh rs)) s ++
        periphEntry (trunc16 a) (s.reg (pairLow rs)) s ++ s.periphWrites ∧
      PointerMoved 4 (.ptr p rd) (effectOf (.movDSt (.ptr p) rd rs) s) s t ∧
      (regionOf s .word (trunc16 a) ≠ .core .splim → StackMarked [] (if rd = 15 then [a, a + 2] else []) s t) ∧
      AtNext s t := by
  obtain ⟨place, u, he⟩ := ea_isOk (step := 4) (o := .ptr p rd) false hi rfl
  obtain ⟨rfl, -⟩ := ea_ptr he
  rw [← ha] at he
  have hu : ReadsTo s u := .ea he
  obtain ⟨t, hw, hlo, hhi, hper, hpc, hmark⟩ := writeDouble_writable (r := rd) (lo := s.reg (pairLow rs))
    (hi := s.reg (pairHigh rs)) ((hu.writable .word (trunc16 a)).trans h1)
    ((hu.writable .word (trunc16 (a + 2))).trans h2)
  refine ⟨t.advance, ?_, hlo.of_reads hu, hhi.of_reads hu, ?_, ?_, fun hs => ?_, atNext_advance (hpc.trans hu.pc)⟩
  · simp only [exec, execMovDSt, modeOperand, ok_bind, he, hw]
    rfl
  · rw [State.advance_periphWrites, hper, hu.periphWrites, periphEntry_congr _ (hu.regionOf ..),
      periphEntry_congr _ (hu.regionOf ..)]
  · have hst : [(Size.word, trunc16 a), (Size.word, trunc16 (a + 2))] = (effectOf (.movDSt (.ptr p) rd rs) s).stores := by
      rw [ha]
      rfl
    have hp := (ea_pointer (effectOf (.movDSt (.ptr p) rd rs) s) he).kept (Frame.writeDouble hw) hu.sameLimit.device hst
      fun r _ => List.not_mem_nil
    exact hp
  · have hm := StackMarked.trans (ea_checks he) hu.sameLimit (hmark (by rwa [hu.regionOf]))
    rw [stackAddrs_ptr, ← ha, if_neg nofun, if_neg nofun, stackAddrs_append] at hm
    exact hm

/-- Settles O21: between registers it is two writes; to and from memory it is two accesses of which neither reaches the
other's word. -/
theorem doubleMoves : Obligations.DoubleMoves :=
  ⟨fun rd rs s _ => movDLd_direct_completes rd rs s, fun _ _ _ _ => movDLd_ptr_completes rfl,
    movDSt_direct_completes, fun _ _ _ _ => movDSt_ptr_completes rfl⟩

end Sys2Proof.Machine
end

section
/-! SUPPORT. Pushes and pops (O23; 41_stack.md R152): the stack check that each makes, and on a stack in RAM everything it leaves. -/

namespace Sys2Proof.Machine

/-! ## Registers -/

@[simp] theorem State.advance_reg (s : State) (r : Reg) : s.advance.reg r = s.reg r := rfl

@[simp] theorem State.advance_initialised (s : State) (r : Reg) : s.advance.initialised r = s.initialised r := rfl

/-- A word with bit 0 clear is stored in W15 as it is (R26). -/
theorem fixReg_of_even {v : Word} (r : Reg) (h : v.getLsbD 0 = false) : fixReg r v = v := by
  have hmask : ∀ i < 16, i ≠ 0 → (0xFFFE : Word).getLsbD i = true := by decide
  have hand : v &&& 0xFFFE = v := by
    refine BitVec.eq_of_getLsbD_eq fun i hi => ?_
    by_cases h0 : i = 0
    · rw [h0, BitVec.getLsbD_and, h, Bool.false_and]
    · rw [BitVec.getLsbD_and, hmask i hi h0, Bool.and_true]
  rw [fixReg, hand, ite_self]

theorem even_add {v x : Word} (hv : v.getLsbD 0 = false) (hx : x.getLsbD 0 = false) : (v + x).getLsbD 0 = false := by
  simp only [BitVec.getLsbD, Nat.testBit_zero, decide_eq_false_iff_not, BitVec.toNat_add] at *
  omega

theorem even_append_zero {w : Nat} (k : BitVec w) (n : Nat) : ((k ++ 0#1).setWidth n).getLsbD 0 = false := by
  rw [BitVec.getLsbD_setWidth, BitVec.getLsbD_append, if_pos Nat.one_pos, BitVec.getLsbD_zero, Bool.and_false]

theorem trunc16_sub_two (a : Word) : trunc16 ((a.toNat : Int) - 2) = a - 2 := by
  rw [trunc16, Int.sub_eq_add_neg, BitVec.ofInt_add, BitVec.ofInt_natCast, BitVec.ofNat_toNat, BitVec.setWidth_eq,
    BitVec.sub_eq_add_neg]
  rfl

/-! ## Pushes -/

theorem ReadsTo.setReg (s : State) (r : Reg) (v : Word) : ReadsTo s (s.setReg r v) :=
  ⟨_, s.pendingTraps.stackError, s.free, s.notes.psvReads, rfl⟩

theorem ReadsTo.stackCheck (isRead : Bool) (a : Int) (s : State) : ReadsTo s (Machine.stackCheck isRead a s) :=
  .stackCheckIf 15 isRead a s

/-- The address of a push is that of W15 before it, checked after W15 has moved (R152, R300). -/
theorem push16_marks {v : Word} {s t : State} (h : push16 v s = .ok t) :
    StackMarked [] [((s.reg 15).toNat : Int)] s t := by
  have hm : ReadsTo s (s.setReg 15 (s.reg 15 + 2)) := .setReg s 15 _
  obtain ⟨-, htraps, -⟩ := memWrite_kept h
  exact .after_kept (State.setReg_pendingTraps ..) hm.sameLimit ((stackCheck_marks_write _ _).then_kept htraps)

theorem push16_pc {v : Word} {s t : State} (h : push16 v s = .ok t) : t.pc = s.pc := by
  obtain ⟨e, n, hw, -⟩ := push16_ok h
  exact (memWrite_kept hw).1

/-- A push onto RAM leaves the word where W15 pointed, and W15 after it (R152). -/
theorem push16_on_ram {s : State} (v : Word) (h : ramWord s (s.reg 15) = true) :
    ∃ t, push16 v s = .ok t ∧ ramRead t .word (s.reg 15) = v ∧ t.reg 15 = s.reg 15 + 2 := by
  obtain ⟨e, n, ht, -⟩ := push16_ram v h
  obtain ⟨heven, -⟩ := ramWord_regions h
  refine ⟨_, ht, ramRead_ramWrite_word .., (s.setReg_reg_same 15 _).trans ?_⟩
  exact fixReg_of_even 15 (even_add heven rfl)

/-! ## Pops -/

/-- A pop from RAM reads the word below W15, leaves W15 at it, and checks its address (R152, R300). -/
theorem pop16_on_ram {s : State} (h : ramWord s (s.reg 15 - 2) = true) :
    ∃ t, pop16 s = .ok (ramRead s .word (s.reg 15 - 2), t) ∧ ReadsTo s t ∧ t.reg 15 = s.reg 15 - 2 ∧
      StackMarked [((s.reg 15).toNat : Int) - 2] [] s t := by
  obtain ⟨heven, hr, -⟩ := ramWord_regions h
  have hm : ReadsTo s (s.setReg 15 (s.reg 15 - 2)) := .setReg s 15 _
  have hu := hm.trans (.stackCheck true ((s.reg 15).toNat - 2) _)
  obtain ⟨e, n, hc, -⟩ := stackCheck_eq true ((s.reg 15).toNat - 2) (s.setReg 15 (s.reg 15 - 2))
  refine ⟨stackCheck true ((s.reg 15).toNat - 2) (s.setReg 15 (s.reg 15 - 2)), ?_, hu, ?_,
    .after_kept (State.setReg_pendingTraps ..) hm.sameLimit (stackCheck_marks_read _ _)⟩
  · rw [pop16, trunc16_sub_two, memRead_of_ram (misaligned_eq_false fun _ => heven) ((hu.regionOf ..).trans hr),
      hu.ramRead]
  · rw [hc, State.touch_reg, State.setReg_reg_same, fixReg_of_even 15 heven]

end Sys2Proof.Machine
end

section
/-! SUPPORT. The shadow registers and the frames on the stack (O22, O23, O40; 41_stack.md R150 to R157). -/

namespace Sys2Proof.Machine

/-! ## Frames -/

namespace Frame

variable {s t : State}

theorem setShadow (s : State) (x : Shadow) : Frame { own := [.shadow] } s { s with shadow := x } :=
  ⟨fun _ _ _ => ⟨rfl, rfl⟩,
    ⟨fun _ => ⟨fun _ => rfl, fun _ => rfl, fun _ => rfl, fun _ => rfl, fun _ => rfl, fun _ => rfl, fun _ => rfl⟩,
      fun _ => ⟨rfl, fun _ => rfl⟩, fun _ => ⟨rfl, rfl⟩, fun _ => rfl, fun _ => rfl, fun _ _ => rfl, fun _ _ => rfl,
      fun ho => absurd List.mem_cons_self ho⟩,
    ⟨fun _ => rfl, fun _ => rfl, fun _ => rfl, fun _ => rfl, id, id, rfl, rfl, rfl, rfl, rfl⟩,
    fun _ _ => rfl, fun _ => rfl, rfl, rfl⟩

theorem pushS (h : execPushS s = .next t) : Frame (effectOf .pushS s) s t := by
  cases h
  exact setShadow s _

/-- The four registers, then the five flags (R155). -/
theorem popS (h : execPopS s = .next t) : Frame (effectOf .popS s) s t := by
  cases h
  have hregs := (((writeReg s 0 s.shadow.w0).trans (writeReg _ 1 s.shadow.w1)).trans
    (writeReg _ 2 s.shadow.w2)).trans (writeReg _ 3 s.shadow.w3)
  exact hregs.trans (setSr (m := addMask) (n := s.free) _ (by simp [SrKept, addMask]))

/-- The push, then W14 and W15 (R156). -/
theorem lnk {k : BitVec 13} (h : execLnk k s = .next t) (hr : Ran t) : Frame (effectOf (.lnk k) s) s t := by
  obtain ⟨s1, h1, h⟩ := bind_ok (finish_ran h hr)
  cases h
  refine (((push16 h1).trans (writeReg s1 14 _)).trans (writeReg _ 15 _)).mono (.of_subset ?_ ?_ ?_ rfl)
  all_goals simp [Effect.join, effectOf]

/-- W15, then the pop, then W14 (R157). -/
theorem ulnk (h : execUlnk s = .next t) (hr : Ran t) : Frame (effectOf .ulnk s) s t := by
  obtain ⟨⟨v, s1⟩, h1, h⟩ := bind_ok (finish_ran h hr)
  cases h
  refine (((writeReg s 15 _).trans (pop16 h1)).trans (writeReg s1 14 v)).mono (.of_subset ?_ ?_ ?_ rfl)
  all_goals simp [Effect.join, effectOf]

end Frame

/-- Settles O40: `PUSH` and `POP` have the frame of a move, the others that of their operations, composed. -/
theorem stackFrame : Obligations.StackFrame := by
  intro i s t hi h hr
  cases i <;> cases hi
  case push => exact .moveBetween (finish_ran h hr)
  case pop => exact .moveBetween (finish_ran h hr)
  case pushS => exact .pushS h
  case popS => exact .popS h
  case lnk => exact .lnk h hr
  case ulnk => exact .ulnk h hr

/-! ## Linking and unlinking -/

/-- The saved word stands where W15 pointed; W14 takes W15 after the push, and the frame keeps W15 even (R26, R156). -/
theorem lnk_completes {k : BitVec 13} {s : State} (h : ramWord s (s.reg 15) = true) :
    ∃ t, exec (.lnk k) s = .next t ∧ ramRead t .word (s.reg 15) = s.reg 14 ∧
      t.reg 14 = s.reg 15 + 2 ∧ t.initialised 14 = true ∧
      t.reg 15 = s.reg 15 + 2 + (k ++ 0#1 : BitVec 14).setWidth 16 ∧
      StackMarked [] [((s.reg 15).toNat : Int)] s t ∧ AtNext s t := by
  obtain ⟨u, hpush, hram, hu15⟩ := push16_on_ram (s.reg 14) h
  obtain ⟨heven, -⟩ := ramWord_regions h
  have h15 : (u.writeReg 14 (u.reg 15)).reg 15 = s.reg 15 + 2 := by
    rw [State.writeReg_reg_ne _ _ (by decide), hu15]
  have htop : (s.reg 15 + 2 + (k ++ 0#1 : BitVec 14).setWidth 16).getLsbD 0 = false :=
    even_add (even_add heven rfl) (even_append_zero k 16)
  refine ⟨((u.writeReg 14 (u.reg 15)).writeReg 15
      ((u.writeReg 14 (u.reg 15)).reg 15 + (k ++ 0#1).setWidth 16)).advance, ?_, hram, ?_, ?_, ?_,
    (push16_marks hpush).then_kept rfl, atNext_advance (push16_pc hpush : u.pc = s.pc)⟩
  · rw [exec, execLnk, hpush]
    rfl
  · rw [State.advance_reg, State.writeReg_reg_ne _ _ (by decide), State.writeReg_reg_same, fixReg_ne _ (by decide), hu15]
  · rw [State.advance_initialised, State.writeReg_initialised, if_neg (by decide), State.writeReg_initialised,
      if_pos rfl]
  · rw [State.advance_reg, State.writeReg_reg_same, h15, fixReg_of_even 15 htop]

/-- W15 takes W14, its bit 0 cleared (R26), before the saved word is popped from below it (R157). -/
theorem ulnk_completes {s : State} {a : Word} (ha : a = (s.reg 14 &&& 0xFFFE) - 2) (h : ramWord s a = true) :
    ∃ t, exec .ulnk s = .next t ∧ t.reg 14 = ramRead s .word a ∧ t.initialised 14 = true ∧ t.reg 15 = a ∧
      StackMarked [((s.reg 14 &&& 0xFFFE).toNat : Int) - 2] [] s t ∧ AtNext s t := by
  have h15 : (s.writeReg 15 (s.reg 14)).reg 15 = s.reg 14 &&& 0xFFFE := State.writeReg_reg_same s 15 _
  have hw : ReadsTo s (s.writeReg 15 (s.reg 14)) := .setReg s 15 _
  obtain ⟨u, hpop, hu, hu15, hmark⟩ := pop16_on_ram (s := s.writeReg 15 (s.reg 14)) (by rwa [h15, ← ha])
  rw [h15, ← ha] at hpop hu15
  rw [h15] at hmark
  rw [hw.ramRead] at hpop
  refine ⟨(u.writeReg 14 (ramRead s .word a)).advance, ?_, ?_, ?_, ?_,
    (StackMarked.after_kept (State.writeReg_pendingTraps ..) hw.sameLimit hmark).then_kept rfl, atNext_advance (hw.trans hu).pc⟩
  · rw [exec, execUlnk, hpop]
    rfl
  · rw [State.advance_reg, State.writeReg_reg_same, fixReg_ne _ (by decide)]
  · rw [State.advance_initialised, State.writeReg_initialised, if_pos rfl]
  · rw [State.advance_reg, State.writeReg_reg_ne _ _ (by decide), hu15]

/-- Settles O23: a push or a pop on RAM, between writes of W14 and W15 that leave the memory and the traps alone. -/
theorem linkUnlink : Obligations.LinkUnlink :=
  ⟨fun _ _ => lnk_completes, fun _ => ulnk_completes rfl⟩

/-! ## Shadow registers -/

/-- The word of an instruction that is no `CALL` or `GOTO` decodes to it whatever the word after it (R104). -/
theorem decode_of_short {w : ProgWord} {i : Instr} (w2 : ProgWord) (h : Laws.Encodes w i) (hi : ∀ t, ¬ Laws.IsLong i t) :
    decode w w2 = .ok i :=
  Laws.decode_eq_ok_iff.mpr ⟨fun htwo => absurd htwo (by simp [h.isTwoWord_of_short hi]),
    Laws.decodeFirst_complete h fun t ht => absurd ht (hi t)⟩

/-- Word writes of W0 to W3 leave their values, and the four registers initialised (R28). -/
theorem writeReg_four (s : State) (v0 v1 v2 v3 : Word) :
    let t := (((s.writeReg 0 v0).writeReg 1 v1).writeReg 2 v2).writeReg 3 v3
    t.reg 0 = v0 ∧ t.reg 1 = v1 ∧ t.reg 2 = v2 ∧ t.reg 3 = v3 ∧
      t.initialised 0 = true ∧ t.initialised 1 = true ∧ t.initialised 2 = true ∧ t.initialised 3 = true := by
  simp [State.writeReg_reg, State.writeReg_initialised, fixReg]

theorem popS_completes (s : State) : ∃ t, exec .popS s = .next t ∧ AtNext s t ∧
    t.reg 0 = s.shadow.w0 ∧ t.reg 1 = s.shadow.w1 ∧ t.reg 2 = s.shadow.w2 ∧ t.reg 3 = s.shadow.w3 ∧
    t.initialised 0 = true ∧ t.initialised 1 = true ∧ t.initialised 2 = true ∧ t.initialised 3 = true ∧
    t.sr =
      { s.sr with dc := s.shadow.dc, n := s.shadow.n, ov := s.shadow.ov, z := s.shadow.z, c := s.shadow.c } ∧
    t.shadow = s.shadow := by
  obtain ⟨h0, h1, h2, h3, i0, i1, i2, i3⟩ := writeReg_four s s.shadow.w0 s.shadow.w1 s.shadow.w2 s.shadow.w3
  exact ⟨_, rfl, atNext_advance rfl, h0, h1, h2, h3, i0, i1, i2, i3, rfl, rfl⟩

/-- Settles O22: the two words are the encodings of their instructions, `PUSH.S` writes the shadow registers and the PC alone, and
`POP.S` writes back four registers and five flags. -/
theorem shadowMoves : Obligations.ShadowMoves :=
  ⟨fun w2 => decode_of_short w2 ⟨rfl, rfl⟩ nofun, fun w2 => decode_of_short w2 ⟨rfl, rfl⟩ nofun,
    fun _ => ⟨_, rfl, atNext_advance rfl, rfl, rfl⟩, popS_completes⟩

end Sys2Proof.Machine
end

section
/-! SUPPORT. The addition law (O13; 42_alu_bit.md R165): a carry out of a field is the next bit of a wider sum, and the overflow that
the sign bits show is that of the signed sum. -/

namespace Sys2Proof.Machine

/-! ## Sums of bit vectors -/

/-- The carry out of `n` bits is bit `n` of the sum in one bit more. -/
theorem getLsbD_add_setWidth_succ {n : Nat} (x y : BitVec n) :
    (x.setWidth (n + 1) + y.setWidth (n + 1)).getLsbD n = decide (2 ^ n ≤ x.toNat + y.toNat) := by
  have hsum : (x.setWidth (n + 1) + y.setWidth (n + 1)).toNat = x.toNat + y.toNat := by
    have hx := x.isLt
    have hy := y.isLt
    rw [BitVec.toNat_add, BitVec.toNat_setWidth_of_le n.le_succ, BitVec.toNat_setWidth_of_le n.le_succ,
      Nat.mod_eq_of_lt (by rw [Nat.pow_succ]; omega)]
  rw [← hsum]
  exact BitVec.getLsbD_last _

theorem saddOverflow_eq_getLsbD {n : Nat} (x y : BitVec (n + 1)) :
    x.saddOverflow y = (x.getLsbD n == y.getLsbD n && (x + y).getLsbD n != x.getLsbD n) := by
  rw [BitVec.saddOverflow_eq, BitVec.msb_eq_getLsbD_last, BitVec.msb_eq_getLsbD_last, BitVec.msb_eq_getLsbD_last]
  rfl

theorem saddOverflow_iff {n : Nat} (x y : BitVec (n + 1)) :
    x.saddOverflow y = true ↔ x.toInt + y.toInt < -2 ^ n ∨ 2 ^ n - 1 < x.toInt + y.toInt := by
  simp only [BitVec.saddOverflow, Nat.add_sub_cancel, Bool.or_eq_true, decide_eq_true_iff]
  omega

/-! ## Operands in their size -/

theorem toNat_lowByte (v : Word) : (lowByte v).toNat = v.toNat % 2 ^ 8 := by
  simp [lowByte]

@[simp] theorem lowByte_byteWord (v : Byte) : lowByte (byteWord v) = v := by
  apply BitVec.eq_of_toNat_eq
  have hv := v.isLt
  simp only [toNat_lowByte, byteWord, BitVec.toNat_setWidth]
  omega

theorem byteWord_inj {v w : Byte} : byteWord v = byteWord w ↔ v = w :=
  ⟨fun h => by simpa using congrArg lowByte h, congrArg byteWord⟩

theorem narrow_word (v : Nat) : narrow .word v = BitVec.ofNat 16 v :=
  BitVec.eq_of_toNat_eq (by simp [narrow, sizeBits])

theorem narrow_byte (v : Nat) : narrow .byte v = byteWord (BitVec.ofNat 8 v) := by
  apply BitVec.eq_of_toNat_eq
  simp [narrow, sizeBits, byteWord]

theorem topBit_byte (v : Word) : topBit .byte v = (lowByte v).getLsbD 7 := (lowByte_getLsbD v (by decide)).symm

/-! ## The two sizes -/

theorem addFlags_word (x y : Word) :
    addFlags .word x y =
      { res := x + y, dc := decide (2 ^ 8 ≤ (lowByte x).toNat + (lowByte y).toNat), n := (x + y).getLsbD 15
        ov := x.saddOverflow y, z := x + y == 0, c := decide (2 ^ 16 ≤ x.toNat + y.toNat) } := by
  have hres : narrow .word (x.toNat + y.toNat) = x + y := by
    rw [narrow_word, BitVec.ofNat_add, BitVec.ofNat_toNat, BitVec.ofNat_toNat, BitVec.setWidth_eq, BitVec.setWidth_eq]
  rw [saddOverflow_eq_getLsbD, toNat_lowByte, toNat_lowByte]
  simp only [addFlags, sizeBits, Nat.mod_eq_of_lt x.isLt, Nat.mod_eq_of_lt y.isLt, hres]
  rfl

theorem addFlags_byte (x y : Word) :
    addFlags .byte x y =
      { res := byteWord (lowByte x + lowByte y)
        dc := decide (2 ^ 4 ≤ (lowByte x).toNat % 2 ^ 4 + (lowByte y).toNat % 2 ^ 4)
        n := (lowByte x + lowByte y).getLsbD 7, ov := (lowByte x).saddOverflow (lowByte y)
        z := lowByte x + lowByte y == 0, c := decide (2 ^ 8 ≤ (lowByte x).toNat + (lowByte y).toNat) } := by
  have hres : narrow .byte ((lowByte x).toNat + (lowByte y).toNat) = byteWord (lowByte x + lowByte y) := by
    rw [narrow_byte, BitVec.ofNat_add, BitVec.ofNat_toNat, BitVec.ofNat_toNat, BitVec.setWidth_eq, BitVec.setWidth_eq]
  have hzero : (byteWord (lowByte x + lowByte y) == 0) = (lowByte x + lowByte y == 0) :=
    decide_eq_decide.mpr (byteWord_inj (w := 0))
  rw [saddOverflow_eq_getLsbD]
  simp only [addFlags, sizeBits, ← toNat_lowByte, hres, topBit_byte, lowByte_byteWord, hzero]

/-- Settles O13: each carry is the next bit of a sum that is one bit wider, and the overflow is that of the signed sum. -/
theorem addLaw : Obligations.AddLaw := by
  refine fun x y => ⟨?word, ?byte⟩
  case word =>
    rw [addFlags_word]
    exact ⟨rfl, (getLsbD_add_setWidth_succ x y).symm, (getLsbD_add_setWidth_succ _ _).symm, rfl,
      saddOverflow_eq_getLsbD x y, saddOverflow_iff x y, rfl⟩
  case byte =>
    have hhalf (v : Byte) : (v.extractLsb' 0 4).toNat = v.toNat % 2 ^ 4 := by simp
    rw [addFlags_byte]
    refine ⟨rfl, (getLsbD_add_setWidth_succ _ _).symm, ?_, rfl, saddOverflow_eq_getLsbD _ _, saddOverflow_iff _ _, rfl⟩
    rw [getLsbD_add_setWidth_succ, hhalf, hhalf]

end Sys2Proof.Machine
end

section
/-! SUPPORT. The frames of `ADD`, `BSET` and `BTSC` (O41; 42_alu_bit.md R166 to R173), from those of the operations they are made
of. -/

namespace Sys2Proof.Machine

theorem operandEffect_join_sr (b : Size) (src dst : Operand) (m : SrMask) (s : State) :
    (operandEffect b src dst {} s).join { sr := m } = operandEffect b src dst m s := by
  simp [Effect.join, SrMask.join, operandEffect]

theorem fileEffect_join_sr (b : Size) (d : Dest) (f : BitVec 13) (m : SrMask) :
    (fileEffect b d f {}).join { sr := m } = fileEffect b d f m := by
  cases d <;> simp [Effect.join, SrMask.join, fileEffect]

theorem collides_reg (r : Reg) (o : Operand) : collides (.reg r) o = false := by
  rw [collides]
  cases o.modified <;> rfl

/-- A register is read as it is, in its size (R109). -/
theorem srcVal_direct (b : Size) (r : Reg) (s : State) : srcVal b (.reg r) s = .ok (s.regVal b r, s) := by
  cases b <;> rfl

namespace Frame

variable {s t : State}

theorem skipIfClear (bit : Bool) (s : State) : Frame {} s (Machine.skipIfClear bit s) := goto s _

/-- Reading a source and then writing a destination change what the two operands change (R109). -/
theorem srcVal_dstWriteFlagged {b : Size} {src dst : Operand} {v x : Word} {u : State} (hc : collides src dst = false)
    (h1 : Machine.srcVal b src s = .ok (v, u)) (h2 : Machine.dstWriteFlagged b dst x u = .ok t) :
    Frame (operandEffect b src dst {} s) s t := by
  have hd := dstWriteFlagged h2
  rw [show dst.store b u = dst.store b s by simp only [Operand.store, srcVal_addr hc h1]] at hd
  refine ((srcVal h1).trans hd).mono (.of_subset ?_ ?_ ?_ rfl)
  · simp [Effect.join, operandEffect]
  · simp [Effect.join, operandEffect]
  · exact stackOwn_append_subset src.usesStack dst.usesStack

theorem addF {b : Size} {d : Dest} {f : BitVec 13} (h : execAddF b d f s = .next t) (hr : Ran t) :
    Frame (fileEffect b d f addMask) s t := by
  obtain ⟨⟨x, s1⟩, h1, h⟩ := bind_ok (finish_ran h hr)
  obtain ⟨s2, h2, h⟩ := bind_ok h
  cases h
  rw [← fileEffect_join_sr]
  exact ((memRead h1).trans (fileWriteFlagged h2)).trans (setAddFlags s2 _)

theorem addLit10 {b : Size} {k : BitVec 10} {rd : Reg} (h : execAddLit10 b k rd s = .next t) (hr : Ran t) :
    Frame { regs := [rd], sr := addMask } s t := by
  obtain ⟨_, -, h⟩ := bind_ok (finish_ran h hr)
  cases h
  exact (writeRegSized s b rd _).trans (setAddFlags _ _)

theorem addLit5 {b : Size} {rb : Reg} {q : Mode} {rd : Reg} {k : BitVec 5} (h : execAddLit5 b rb q rd k s = .next t)
    (hr : Ran t) : Frame (effectOf (.addLit5 b rb q rd k) s) s t := by
  obtain ⟨s1, h1, h⟩ := bind_ok (finish_ran h hr)
  cases h
  rw [effectOf, ← operandEffect_join_sr]
  exact (srcVal_dstWriteFlagged (collides_reg rb _) (srcVal_direct b rb s) h1).trans (setAddFlags s1 _)

theorem addWs {b : Size} {rb : Reg} {q : Mode} {rd : Reg} {p : Mode} {rs : Reg}
    (h : execAddWs b rb q rd p rs s = .next t) (hr : Ran t) : Frame (effectOf (.addWs b rb q rd p rs) s) s t := by
  obtain ⟨_, hc, h⟩ := bind_ok (finish_ran h hr)
  obtain ⟨⟨y, s1⟩, h1, h⟩ := bind_ok h
  obtain ⟨s2, h2, h⟩ := bind_ok h
  cases h
  rw [effectOf, ← operandEffect_join_sr]
  exact (srcVal_dstWriteFlagged (refuseIf_ok hc) h1 h2).trans (setAddFlags s2 _)

theorem bsetF {j : BitVec 3} {f : BitVec 13} (h : execBsetF j f s = .next t) (hr : Ran t) :
    Frame { stores := [(.byte, fileAddr f)] } s t := by
  obtain ⟨⟨v, s1⟩, h1, h⟩ := bind_ok (finish_ran h hr)
  obtain ⟨s2, h2, h⟩ := bind_ok h
  cases h
  exact (memRead h1).trans (memWrite h2)

/-- The address is formed once, before the read and the write (R171). -/
theorem bsetWs {j : BitVec 4} {b : Size} {p : Mode} {rs : Reg} (h : execBsetWs j b p rs s = .next t) (hr : Ran t) :
    Frame (effectOf (.bsetWs j b p rs) s) s t := by
  obtain ⟨⟨place, s1⟩, h1, h⟩ := bind_ok (finish_ran h hr)
  obtain ⟨⟨v, s2⟩, h2, h⟩ := bind_ok h
  obtain ⟨s3, h3, h⟩ := bind_ok h
  cases h
  have hw := writePlace h3
  rw [placeEffect_ea h1] at hw
  refine (((ea h1).trans (readPlace h2)).trans hw).mono (.of_subset ?_ ?_ ?_ rfl)
  all_goals simp [Effect.join, effectOf, operandEffect, Operand.moved, Operand.modified, Operand.usesStack]

theorem btscF {j : BitVec 3} {f : BitVec 13} (h : execBtscF j f s = .next t) (hr : Ran t) : Frame {} s t := by
  obtain ⟨⟨v, s1⟩, h1, h⟩ := bind_ok (finish_ran h hr)
  cases h
  exact (memRead h1).trans (skipIfClear _ s1)

theorem btscWs {j : BitVec 4} {p : Mode} {rs : Reg} (h : execBtscWs j p rs s = .next t) (hr : Ran t) :
    Frame (effectOf (.btscWs j p rs) s) s t := by
  obtain ⟨⟨v, s1⟩, h1, h⟩ := bind_ok (finish_ran h hr)
  cases h
  simpa [Effect.join, SrMask.join, effectOf] using (srcVal h1).trans (skipIfClear _ s1)

end Frame

/-- Settles O41: the frame of each is that of its operations, composed. -/
theorem aluFrame : Obligations.AluFrame := by
  intro i s t hi h hr
  cases i <;> cases hi
  case addF => exact .addF h hr
  case addLit10 => exact .addLit10 h hr
  case addLit5 => exact .addLit5 h hr
  case addWs => exact .addWs h hr
  case bsetF => exact .bsetF h hr
  case bsetWs => exact .bsetWs h hr
  case btscF => exact .btscF h hr
  case btscWs => exact .btscWs h hr

end Sys2Proof.Machine
end

section
/-! SUPPORT. The forms of `ADD` (O24; 42_alu_bit.md R166 to R169): a destination that is ready and not SR is written, and the
flags set after it change nothing of what was written. -/

namespace Sys2Proof.Machine

/-! ## Destinations of instructions that set flags -/

theorem reachesSr_of_addr {b : Size} {isRead : Bool} {o : Operand} {s u : State} {p : Place}
    (h : ea (sizeBytes b) isRead o s = .ok (p, u)) (hn : notSr b o s = true) :
    reachesSr s.device.sfr b p = false := by
  obtain ⟨-, -, -, ha⟩ := ea_keeps h
  cases p with
  | reg r => rfl
  | mem a => simp_all [reachesSr, notSr]

/-- A destination that is not SR is written as any other (R42, R109). -/
theorem dstWriteFlagged_eq {b : Size} {o : Operand} {s : State} (v : Word) (hn : notSr b o s = true) :
    dstWriteFlagged b o v s = dstWrite b o v s := by
  rw [dstWriteFlagged, dstWrite]
  cases h : ea (sizeBytes b) false o s with
  | error e => rfl
  | ok x =>
    obtain ⟨p, u⟩ := x
    simp only [ok_bind, reachesSr_of_addr h hn, refuseIf_false]

/-- What a source and a destination operand are left as, where `x` is written: the destination holds it, both pointers are as
their modes say, and the addresses formed from W15 are checked (R108, R109, R300). -/
def OperandsDone (b : Size) (src dst : Operand) (x : Word) (e : Effect) (s t : State) : Prop :=
  Delivered b dst x s t ∧ PointerMoved (sizeBytes b) src e s t ∧ PointerMoved (sizeBytes b) dst e s t ∧
    StackMarked (src.stackAddrs (sizeBytes b) s) (dst.stackAddrs (sizeBytes b) s) s t

theorem operandsDone_of_dstWrite {b : Size} {src dst : Operand} {v x : Word} {e : Effect} {s u t : State}
    (hc : collides src dst = false) (he : e.stores = dst.store b s) (h1 : srcVal b src s = .ok (v, u))
    (h2 : dstWrite b dst x u = .ok t) : OperandsDone b src dst x e s t := by
  have hu : ReadsTo s u := .srcVal h1
  have haddr := srcVal_addr hc h1
  have hstore : dst.store b u = e.stores := by simp only [he, Operand.store, haddr]
  have hreg {r : Reg} : r ∈ dst.moved ++ dst.direct → u.reg r = s.reg r := srcVal_reg hc h1
  refine ⟨?_, ?_, ?_, ?_⟩
  · exact (dstWrite_delivers h2).of_reads hu haddr fun r hr => hreg (by simp [hr, Operand.direct])
  · exact (srcVal_pointer e h1).kept (Frame.dstWrite h2) hu.sameLimit.device hstore fun r hr => collides_not_written hc hr
  · exact (dstWrite_pointer hstore.symm h2).of_reads hu fun r hr => hreg (List.mem_append_left _ hr)
  · have haddrs : dst.stackAddrs (sizeBytes b) u = dst.stackAddrs (sizeBytes b) s := by
      simp only [Operand.stackAddrs, haddr]
    have hm := (srcVal_marks h1).trans hu.sameLimit (dstWrite_marks h2)
    rwa [List.append_nil, List.nil_append, haddrs] at hm

theorem OperandsDone.setSr {b : Size} {src dst : Operand} {x : Word} {e : Effect} {s t : State} (q : Sr) (n : Nat)
    (h : OperandsDone b src dst x e s t) (hn : notSr b dst s = true) :
    OperandsDone b src dst x e s { t with sr := q, free := n } := by
  obtain ⟨hdel, hsrc, hdst, hmark⟩ := h
  exact ⟨hdel.setSr q n hn, hsrc, hdst, hmark⟩

/-- Operands that are ready and do not collide, the destination not SR, are read and written (R109). -/
theorem operands_ready {b : Size} {src dst : Operand} {e : Effect} {s : State} (x : Word)
    (hc : collides src dst = false) (he : e.stores = dst.store b s) (hs : sourceReady b src s = true)
    (hd : destReady b dst s = true) (hn : notSr b dst s = true) :
    ∃ u t, srcVal b src s = .ok (sourceValue b src s, u) ∧ dstWriteFlagged b dst x u = .ok t ∧ t.pc = s.pc ∧
      ∀ q n, OperandsDone b src dst x e s { t with sr := q, free := n } := by
  obtain ⟨v, u, hv⟩ := srcVal_ready hs
  have hu : ReadsTo s u := .srcVal hv
  have haddr := srcVal_addr hc hv
  obtain ⟨t, ht⟩ := dstWrite_ready x ((destReady_of_reads hu haddr).trans hd)
  have hnu : notSr b dst u = true := by simpa only [notSr, haddr, hu.sameLimit.device] using hn
  refine ⟨u, t, by rw [hv, sourceValue_eq hv], (dstWriteFlagged_eq x hnu).trans ht, (dstWrite_pc ht).trans hu.pc,
    fun q n => (operandsDone_of_dstWrite hc he hv ht).setSr q n hn⟩

/-! ## Additions -/

theorem addFlagsAre_setAddFlags (r : AddResult) (s : State) : AddFlagsAre r (s.setAddFlags r).advance :=
  ⟨rfl, rfl, rfl, rfl, rfl⟩

/-- An addition ends with its flags, after its result is written (R165). -/
theorem finish_setAddFlags {s t : State} {w : Res State} (r : AddResult) (h : w = .ok t) :
    finish s (w >>= fun u => .ok (u.setAddFlags r).advance) = .next (t.setAddFlags r).advance := by
  rw [h]
  rfl

theorem addF_completes {b : Size} {d : Dest} {f : BitVec 13} {s : State} (hr : readable s b (fileAddr f) = true)
    (hd : fileReady b d f s = true) :
    let r := addFlags b (memValue b (fileAddr f) s) (s.regVal b 0)
    ∃ t, exec (.addF b d f) s = .next t ∧ FileResult b d f r.res s t ∧ AddFlagsAre r t ∧ AtNext s t := by
  intro r
  obtain ⟨u, hv, hu, hw, -⟩ := memRead_readable hr
  obtain ⟨t, ht, hpc, hres⟩ := fileWriteFlagged_ready r.res hd hu hw
  refine ⟨(t.setAddFlags r).advance, ?_, hres _ t.free, addFlagsAre_setAddFlags r t, atNext_advance hpc⟩
  rw [exec, execAddF, hv, ok_bind]
  exact finish_setAddFlags r ht

theorem addLit10_completes {b : Size} {k : BitVec 10} {rd : Reg} {s : State} (hk : b = .byte → k.toNat ≤ 255) :
    let r := addFlags b (s.regVal b rd) (k.setWidth 16)
    ∃ t, exec (.addLit10 b k rd) s = .next t ∧ Delivered b (.reg rd) r.res s t ∧ AddFlagsAre r t ∧ AtNext s t := by
  intro r
  have hfits : lit10TooLarge b k = false := by
    cases b with
    | word => rfl
    | byte => simpa [lit10TooLarge] using hk rfl
  refine ⟨((s.writeRegSized b rd r.res).setAddFlags r).advance, ?_,
    (writeRegSized_delivers b rd r.res s).setSr _ (s.writeRegSized b rd r.res).free rfl, addFlagsAre_setAddFlags r _,
    atNext_advance (State.writeRegSized_pc ..)⟩
  rw [exec, execAddLit10, hfits, refuseIf_false, ok_bind]
  exact finish_setAddFlags r rfl

theorem addLit5_completes {b : Size} {rb : Reg} {q : Mode} {rd : Reg} {k : BitVec 5} {s : State}
    (hd : destReady b (modeOperand q rd) s = true) (hn : notSr b (modeOperand q rd) s = true) :
    let r := addFlags b (s.regVal b rb) (k.setWidth 16)
    ∃ t, exec (.addLit5 b rb q rd k) s = .next t ∧
      OperandsDone b (.reg rb) (modeOperand q rd) r.res (effectOf (.addLit5 b rb q rd k) s) s t ∧ AddFlagsAre r t ∧
      AtNext s t := by
  intro r
  have hs : sourceReady b (.reg rb) s = true := by cases b <;> rfl
  obtain ⟨u, t, hv, ht, hpc, hdone⟩ := operands_ready (e := effectOf (.addLit5 b rb q rd k) s) r.res
    (collides_reg rb _) rfl hs hd hn
  obtain rfl : s = u := (Prod.mk.inj (Except.ok.inj ((srcVal_direct b rb s).symm.trans hv))).2
  exact ⟨_, finish_setAddFlags r ht, hdone _ t.free, addFlagsAre_setAddFlags r t, atNext_advance hpc⟩

theorem addWs_completes {b : Size} {rb : Reg} {q : Mode} {rd : Reg} {p : Mode} {rs : Reg} {s : State}
    (hc : collides (modeOperand p rs) (modeOperand q rd) = false) (hs : sourceReady b (modeOperand p rs) s = true)
    (hd : destReady b (modeOperand q rd) s = true) (hn : notSr b (modeOperand q rd) s = true) :
    let r := addFlags b (s.regVal b rb) (sourceValue b (modeOperand p rs) s)
    ∃ t, exec (.addWs b rb q rd p rs) s = .next t ∧
      OperandsDone b (modeOperand p rs) (modeOperand q rd) r.res (effectOf (.addWs b rb q rd p rs) s) s t ∧
      AddFlagsAre r t ∧ AtNext s t := by
  intro r
  obtain ⟨u, t, hv, ht, hpc, hdone⟩ := operands_ready (e := effectOf (.addWs b rb q rd p rs) s) r.res hc rfl hs hd hn
  refine ⟨(t.setAddFlags r).advance, ?_, hdone _ t.free, addFlagsAre_setAddFlags r t, atNext_advance hpc⟩
  rw [exec, execAddWs, hc, refuseIf_false, ok_bind, hv, ok_bind]
  exact finish_setAddFlags r ht

/-- Settles O24: each reads its operands, writes its destination, then sets the flags; a form with a literal has its register as
the source, which forms no address. -/
theorem addForms : Obligations.AddForms := by
  refine ⟨fun b d f s => addF_completes, fun b k rd s => addLit10_completes, fun b rb q rd k s hd hn => ?lit5,
    fun b rb q rd p rs s hc hs hd hn => ?ws⟩
  case lit5 =>
    obtain ⟨t, ht, ⟨hdel, -, hptr, hmark⟩, hflags, hpc⟩ := addLit5_completes (rb := rb) (k := k) hd hn
    exact ⟨t, ht, hdel, hflags, hptr, hmark, hpc⟩
  case ws =>
    obtain ⟨t, ht, ⟨hdel, hsrc, hdst, hmark⟩, hflags, hpc⟩ := addWs_completes (rb := rb) hc hs hd hn
    exact ⟨t, ht, hdel, hflags, hsrc, hdst, hmark, hpc⟩

end Sys2Proof.Machine
end

section
/-! SUPPORT. The forms of `BSET` and `BTSC` (O25; 42_alu_bit.md R170 to R174). -/

namespace Sys2Proof.Machine

/-! ## Setting a bit -/

theorem setBit_eq (j : Nat) (v : Word) : setBit j v = v ||| 1 <<< j := by
  rw [setBit]
  congr 1
  apply BitVec.eq_of_toNat_eq
  simp [Nat.shiftLeft_eq]

theorem bsetF_completes {j : BitVec 3} {f : BitVec 13} {s : State} (hr : readable s .byte (fileAddr f) = true)
    (hw : writable s .byte (fileAddr f) = true) :
    ∃ t, exec (.bsetF j f) s = .next t ∧
      StoredAt .byte (fileAddr f) (memValue .byte (fileAddr f) s ||| 1 <<< j.toNat) s t ∧ AtNext s t := by
  obtain ⟨u, hv, hu, -⟩ := memRead_readable hr
  obtain ⟨t, ht, hst, hpc, -⟩ := memWrite_writable (memValue .byte (fileAddr f) s ||| 1 <<< j.toNat)
    ((hu.writable .byte (fileAddr f)).trans hw)
  refine ⟨t.advance, ?_, hst.of_reads hu, atNext_advance (hpc.trans hu.pc)⟩
  simp only [exec, execBsetF, hv, ok_bind, setBit_eq, ht]
  rfl

/-- The place of an operand that is ready can be written after its address is formed and it is read (R171). -/
theorem writePlace_ready {b : Size} {isRead : Bool} {o : Operand} {s u w : State} {p : Place} (x : Word)
    (h : ea (sizeBytes b) isRead o s = .ok (p, u)) (hw : ReadsTo s w) (hd : destReady b o s = true) :
    ∃ t, writePlace b p x w = .ok t := by
  cases p with
  | reg r => exact ⟨_, rfl⟩
  | mem a =>
    obtain ⟨-, -, -, ha⟩ := ea_keeps h
    simp only [destReady, ha a rfl, Bool.and_eq_true] at hd
    exact (memWrite_isOk b (trunc16 a) x w).mpr ((hw.writable b _).trans hd.2)

/-- A write back to the place that was read leaves the operand's pointer as its mode says, and its address checked once
(R108, R171). -/
theorem writeBack_done {b : Size} {o : Operand} {e : Effect} {s u w t : State} {p : Place} {v x : Word}
    (he : e.stores = o.store b s) (h1 : ea (sizeBytes b) true o s = .ok (p, u)) (h2 : readPlace b p u = .ok (v, w))
    (h3 : writePlace b p x w = .ok t) :
    Delivered b o x s t ∧ PointerMoved (sizeBytes b) o e s t ∧ StackMarked (o.stackAddrs (sizeBytes b) s) [] s t := by
  have hv : srcVal b o s = .ok (v, w) := by
    rw [srcVal, h1, ok_bind]
    exact h2
  have hu : ReadsTo s w := .srcVal hv
  refine ⟨⟨?_, fun a ha => ?_⟩, ?_, (srcVal_marks hv).then_kept (writePlace_kept h3).2⟩
  · rintro r rfl
    obtain ⟨rfl, rfl⟩ := ea_reg h1
    cases h2
    cases h3
    exact (writeRegSized_delivers b r x u).1 r rfl
  · obtain rfl := ea_mem h1 ha
    exact (storedAt_of_memWrite h3).of_reads hu
  · have hf := Frame.writePlace h3
    rw [placeEffect_ea h1] at hf
    refine (srcVal_pointer e hv).kept hf hu.sameLimit.device he.symm ?_
    cases o <;> simp [Operand.direct, Operand.moved, Operand.modified]

theorem bsetWs_completes {j : BitVec 4} {b : Size} {p : Mode} {rs : Reg} {s : State}
    (hs : sourceReady b (modeOperand p rs) s = true) (hd : destReady b (modeOperand p rs) s = true) :
    ∃ t, exec (.bsetWs j b p rs) s = .next t ∧
      Delivered b (modeOperand p rs) (sourceValue b (modeOperand p rs) s ||| 1 <<< j.toNat) s t ∧
      PointerMoved (sizeBytes b) (modeOperand p rs) (effectOf (.bsetWs j b p rs) s) s t ∧
      StackMarked ((modeOperand p rs).stackAddrs (sizeBytes b) s) [] s t ∧ AtNext s t := by
  obtain ⟨v, w, hv⟩ := srcVal_ready hs
  obtain ⟨⟨place, u⟩, h1, (h2 : readPlace b place u = .ok (v, w))⟩ := bind_ok hv
  have hw : ReadsTo s w := .srcVal hv
  obtain ⟨t, h3⟩ := writePlace_ready (setBit j.toNat v) h1 hw hd
  obtain ⟨hdel, hptr, hmark⟩ := writeBack_done (e := effectOf (.bsetWs j b p rs) s) rfl h1 h2 h3
  rw [sourceValue_eq hv, ← setBit_eq]
  refine ⟨t.advance, ?_, hdel, hptr, hmark, atNext_advance ((writePlace_kept h3).1.trans hw.pc)⟩
  simp only [exec, execBsetWs, h1, h2, h3, ok_bind]
  rfl

/-! ## Testing a bit -/

/-- `BTSC` goes on to the next instruction where the bit is set, and past one instruction word where it is clear (R174). -/
theorem skipIfClear_pc {s u : State} (bit : Bool) (h : u.pc = s.pc) :
    if bit then AtNext s (skipIfClear bit u) else AtAddr (s.pc.toNat + 4) (skipIfClear bit u) := by
  cases bit with
  | true => exact atNext_advance h
  | false => rw [← h]; exact ⟨rfl, rfl⟩

theorem btscF_completes {j : BitVec 3} {f : BitVec 13} {s : State} (hr : readable s .byte (fileAddr f) = true) :
    ∃ t, exec (.btscF j f) s = .next t ∧
      if (memValue .byte (fileAddr f) s).getLsbD j.toNat then AtNext s t else AtAddr (s.pc.toNat + 4) t := by
  obtain ⟨u, hv, hu, -⟩ := memRead_readable hr
  refine ⟨skipIfClear _ u, ?_, skipIfClear_pc _ hu.pc⟩
  rw [exec, execBtscF, hv]
  rfl

theorem btscWs_completes {j : BitVec 4} {p : Mode} {rs : Reg} {s : State}
    (hs : sourceReady .word (modeOperand p rs) s = true) :
    ∃ t, exec (.btscWs j p rs) s = .next t ∧ PointerMoved 2 (modeOperand p rs) {} s t ∧
      StackMarked ((modeOperand p rs).stackAddrs 2 s) [] s t ∧
      if (sourceValue .word (modeOperand p rs) s).getLsbD j.toNat then AtNext s t else AtAddr (s.pc.toNat + 4) t := by
  obtain ⟨v, u, hv⟩ := srcVal_ready hs
  have hu : ReadsTo s u := .srcVal hv
  have hptr : PointerMoved 2 (modeOperand p rs) {} s u := srcVal_pointer (b := .word) {} hv
  rw [sourceValue_eq hv]
  refine ⟨skipIfClear (v.getLsbD j.toNat) u, ?_, hptr, (srcVal_marks (b := .word) hv).then_kept rfl,
    skipIfClear_pc _ hu.pc⟩
  rw [exec, execBtscWs, hv]
  rfl

/-- Settles O25: `BSET` writes back to the place it read, `BTSC` reads and moves the PC. -/
theorem bitForms : Obligations.BitForms :=
  ⟨fun _ _ _ => bsetF_completes, fun _ _ _ _ _ => bsetWs_completes, fun _ _ _ => btscF_completes,
    fun _ _ _ _ => btscWs_completes⟩

end Sys2Proof.Machine
end

section
/-! SUPPORT. The multiplier and the divider as arithmetic on integers (O12, O16; 43_muldiv.md R180, R188). -/

namespace Sys2Proof.Machine

/-! ## Bit vectors as integers -/

/-- The integer that a bit vector stands for as an operand of the multiplier or the divider (R180, R188). -/
def intOf {w : Nat} (signed : Bool) (v : BitVec w) : Int := if signed then v.toInt else v.toNat

@[simp] theorem intOf_true {w : Nat} (v : BitVec w) : intOf true v = v.toInt := rfl
@[simp] theorem intOf_false {w : Nat} (v : BitVec w) : intOf false v = v.toNat := rfl

/-- The integers that a word stands for. -/
def WordFits (signed : Bool) (x : Int) : Prop := if signed then -32768 ≤ x ∧ x ≤ 32767 else 0 ≤ x ∧ x ≤ 65535

@[simp] theorem wordFits_true (x : Int) : WordFits true x ↔ -32768 ≤ x ∧ x ≤ 32767 := .rfl
@[simp] theorem wordFits_false (x : Int) : WordFits false x ↔ 0 ≤ x ∧ x ≤ 65535 := by simp [WordFits]

theorem wordFits_intOf (signed : Bool) (v : Word) : WordFits signed (intOf signed v) := by
  cases signed with
  | false => have := v.isLt; simp only [wordFits_false, intOf_false]; omega
  | true => have := v.le_toInt; have := v.toInt_lt; simp only [wordFits_true, intOf_true]; omega

theorem intOf_ofInt {signed : Bool} {x : Int} (h : WordFits signed x) : intOf signed (BitVec.ofInt 16 x) = x := by
  cases signed with
  | false =>
    obtain ⟨hlo, hhi⟩ := (wordFits_false x).mp h
    rw [intOf_false, BitVec.toNat_ofInt]
    omega
  | true =>
    obtain ⟨hlo, hhi⟩ := (wordFits_true x).mp h
    exact BitVec.toInt_ofInt_eq_self (by decide) (by omega) (by omega)

theorem ofInt_intOf {w : Nat} (signed : Bool) (v : BitVec w) : BitVec.ofInt w (intOf signed v) = v := by
  cases signed with
  | false => rw [intOf_false, BitVec.ofInt_natCast, BitVec.ofNat_toNat, BitVec.setWidth_eq]
  | true => exact BitVec.ofInt_toInt

/-- The low bits of `x` are the word that stands for `x`, where one does. -/
theorem ofInt_eq_iff {signed : Bool} {x : Int} (v : Word) (h : WordFits signed x) :
    BitVec.ofInt 16 x = v ↔ x = intOf signed v :=
  ⟨fun e => e ▸ (intOf_ofInt h).symm, fun e => e ▸ ofInt_intOf signed v⟩

theorem intOf_eq_zero {w : Nat} {signed : Bool} {v : BitVec w} : intOf signed v = 0 ↔ v = 0 := by
  constructor
  · intro h
    rw [← ofInt_intOf signed v, h]
    rfl
  · rintro rfl
    cases signed <;> simp

/-! ## The multiplier -/

theorem mulResult_eq (a : Word) (p : Bool) (b : Word) (q : Bool) :
    mulResult a p b q = BitVec.ofInt 32 (intOf p a * intOf q b) := rfl

theorem natAbs_intOf_true (v : Word) : (intOf true v).natAbs ≤ 2 ^ 15 := by
  have := (wordFits_true _).mp (wordFits_intOf true v)
  omega

theorem natAbs_intOf (signed : Bool) (v : Word) : (intOf signed v).natAbs ≤ 2 ^ 16 - 1 := by
  cases signed with
  | false => exact Nat.le_pred_of_lt v.isLt
  | true => exact (natAbs_intOf_true v).trans (by decide)

/-- A product of which one operand is signed is in the range of the 32-bit result. -/
theorem mulResult_toInt {a : Word} {p : Bool} {b : Word} {q : Bool} (h : p = true ∨ q = true) :
    (mulResult a p b q).toInt = intOf p a * intOf q b := by
  have hbound : (intOf p a * intOf q b).natAbs ≤ 2 ^ 15 * (2 ^ 16 - 1) := by
    rw [Int.natAbs_mul]
    rcases h with rfl | rfl
    · exact Nat.mul_le_mul (natAbs_intOf_true a) (natAbs_intOf q b)
    · rw [Nat.mul_comm]
      exact Nat.mul_le_mul (natAbs_intOf_true b) (natAbs_intOf p a)
  rw [mulResult_eq]
  generalize intOf p a * intOf q b = x at *
  exact BitVec.toInt_ofInt_eq_self (by decide) (by omega) (by omega)

theorem mulResult_toNat (a b : Word) : (mulResult a false b false).toNat = a.toNat * b.toNat := by
  have hbound : a.toNat * b.toNat ≤ (2 ^ 16 - 1) * (2 ^ 16 - 1) :=
    Nat.mul_le_mul (Nat.le_pred_of_lt a.isLt) (Nat.le_pred_of_lt b.isLt)
  rw [mulResult_eq, BitVec.toNat_ofInt, intOf_false, intOf_false, ← Int.natCast_mul]
  omega

/-- Settles O16: the product of two words fits in 32 bits, in the signedness that its operands give it. -/
theorem mulLaw : Obligations.MulLaw := fun a b =>
  ⟨mulResult_toInt (.inl rfl), mulResult_toInt (.inl rfl), mulResult_toInt (.inr rfl), mulResult_toNat a b⟩

/-! ## The divider -/

/-- Quotient and remainder of a division rounded toward zero are the two integers of the division equation whose remainder is
smaller than the divisor and has the dividend's sign. -/
theorem tdiv_tmod_iff {x y q r : Int} (hy : y ≠ 0) :
    x.tdiv y = q ∧ x.tmod y = r ↔ x = q * y + r ∧ r.natAbs < y.natAbs ∧ 0 ≤ x * r := by
  have hsum : r + y * q = x ↔ x = q * y + r := by rw [Int.mul_comm y q, Int.add_comm, eq_comm]
  constructor
  · intro h
    rcases Int.le_total 0 x with hx | hx
    · obtain ⟨he, h0, hlt⟩ := (Int.tdiv_tmod_unique hx hy).mp h
      exact ⟨hsum.mp he, by omega, Int.mul_nonneg hx h0⟩
    · obtain ⟨he, hlt, h0⟩ := (Int.tdiv_tmod_unique' hx hy).mp h
      exact ⟨hsum.mp he, by omega, Int.mul_nonneg_of_nonpos_of_nonpos hx h0⟩
  · rintro ⟨he, hlt, hs⟩
    rcases mul_nonneg_iff.mp hs with ⟨hx, hr⟩ | ⟨hx, hr⟩
    · exact (Int.tdiv_tmod_unique hx hy).mpr ⟨hsum.mpr he, hr, by omega⟩
    · exact (Int.tdiv_tmod_unique' hx hy).mpr ⟨hsum.mpr he, by omega, hr⟩

/-- A remainder is a word, as it is smaller than the divisor. -/
theorem wordFits_tmod {signed : Bool} (d : BitVec 32) {n : Word} (hn : n ≠ 0) :
    WordFits signed ((intOf signed d).tmod (intOf signed n)) := by
  have hy : intOf signed n ≠ 0 := intOf_eq_zero.not.mpr hn
  obtain ⟨-, hlt, -⟩ := (tdiv_tmod_iff (x := intOf signed d) hy).mp ⟨rfl, rfl⟩
  have hfit := wordFits_intOf signed n
  cases signed with
  | false =>
    have h0 : 0 ≤ (intOf false d).tmod (intOf false n) := Int.tmod_nonneg _ (Int.natCast_nonneg d.toNat)
    rw [wordFits_false] at *
    omega
  | true =>
    rw [wordFits_true] at *
    omega

/-- The divider's test of its quotient (R188). -/
def quotientFits (signed : Bool) (q : Int) : Bool :=
  if signed then decide (-32768 ≤ q ∧ q ≤ 32767) else decide (q ≤ 65535)

theorem divResult_eq {signed : Bool} {d : BitVec 32} {n : Word} (hn : n ≠ 0) :
    divResult signed d n =
      if quotientFits signed ((intOf signed d).tdiv (intOf signed n)) then
        some (BitVec.ofInt 16 ((intOf signed d).tdiv (intOf signed n)),
          BitVec.ofInt 16 ((intOf signed d).tmod (intOf signed n)))
      else none := by
  rw [Int.tmod_def, Int.mul_comm (intOf signed n)]
  exact if_neg hn

/-- The test admits the quotients that are words: an unsigned one is not negative. -/
theorem quotientFits_iff {signed : Bool} (d : BitVec 32) (n : Word) :
    quotientFits signed ((intOf signed d).tdiv (intOf signed n)) = true ↔
      WordFits signed ((intOf signed d).tdiv (intOf signed n)) := by
  cases signed with
  | false =>
    have h0 : 0 ≤ (intOf false d).tdiv (intOf false n) :=
      Int.tdiv_nonneg (Int.natCast_nonneg d.toNat) (Int.natCast_nonneg n.toNat)
    rw [wordFits_false, and_iff_right h0]
    exact decide_eq_true_iff
  | true => exact decide_eq_true_iff

/-- The divider answers with the words that stand for quotient and remainder, where the divisor is not zero and there are such
words. -/
theorem divResult_eq_some {signed : Bool} {d : BitVec 32} {n q r : Word} :
    divResult signed d n = some (q, r) ↔
      n ≠ 0 ∧ (intOf signed d).tdiv (intOf signed n) = intOf signed q ∧
        (intOf signed d).tmod (intOf signed n) = intOf signed r := by
  by_cases hn : n = 0
  · simp [divResult, hn]
  have hrem := ofInt_eq_iff r (wordFits_tmod (signed := signed) d hn)
  rw [divResult_eq hn, and_iff_right hn, ← hrem]
  by_cases hfit : WordFits signed ((intOf signed d).tdiv (intOf signed n))
  · rw [if_pos ((quotientFits_iff d n).mpr hfit), Option.some_inj, Prod.mk.injEq, ofInt_eq_iff q hfit]
  · rw [if_neg ((quotientFits_iff d n).not.mpr hfit)]
    exact ⟨nofun, fun h => absurd (h.1 ▸ wordFits_intOf signed q) hfit⟩

theorem divResult_iff {signed : Bool} {d : BitVec 32} {n q r : Word} :
    divResult signed d n = some (q, r) ↔
      intOf signed d = intOf signed q * intOf signed n + intOf signed r ∧
        (intOf signed r).natAbs < (intOf signed n).natAbs ∧ 0 ≤ intOf signed d * intOf signed r := by
  rw [divResult_eq_some]
  by_cases hn : n = 0
  · simp [hn, intOf_eq_zero.mpr]
  · rw [tdiv_tmod_iff (intOf_eq_zero.not.mpr hn), and_iff_right hn]

/-- Settles O12: of unsigned operands the division equation is one of natural numbers, whose signs all agree. -/
theorem divResultLaw : Obligations.DivResultLaw := by
  refine fun d n q r => ⟨divResult_iff, divResult_iff.trans ?_⟩
  simp only [intOf_false, Int.natAbs_natCast]
  norm_cast
  simp

end Sys2Proof.Machine
end

section
/-! SUPPORT. The multiplies (O26, O42; 43_muldiv.md R180 to R187): a value is read, and a register pair written. -/

namespace Sys2Proof.Machine

/-! ## Register pairs -/

/-- The pair holds the 32-bit value, and both of its registers are initialised (R29, R180). -/
def PairHolds (k : Pair) (p : BitVec 32) (t : State) : Prop :=
  t.reg (pairHigh k) ++ t.reg (pairLow k) = p ∧ t.initialised (pairLow k) = true ∧ t.initialised (pairHigh k) = true

theorem append_halves (p : BitVec 32) : p.extractLsb' 16 16 ++ p.extractLsb' 0 16 = p := by
  refine BitVec.eq_of_getLsbD_eq fun i hi => ?_
  rw [BitVec.getLsbD_append]
  split
  · next h => simp [h]
  · next h => simp [show i - 16 < 16 by omega, show 16 + (i - 16) = i by omega]

/-- W15 is in no pair that a multiply writes (R106). -/
theorem pairHigh_pairOfMul_ne_15 (d : MulPair) : pairHigh (pairOfMul d) ≠ 15 := by
  revert d
  decide

theorem writePair_holds {k : Pair} (p : BitVec 32) (s : State) (hk : pairHigh k ≠ 15) :
    PairHolds k p (s.writePair k p) := by
  refine ⟨?_, writeTwo_initialised s _ _ _ _⟩
  rw [State.writePair, writeTwo_reg_high, writeTwo_reg_low _ _ _ (pairLow_ne_pairHigh k), fixReg_ne _ hk,
    fixReg_ne _ (pairLow_ne_15 k), append_halves]

theorem Frame.writePair (s : State) (k : Pair) (p : BitVec 32) :
    Frame { regs := [pairLow k, pairHigh k] } s (s.writePair k p) := .writeTwo s _ _ _ _

/-! ## Multiplies of an operand -/

/-- A multiply whose pair has no modified pointer reads its operand and writes the pair (R181). -/
theorem mulOperand_eq {d : MulPair} {src : Operand} (p q : Bool) (rb : Reg) (s : State)
    (hlo : src.modified ≠ some (pairLow (pairOfMul d))) (hhi : src.modified ≠ some (pairHigh (pairOfMul d))) :
    mulOperand p q rb d src s = srcVal .word src s >>= fun x =>
      .ok (x.2.writePair (pairOfMul d) (mulResult (s.reg rb) p x.1 q)).advance := by
  unfold mulOperand
  cases hm : src.modified with
  | none => rfl
  | some r =>
    have hfree : (r == pairLow (pairOfMul d) || r == pairHigh (pairOfMul d)) = false := by simp_all
    simp only [hfree, refuseIf_false, ok_bind]
    rfl

theorem mulOperand_completes {p q : Bool} {rb : Reg} {d : MulPair} {src : Operand} {s : State}
    (hlo : src.modified ≠ some (pairLow (pairOfMul d))) (hhi : src.modified ≠ some (pairHigh (pairOfMul d)))
    (hs : sourceReady .word src s = true) :
    ∃ t, mulOperand p q rb d src s = .ok t ∧
      PairHolds (pairOfMul d) (mulResult (s.reg rb) p (sourceValue .word src s) q) t ∧ PointerMoved 2 src {} s t ∧
      StackMarked (src.stackAddrs 2 s) [] s t ∧ AtNext s t := by
  obtain ⟨v, u, hv⟩ := srcVal_ready hs
  have hu : ReadsTo s u := .srcVal hv
  have hptr : PointerMoved 2 src {} s u := srcVal_pointer (b := .word) {} hv
  rw [sourceValue_eq hv]
  refine ⟨(u.writePair (pairOfMul d) (mulResult (s.reg rb) p v q)).advance, ?_,
    writePair_holds _ u (pairHigh_pairOfMul_ne_15 d), hptr.kept (.writePair u _ _) hu.sameLimit.device rfl ?_,
    (srcVal_marks (b := .word) hv).then_kept rfl, atNext_advance hu.pc⟩
  · rw [mulOperand_eq p q rb s hlo hhi, hv, ok_bind]
  · intro r hr
    have hm : src.modified = some r := by simpa [Operand.moved] using hr
    simp only [List.mem_cons, List.not_mem_nil, or_false, not_or]
    exact ⟨fun e => hlo (e ▸ hm), fun e => hhi (e ▸ hm)⟩

/-! ## `MUL f` -/

theorem coreRead_byte {a v : Word} {c : CoreReg} {s : State} (h : coreRead .byte a c s = .ok v) : ∃ x, v = byteWord x := by
  unfold coreRead at h
  split at h
  · cases h
  · cases h; exact ⟨_, rfl⟩

/-- A byte that is read is zero-extended (R72). -/
theorem memRead_byte {a v : Word} {s t : State} (h : memRead .byte a s = .ok (v, t)) : ∃ x, v = byteWord x := by
  unfold memRead at h
  split at h
  · cases h
  split at h
  · split at h
    · next hc => cases h; exact coreRead_byte hc
    · cases h
  · cases h; exact ⟨_, rfl⟩
  · cases h; exact ⟨_, rfl⟩
  · cases h; exact ⟨_, rfl⟩
  · cases h

theorem toNat_byteWord (x : Byte) : (byteWord x).toNat = x.toNat := by
  rw [byteWord, BitVec.toNat_setWidth]
  omega

/-- The product of two bytes is a word (R187). -/
theorem mulResult_bytes (x y : Byte) :
    ((mulResult (byteWord x) false (byteWord y) false).extractLsb' 0 16).toNat = x.toNat * y.toNat := by
  have hbound : x.toNat * y.toNat ≤ (2 ^ 8 - 1) * (2 ^ 8 - 1) :=
    Nat.mul_le_mul (Nat.le_pred_of_lt x.isLt) (Nat.le_pred_of_lt y.isLt)
  rw [BitVec.extractLsb'_toNat, Nat.shiftRight_zero, mulResult_toNat, toNat_byteWord, toNat_byteWord]
  omega

theorem mulF_word_completes {f : BitVec 13} {s : State} (h : readable s .word (fileAddr f) = true) :
    ∃ t, exec (.mulF .word f) s = .next t ∧
      PairHolds 1 (mulResult (s.reg (mulwfReg s.device.mulwfSource)) false (memValue .word (fileAddr f) s) false) t ∧
      AtNext s t := by
  obtain ⟨u, hv, hu, hw, -⟩ := memRead_readable h
  refine ⟨(u.writePair 1 _).advance, ?_, writePair_holds _ u (by decide), atNext_advance hu.pc⟩
  rw [exec, execMulF, hv]
  rfl

theorem mulF_byte_runs {f : BitVec 13} {v : Word} {s u : State} (h : memRead .byte (fileAddr f) s = .ok (v, u)) :
    exec (.mulF .byte f) s = .next (u.writeReg 2 ((mulResult
      (byteWord (lowByte (s.reg (mulwfReg s.device.mulwfSource)))) false v false).extractLsb' 0 16)).advance := by
  rw [exec, execMulF, h]
  rfl

theorem mulF_byte_completes {f : BitVec 13} {s : State} (h : readable s .byte (fileAddr f) = true) :
    ∃ t, exec (.mulF .byte f) s = .next t ∧
      (t.reg 2).toNat = (lowByte (s.reg (mulwfReg s.device.mulwfSource))).toNat * (memValue .byte (fileAddr f) s).toNat ∧
      t.initialised 2 = true ∧ t.reg 3 = s.reg 3 ∧ AtNext s t := by
  obtain ⟨u, hv, hu, hw, -⟩ := memRead_readable h
  obtain ⟨x, hx⟩ := memRead_byte hv
  rw [hx] at hv ⊢
  refine ⟨_, mulF_byte_runs hv, ?_, ?_, ?_, atNext_advance hu.pc⟩
  · rw [State.advance_reg, State.writeReg_reg_same, fixReg_ne _ (by decide), mulResult_bytes, toNat_byteWord]
  · rw [State.advance_initialised, State.writeReg_initialised, if_pos rfl]
  · rw [State.advance_reg, State.writeReg_reg_ne _ _ (by decide), reg_congr hw]

theorem mulLiteral_completes (p : Bool) (rb : Reg) (d : MulPair) (k : BitVec 5) (s : State) :
    PairHolds (pairOfMul d) (mulResult (s.reg rb) p (k.setWidth 16) false) (mulLiteral p rb d k s) ∧
      AtNext s (mulLiteral p rb d k s) :=
  ⟨writePair_holds _ s (pairHigh_pairOfMul_ne_15 d), atNext_advance rfl⟩

/-- Settles O26: each reads its operand, then writes its registers, none of which is a pointer that it modifies. -/
theorem mulForms : Obligations.MulForms := by
  refine ⟨fun i rb d p rs sa sb s hi hlo hhi hs => ?operand, fun i rb d k sa s hi => ?literal, fun f s h => ?word,
    fun f s h => ?byte⟩
  case operand =>
    obtain ⟨t, ht, ⟨hp, hl, hh⟩, hrest⟩ := mulOperand_completes (p := sa) (q := sb) (rb := rb) hlo hhi hs
    have hnext : finish s (mulOperand sa sb rb d (modeOperand p rs) s) = .next t := by rw [ht, finish_ok]
    rcases hi with ⟨rfl, rfl, rfl⟩ | ⟨rfl, rfl, rfl⟩ | ⟨rfl, rfl, rfl⟩ | ⟨rfl, rfl, rfl⟩
    all_goals exact ⟨t, hnext, hp, hl, hh, hrest⟩
  case literal =>
    obtain ⟨⟨hp, hl, hh⟩, hpc⟩ := mulLiteral_completes sa rb d k s
    rcases hi with ⟨rfl, rfl⟩ | ⟨rfl, rfl⟩
    all_goals exact ⟨_, rfl, hp, hl, hh, hpc⟩
  case word =>
    obtain ⟨t, ht, ⟨hp, hl, hh⟩, hpc⟩ := mulF_word_completes h
    exact ⟨t, ht, hp, hl, hh, hpc⟩
  case byte => exact mulF_byte_completes h

/-! ## Frames -/

namespace Frame

variable {s t : State}

theorem mulOperand {p q : Bool} {rb : Reg} {d : MulPair} {src : Operand} (h : Machine.mulOperand p q rb d src s = .ok t) :
    Frame (mulEffect d src) s t := by
  obtain ⟨_, -, h⟩ := bind_ok h
  obtain ⟨⟨v, s1⟩, h1, h⟩ := bind_ok h
  cases h
  refine (((srcVal h1).trans (writePair s1 (pairOfMul d) _)).trans (advance _)).mono (.of_subset ?_ ?_ ?_ rfl)
  all_goals simp [Effect.join, mulEffect]

theorem mulLiteral (p : Bool) (rb : Reg) (d : MulPair) (k : BitVec 5) (s : State) :
    Frame (mulEffect d (.reg rb)) s (Machine.mulLiteral p rb d k s) := writePair s _ _

theorem mulF {b : Size} {f : BitVec 13} (h : execMulF b f s = .next t) (hr : Ran t) :
    Frame (effectOf (.mulF b f) s) s t := by
  obtain ⟨⟨v, s1⟩, h1, h⟩ := bind_ok (finish_ran h hr)
  cases b with
  | word => cases h; exact (memRead h1).trans (writePair s1 1 _)
  | byte => cases h; exact (memRead h1).trans (writeReg s1 2 _)

end Frame

/-- A multiply writes its registers, modifies its pointer and checks its address (R180). -/
theorem multiply_frame {i : Instr} {s t : State} (hi : familyOf i = .multiply) (h : exec i s = .next t) (hr : Ran t) :
    Frame (effectOf i s) s t := by
  cases i <;> cases hi
  case mulSS | mulSU | mulUS | mulUU => exact .mulOperand (finish_ran h hr)
  case mulSULit rb d k | mulUULit rb d k => cases h; exact .mulLiteral _ rb d k s
  case mulF => exact .mulF h hr

end Sys2Proof.Machine
end

section
/-! SUPPORT. One iteration of a divide (O27, O42; 43_muldiv.md R188, R192, R194, R195): what it writes and what it makes of its loop. -/

namespace Sys2Proof.Machine

/-! ## The divider's operations -/

/-- The traps after the test of the divisor, which is made in a loop where RCOUNT is 17 (R188, R194). -/
def divTraps (rn : Reg) (s : State) : TrapSet :=
  if s.sr.ra = true ∧ s.rcount = 17 ∧ s.reg rn = 0 then { s.pendingTraps with arithmeticError := true }
  else s.pendingTraps

theorem testDivisor_eq {s : State} (rn : Reg) (h : s.sr.ra = true) :
    testDivisor rn s = { s with pendingTraps := divTraps rn s } := by
  unfold testDivisor divTraps
  by_cases hz : s.rcount = 17 ∧ s.reg rn = 0
  · rw [if_pos hz, if_pos ⟨h, hz⟩]
    rfl
  · rw [if_neg hz, if_neg fun e => hz e.2]

theorem testDivisor_of_ne_zero {rn : Reg} {s : State} (h : s.reg rn ≠ 0) : testDivisor rn s = s := if_neg fun e => h e.2

theorem divTraps_of_outside {rn : Reg} {s : State} (h : s.sr.ra = false ∨ 17 < s.rcount.toNat) :
    divTraps rn s = s.pendingTraps := by
  refine if_neg fun ⟨hra, hrc, _⟩ => ?_
  rcases h with h | h
  · cases hra.symm.trans h
  · rw [hrc] at h
    exact absurd h (by decide)

theorem divTraps_of_ne_zero {rn : Reg} {s : State} (h : s.reg rn ≠ 0) : divTraps rn s = s.pendingTraps :=
  if_neg fun e => h e.2.2

/-- `t` is `s` with W0 and W1 written, N, OV, Z and C set, the traps `p` pending, the loop standing with the divider as `l`, and
free values drawn: what the operations of the divider do (R188, R192). -/
def Divides (p : TrapSet) (l : LoopDivide) (w0 w1 : Word) (s t : State) : Prop :=
  ∃ n ov z c k, t = { s.writeW0W1 w0 w1 with
    sr := { s.sr with n := n, ov := ov, z := z, c := c }, pendingTraps := p
    divider := { s.divider with loop := l }, free := k }

theorem freeDivResult_divides (l : LoopDivide) (s : State) :
    Divides s.pendingTraps l (Config.freeWord s.free) (Config.freeWord (s.free + 1)) s (s.freeDivResult.setLoop l) :=
  ⟨_, _, _, _, _, rfl⟩

theorem writeW0W1_divides (l : LoopDivide) (w0 w1 : Word) (s : State) :
    Divides s.pendingTraps l w0 w1 s ((s.writeW0W1 w0 w1).freeDivFlags.setLoop l) :=
  ⟨_, _, _, _, _, rfl⟩

theorem divLater_divides (e : DivEntry) (kind : DivKind) (rn : Reg) (s : State) :
    ∃ l w0 w1, Divides s.pendingTraps l w0 w1 s (divLater e kind rn s) := by
  unfold divLater
  split
  · split
    · next q r _ => exact ⟨_, _, _, writeW0W1_divides .fresh q r s⟩
    · exact ⟨_, _, _, freeDivResult_divides .fresh s⟩
  · exact ⟨_, _, _, freeDivResult_divides _ s⟩

/-- The last iteration writes quotient and remainder (R188). -/
theorem divLater_last {e : DivEntry} {kind : DivKind} {s : State} {q r : Word} (rn : Reg) (hc : s.rcount = 0)
    (hd : divResult kind.signed e.dividend e.divisor = some (q, r)) :
    divLater e kind rn s = (s.writeW0W1 q r).freeDivFlags.setLoop .fresh := by
  rw [divLater, if_pos hc, hd]

theorem divLater_goesOn {e : DivEntry} {kind : DivKind} {s : State} (rn : Reg) (hc : s.rcount ≠ 0) :
    divLater e kind rn s =
      s.freeDivResult.setLoop (.running (divRecord kind rn e.divisor e.dividend (s.rcount - 1) s.freeDivResult)) := by
  rw [divLater, if_neg hc]

namespace Divides

variable {p : TrapSet} {l : LoopDivide} {w0 w1 : Word} {s t : State}

/-- The traps before the operation do not matter. -/
theorem of_tested {p' : TrapSet} (h : Divides p l w0 w1 { s with pendingTraps := p' } t) : Divides p l w0 w1 s t := h

theorem initialised (h : Divides p l w0 w1 s t) : t.initialised 0 = true ∧ t.initialised 1 = true := by
  obtain ⟨n, ov, z, c, k, rfl⟩ := h
  exact writeTwo_initialised s 0 1 w0 w1

theorem reg_zero (h : Divides p l w0 w1 s t) : t.reg 0 = w0 := by
  obtain ⟨n, ov, z, c, k, rfl⟩ := h
  exact (writeTwo_reg_low s w0 w1 (by decide)).trans (fixReg_ne _ (by decide))

theorem reg_one (h : Divides p l w0 w1 s t) : t.reg 1 = w1 := by
  obtain ⟨n, ov, z, c, k, rfl⟩ := h
  exact (writeTwo_reg_high s 0 1 w0 w1).trans (fixReg_ne _ (by decide))

theorem reg_other (h : Divides p l w0 w1 s t) {x : Reg} (h0 : x ≠ 0) (h1 : x ≠ 1) : t.reg x = s.reg x := by
  obtain ⟨n, ov, z, c, k, rfl⟩ := h
  exact (State.writeReg_reg_ne _ _ h1).trans (State.writeReg_reg_ne _ _ h0)

theorem traps (h : Divides p l w0 w1 s t) : t.pendingTraps = p := by
  obtain ⟨n, ov, z, c, k, rfl⟩ := h
  rfl

theorem loop (h : Divides p l w0 w1 s t) : t.divider.loop = l := by
  obtain ⟨n, ov, z, c, k, rfl⟩ := h
  rfl

theorem sr (h : Divides p l w0 w1 s t) : t.sr.dc = s.sr.dc ∧ t.sr.ipl = s.sr.ipl ∧ t.sr.ra = s.sr.ra := by
  obtain ⟨n, ov, z, c, k, rfl⟩ := h
  exact ⟨rfl, rfl, rfl⟩

/-- What the operations of the divider do not write. -/
theorem rest (h : Divides p l w0 w1 s t) : t.pc = s.pc ∧ t.pcOut = s.pcOut ∧ t.rcount = s.rcount ∧ t.pending = s.pending ∧
    t.power = s.power ∧ t.ram = s.ram ∧ t.prog = s.prog ∧ t.notes = s.notes := by
  obtain ⟨n, ov, z, c, k, rfl⟩ := h
  exact ⟨rfl, rfl, rfl, rfl, rfl, rfl, rfl, rfl⟩

end Divides

/-! ## One iteration -/

/-- What an iteration that leaves `t` can be, said once: outside a loop or with RCOUNT above 17; improper in its loop; the first of
a divide; or a later one of the divide in progress (R188, R195). -/
inductive IterationCase (kind : DivKind) (d : BitVec 32) (rn : Reg) (s t : State) : Prop where
  | outside (h : s.sr.ra = false ∨ 17 < s.rcount.toNat) (ht : t = improperDivide s)
  | improper (hra : s.sr.ra = true) (ht : t = improperDivide (testDivisor rn s))
      (hl : s.divider.loop = .spoiled ∨ s.divider.loop = .fresh ∧ s.rcount ≠ 17 ∨
        ∃ e, s.divider.loop = .running e ∧ divContinues e kind rn s = false)
  | first (hra : s.sr.ra = true) (hrc : s.rcount = 17) (hl : s.divider.loop = .fresh)
      (ht : t = divFirst kind d rn (testDivisor rn s))
  | later (hra : s.sr.ra = true) (hrc : s.rcount.toNat ≤ 17) (e : DivEntry) (hl : s.divider.loop = .running e)
      (hc : divContinues e kind rn s = true) (ht : t = divLater e kind rn (testDivisor rn s))

theorem divIteration_cases (kind : DivKind) (d : BitVec 32) (rn : Reg) (s : State) :
    IterationCase kind d rn s (divIteration kind d rn s) := by
  unfold divIteration
  split
  · next h => exact .outside h rfl
  next h =>
    simp only [not_or, Bool.not_eq_false, Nat.not_lt] at h
    obtain ⟨hra, hrc⟩ := h
    dsimp only
    split
    · next hl => exact .improper hra rfl (.inl hl)
    · next hl =>
      split
      · next h17 => exact .first hra h17 hl rfl
      · next h17 => exact .improper hra rfl (.inr (.inl ⟨hl, h17⟩))
    · next e hl =>
      split
      · next hc => exact .later hra hrc e hl hc rfl
      · next hc => exact .improper hra rfl (.inr (.inr ⟨e, hl, by simpa using hc⟩))

/-- Every iteration completes, with W0, W1 and the flags written and the divisor tested (R188, R192, R194). -/
theorem divIteration_divides (kind : DivKind) (d : BitVec 32) (rn : Reg) (s : State) :
    ∃ l w0 w1, Divides (divTraps rn s) l w0 w1 s (divIteration kind d rn s) := by
  cases divIteration_cases kind d rn s with
  | outside h ht =>
    rw [ht, divTraps_of_outside h]
    exact ⟨_, _, _, freeDivResult_divides .spoiled s⟩
  | improper hra ht hl =>
    rw [ht, testDivisor_eq rn hra]
    exact ⟨_, _, _, (freeDivResult_divides .spoiled _).of_tested⟩
  | first hra hrc hl ht =>
    rw [ht, testDivisor_eq rn hra]
    exact ⟨_, _, _, (freeDivResult_divides _ _).of_tested⟩
  | later hra hrc e hl hc ht =>
    rw [ht, testDivisor_eq rn hra]
    obtain ⟨l, w0, w1, h⟩ := divLater_divides e kind rn { s with pendingTraps := divTraps rn s }
    exact ⟨l, w0, w1, h.of_tested⟩

/-- An iteration outside a loop, with RCOUNT above 17, or at another count where no divide is in progress, spoils the divide of its
loop, which stays spoiled (R195). -/
theorem divIteration_spoils {s : State} (kind : DivKind) (d : BitVec 32) (rn : Reg)
    (h : (s.sr.ra = false ∨ 17 < s.rcount.toNat) ∨ s.divider.loop = .spoiled ∨
      s.divider.loop = .fresh ∧ s.rcount ≠ 17) : (divIteration kind d rn s).divider.loop = .spoiled := by
  cases divIteration_cases kind d rn s with
  | outside _ ht => rw [ht]; rfl
  | improper _ ht => rw [ht]; rfl
  | first hra hrc hl _ => simp [hra, hrc, hl] at h
  | later hra hrc e hl _ _ => simp [hra, hl] at h; omega

/-! ## The instructions -/

/-- A divide may be repeated, its divisor is in W2 to W15, and its kind and its divisor's register do not depend on the state
(R188, R257). -/
theorem divideParts_spec {i : Instr} {kind : DivKind} {d : BitVec 32} {rn : Reg} {s : State}
    (h : divideParts i s = some (kind, d, rn)) :
    mayRepeat i = true ∧ (i.wellFormed = true → 2 ≤ rn.val) ∧ ∀ t, ∃ d', divideParts i t = some (kind, d', rn) := by
  unfold divideParts at h
  split at h <;> cases h
  all_goals exact ⟨rfl, of_decide_eq_true, fun _ => ⟨_, rfl⟩⟩

theorem exec_divide {i : Instr} {kind : DivKind} {d : BitVec 32} {rn : Reg} {s : State}
    (h : divideParts i s = some (kind, d, rn)) : exec i s = .next (divIteration kind d rn s).advance := by
  unfold divideParts at h
  split at h <;> cases h <;> rfl

/-- Settles O27: an iteration is one operation of the divider, after which the PC advances. -/
theorem divideIterations : Obligations.DivideIterations := by
  intro i kind d rn s hi
  obtain ⟨l, w0, w1, h⟩ := divIteration_divides kind d rn s
  obtain ⟨h0, h1⟩ := h.initialised
  obtain ⟨hdc, hipl, hra⟩ := h.sr
  obtain ⟨hpc, -, hrc, -⟩ := h.rest
  exact ⟨_, exec_divide hi, h0, h1, hdc, hipl, hra, hrc, h.traps,
    fun hl hc => divIteration_spoils kind d rn (.inr (.inr ⟨hl, hc⟩)), fun ho => divIteration_spoils kind d rn (.inl ho),
    fun hl => divIteration_spoils kind d rn (.inr (.inl hl)), atNext_advance hpc⟩

/-! ## Frames -/

theorem divTraps_kept (rn : Reg) (s : State) : ∃ v, divTraps rn s = { s.pendingTraps with arithmeticError := v } ∧
    (s.pendingTraps.arithmeticError = true → v = true) := by
  unfold divTraps
  split
  · exact ⟨true, rfl, fun _ => rfl⟩
  · exact ⟨_, rfl, id⟩

/-- Flags, the arithmetic trap and the divider's record. -/
theorem Frame.divState {v : Bool} {l : LoopDivide} {q : Sr} {k : Nat} (s : State) (hq : SrKept shiftMask s.sr q)
    (hv : s.pendingTraps.arithmeticError = true → v = true) :
    Frame { sr := shiftMask, own := [.divider, .arithmeticError] } s { s with
      sr := q, pendingTraps := { s.pendingTraps with arithmeticError := v }, divider := { s.divider with loop := l }
      free := k } :=
  ⟨fun _ _ _ => ⟨rfl, rfl⟩,
    ⟨fun _ => hq, fun _ => ⟨rfl, fun _ => rfl⟩, fun _ => ⟨rfl, rfl⟩, fun _ => rfl, fun _ => rfl, fun _ _ => rfl,
      fun _ _ => rfl, fun _ => rfl⟩,
    ⟨fun _ => rfl, fun ho => absurd List.mem_cons_self ho, fun _ => rfl, fun ho => absurd (by decide) ho, id, hv, rfl, rfl,
      rfl, rfl, rfl⟩,
    fun _ _ => rfl, fun _ => rfl, rfl, rfl⟩

theorem Frame.divIteration (kind : DivKind) (d : BitVec 32) (rn : Reg) (s : State) :
    Frame divEffect s (Machine.divIteration kind d rn s) := by
  obtain ⟨l, w0, w1, n, ov, z, c, k, h⟩ := divIteration_divides kind d rn s
  obtain ⟨v, hp, hv⟩ := divTraps_kept rn s
  rw [h, hp]
  exact (writeTwo s 0 1 w0 w1).trans (divState (v := v) _ (by simp [SrKept, shiftMask]) hv)

/-- An iteration writes W0, W1, N, OV, Z and C, tests the divisor, and records how its loop stands (R188, R192, R194). -/
theorem divide_frame {i : Instr} {s t : State} (hi : familyOf i = .divide) (h : exec i s = .next t) :
    Frame (effectOf i s) s t := by
  cases i <;> cases hi
  case divSW rm rn | divSD rm rn | divUW rm rn | divUD rm rn => cases h; exact .divIteration _ _ rn s

/-- Settles O42: both families have the frames of the operations they are made of, composed. -/
theorem mulDivFrame : Obligations.MulDivFrame := by
  rintro i s t (hi | hi) h hr
  · exact multiply_frame hi h hr
  · exact divide_frame hi h

end Sys2Proof.Machine
end

section
/-! SUPPORT. The steps of a divide in its loop (O11, O51; 43_muldiv.md R188 to R194; 46_repeat.md R252): every iteration but the last
leaves the PC on the divide and counts RCOUNT down. -/

namespace Sys2Proof.Machine

/-! ## Boundaries -/

theorem calm_iff {s : State} : calm s = true ↔
    s.power = .running ∧ s.pcOut = false ∧ s.pendingTraps.highest = none ∧ s.pending = [] ∧ s.notes = .empty := by
  simp [calm, and_assoc]

theorem quiet_of_calm {s : State} (h : calm s = true) : quiet s = true := by
  obtain ⟨hpow, hpc, htrap, hpend, -⟩ := calm_iff.mp h
  refine quiet_iff.mpr ⟨hpow, hpc, htrap, ?_⟩
  rw [hpend]
  nofun

/-- A pending trap is taken at the next boundary (R303). -/
theorem step_trap {s : State} {e : Trap} (hpow : s.power = .running) (hpc : s.pcOut = false)
    (h : s.pendingTraps.highest = some e) : step s = finish s (enter (.trap e) 0 s) := by
  simp only [step, cpuStep, hpow, boundary, hpc, h, Bool.false_eq_true, if_false]

theorem atInstr_congr {s t : State} {i : Instr} (hprog : t.prog = s.prog) (hpc : t.pc = s.pc) (h : atInstr s i) :
    atInstr t i := by
  simpa only [atInstr, State.progWord, hprog, hpc] using h

/-- An instruction that may be repeated runs at a quiet boundary, and ends as every step does (R252). -/
theorem step_atInstr {s t : State} {i : Instr} (hq : quiet s = true) (h : atInstr s i) (hi : mayRepeat i = true)
    (ht : exec i s = .next t) : step s = endStep i s t := by
  obtain ⟨-, hpc, -, -⟩ := quiet_iff.mp hq
  rw [step_quiet hq, stepInstruction, fetch_atInstr hpc h]
  simp [runInstr, hi, ht]

/-! ## The end of a step -/

/-- `u` is `t` with what the end of a step may change beside the loop mechanism: DISICNT, free values drawn for it, SplimJustWritten, the
notes, and where the frames of interrupted loops stand (R252, R268, R340). -/
def EndsAs (t u : State) : Prop :=
  ∃ c n j d, d.loop = t.divider.loop ∧
    u = { t with disicnt := c, free := n, splimJustWritten := j, divider := d, notes := .empty }

theorem endStep_noNotes (i : Instr) (s : State) {t : State} (h : t.notes = .empty) :
    ∃ u, endStep i s t = .next u ∧ EndsAs (loopUpdate s t) u := by
  obtain ⟨c, n, hc, -⟩ := countDown_eq (stepCyclesMax i t) (loopUpdate s t)
  have hl : (loopUpdate s t).divider = t.divider := by
    rcases loopUpdate_cases s t with ⟨-, e⟩ | ⟨-, -, e⟩ | ⟨-, -, e⟩ <;> rw [e]
  refine ⟨_, ?_, c, n, false, t.divider.traced (byteCopies i s) s t, (congrArg Divider.loop hl).symm, rfl⟩
  simp [endStep, h, hc, StepNotes.empty]

/-! ## An iteration as a step -/

variable {i : Instr} {kind : DivKind} {d : BitVec 32} {rn : Reg} {s t u : State}

theorem step_divide (hcalm : calm s = true) (hat : atInstr s i) (hi : divideParts i s = some (kind, d, rn)) :
    ∃ u, step s = .next u ∧ EndsAs (loopUpdate s (divIteration kind d rn s).advance) u := by
  obtain ⟨hrep, -, -⟩ := divideParts_spec hi
  obtain ⟨-, -, -, -, hnotes⟩ := calm_iff.mp hcalm
  obtain ⟨l, w0, w1, h⟩ := divIteration_divides kind d rn s
  obtain ⟨-, -, -, -, -, -, -, hn⟩ := h.rest
  rw [step_atInstr (quiet_of_calm hcalm) hat hrep (exec_divide hi)]
  exact endStep_noNotes i s (hn.trans hnotes)

/-- What the steps of a divide keep while its loop goes on. -/
structure DivideKept (s t : State) : Prop where
  pc : t.pc = s.pc
  pcOut : t.pcOut = s.pcOut
  regs : ∀ x, x ≠ 0 → x ≠ 1 → t.reg x = s.reg x
  ram : t.ram = s.ram
  prog : t.prog = s.prog
  dc : t.sr.dc = s.sr.dc
  ipl : t.sr.ipl = s.sr.ipl
  ra : t.sr.ra = s.sr.ra
  power : t.power = s.power
  pending : t.pending = s.pending

theorem DivideKept.trans (h : DivideKept s t) (k : DivideKept t u) : DivideKept s u where
  pc := k.pc.trans h.pc
  pcOut := k.pcOut.trans h.pcOut
  regs x h0 h1 := (k.regs x h0 h1).trans (h.regs x h0 h1)
  ram := k.ram.trans h.ram
  prog := k.prog.trans h.prog
  dc := k.dc.trans h.dc
  ipl := k.ipl.trans h.ipl
  ra := k.ra.trans h.ra
  power := k.power.trans h.power
  pending := k.pending.trans h.pending

/-- A step of a divide that is not the last of its loop leaves the PC on the divide and counts RCOUNT down (R252). -/
theorem step_divide_goesOn (hcalm : calm s = true) (hat : atInstr s i) (hi : divideParts i s = some (kind, d, rn))
    (hra : s.sr.ra = true) (hrc : s.rcount ≠ 0) :
    ∃ u, step s = .next u ∧ DivideKept s u ∧ u.rcount = s.rcount - 1 ∧ u.notes = .empty ∧
      u.pendingTraps = divTraps rn s ∧ u.divScratch = (divIteration kind d rn s).divScratch ∧
      u.divider.loop = (divIteration kind d rn s).divider.loop := by
  obtain ⟨u, hstep, hu⟩ := step_divide hcalm hat hi
  obtain ⟨l, w0, w1, h⟩ := divIteration_divides kind d rn s
  obtain ⟨hdc, hipl, hra'⟩ := h.sr
  obtain ⟨-, -, -, hpend, hpow, hram, hprog, -⟩ := h.rest
  rw [loopUpdate, if_pos hra, if_neg hrc] at hu
  obtain ⟨c, n, j, v, hv, rfl⟩ := hu
  exact ⟨_, hstep, ⟨rfl, rfl, fun x => h.reg_other, hram, hprog, hdc, hipl, hra', hpow, hpend⟩, rfl, rfl, h.traps, rfl, hv⟩

/-- Settles O51: the first iteration ends as every other, with the trap pending that the next boundary takes. -/
theorem divideByZero : Obligations.DivideByZero := by
  intro s i kind d rn hat hi hz hcalm hra hrc
  obtain ⟨hpow, hpc, htrap, -, -⟩ := calm_iff.mp hcalm
  obtain ⟨t, hstep, hk, hrct, -, htraps, -⟩ := step_divide_goesOn hcalm hat hi hra (by rw [hrc]; decide)
  have hraised : t.pendingTraps = { s.pendingTraps with arithmeticError := true } := htraps.trans (if_pos ⟨hra, hrc, hz⟩)
  have hhigh : t.pendingTraps.highest = some .arithmeticError := by
    rw [hraised]
    simp only [TrapSet.highest] at htrap ⊢
    split_ifs at htrap
    simp_all
  exact ⟨t, hstep, hk.pc, by rw [hrct, hrc]; rfl, hk.ra.trans hra, hraised,
    step_trap (hk.power.trans hpow) (hk.pcOut.trans hpc) hhigh⟩

/-! ## The sequence of iterations -/

/-- The divide of `s` is in progress in `t`: its loop goes on, W0, W1 and the flags are as its last iteration left them, and nothing
else has changed (R188). -/
structure DivideUnderWay (kind : DivKind) (d : BitVec 32) (rn : Reg) (s t : State) : Prop where
  kept : DivideKept s t
  traps : t.pendingTraps = s.pendingTraps
  notes : t.notes = .empty
  running : t.divider.loop = .running (divRecord kind rn (s.reg rn) d t.rcount t)

/-- The divide `i`, whose divisor is not zero, runs next, in a loop (R188). -/
structure DivideReady (i : Instr) (kind : DivKind) (d : BitVec 32) (rn : Reg) (s : State) : Prop where
  calm : calm s = true
  here : atInstr s i
  parts : divideParts i s = some (kind, d, rn)
  ra : s.sr.ra = true
  divisor : s.reg rn ≠ 0

/-- The divisor is in none of the registers that an iteration writes, as the instruction has an encoding (R103, R104). -/
theorem DivideReady.divisor_reg (h : DivideReady i kind d rn s) : rn ≠ 0 ∧ rn ≠ 1 := by
  obtain ⟨w, -, -, hd⟩ := h.here
  obtain ⟨-, hrn, -⟩ := divideParts_spec h.parts
  have h2 := hrn (Laws.encodeOfDecode w 0 i hd).1
  exact ⟨by rintro rfl; exact absurd h2 (by decide), by rintro rfl; exact absurd h2 (by decide)⟩

theorem DivideReady.divisor_kept (h : DivideReady i kind d rn s) (k : DivideKept s t) : t.reg rn = s.reg rn :=
  k.regs rn h.divisor_reg.1 h.divisor_reg.2

/-- While a divide is under way its instruction runs next, with the same divisor; the dividend that it names may be gone. -/
theorem DivideReady.again (h : DivideReady i kind d rn s) (k : DivideUnderWay kind d rn s t) :
    ∃ d', DivideReady i kind d' rn t := by
  obtain ⟨hpow, hpc, htrap, hpend, -⟩ := calm_iff.mp h.calm
  obtain ⟨-, -, hparts⟩ := divideParts_spec h.parts
  obtain ⟨d', hd'⟩ := hparts t
  refine ⟨d', calm_iff.mpr ⟨?_, ?_, ?_, ?_, k.notes⟩, atInstr_congr k.kept.prog k.kept.pc h.here, hd', ?_, ?_⟩
  · exact k.kept.power.trans hpow
  · exact k.kept.pcOut.trans hpc
  · exact k.traps ▸ htrap
  · exact k.kept.pending.trans hpend
  · exact k.kept.ra.trans h.ra
  · exact h.divisor_kept k.kept ▸ h.divisor

/-- A step that begins a divide, or goes on with it, leaves it under way. -/
theorem DivideReady.goesOn {d' : BitVec 32} (h : DivideReady i kind d' rn s) (hrc : s.rcount ≠ 0)
    (hl : (divIteration kind d' rn s).divider.loop =
      .running (divRecord kind rn (s.reg rn) d (s.rcount - 1) (divIteration kind d' rn s))) :
    ∃ u, step s = .next u ∧ u.rcount = s.rcount - 1 ∧ DivideUnderWay kind d rn s u := by
  obtain ⟨u, hstep, hk, hrcu, hn, htraps, hscratch, hloop⟩ := step_divide_goesOn h.calm h.here h.parts h.ra hrc
  refine ⟨u, hstep, hrcu, hk, htraps.trans (divTraps_of_ne_zero h.divisor), hn, hloop.trans (hl.trans ?_)⟩
  rw [divRecord, divRecord, hscratch, hrcu]

/-- The first iteration (R188). -/
theorem DivideReady.first (h : DivideReady i kind d rn s) (hrc : s.rcount = 17) (hfresh : s.divider.loop = .fresh) :
    ∃ u, step s = .next u ∧ u.rcount = 16 ∧ DivideUnderWay kind d rn s u := by
  have h17 : s.rcount - 1 = 16 := by rw [hrc]; rfl
  rw [← h17]
  refine h.goesOn (by rw [hrc]; decide) ?_
  cases divIteration_cases kind d rn s with
  | outside ho _ => simp [h.ra, hrc] at ho
  | improper _ _ hl => simp [hfresh, hrc] at hl
  | first _ _ _ ht =>
    rw [ht, testDivisor_of_ne_zero h.divisor]
    rfl
  | later _ _ e hl _ _ => cases hfresh.symm.trans hl

/-- Where a divide is under way, an iteration is the next one of it: nothing has touched what the last one left (R188). -/
theorem DivideUnderWay.iteration {d' : BitVec 32} (h : DivideUnderWay kind d rn s t) (ht : DivideReady i kind d' rn t)
    (hrn : t.reg rn = s.reg rn) (hrc : t.rcount.toNat ≤ 16) :
    divIteration kind d' rn t = divLater (divRecord kind rn (s.reg rn) d t.rcount t) kind rn t := by
  have hcont : divContinues (divRecord kind rn (s.reg rn) d t.rcount t) kind rn t = true := by
    simp [divContinues, DivEntry.standsIn, divRecord, hrn]
  have hrun := h.running
  cases divIteration_cases kind d' rn t with
  | outside ho _ => simp only [ht.ra, Bool.true_eq_false, false_or] at ho; omega
  | improper _ _ hl => simp [hrun, hcont] at hl
  | first _ _ hl _ => cases hrun.symm.trans hl
  | later _ _ e hl _ he =>
    obtain rfl := LoopDivide.running.inj (hrun.symm.trans hl)
    rw [he, testDivisor_of_ne_zero ht.divisor]

theorem DivideUnderWay.trans (h : DivideUnderWay kind d rn s t) (k : DivideUnderWay kind d rn t u)
    (hrn : t.reg rn = s.reg rn) : DivideUnderWay kind d rn s u :=
  ⟨h.kept.trans k.kept, k.traps.trans h.traps, k.notes, hrn ▸ k.running⟩

/-- Every iteration after the first and before the last (R188). -/
theorem DivideReady.next (h : DivideReady i kind d rn s) (k : DivideUnderWay kind d rn s t) (hle : t.rcount.toNat ≤ 16)
    (hrc : t.rcount ≠ 0) :
    ∃ u, step t = .next u ∧ u.rcount = t.rcount - 1 ∧ DivideUnderWay kind d rn s u := by
  obtain ⟨d', ht⟩ := h.again k
  have hrn := h.divisor_kept k.kept
  have hl : (divIteration kind d' rn t).divider.loop =
      .running (divRecord kind rn (t.reg rn) d (t.rcount - 1) (divIteration kind d' rn t)) := by
    rw [k.iteration ht hrn hle, divLater_goesOn rn hrc, hrn]
    rfl
  obtain ⟨u, hstep, hrcu, hu⟩ := ht.goesOn hrc hl
  exact ⟨u, hstep, hrcu, k.trans hu hrn⟩

/-- What a divide leaves: quotient and remainder in W0 and W1, its loop at its end, and nothing else changed (R188, R252). -/
def DivideDone (q r : Word) (s t : State) : Prop :=
  t.reg 0 = q ∧ t.reg 1 = r ∧ AtNext s t ∧ t.sr.ra = false ∧ t.rcount = 0 ∧ (∀ x, x ≠ 0 → x ≠ 1 → t.reg x = s.reg x) ∧
    t.ram = s.ram ∧ t.sr.dc = s.sr.dc ∧ t.sr.ipl = s.sr.ipl ∧ t.pendingTraps = s.pendingTraps

/-- The last iteration (R188). -/
theorem DivideReady.last {q r : Word} (h : DivideReady i kind d rn s) (k : DivideUnderWay kind d rn s t)
    (hd : divResult kind.signed d (s.reg rn) = some (q, r)) (hrc : t.rcount = 0) :
    ∃ u, step t = .next u ∧ DivideDone q r s u := by
  obtain ⟨d', ht⟩ := h.again k
  have hrn := h.divisor_kept k.kept
  have hit : Divides t.pendingTraps .fresh q r t (divIteration kind d' rn t) := by
    rw [k.iteration ht hrn (by rw [hrc]; decide), divLater_last rn hrc hd]
    exact writeW0W1_divides .fresh q r t
  obtain ⟨hdc, hipl, -⟩ := hit.sr
  obtain ⟨hpc, -, hrct, -, -, hram, -⟩ := hit.rest
  obtain ⟨u, hstep, hu⟩ := step_divide ht.calm ht.here ht.parts
  rw [loopUpdate, if_pos ht.ra, if_pos hrc] at hu
  obtain ⟨c, n, j, v, -, rfl⟩ := hu
  have hnext : AtNext s (divIteration kind d' rn t).advance := atNext_advance (hpc.trans k.kept.pc)
  exact ⟨_, hstep, hit.reg_zero, hit.reg_one, hnext, rfl, hrct.trans hrc,
    fun x h0 h1 => (hit.reg_other h0 h1).trans (k.kept.regs x h0 h1), hram.trans k.kept.ram, hdc.trans k.kept.dc,
    hipl.trans k.kept.ipl, hit.traps.trans k.traps⟩

/-- A divide under way is done after one more step than RCOUNT says (R188, R252). -/
theorem DivideReady.steps_done {q r : Word} (h : DivideReady i kind d rn s)
    (hd : divResult kind.signed d (s.reg rn) = some (q, r)) {n : Nat} (hn : n ≤ 16) :
    ∀ t, DivideUnderWay kind d rn s t → t.rcount.toNat = n → ∃ u, steps (n + 1) t = .next u ∧ DivideDone q r s u := by
  induction n with
  | zero =>
    intro t k hrc
    obtain ⟨u, hstep, hu⟩ := h.last k hd (BitVec.eq_of_toNat_eq hrc)
    exact ⟨u, by rw [steps, hstep]; rfl, hu⟩
  | succ n ih =>
    intro t k hrc
    have hne : t.rcount ≠ 0 := fun e => by simp [e] at hrc
    obtain ⟨t', hstep, hrc', k'⟩ := h.next k (by omega) hne
    have hpred : t'.rcount.toNat = n := by
      rw [hrc', BitVec.toNat_sub, hrc, show (1 : BitVec 14).toNat = 1 from rfl]
      omega
    obtain ⟨u, hsteps, hu⟩ := ih (by omega) t' k' hpred
    exact ⟨u, by rw [steps, hstep]; exact hsteps, hu⟩

/-- Settles O11: the first iteration puts the divide under way, and seventeen more finish it. -/
theorem divideRuns : Obligations.DivideRuns := by
  intro s i kind d rn q r hat hi hd hcalm hra hrc hfresh
  obtain ⟨hdiv, -⟩ := divResult_eq_some.mp hd
  have hs : DivideReady i kind d rn s := ⟨hcalm, hat, hi, hra, hdiv⟩
  obtain ⟨t, hstep, hrct, k⟩ := hs.first hrc hfresh
  obtain ⟨u, hsteps, hu⟩ := hs.steps_done hd le_rfl t k (by rw [hrct]; rfl)
  exact ⟨u, by rw [steps, hstep]; exact hsteps, hu⟩

end Sys2Proof.Machine
end

section
/-! SUPPORT. The shift laws (O14, O15; 44_shift.md R200): dividing or multiplying the number by a power of two shifts the bit
vector, and a single-bit shift is one of the value in its size. -/

namespace Sys2Proof.Machine

/-! ## Shifts as arithmetic -/

theorem ofInt_toInt_div {n : Nat} (v : BitVec n) (k : Nat) : BitVec.ofInt n (v.toInt / 2 ^ k) = v.sshiftRight k := by
  rw [BitVec.sshiftRight, Int.shiftRight_eq_div_pow]
  norm_cast

theorem ofNat_toNat_div {n : Nat} (v : BitVec n) (k : Nat) : BitVec.ofNat n (v.toNat / 2 ^ k) = v >>> k := by
  rw [← Nat.shiftRight_eq_div_pow, ← BitVec.toNat_ushiftRight, BitVec.ofNat_toNat, BitVec.setWidth_eq]

theorem ofNat_toNat_mul {n : Nat} (v : BitVec n) (k : Nat) : BitVec.ofNat n (v.toNat * 2 ^ k) = v <<< k := by
  rw [← Nat.shiftLeft_eq]
  rfl

/-- Settles O15: each is the division or the multiplication by a power of two. -/
theorem shiftManyLaw : Obligations.ShiftManyLaw := fun x k =>
  ⟨ofInt_toInt_div x k.toNat, ofNat_toNat_div x k.toNat, ofNat_toNat_mul x k.toNat⟩

/-- Half of the bits, with the sign bit put in again at the top, is half of the signed number. -/
theorem ofNat_sign_add_half {n : Nat} (v : BitVec n) :
    BitVec.ofNat n ((if v.msb then 2 ^ (n - 1) else 0) + v.toNat / 2) = v.sshiftRight 1 := by
  rw [← ofInt_toInt_div, ← BitVec.ofInt_natCast, BitVec.toInt_eq_msb_cond]
  cases n with
  | zero => exact Subsingleton.elim _ _
  | succ n =>
    cases v.msb with
    | false => simp
    | true =>
      have hhalf : ((2 ^ n + v.toNat / 2 : Nat) : Int) =
          ((v.toNat : Int) - (2 ^ (n + 1) : Nat)) / 2 ^ 1 + (2 ^ (n + 1) : Nat) := by omega
      have hwrap : BitVec.ofInt (n + 1) (2 ^ (n + 1) : Nat) = 0#(n + 1) := BitVec.eq_of_toNat_eq (by simp)
      rw [if_pos rfl, if_pos rfl, Nat.add_sub_cancel, hhalf, BitVec.ofInt_add, hwrap, BitVec.add_zero]

/-! ## Values in their size -/

/-- The bits of a word that the size takes. -/
def inSize (b : Size) (v : Word) : BitVec (sizeBits b) := v.setWidth (sizeBits b)

theorem inSize_word (v : Word) : inSize .word v = v := BitVec.setWidth_eq v

theorem inSize_byte (v : Word) : inSize .byte v = lowByte v := BitVec.eq_of_toNat_eq (by simp [inSize, sizeBits, lowByte])

theorem sizeBits_le (b : Size) : sizeBits b ≤ 16 := by
  cases b <;> decide

theorem inSize_setWidth {b : Size} (v : BitVec (sizeBits b)) : inSize b (v.setWidth 16) = v := by
  rw [inSize, BitVec.setWidth_setWidth_of_le v (sizeBits_le b), BitVec.setWidth_eq]

theorem setWidth_eq_zero {b : Size} (v : BitVec (sizeBits b)) : (v.setWidth 16 == (0 : Word)) = (v == 0) := by
  have hzero : (0 : BitVec (sizeBits b)).setWidth 16 = 0 := BitVec.setWidth_zero 16 _
  refine decide_eq_decide.mpr ⟨fun h => ?_, fun h => by rw [h, hzero]⟩
  rw [← inSize_setWidth v, ← inSize_setWidth 0, h, hzero]

theorem topBit_eq (b : Size) (v : Word) : topBit b v = (inSize b v).msb := by
  cases b <;> simp [topBit, inSize, sizeBits, BitVec.msb_eq_getLsbD_last]

theorem narrow_eq (b : Size) (k : Nat) : narrow b k = (BitVec.ofNat (sizeBits b) k).setWidth 16 :=
  BitVec.eq_of_toNat_eq (by simp [narrow])

/-! ## Single-bit shifts -/

/-- One place in the direction of the operation, on a value of any width (R200). -/
def shiftBit (op : ShiftOp) {n : Nat} (v : BitVec n) : BitVec n :=
  match op with
  | .asr => v.sshiftRight 1
  | .lsr => v >>> 1
  | .sl => v <<< 1

/-- The bit that such a shift moves out (R200). -/
def bitOut (op : ShiftOp) {n : Nat} (v : BitVec n) : Bool :=
  match op with
  | .asr => v.getLsbD 0
  | .lsr => v.getLsbD 0
  | .sl => v.msb

theorem msb_shiftBit_asr {n : Nat} (v : BitVec n) : (shiftBit .asr v).msb = v.msb := BitVec.msb_sshiftRight

theorem msb_shiftBit_lsr {n : Nat} (v : BitVec n) : (shiftBit .lsr v).msb = false := by
  simp [shiftBit, BitVec.msb_ushiftRight]

theorem msb_shiftBit_sl {n : Nat} (v : BitVec (n + 2)) : (shiftBit .sl v).msb = v.getLsbD n := by
  simp [shiftBit, BitVec.msb_shiftLeft, BitVec.getMsbD]

theorem shift1_res (op : ShiftOp) (b : Size) (x : Word) :
    (shift1 op b x).res = (shiftBit op (inSize b x)).setWidth 16 := by
  have hnat : x.toNat % 2 ^ sizeBits b = (inSize b x).toNat := (BitVec.toNat_setWidth ..).symm
  simp only [shift1, hnat, topBit_eq]
  cases op with
  | asr => exact (narrow_eq b _).trans (congrArg _ (ofNat_sign_add_half (inSize b x)))
  | lsr => exact (narrow_eq b _).trans (congrArg _ (ofNat_toNat_div (inSize b x) 1))
  | sl => exact (narrow_eq b _).trans (congrArg _ (ofNat_toNat_mul (inSize b x) 1))

theorem shift1_n (op : ShiftOp) (b : Size) (x : Word) : (shift1 op b x).n = (shiftBit op (inSize b x)).msb := by
  have hn : (shift1 op b x).n = topBit b (shift1 op b x).res := rfl
  rw [hn, shift1_res, topBit_eq, inSize_setWidth]

theorem shift1_z (op : ShiftOp) (b : Size) (x : Word) : (shift1 op b x).z = (shiftBit op (inSize b x) == 0) := by
  have hz : (shift1 op b x).z = ((shift1 op b x).res == 0) := rfl
  rw [hz, shift1_res, setWidth_eq_zero]

theorem shift1_c (op : ShiftOp) (b : Size) (x : Word) : (shift1 op b x).c = bitOut op (inSize b x) := by
  have hlow : x.getLsbD 0 = (inSize b x).getLsbD 0 := by cases b <;> simp [inSize, sizeBits]
  cases op with
  | asr => exact hlow
  | lsr => exact hlow
  | sl => exact topBit_eq b x

/-- A single-bit shift in a size is the shift of the value in that size (R200). -/
theorem shift1_eq (op : ShiftOp) (b : Size) (x : Word) :
    shift1 op b x =
      { res := (shiftBit op (inSize b x)).setWidth 16, n := (shiftBit op (inSize b x)).msb
        z := shiftBit op (inSize b x) == 0, c := bitOut op (inSize b x) } := by
  rw [← shift1_res, ← shift1_n, ← shift1_z, ← shift1_c]

theorem shift1_word (op : ShiftOp) (x : Word) :
    shift1 op .word x =
      { res := shiftBit op x, n := (shiftBit op x).msb, z := shiftBit op x == 0, c := bitOut op x } := by
  rw [shift1_eq, inSize_word]
  exact congrArg (fun r => ShiftResult.mk r _ _ _) (BitVec.setWidth_eq _)

theorem shift1_byte (op : ShiftOp) (x : Word) :
    shift1 op .byte x =
      { res := byteWord (shiftBit op (lowByte x)), n := (shiftBit op (lowByte x)).msb
        z := shiftBit op (lowByte x) == 0, c := bitOut op (lowByte x) } := by
  rw [shift1_eq, inSize_byte]
  rfl

/-- Settles O14: in either size the new sign bit and the bit moved out are bits of the word. -/
theorem shiftOneLaw : Obligations.ShiftOneLaw := by
  intro x
  have hbit {i : Nat} (hi : i < 8) : x.getLsbD i = (lowByte x).getLsbD i := (lowByte_getLsbD x hi).symm
  have h0 := hbit (i := 0) (by decide)
  have h6 := hbit (i := 6) (by decide)
  have h7 := hbit (i := 7) (by decide)
  refine ⟨?asrWord, ?lsrWord, ?slWord, ?asrByte, ?lsrByte, ?slByte⟩
  case asrWord => rw [shift1_word, msb_shiftBit_asr, BitVec.msb_eq_getLsbD_last]; rfl
  case lsrWord => rw [shift1_word, msb_shiftBit_lsr]; rfl
  case slWord => rw [shift1_word, msb_shiftBit_sl, bitOut, BitVec.msb_eq_getLsbD_last]; rfl
  case asrByte => rw [shift1_byte, msb_shiftBit_asr, BitVec.msb_eq_getLsbD_last, h0, h7]; rfl
  case lsrByte => rw [shift1_byte, msb_shiftBit_lsr, h0]; rfl
  case slByte => rw [shift1_byte, msb_shiftBit_sl, bitOut, BitVec.msb_eq_getLsbD_last, h6, h7]; rfl

end Sys2Proof.Machine
end

section
/-! SUPPORT. The frames of the shifts (O43; 44_shift.md R200 to R212), from those of the operations they are made of. -/

namespace Sys2Proof.Machine
namespace Frame

variable {s t : State}

theorem shiftFile {op : ShiftOp} {b : Size} {d : Dest} {f : BitVec 13} (h : Machine.shiftFile op b d f s = .ok t) :
    Frame (fileEffect b d f shiftMask) s t := by
  obtain ⟨⟨x, s1⟩, h1, h⟩ := bind_ok h
  obtain ⟨s2, h2, h⟩ := bind_ok h
  cases h
  rw [← fileEffect_join_sr]
  exact ((memRead h1).trans (fileWriteFlagged h2)).trans (setShiftFlags s2 _)

theorem shiftOne {op : ShiftOp} {b : Size} {src dst : Operand} (h : Machine.shiftOne op b src dst s = .ok t) :
    Frame (operandEffect b src dst shiftMask s) s t := by
  obtain ⟨_, hc, h⟩ := bind_ok h
  obtain ⟨⟨x, s1⟩, h1, h⟩ := bind_ok h
  obtain ⟨s2, h2, h⟩ := bind_ok h
  cases h
  rw [← operandEffect_join_sr]
  exact (srcVal_dstWriteFlagged (refuseIf_ok hc) h1 h2).trans (setShiftFlags s2 _)

theorem shiftMany (op : ShiftOp) (x : Word) (k : BitVec 4) (rd : Reg) (s : State) :
    Frame { regs := [rd], sr := nzMask } s (Machine.shiftMany op x k rd s) :=
  (writeReg s rd (shiftN op x k)).trans (setNZ _ _ _)

theorem shiftByReg {op : ShiftOp} {rb rd rs : Reg} (h : Machine.shiftByReg op rb rd rs s = .ok t) :
    Frame { regs := [rd], sr := nzMask } s t := by
  obtain ⟨_, -, h⟩ := bind_ok h
  cases h
  exact shiftMany op _ _ rd s

end Frame

/-- Settles O43: each of the four forms has one frame for the three operations, that of its reads and writes, composed. -/
theorem shiftFrame : Obligations.ShiftFrame := by
  intro i s t hi h hr
  cases i <;> cases hi
  case asrF | lsrF | slF => exact .shiftFile (finish_ran h hr)
  case asrWs | lsrWs | slWs => exact .shiftOne (finish_ran h hr)
  case asrLit | lsrLit | slLit => cases h; exact .shiftMany _ _ _ _ s
  case asrWns | lsrWns | slWns => exact .shiftByReg (finish_ran h hr)

end Sys2Proof.Machine
end

section
/-! SUPPORT. The forms of the shifts (O28, O29, O30; 44_shift.md R201 to R212): the three operations share one meaning in each
form. -/

namespace Sys2Proof.Machine

/-! ## Single-bit shifts -/

theorem shiftFlagsAre_setShiftFlags (r : ShiftResult) (s : State) : ShiftFlagsAre r (s.setShiftFlags r).advance :=
  ⟨rfl, rfl, rfl⟩

theorem shiftFile_completes {op : ShiftOp} {b : Size} {d : Dest} {f : BitVec 13} {s : State}
    (hr : readable s b (fileAddr f) = true) (hd : fileReady b d f s = true) :
    let r := shift1 op b (memValue b (fileAddr f) s)
    ∃ t, shiftFile op b d f s = .ok t ∧ FileResult b d f r.res s t ∧ ShiftFlagsAre r t ∧ AtNext s t := by
  intro r
  obtain ⟨u, hv, hu, hw, -⟩ := memRead_readable hr
  obtain ⟨t, ht, hpc, hres⟩ := fileWriteFlagged_ready r.res hd hu hw
  refine ⟨(t.setShiftFlags r).advance, ?_, hres _ (t.free + 1), shiftFlagsAre_setShiftFlags r t, atNext_advance hpc⟩
  rw [shiftFile, hv, ok_bind]
  exact congrArg (· >>= fun s2 => .ok (s2.setShiftFlags r).advance) ht

theorem shiftOne_completes {op : ShiftOp} {b : Size} {src dst : Operand} {e : Effect} {s : State}
    (hc : collides src dst = false) (he : e.stores = dst.store b s) (hs : sourceReady b src s = true)
    (hd : destReady b dst s = true) (hn : notSr b dst s = true) :
    let r := shift1 op b (sourceValue b src s)
    ∃ t, shiftOne op b src dst s = .ok t ∧ OperandsDone b src dst r.res e s t ∧ ShiftFlagsAre r t ∧ AtNext s t := by
  intro r
  obtain ⟨u, t, hv, ht, hpc, hdone⟩ := operands_ready r.res hc he hs hd hn
  refine ⟨(t.setShiftFlags r).advance, ?_, hdone _ (t.free + 1), shiftFlagsAre_setShiftFlags r t, atNext_advance hpc⟩
  rw [shiftOne, hc, refuseIf_false, ok_bind, hv, ok_bind]
  exact congrArg (· >>= fun s2 => .ok (s2.setShiftFlags r).advance) ht

theorem exec_shiftFile {op : ShiftOp} {b : Size} {d : Dest} {f : BitVec 13} {i : Instr} (s : State)
    (hi : (op = .asr ∧ i = .asrF b d f) ∨ (op = .lsr ∧ i = .lsrF b d f) ∨ (op = .sl ∧ i = .slF b d f)) :
    exec i s = finish s (shiftFile op b d f s) := by
  rcases hi with ⟨rfl, rfl⟩ | ⟨rfl, rfl⟩ | ⟨rfl, rfl⟩
  all_goals rfl

/-- The three instructions of the `Ws, Wd` form do one operation, and store where their destination is (R202, R206, R210). -/
theorem exec_shiftOne {op : ShiftOp} {b : Size} {q : Mode} {rd : Reg} {p : Mode} {rs : Reg} {i : Instr} (s : State)
    (hi : (op = .asr ∧ i = .asrWs b q rd p rs) ∨ (op = .lsr ∧ i = .lsrWs b q rd p rs) ∨
      (op = .sl ∧ i = .slWs b q rd p rs)) :
    exec i s = finish s (shiftOne op b (modeOperand p rs) (modeOperand q rd) s) ∧
      (effectOf i s).stores = (modeOperand q rd).store b s := by
  rcases hi with ⟨rfl, rfl⟩ | ⟨rfl, rfl⟩ | ⟨rfl, rfl⟩
  all_goals exact ⟨rfl, rfl⟩

/-- Settles O28: each reads its operand, writes the result, then sets the flags, of which OV is free. -/
theorem shiftOneForms : Obligations.ShiftOneForms := by
  refine ⟨fun op b d f i s hi hr hd => ?file, fun op b q rd p rs i s hi hc hs hd hn => ?operands⟩
  case file =>
    obtain ⟨t, ht, hdone⟩ := shiftFile_completes (op := op) hr hd
    exact ⟨t, by rw [exec_shiftFile s hi, ht, finish_ok], hdone⟩
  case operands =>
    obtain ⟨hexec, hstores⟩ := exec_shiftOne s hi
    obtain ⟨t, ht, ⟨hdel, hsrc, hdst, hmark⟩, hflags, hpc⟩ := shiftOne_completes (op := op) hc hstores hs hd hn
    exact ⟨t, by rw [hexec, ht, finish_ok], hdel, hflags, hsrc, hdst, hmark, hpc⟩

/-! ## Multi-bit shifts -/

theorem shiftMany_shiftedTo (op : ShiftOp) (x : Word) (k : BitVec 4) (rd : Reg) (s : State) :
    ShiftedTo op x k rd s (shiftMany op x k rd s) :=
  ⟨s.writeReg_reg_same rd _, (s.writeReg_initialised rd rd _).trans (if_pos rfl), rfl, rfl, atNext_advance rfl⟩

/-- A shift by a register is the shift by the number it holds, up to 15 (R204, R208, R212). -/
theorem exec_shiftByReg {op : ShiftOp} {rb rd rs : Reg} {i : Instr} (s : State)
    (hi : (op = .asr ∧ i = .asrWns rb rd rs) ∨ (op = .lsr ∧ i = .lsrWns rb rd rs) ∨ (op = .sl ∧ i = .slWns rb rd rs)) :
    exec i s = finish s (shiftByReg op rb rd rs s) := by
  rcases hi with ⟨rfl, rfl⟩ | ⟨rfl, rfl⟩ | ⟨rfl, rfl⟩
  all_goals rfl

/-- Settles O29: a count up to 15 passes the test, and the shift is the shifter's. -/
theorem shiftManyForms : Obligations.ShiftManyForms := by
  refine ⟨fun op rb rd k i s hi => ⟨_, ?_, shiftMany_shiftedTo op (s.reg rb) k rd s⟩,
    fun op rb rd rs i s hi hk => ⟨_, ?_, shiftMany_shiftedTo op (s.reg rb) _ rd s⟩⟩
  · rcases hi with ⟨rfl, rfl⟩ | ⟨rfl, rfl⟩ | ⟨rfl, rfl⟩
    all_goals rfl
  · rw [exec_shiftByReg s hi, shiftByReg, decide_eq_false (Nat.not_lt.mpr hk), refuseIf_false, ok_bind]
    rfl

/-- Settles O30: the test of the count comes first. -/
theorem shiftCountAbove15 : Obligations.ShiftCountAbove15 := fun _ _ _ _ _ s hi hk =>
  (exec_shiftByReg s hi).trans (finish_refuseIf (decide_eq_true hk) _)

end Sys2Proof.Machine
end

section
/-! SUPPORT. The branches (O31; 45_flow.md R215 to R230, R234): the fourteen conditions share one meaning. -/

namespace Sys2Proof.Machine

/-- A program address with bit 0 clear is stored in the PC as it is (R30). -/
theorem pcMask_of_even {a : ProgAddr} (h : a.getLsbD 0 = false) : a &&& 0x7FFFFE = a := by
  have hmask : ∀ i < 23, i ≠ 0 → (0x7FFFFE : ProgAddr).getLsbD i = true := by decide
  refine BitVec.eq_of_getLsbD_eq fun i hi => ?_
  by_cases h0 : i = 0
  · rw [h0, BitVec.getLsbD_and, h, Bool.false_and]
  · rw [BitVec.getLsbD_and, hmask i hi h0, Bool.and_true]

theorem setPc_pc_of_even {a : ProgAddr} (s : State) (h : a.getLsbD 0 = false) : (s.setPc a).pc = a := pcMask_of_even h

theorem append_zero_even {w : Nat} (a : BitVec w) : (a ++ 0#1).getLsbD 0 = false := by
  rw [BitVec.getLsbD_append, if_pos Nat.one_pos, BitVec.getLsbD_zero]

/-- The conditional branch for a condition (R217 to R230). -/
def branchOn (cond : Cond) (n : BitVec 16) : Instr :=
  match cond with
  | .ov => .braOV n
  | .c => .braC n
  | .z => .braZ n
  | .n => .braN n
  | .le => .braLE n
  | .lt => .braLT n
  | .leu => .braLEU n
  | .nov => .braNOV n
  | .nc => .braNC n
  | .nz => .braNZ n
  | .nn => .braNN n
  | .gt => .braGT n
  | .ge => .braGE n
  | .gtu => .braGTU n

theorem exec_branchOn (cond : Cond) (n : BitVec 16) (s : State) : exec (branchOn cond n) s = .next (branchIf cond n s) := by
  cases cond <;> rfl

theorem branchIf_at (cond : Cond) (n : BitVec 16) (s : State) :
    if condHolds cond s.sr then AtAddr (s.pc.toNat + 2 + 2 * n.toInt) (branchIf cond n s)
    else AtNext s (branchIf cond n s) := by
  unfold branchIf
  split
  · exact ⟨rfl, rfl⟩
  · exact atNext_advance rfl

/-- A conditional branch goes to its target where its condition holds, else on (R215). -/
theorem branchOn_completes (cond : Cond) (n : BitVec 16) (s : State) :
    ∃ t, exec (branchOn cond n) s = .next t ∧
      if condHolds cond s.sr then AtAddr (s.pc.toNat + 2 + 2 * n.toInt) t else AtNext s t :=
  ⟨_, exec_branchOn cond n s, branchIf_at cond n s⟩

/-- Settles O31: each row's test is that of its condition, and the target of `GOTO` is even. -/
theorem branchForms : Obligations.BranchForms := by
  refine ⟨fun n s => ⟨_, rfl, rfl, rfl⟩, fun i taken n s hi => ?conditional,
    fun a s => ⟨_, rfl, setPc_pc_of_even s (append_zero_even a), rfl⟩⟩
  case conditional =>
    rcases hi with ⟨rfl, rfl⟩ | ⟨rfl, rfl⟩ | ⟨rfl, rfl⟩ | ⟨rfl, rfl⟩ | ⟨rfl, rfl⟩ | ⟨rfl, rfl⟩ | ⟨rfl, rfl⟩ | ⟨rfl, rfl⟩ |
      ⟨rfl, rfl⟩ | ⟨rfl, rfl⟩ | ⟨rfl, rfl⟩ | ⟨rfl, rfl⟩ | ⟨rfl, rfl⟩ | ⟨rfl, rfl⟩
    exacts [branchOn_completes .ov n s, branchOn_completes .c n s, branchOn_completes .z n s, branchOn_completes .n n s,
      branchOn_completes .le n s, branchOn_completes .lt n s, branchOn_completes .leu n s, branchOn_completes .nov n s,
      branchOn_completes .nc n s, branchOn_completes .nz n s, branchOn_completes .nn n s, branchOn_completes .gt n s,
      branchOn_completes .ge n s, branchOn_completes .gtu n s]

end Sys2Proof.Machine
end

section
/-! SUPPORT. Calls and returns (O32, O33; 45_flow.md R232 to R238): two pushes in a row, and two pops, on a stack in RAM. -/

namespace Sys2Proof.Machine

/-! ## Two pushes -/

/-- A word at an even address shares no byte with the word two bytes above it (R71). -/
theorem toNat_add_two_of_even {a : Word} (ea : a.getLsbD 0 = false) :
    (a + 2).toNat ≠ a.toNat ∧ (a + 2).toNat ≠ a.toNat + 1 ∧ (a + 2).toNat + 1 ≠ a.toNat := by
  have e : a.toNat % 2 = 0 := by simpa [BitVec.getLsbD, Nat.testBit_zero] using ea
  have hn : (a + 2).toNat = (a.toNat + 2) % 2 ^ 16 := BitVec.toNat_add a 2
  have hl := a.isLt
  omega

/-- A word of RAM stands through a word write two bytes above it. -/
theorem ramRead_ramWrite_above {a : Word} (v : Word) (s : State) (ea : a.getLsbD 0 = false) :
    ramRead (ramWrite .word (a + 2) v s) .word a = ramRead s .word a := by
  obtain ⟨h1, h2, h3⟩ := toNat_add_two_of_even ea
  simp only [ramRead, ramWrite_ramByte]
  rw [if_neg h2.symm, if_neg (by omega), if_neg h1.symm, if_neg (by omega)]

/-- A push onto RAM leaves the limit of the stack checks, the PC, SR and CORCON. -/
theorem push16_ram_kept {v : Word} {s t : State} (h : ramWord s (s.reg 15) = true) (ht : push16 v s = .ok t) :
    SameLimit s t ∧ t.pc = s.pc ∧ t.sr = s.sr ∧ t.corcon = s.corcon := by
  obtain ⟨e, n, hp, -⟩ := push16_ram v h
  cases ht.symm.trans hp
  exact ⟨⟨rfl, rfl, rfl, rfl⟩, rfl, rfl, rfl⟩

/-- A push onto RAM leaves the word below. -/
theorem push16_ram_below {a v : Word} {s t : State} (h : ramWord s (s.reg 15) = true) (ht : push16 v s = .ok t)
    (ha : s.reg 15 = a + 2) (ea : a.getLsbD 0 = false) : ramRead t .word a = ramRead s .word a := by
  obtain ⟨e, n, hp, -⟩ := push16_ram v h
  cases ht.symm.trans hp
  rw [ha]
  exact ramRead_ramWrite_above v _ ea

/-- What an address reaches depends on PSV and the device alone. -/
theorem regionOf_congr_psv {s t : State} (b : Size) (a : Word) (h1 : t.corcon.psv = s.corcon.psv)
    (h2 : t.device = s.device) : regionOf t b a = regionOf s b a := by
  simp only [regionOf, h1, h2]

theorem ramWord_congr {s t : State} (a : Word) (h1 : t.corcon.psv = s.corcon.psv) (h2 : t.device = s.device) :
    ramWord t a = ramWord s a := by
  rw [ramWord, ramWord, regionOf_congr_psv .word a h1 h2]

/-- Two pushes onto RAM leave their words in order and W15 above them, and check both addresses (R152, R300); the first
leaves what an exception frame is made of. -/
theorem push16_twice_on_ram {s : State} (v x : Word) (h1 : ramWord s (s.reg 15) = true)
    (h2 : ramWord s (s.reg 15 + 2) = true) :
    ∃ u t, push16 v s = .ok u ∧ push16 x u = .ok t ∧
      ramRead t .word (s.reg 15) = v ∧ ramRead t .word (s.reg 15 + 2) = x ∧ t.reg 15 = s.reg 15 + 4 ∧
      StackMarked [] [((s.reg 15).toNat : Int), ((s.reg 15 + 2).toNat : Int)] s t ∧
      u.pc = s.pc ∧ u.sr = s.sr ∧ u.corcon = s.corcon := by
  obtain ⟨u, hu, hlo, hu15⟩ := push16_on_ram v h1
  obtain ⟨hlim, hpc, hsr, hcor⟩ := push16_ram_kept h1 hu
  have h2u : ramWord u (u.reg 15) = true := by
    rwa [hu15, ramWord_congr _ (by rw [hcor]) hlim.device]
  obtain ⟨t, ht, hhi, ht15⟩ := push16_on_ram x h2u
  obtain ⟨heven, -⟩ := ramWord_regions h1
  have hmark := (push16_marks hu).trans hlim (push16_marks ht)
  rw [hu15] at hhi ht15 hmark
  refine ⟨u, t, hu, ht, (push16_ram_below h2u ht hu15 heven).trans hlo, hhi, ?_, hmark, hpc, hsr, hcor⟩
  rw [ht15, BitVec.add_assoc]
  rfl

/-- A program address pushed onto RAM stands with its low word below (R238). -/
theorem pushPc_on_ram {s : State} (ret : ProgAddr) (h1 : ramWord s (s.reg 15) = true)
    (h2 : ramWord s (s.reg 15 + 2) = true) :
    ∃ t, pushPc ret s = .ok t ∧ ramRead t .word (s.reg 15) = ret.extractLsb' 0 16 ∧
      ramRead t .word (s.reg 15 + 2) = 0#9 ++ ret.extractLsb' 16 7 ∧ t.reg 15 = s.reg 15 + 4 ∧
      StackMarked [] [((s.reg 15).toNat : Int), ((s.reg 15 + 2).toNat : Int)] s t := by
  obtain ⟨u, t, hu, ht, hlo, hhi, h15, hmark, -⟩ := push16_twice_on_ram (pcLow ret) (0#9 ++ pcHigh ret) h1 h2
  exact ⟨t, by rw [pushPc, hu, ok_bind, ht], hlo, hhi, h15, hmark⟩

/-- Settles O32: the pushes, then a jump that leaves the memory, W15 and the traps alone. -/
theorem callForms : Obligations.CallForms := by
  intro i ret s hi h1 h2
  obtain ⟨u, hu, hlo, hhi, h15, hmark⟩ := pushPc_on_ram ret h1 h2
  rcases hi with ⟨⟨n, rfl⟩, rfl⟩ | ⟨⟨a, rfl⟩, rfl⟩
  · refine ⟨u.goto (relTarget s n), ?_, hlo, hhi, h15, hmark.then_kept rfl, ?_, nofun⟩
    · rw [exec, execRcall, show returnAddr s 2 = s.pc + 2 from rfl, hu]
      rfl
    · rintro _ ⟨⟩
      exact ⟨rfl, rfl⟩
  · refine ⟨u.setPc (a ++ 0#1), ?_, hlo, hhi, h15, hmark.then_kept rfl, nofun, ?_⟩
    · rw [exec, execCall, show returnAddr s 4 = s.pc + 4 from rfl, hu]
      rfl
    · rintro _ ⟨⟩
      exact ⟨setPc_pc_of_even u (append_zero_even a), rfl⟩

/-! ## Two pops -/

theorem ReadsTo.sr {s t : State} (h : ReadsTo s t) : t.sr = s.sr := by
  obtain ⟨w, e, n, k, rfl⟩ := h
  rfl

theorem ReadsTo.corcon {s t : State} (h : ReadsTo s t) : t.corcon = s.corcon := by
  obtain ⟨w, e, n, k, rfl⟩ := h
  rfl

/-- A pop moves W15 alone. -/
theorem pop16_other {v : Word} {s t : State} {r : Reg} (h : pop16 s = .ok (v, t)) (hr : r ≠ 15) :
    t.reg r = s.reg r ∧ t.initialised r = s.initialised r := by
  obtain ⟨e, n, k, rfl, -⟩ := pop16_ok h
  exact ⟨s.setReg_reg_ne _ hr, rfl⟩

/-- Two pops from RAM read the two words below W15, the upper one first, leave W15 at the lower and check both addresses
(R152, R300). -/
theorem pop16_twice_on_ram {s : State} (h1 : ramWord s (s.reg 15 - 2) = true) (h2 : ramWord s (s.reg 15 - 4) = true) :
    ∃ u t, pop16 s = .ok (ramRead s .word (s.reg 15 - 2), u) ∧ pop16 u = .ok (ramRead s .word (s.reg 15 - 4), t) ∧
      ReadsTo s t ∧ t.reg 15 = s.reg 15 - 4 ∧
      (∀ r, r ≠ 15 → t.reg r = s.reg r ∧ t.initialised r = s.initialised r) ∧
      StackMarked [((s.reg 15).toNat : Int) - 2, ((s.reg 15 - 2).toNat : Int) - 2] [] s t := by
  obtain ⟨u, hu, hsu, hu15, hmark1⟩ := pop16_on_ram h1
  have hlow : u.reg 15 - 2 = s.reg 15 - 4 := by
    rw [hu15]
    bv_omega
  have h2u : ramWord u (u.reg 15 - 2) = true := by rwa [hlow, ramWord, hsu.regionOf]
  obtain ⟨t, ht, hut, ht15, hmark2⟩ := pop16_on_ram h2u
  have hmark := hmark1.trans hsu.sameLimit hmark2
  rw [hlow] at ht ht15
  rw [hsu.ramRead] at ht
  rw [hu15] at hmark
  refine ⟨u, t, hu, ht, hsu.trans hut, ht15, fun r hr => ?_, hmark⟩
  obtain ⟨hreg1, hinit1⟩ := pop16_other hu hr
  obtain ⟨hreg2, hinit2⟩ := pop16_other ht hr
  exact ⟨hreg2.trans hreg1, hinit2.trans hinit1⟩

/-- A program address popped from RAM is the one whose words stand below W15 (R238). -/
theorem popPc_on_ram {s : State} (h1 : ramWord s (s.reg 15 - 2) = true) (h2 : ramWord s (s.reg 15 - 4) = true) :
    ∃ t, popPc s = .ok (joinPc (ramRead s .word (s.reg 15 - 2)) (ramRead s .word (s.reg 15 - 4)), t) ∧
      ReadsTo s t ∧ t.reg 15 = s.reg 15 - 4 ∧
      (∀ r, r ≠ 15 → t.reg r = s.reg r ∧ t.initialised r = s.initialised r) ∧
      StackMarked [((s.reg 15).toNat : Int) - 2, ((s.reg 15 - 2).toNat : Int) - 2] [] s t := by
  obtain ⟨u, t, hu, ht, hrest⟩ := pop16_twice_on_ram h1 h2
  refine ⟨t, ?_, hrest⟩
  rw [popPc, hu, ok_bind]
  simp only [ht, ok_bind]
  rfl

theorem setPc_joinPc (hi lo : Word) (s : State) : (s.setPc (joinPc hi lo)).pc = joinPc hi lo :=
  setPc_pc_of_even s (append_zero_even _)

/-! ## Returns -/

/-- SRL restored from the high byte of a stacked word, field by field (R236). -/
theorem restoreSrl_highByte (v : Word) (r : Sr) :
    restoreSrl (highByte v) r =
      { r with
        ipl := v.extractLsb' 13 3, ra := v.getLsbD 12, n := v.getLsbD 11, ov := v.getLsbD 10, z := v.getLsbD 9
        c := v.getLsbD 8 } := by
  have hipl : (highByte v).extractLsb' 5 3 = v.extractLsb' 13 3 := by
    apply BitVec.eq_of_getLsbD_eq
    intro i hi
    simp only [BitVec.getLsbD_extractLsb', hi, decide_true, Bool.true_and, highByte_getLsbD v (show 5 + i < 8 by omega)]
    rw [← Nat.add_assoc]
  simp [restoreSrl, hipl]

/-- `s` with SRL, IPL3 and the PC as the frame `hi`, `lo` has them (R236). -/
def frameRestored (hi lo : Word) (s : State) : State :=
  State.setPc (joinPc hi lo) { s with
    sr := restoreSrl (highByte hi) s.sr, corcon := { s.corcon with ipl3 := hi.getLsbD 7 } }

/-- A return from an exception whose frame is in RAM restores the frame, and goes on with its loop (R236). -/
theorem returnFromException_on_ram {s : State} (h1 : ramWord s (s.reg 15 - 2) = true)
    (h2 : ramWord s (s.reg 15 - 4) = true) :
    ∃ t u, u = frameRestored (ramRead s .word (s.reg 15 - 2)) (ramRead s .word (s.reg 15 - 4)) t ∧
      exec .retfie s = .next { u with divider := dividerResumed (s.reg 15 - 4) u } ∧
      ReadsTo s t ∧ t.reg 15 = s.reg 15 - 4 ∧ (∀ r, r ≠ 15 → t.reg r = s.reg r) ∧
      StackMarked [((s.reg 15).toNat : Int) - 2, ((s.reg 15 - 2).toNat : Int) - 2] [] s t := by
  obtain ⟨v, t, hv, ht, hst, ht15, hother, hmark⟩ := pop16_twice_on_ram h1 h2
  refine ⟨t, _, rfl, ?_, hst, ht15, fun r hr => (hother r hr).1, hmark⟩
  rw [exec, execRetfie, returnFromException, hv, ok_bind]
  simp only [ht, ok_bind, ht15]
  rfl

/-- A register that was written keeps its value through what leaves it alone. -/
theorem Delivered.reg_kept {b : Size} {r : Reg} {v : Word} {s u t : State} (h : Delivered b (.reg r) v s u)
    (hreg : t.reg r = u.reg r) (hinit : t.initialised r = u.initialised r) : Delivered b (.reg r) v s t := by
  obtain ⟨h, -⟩ := h
  refine ⟨?_, nofun⟩
  rintro _ ⟨⟩
  have hval : t.regVal b r = u.regVal b r := by cases b <;> simp only [State.regVal, hreg]
  rw [hval, hreg, hinit]
  exact h r rfl

/-- What stands in the PC, W15 and the traps after a return from RAM. -/
theorem returned_of_popped {s t : State} {hi lo : Word} {reads : List Int} (h15 : t.reg 15 = s.reg 15 - 4)
    (hmark : StackMarked reads [] s t) :
    (t.setPc (joinPc hi lo)).pc = joinPc hi lo ∧ (t.setPc (joinPc hi lo)).pcOut = false ∧
      (t.setPc (joinPc hi lo)).reg 15 = s.reg 15 - 4 ∧ StackMarked reads [] s (t.setPc (joinPc hi lo)) :=
  ⟨setPc_joinPc hi lo t, rfl, h15, hmark.then_kept rfl⟩

/-- What a register-direct write leaves of what a return from RAM reads (R25, R237). -/
theorem writeRegSized_kept (b : Size) (r : Reg) (v : Word) (s : State) :
    SameLimit s (s.writeRegSized b r v) ∧ (∀ a, ramWord (s.writeRegSized b r v) a = ramWord s a) ∧
      ∀ a, ramRead (s.writeRegSized b r v) .word a = ramRead s .word a := by
  cases b <;> exact ⟨⟨rfl, rfl, rfl, rfl⟩, fun _ => rfl, fun _ => rfl⟩

theorem ret_completes {s : State} (h1 : ramWord s (s.reg 15 - 2) = true) (h2 : ramWord s (s.reg 15 - 4) = true) :
    ∃ t, exec .ret s = .next t ∧
      (t.pc = joinPc (ramRead s .word (s.reg 15 - 2)) (ramRead s .word (s.reg 15 - 4)) ∧ t.pcOut = false ∧
        t.reg 15 = s.reg 15 - 4 ∧
        StackMarked [((s.reg 15).toNat : Int) - 2, ((s.reg 15 - 2).toNat : Int) - 2] [] s t) ∧
      t.sr = s.sr ∧ t.corcon = s.corcon := by
  obtain ⟨t, ht, hst, h15, -, hmark⟩ := popPc_on_ram h1 h2
  refine ⟨_, ?_, returned_of_popped h15 hmark, hst.sr, hst.corcon⟩
  rw [exec, execRet, ht]
  rfl

theorem retfie_completes {s : State} (h1 : ramWord s (s.reg 15 - 2) = true) (h2 : ramWord s (s.reg 15 - 4) = true) :
    let hi := ramRead s .word (s.reg 15 - 2)
    ∃ t, exec .retfie s = .next t ∧
      (t.pc = joinPc hi (ramRead s .word (s.reg 15 - 4)) ∧ t.pcOut = false ∧
        t.reg 15 = s.reg 15 - 4 ∧
        StackMarked [((s.reg 15).toNat : Int) - 2, ((s.reg 15 - 2).toNat : Int) - 2] [] s t) ∧
      t.sr =
        { dc := s.sr.dc, ipl := hi.extractLsb' 13 3, ra := hi.getLsbD 12, n := hi.getLsbD 11, ov := hi.getLsbD 10
          z := hi.getLsbD 9, c := hi.getLsbD 8 } ∧
      t.corcon.ipl3 = hi.getLsbD 7 ∧ t.corcon.psv = s.corcon.psv := by
  obtain ⟨t, u, rfl, hexec, hst, h15, -, hmark⟩ := returnFromException_on_ram h1 h2
  refine ⟨_, hexec, ⟨setPc_joinPc _ _ t, rfl, h15, hmark.then_kept rfl⟩, ?_, rfl, ?_⟩
  · rw [← hst.sr]
    exact restoreSrl_highByte _ t.sr
  · rw [← hst.corcon]
    rfl

theorem retlw_completes {b : Size} {k : BitVec 10} {rd : Reg} {s : State} (h1 : ramWord s (s.reg 15 - 2) = true)
    (h2 : ramWord s (s.reg 15 - 4) = true) (hrd : rd ≠ 15) (hk : b = .byte → k.toNat ≤ 255) :
    ∃ t, exec (.retlw b k rd) s = .next t ∧
      (t.pc = joinPc (ramRead s .word (s.reg 15 - 2)) (ramRead s .word (s.reg 15 - 4)) ∧ t.pcOut = false ∧
        t.reg 15 = s.reg 15 - 4 ∧
        StackMarked [((s.reg 15).toNat : Int) - 2, ((s.reg 15 - 2).toNat : Int) - 2] [] s t) ∧
      Delivered b (.reg rd) (k.setWidth 16) s t ∧ t.sr = s.sr := by
  have hlit : lit10TooLarge b k = false := by
    cases b with
    | word => rfl
    | byte => simpa [lit10TooLarge] using hk rfl
  have hw15 : (s.writeRegSized b rd (k.setWidth 16)).reg 15 = s.reg 15 := s.writeRegSized_reg_ne b _ hrd.symm
  obtain ⟨hlim, hram, hread⟩ := writeRegSized_kept b rd (k.setWidth 16) s
  obtain ⟨t, ht, hst, h15, hother, hmark⟩ := popPc_on_ram (s := s.writeRegSized b rd (k.setWidth 16))
    (by rwa [hw15, hram]) (by rwa [hw15, hram])
  obtain ⟨hreg, hinit⟩ := hother rd hrd
  rw [hw15] at ht h15 hmark
  rw [hread, hread] at ht
  refine ⟨_, ?_, returned_of_popped h15 (.after_kept (s.writeRegSized_pendingTraps b rd _) hlim hmark),
    (writeRegSized_delivers b rd _ s).reg_kept hreg hinit, hst.sr.trans (s.writeRegSized_sr b rd _)⟩
  rw [exec, execRetlw, beq_eq_false_iff_ne.mpr hrd, hlit, refuseIf_false, ok_bind, refuseIf_false, ok_bind, ht]
  rfl

/-- Settles O33: two pops from RAM, before which `RETLW` writes a register that is not W15. -/
theorem returnForms : Obligations.ReturnForms := fun _ h1 h2 =>
  ⟨ret_completes h1 h2, retfie_completes h1 h2, fun _ _ _ => retlw_completes h1 h2⟩

end Sys2Proof.Machine
end

section
/-! SUPPORT. The frames of branches, calls and returns (O44; 45_flow.md R215 to R238), from those of the operations they are made
of. -/

namespace Sys2Proof.Machine

/-- The bits of SR that `RETFIE` writes: SRL (R236). -/
def srlMask : SrMask := { ipl := true, ra := true, n := true, ov := true, z := true, c := true }

namespace Frame

variable {s t : State}

/-- The second word is stored where the first push leaves W15. -/
theorem pushPc {ret : ProgAddr} (h : Machine.pushPc ret s = .ok t) :
    Frame { regs := [15], stores := pushStores (pcLow ret) s, own := [.stackError] } s t := by
  obtain ⟨u, h1, h2⟩ := pushPc_ok h
  have hstores : pushStores (pcLow ret) s = [(.word, s.reg 15), (.word, u.reg 15)] := by rw [pushStores, h1]
  rw [hstores]
  refine ((push16 h1).trans (push16 h2)).mono (.of_subset ?_ ?_ ?_ rfl)
  all_goals simp [Effect.join]

theorem popPc {a : ProgAddr} (h : Machine.popPc s = .ok (a, t)) : Frame { regs := [15], own := [.stackError] } s t := by
  obtain ⟨hi, lo, u, h1, h2, -⟩ := popPc_ok h
  refine ((pop16 h1).trans (pop16 h2)).mono (.of_subset ?_ ?_ ?_ rfl)
  all_goals simp [Effect.join]

/-- SRL, IPL3 and the PC from a frame, and the divider's record. -/
theorem frameRestored (hi lo : Word) (d : Divider) (s : State) :
    Frame { sr := srlMask, own := [.ipl3, .divider] } s { Machine.frameRestored hi lo s with divider := d } :=
  ⟨fun _ _ _ => ⟨rfl, rfl⟩,
    ⟨fun _ => ⟨fun _ => rfl, nofun, nofun, nofun, nofun, nofun, nofun⟩,
      fun _ => ⟨rfl, fun ho => absurd (by decide) ho⟩, fun _ => ⟨rfl, rfl⟩, fun _ => rfl, fun _ => rfl, fun _ _ => rfl,
      fun _ _ => rfl, fun _ => rfl⟩,
    ⟨fun _ => rfl, fun ho => absurd (by decide) ho, fun _ => rfl, fun _ => rfl, id, id, rfl, rfl, rfl, rfl, rfl⟩,
    fun _ _ => rfl, fun _ => rfl, rfl, rfl⟩

/-- Two pops, then what the frame has (R236). -/
theorem returnFromException (h : Machine.returnFromException s = .ok t) : Frame (effectOf .retfie s) s t := by
  obtain ⟨hi, lo, u, v, h1, h2, _, rfl, rfl⟩ := returnFromException_ok h
  have hrestored := frameRestored hi lo (dividerResumed (v.reg 15) (Machine.frameRestored hi lo v)) v
  refine (((pop16 h1).trans (pop16 h2)).trans hrestored).mono ?_
  constructor <;> simp [Effect.join, SrMask.join, effectOf, srlMask]

theorem branchIf (cond : Cond) (n : BitVec 16) (s : State) : Frame {} s (Machine.branchIf cond n s) := by
  unfold Machine.branchIf
  split
  · exact goto s _
  · exact advance s

theorem rcall {n : BitVec 16} (h : execRcall n s = .next t) (hr : Ran t) : Frame (effectOf (.rcall n) s) s t := by
  obtain ⟨u, h1, h⟩ := bind_ok (finish_ran h hr)
  cases h
  have hpush := pushPc h1
  exact hpush

theorem call {a : BitVec 22} (h : execCall a s = .next t) (hr : Ran t) : Frame (effectOf (.call a) s) s t := by
  obtain ⟨u, h1, h⟩ := bind_ok (finish_ran h hr)
  cases h
  have hpush := pushPc h1
  exact hpush

theorem ret (h : execRet s = .next t) (hr : Ran t) : Frame (effectOf .ret s) s t := by
  obtain ⟨⟨a, u⟩, h1, h⟩ := bind_ok (finish_ran h hr)
  cases h
  have hpop := popPc h1
  exact hpop

/-- The register, then the two pops (R237). -/
theorem retlw {b : Size} {k : BitVec 10} {rd : Reg} (h : execRetlw b k rd s = .next t) (hr : Ran t) :
    Frame (effectOf (.retlw b k rd) s) s t := by
  obtain ⟨_, -, h⟩ := bind_ok (finish_ran h hr)
  obtain ⟨_, -, h⟩ := bind_ok h
  obtain ⟨⟨a, u⟩, h1, h⟩ := bind_ok h
  cases h
  refine (((writeRegSized s b rd _).trans (popPc h1)).trans (setPc u a)).mono (.of_subset ?_ ?_ ?_ rfl)
  all_goals simp [Effect.join, effectOf]

end Frame

/-- Settles O44: the branches and `GOTO` move the PC alone, calls push, and returns pop. -/
theorem flowFrame : Obligations.FlowFrame := by
  intro i s t hi h hr
  cases i <;> cases hi
  case bra n => cases h; exact .goto s _
  case braOV n | braC n | braZ n | braN n | braLE n | braLT n | braLEU n | braNOV n | braNC n | braNZ n | braNN n |
      braGT n | braGE n | braGTU n =>
    cases h
    exact .branchIf _ n s
  case rcall => exact .rcall h hr
  case call => exact .call h hr
  case goto a => cases h; exact .setPc s _
  case ret => exact .ret h hr
  case retfie => exact .returnFromException (finish_ran h hr)
  case retlw => exact .retlw h hr

end Sys2Proof.Machine
end

section
/-! SUPPORT. Taking an exception and returning from it (O47; 45_flow.md R236; 60_exceptions.md R305, R311): on a stack in RAM the
frame holds what a return restores, and the bytes of the frame tell which interrupted loop goes on (log 26). -/

namespace Sys2Proof.Machine

/-! ## The frame -/

theorem highByte_frameHigh (s : State) : highByte (frameHigh s) = srl s.sr := by
  rw [highByte, frameHigh, BitVec.extractLsb'_append_eq_of_le (by decide)]
  exact BitVec.extractLsb'_append_eq_left

theorem frameHigh_ipl3 (s : State) : (frameHigh s).getLsbD 7 = s.corcon.ipl3 := by
  simp only [frameHigh, BitVec.getLsbD_append]
  simp

theorem extractLsb'_frameHigh (s : State) : (frameHigh s).extractLsb' 0 7 = pcHigh s.pc :=
  BitVec.extractLsb'_append_eq_right

/-- SRL restored from itself: DC is not in it (R34, R236). -/
theorem restoreSrl_srl (r q : Sr) : restoreSrl (srl r) q = { r with dc := q.dc } := by
  have hipl : (srl r).extractLsb' 5 3 = r.ipl := by
    rw [srl]
    iterate 5 rw [BitVec.extractLsb'_append_eq_of_le (by decide)]
    exact BitVec.extractLsb'_eq_self
  simp only [restoreSrl, hipl]
  simp only [srl, BitVec.getLsbD_append]
  simp

/-- A return to the frame of an even PC goes to that PC (R30, R305). -/
theorem joinPc_frame {s : State} (h : s.pc.getLsbD 0 = false) : joinPc (frameHigh s) (pcLow s.pc) = s.pc := by
  have hlo : (pcLow s.pc).extractLsb' 1 15 = s.pc.extractLsb' 1 15 :=
    BitVec.extractLsb'_extractLsb'_of_le (by decide)
  have hbit : 0#1 = s.pc.extractLsb' 0 1 := by
    apply BitVec.eq_of_getLsbD_eq
    intro i hi
    obtain rfl : i = 0 := by omega
    simp only [BitVec.getLsbD_extractLsb', Nat.add_zero, h, BitVec.getLsbD_zero, Bool.and_false]
  have hupper : pcHigh s.pc ++ s.pc.extractLsb' 1 15 = s.pc.extractLsb' 1 22 :=
    BitVec.extractLsb'_append_extractLsb'_eq_extractLsb' rfl
  have hall : s.pc.extractLsb' 1 22 ++ s.pc.extractLsb' 0 1 = s.pc.extractLsb' 0 23 :=
    BitVec.extractLsb'_append_extractLsb'_eq_extractLsb' rfl
  rw [joinPc, extractLsb'_frameHigh, hlo, hupper, hbit, hall, BitVec.extractLsb'_eq_self]

theorem frameHigh_congr {s t : State} (hsr : t.sr = s.sr) (hcor : t.corcon = s.corcon) (hpc : t.pc = s.pc) :
    frameHigh t = frameHigh s := by
  rw [frameHigh, frameHigh, hsr, hcor, hpc]

/-! ## Entry -/

/-- Taking an exception on a stack in RAM stacks the frame of the state it is taken in, and puts the loop under way aside
(R305). -/
theorem enter_on_ram {e : ExcSource} {p : BitVec 3} {s t : State} (h1 : ramWord s (s.reg 15) = true)
    (h2 : ramWord s (s.reg 15 + 2) = true) (h : enter e p s = .ok t) :
    ramRead t .word (s.reg 15) = pcLow s.pc ∧ ramRead t .word (s.reg 15 + 2) = frameHigh s ∧
      t.divider = dividerInterrupted s := by
  obtain ⟨handler, u, v, -, hu, hv, rfl⟩ := enter_ok h
  obtain ⟨u', v', hu', hv', hlo, hhi, -, -, hpc, hsr, hcor⟩ := push16_twice_on_ram (pcLow s.pc) (frameHigh s) h1 h2
  cases hu.symm.trans hu'
  rw [frameHigh_congr hsr hcor hpc] at hv
  cases hv.symm.trans hv'
  cases e <;> exact ⟨hlo, hhi, rfl⟩

theorem frameBytes_congr {s t : State} (a : Word) (h1 : t.corcon.psv = s.corcon.psv) (h2 : t.device = s.device) :
    frameBytes a t = frameBytes a s := by
  simp only [frameBytes, byteLoc, regionOf_congr_psv _ _ h1 h2]

/-- The bytes of a frame in RAM, by their distance from its address. -/
theorem mem_frameBytes {t : State} {a : Word} (h1 : ramWord t a = true) (h2 : ramWord t (a + 2) = true)
    {b : Option ByteLoc} : b ∈ frameBytes a t ↔ ∃ k : Word, k.toNat < 4 ∧ b = some (.ram (a + k).toNat) := by
  obtain ⟨-, -, hb0, hb1⟩ := ramWord_regions h1
  obtain ⟨-, -, hb2, hb3⟩ := ramWord_regions h2
  rw [BitVec.add_assoc, show (2 + 1 : Word) = 3 from rfl] at hb3
  have hbytes : frameBytes a t = ([0, 1, 2, 3] : List Word).map fun k => some (.ram (a + k).toNat) := by
    simp only [frameBytes, byteLoc_ram hb0, byteLoc_ram hb1, byteLoc_ram hb2, byteLoc_ram hb3]
    simp [Nat.mod_eq_of_lt a.isLt]
  have hmem : ∀ k : Word, k ∈ ([0, 1, 2, 3] : List Word) ↔ k.toNat < 4 := by
    intro k
    simp only [List.mem_cons, List.not_mem_nil, or_false]
    bv_omega
  simp only [hbytes, List.mem_map, hmem, eq_comm]

/-- The loop under way is the latest of those put aside (R305, R309). -/
theorem dividerInterrupted_suspended {s : State} (h : s.sr.ra = true) :
    (dividerInterrupted s).suspended = suspendedLoop s :: s.divider.suspended := by
  simp [dividerInterrupted, h]

/-- The bytes of the frame name the loop that was put aside. -/
theorem dividerInterrupted_originOf {s : State} {x : ByteLoc} (h : s.sr.ra = true)
    (hx : some x ∈ frameBytes (s.reg 15) s) : (dividerInterrupted s).originOf x = some (suspendedLoop s).id := by
  simp only [Divider.originOf, dividerInterrupted, h, if_true, List.find?_append]
  cases hf : ((frameBytes (s.reg 15) s).filterMap fun y => y.map (·, (suspendedLoop s).id)).find? fun y => y.1 == x with
  | none =>
    have hmem : (x, (suspendedLoop s).id) ∈ (frameBytes (s.reg 15) s).filterMap fun y => y.map (·, (suspendedLoop s).id) :=
      List.mem_filterMap.mpr ⟨some x, hx, rfl⟩
    simpa using List.find?_eq_none.mp hf _ hmem
  | some y =>
    obtain ⟨b, -, hb⟩ := List.mem_filterMap.mp (List.mem_of_find?_eq_some hf)
    obtain ⟨z, -, rfl⟩ := Option.map_eq_some_iff.mp hb
    rfl

/-! ## The state returned to -/

theorem ReadsTo.divider {s t : State} (h : ReadsTo s t) : t.divider = s.divider := by
  obtain ⟨w, e, n, k, rfl⟩ := h
  rfl

/-- `RETFIE` from the frame of `s`, wherever in RAM it stands, restores what is in it and takes it off the stack (R236). -/
theorem retfie_of_frame {s h : State} (hpc : s.pc.getLsbD 0 = false) (h2 : ramWord h (h.reg 15 - 2) = true)
    (h4 : ramWord h (h.reg 15 - 4) = true) (hlo : ramRead h .word (h.reg 15 - 4) = pcLow s.pc)
    (hhi : ramRead h .word (h.reg 15 - 2) = frameHigh s) :
    ∃ u : State, exec .retfie h = .next { u with divider := dividerResumed (h.reg 15 - 4) u } ∧
      u.pc = s.pc ∧ u.pcOut = false ∧ u.sr = { s.sr with dc := h.sr.dc } ∧
      u.corcon = { h.corcon with ipl3 := s.corcon.ipl3 } ∧ u.reg 15 = h.reg 15 - 4 ∧
      (∀ r, r ≠ 15 → u.reg r = h.reg r) ∧ u.divider = h.divider ∧ u.device = h.device := by
  obtain ⟨v, u, hu, hexec, hst, h15, hother, -⟩ := returnFromException_on_ram h2 h4
  rw [hlo, hhi] at hu
  subst hu
  refine ⟨_, hexec, ?_, rfl, ?_, ?_, h15, hother, hst.divider, hst.sameLimit.device⟩
  · exact (setPc_joinPc ..).trans (joinPc_frame hpc)
  · rw [← hst.sr, ← restoreSrl_srl, ← highByte_frameHigh]
    rfl
  · rw [← hst.corcon, ← frameHigh_ipl3]
    rfl

/-! ## The loop that goes on -/

/-- With RA restored, a return goes on with the loop that is meant (R254). -/
theorem dividerResumed_loop {a : Word} {t : State} (h : t.sr.ra = true) :
    (dividerResumed a t).loop = loopAmong t (loopsMeant a t) := by
  simp [dividerResumed, h]

theorem Suspended.waits_congr {s t : State} (x : Suspended) (h1 : t.corcon.psv = s.corcon.psv) (h2 : t.device = s.device)
    (h3 : t.divider = s.divider) : x.waits t = x.waits s := by
  simp only [Suspended.waits, frameBytes_congr _ h1 h2, h3]

theorem Suspended.claims_iff {a : Word} {t : State} {x : Suspended} : x.claims a t = true ↔
    x.standsIn t = true ∨ (x.returned = false ∧ ¬ (x.waits t = true ∧ x.frame ≠ a)) := by
  simp [Suspended.claims, imp_iff_not_or]

/-- The bytes of a frame in RAM name the loop. -/
theorem Suspended.inFrame_iff_origin {a : Word} {t : State} {x : Suspended} (h1 : ramWord t a = true)
    (h2 : ramWord t (a + 2) = true) : x.inFrame a t = true ↔
      ∃ k : Word, k.toNat < 4 ∧ t.divider.originOf (.ram (a + k).toNat) = some x.id := by
  simp only [Suspended.inFrame_iff, mem_frameBytes h1 h2]
  constructor
  · rintro ⟨_, ⟨k, hk, rfl⟩, ho⟩
    exact ⟨k, hk, ho⟩
  · rintro ⟨k, hk, ho⟩
    exact ⟨_, ⟨k, hk, rfl⟩, ho⟩

/-- A preference that one element of the list decides is a filter. -/
theorem prefer_eq_filter {α : Type} {p : α → Bool} {l : List α} {x : α} (hx : x ∈ l)
    (h : p x = true ∨ ∀ y ∈ l, p y = false) : prefer p l = l.filter fun y => !p x || p y := by
  rcases h with h | h
  · have hne : l.filter p ≠ [] := List.ne_nil_of_mem (List.mem_filter.mpr ⟨hx, h⟩)
    simp only [h, Bool.not_true, Bool.false_or, prefer]
    split
    · next hnil => exact absurd hnil hne
    · next hcons => exact hcons.symm
  · have hnil : l.filter p = [] := List.filter_eq_nil_iff.mpr fun y hy => by simp [h y hy]
    simp [prefer, hnil, h x hx]

theorem mem_of_split {α : Type} {l later earlier : List α} {x y : α} (hl : l = later ++ x :: earlier) (hy : y ∈ l) :
    y = x ∨ y ∈ later ++ earlier := by
  rw [hl, List.mem_append, List.mem_cons] at hy
  rw [List.mem_append]
  tauto

/-- Where `x` stands as it was, and no other loop claims the bytes that the frame has of its own, the frame means `x`, or what a frame
made anew does among loops that stand as they were. -/
theorem loopsMeant_unclaimed {a : Word} {t : State} {later earlier : List Suspended} {x : Suspended}
    (hl : t.divider.suspended = later ++ x :: earlier) (hx : x.standsIn t = true) (hr : x.returned = false)
    (hf : ∀ y ∈ later ++ earlier, y.inFrame a t = true → y.claims a t = false) :
    loopsMeant a t = [x] ∨ ∃ p : Suspended → Bool, p x = true ∧ (∀ y, p y = true → y.standsIn t = true) ∧
      loopsMeant a t = loopsRebuilt a t (t.divider.suspended.filter p) := by
  have hxl : x ∈ t.divider.suspended := by rw [hl]; simp
  have hclaim : x.claims a t = true := Suspended.claims_iff.mpr (.inl hx)
  have hothers : ∀ y ∈ later ++ earlier, (y.claims a t && y.inFrame a t) = false := fun y hy => by
    cases hy' : y.inFrame a t with
    | true => rw [hf y hy hy', Bool.false_and]
    | false => rw [Bool.and_false]
  unfold loopsMeant
  dsimp only
  rw [List.filter_filter]
  cases hin : x.inFrame a t with
  | true =>
    left
    rw [filter_eq_singleton hl (by rw [hclaim, hin]; rfl) hothers]
    exact prefer_singleton _ x
  | false =>
    right
    have hnone : t.divider.suspended.filter (fun y => y.claims a t && y.inFrame a t) = [] := by
      refine List.filter_eq_nil_iff.mpr fun y hy => ?_
      rcases mem_of_split hl hy with rfl | hy
      · simp [hin]
      · simp [hothers y hy]
    rw [hnone]
    dsimp only
    split
    · refine ⟨fun y => !x.standsIn t || y.standsIn t, by simp [hx], fun y hy => by simpa [hx] using hy, ?_⟩
      rw [prefer_eq_filter hxl (.inl hx)]
    · split
      · next hnil => exact absurd (List.filter_eq_nil_iff.mp hnil x hxl) (by simp [hx, hr])
      · next hcons =>
        exact ⟨fun y => y.standsIn t && !y.returned, by simp [hx, hr], fun y hy => (Bool.and_eq_true_iff.mp hy).1,
          by rw [hcons]⟩

/-- The place of a frame made anew at `a`, or else what has been returned into, what waits for its own frame and what would be
improper, single out `x` among the loops that rival it (log 26). -/
def SingledOut (a : Word) (t : State) (rival : Suspended → Prop) (later earlier : List Suspended) (x : Suspended) : Prop :=
  (x.returned = false ∧ a = x.frame ∧ ∀ y ∈ later, rival y → y.returned = true ∨ y.frame ≠ a) ∨
    ((x.returned = true ∨ a ≠ x.frame) ∧
      ∀ y ∈ later ++ earlier, rival y → (y.returned = true ∨ y.frame ≠ a) ∧
        (y.pc ≠ t.pc ∨ (x.returned = false ∧ y.returned = true) ∨
          (y.returned = x.returned ∧
            ((x.waits t = false ∧ y.waits t = true) ∨
              (y.waits t = x.waits t ∧
                ((y.loop ≠ .spoiled ∧ y.loopIn t = .spoiled) ∨
                  (y.loopIn t = x.loopIn t ∧ (y.loop = .spoiled → x.loop = .spoiled))))))))

/-- A frame made anew goes on with the loop that is singled out among those it may mean. -/
theorem SingledOut.loopAmong_filter {a : Word} {t : State} {rival : Suspended → Prop} {l later earlier : List Suspended}
    {x : Suspended} {p : Suspended → Bool} (h : SingledOut a t rival later earlier x) (hl : l = later ++ x :: earlier)
    (hpc : x.pc = t.pc) (hx : p x = true) (hp : ∀ y ∈ later ++ earlier, p y = true → rival y) :
    loopAmong t (loopsRebuilt a t (l.filter p)) = x.loopIn t := by
  have hfilter : l.filter p = later.filter p ++ x :: earlier.filter p := by
    rw [hl, List.filter_append, List.filter_cons_of_pos hx]
  have hsub : ∀ y ∈ later.filter p ++ earlier.filter p, y ∈ later ++ earlier ∧ rival y := fun y hy => by
    rw [← List.filter_append] at hy
    obtain ⟨hm, hpy⟩ := List.mem_filter.mp hy
    exact ⟨hm, hp y hm hpy⟩
  refine loopAmong_rebuilt hfilter hpc ?_
  rcases h with ⟨hr, ha, hlater⟩ | ⟨hplace, hothers⟩
  · refine .inl ⟨hr, ha.symm, fun y hy => ?_⟩
    exact hlater y (List.mem_of_mem_filter hy) (hsub y (List.mem_append_left _ hy)).2
  · refine .inr ⟨hplace.imp_right Ne.symm, fun y hy => ?_⟩
    obtain ⟨hm, hriv⟩ := hsub y hy
    exact hothers y hm hriv

theorem loopAmong_singleton (t : State) (x : Suspended) : loopAmong t [x] = x.loopIn t :=
  loopAmong_eq (List.mem_singleton.mpr rfl) fun y hy => .inl (by rw [List.mem_singleton.mp hy]; exact ⟨rfl, id⟩)

section Returned

variable {a : Word} {t : State} {later earlier : List Suspended} {x : Suspended}

/-- A frame with bytes of the one stacked for `x`, and of no other, goes on with `x`, where `x` claims it or no other loop that is yet
to be returned to stands as it was. -/
theorem loopAmong_own (h1 : ramWord t a = true) (h2 : ramWord t (a + 2) = true)
    (hl : t.divider.suspended = later ++ x :: earlier)
    (hsome : ∃ k : Word, k.toNat < 4 ∧ t.divider.originOf (.ram (a + k).toNat) = some x.id)
    (hall : ∀ k : Word, k.toNat < 4 → t.divider.originOf (.ram (a + k).toNat) = some x.id ∨
      t.divider.originOf (.ram (a + k).toNat) = none)
    (hid : ∀ y ∈ later ++ earlier, y.id ≠ x.id)
    (hc : x.standsIn t = true ∨ (x.returned = false ∧ ¬ (x.waits t = true ∧ x.frame ≠ a)) ∨
      ∀ y ∈ later ++ earlier, y.returned = true ∨ ¬ y.standsIn t = true) :
    loopAmong t (loopsMeant a t) = x.loopIn t := by
  have hbytes : ∀ b ∈ frameBytes a t, ∀ n, b.bind t.divider.originOf = some n → n = x.id := by
    intro b hb n hn
    obtain ⟨k, hk, rfl⟩ := (mem_frameBytes h1 h2).mp hb
    rcases hall k hk with ho | ho
    · exact Option.some.inj (hn.symm.trans ho)
    · exact absurd (hn.symm.trans ho) nofun
  have hin := Suspended.inFrame_iff.mp ((Suspended.inFrame_iff_origin h1 h2).mpr hsome)
  have hclaims : x.claims a t = true ∨ ∀ y ∈ later ++ earlier, y.returned = true ∨ y.standsIn t = false := by
    simpa only [Suspended.claims_iff, or_assoc, Bool.not_eq_true] using hc
  rw [loopsMeant_origin hl hid hin hbytes hclaims, loopAmong_singleton]

/-- A loop whose bytes are in the frame does not claim it, where it does not stand as it was, and has been returned into or waits for
its own frame elsewhere. -/
theorem not_claims_of_origin {l : List Suspended} (h1 : ramWord t a = true) (h2 : ramWord t (a + 2) = true)
    (h : ∀ k : Word, k.toNat < 4 → ∀ y ∈ l, t.divider.originOf (.ram (a + k).toNat) = some y.id →
      ¬ y.standsIn t = true ∧ (y.returned = true ∨ (y.waits t = true ∧ y.frame ≠ a))) :
    ∀ y ∈ l, y.inFrame a t = true → y.claims a t = false := by
  intro y hy hin
  obtain ⟨k, hk, ho⟩ := (Suspended.inFrame_iff_origin h1 h2).mp hin
  obtain ⟨hnot, hback⟩ := h k hk y hy ho
  rw [Bool.eq_false_iff, ne_eq, Suspended.claims_iff]
  rintro (hy' | ⟨hr, hw⟩)
  · exact hnot hy'
  · rcases hback with hr' | hw'
    · exact absurd (hr'.symm.trans hr) nofun
    · exact hw hw'

/-- A frame that software made anew goes on with `x`, where `x` is singled out among the loops that stand as they were if it does. -/
theorem loopAmong_anew (h1 : ramWord t a = true) (h2 : ramWord t (a + 2) = true)
    (hl : t.divider.suspended = later ++ x :: earlier) (hpc : x.pc = t.pc)
    (hframe : (∀ k : Word, k.toNat < 4 → t.divider.originOf (.ram (a + k).toNat) = none) ∨
      (x.standsIn t = true ∧ x.returned = false ∧ ∀ k : Word, k.toNat < 4 → ∀ y ∈ later ++ earlier,
        t.divider.originOf (.ram (a + k).toNat) = some y.id →
          ¬ y.standsIn t = true ∧ (y.returned = true ∨ (y.waits t = true ∧ y.frame ≠ a))))
    (hstands : x.standsIn t = true ∨ ∀ y ∈ later ++ earlier, ¬ y.standsIn t = true)
    (hsingle : SingledOut a t (fun y => x.standsIn t = true → y.standsIn t = true) later earlier x) :
    loopAmong t (loopsMeant a t) = x.loopIn t := by
  rcases hframe with hnone | ⟨hx, hr, hothers⟩
  · have hbytes : ∀ b ∈ frameBytes a t, b.bind t.divider.originOf = none := by
      intro b hb
      obtain ⟨k, hk, rfl⟩ := (mem_frameBytes h1 h2).mp hb
      exact hnone k hk
    have hmem : x ∈ t.divider.suspended := by rw [hl]; simp
    have hprefer : x.standsIn t = true ∨ ∀ y ∈ t.divider.suspended, y.standsIn t = false := by
      by_cases hx : x.standsIn t = true
      · exact .inl hx
      · refine .inr fun y hy => ?_
        rcases mem_of_split hl hy with rfl | hy
        · simpa using hx
        · simpa using hstands.resolve_left hx y hy
    rw [loopsMeant_anew hbytes, prefer_eq_filter hmem hprefer]
    refine hsingle.loopAmong_filter hl hpc (by simp) fun y _ hy hx => ?_
    simpa [hx] using hy
  · rcases loopsMeant_unclaimed hl hx hr (not_claims_of_origin h1 h2 hothers) with he | ⟨p, hpx, hp, he⟩
    · rw [he, loopAmong_singleton]
    · rw [he]
      exact hsingle.loopAmong_filter hl hpc hpx fun y _ hy _ => hp y hy

end Returned

/-- A divide that stood in `s` stands in a state with the flags of `s` where RCOUNT, W0, W1 and the divisor are as in `s` (R188). -/
theorem DivEntry.standsIn_iff {d : DivEntry} {s u : State} {v : Bool} (h : d.standsIn s = true)
    (hsr : u.sr = { s.sr with dc := v }) : d.standsIn u = true ↔
      u.rcount = s.rcount ∧ u.reg 0 = s.reg 0 ∧ u.reg 1 = s.reg 1 ∧ u.reg d.rn = s.reg d.rn := by
  simp only [DivEntry.standsIn, Bool.and_eq_true, beq_iff_eq] at h ⊢
  obtain ⟨⟨hc, hd⟩, hs⟩ := h
  rw [hc, hd, hs]
  simp only [State.divScratch, hsr, DivScratch.mk.injEq, and_true]
  tauto

/-- The loop that was put aside in `s` goes on in `u` as it stood, where `u` has the PC and the flags of `s` and what its divide rests
on, and else as an improper one (R188, R195). -/
theorem Suspended.loopIn_returned {x : Suspended} {s u : State} {v : Bool} (hl : x.loop = s.divider.loop)
    (hpc : x.pc = u.pc) (hcount : x.count = s.rcount) (hsr : u.sr = { s.sr with dc := v }) :
    (s.divider.loop = .spoiled → x.loopIn u = .spoiled) ∧
      (s.divider.loop = .fresh → x.loopIn u = if u.rcount = s.rcount then .fresh else .spoiled) ∧
      ∀ d, s.divider.loop = .running d → d.standsIn s = true →
        x.loopIn u =
          if u.rcount = s.rcount ∧ u.reg 0 = s.reg 0 ∧ u.reg 1 = s.reg 1 ∧ u.reg d.rn = s.reg d.rn then .running d
          else .spoiled := by
  refine ⟨fun h => ?_, fun h => ?_, fun d h hd => ?_⟩
  · simp [Suspended.loopIn, hl, h]
  · simp only [Suspended.loopIn, hl, h, hpc, hcount, beq_self_eq_true, Bool.true_and, beq_iff_eq,
      @eq_comm _ s.rcount]
  · simp only [Suspended.loopIn, hl, h, hpc, beq_self_eq_true, Bool.true_and, DivEntry.standsIn_iff hd hsr]

theorem sub_four_add_two (v : Word) : v - 4 + 2 = v - 2 := by bv_omega

/-- Settles O47: the frame that entry stacked is the one popped, and the conditions on the bytes of the frame are those under which
the loop that is meant is the interrupted one. -/
theorem returnUndoesEntry : Obligations.ReturnUndoesEntry := by
  intro e p s t h h1 h2 hpc hent hr2 hr4 hlo hhi entry a
  obtain ⟨htlo, hthi, hdiv⟩ := enter_on_ram h1 h2 hent
  obtain ⟨u, hexec, hupc, hout, husr, hucor, hu15, huother, hudiv, hudev⟩ :=
    retfie_of_frame hpc hr2 hr4 (hlo.trans htlo) (hhi.trans hthi)
  refine ⟨fun hra => ?suspends, _, hexec, hupc, hout, husr, hucor, hu15, huother, ?resumes⟩
  case suspends =>
    rw [hdiv]
    exact ⟨dividerInterrupted_suspended hra,
      fun k hk => dividerInterrupted_originOf hra ((mem_frameBytes h1 h2).mpr ⟨k, hk, rfl⟩)⟩
  case resumes =>
    intro later earlier gone onStack x hra hl origin stands elsewhere rival hmeant
    have hpsv : u.corcon.psv = h.corcon.psv := by rw [hucor]
    have hwaits (y : Suspended) : y.waits u = y.waits h := y.waits_congr hpsv hudev hudiv
    have hb1 : ramWord u a = true := (ramWord_congr a hpsv hudev).trans hr4
    have ha2 : a + 2 = h.reg 15 - 2 := sub_four_add_two (h.reg 15)
    have hb2 : ramWord u (a + 2) = true := by rwa [ha2, ramWord_congr _ hpsv hudev]
    have hlu : u.divider.suspended = later ++ x :: earlier := by rw [hudiv, hl]
    have hloop : loopAmong u (loopsMeant a u) = x.loopIn u := by
      rcases hmeant with ⟨hsome, hall, hid, hc⟩ | ⟨hframe, hstands, hsingle⟩
      · refine loopAmong_own hb1 hb2 hlu (hudiv ▸ hsome) (hudiv ▸ hall) hid ?_
        simp only [hwaits]
        exact hc
      · refine loopAmong_anew hb1 hb2 hlu hupc.symm ?_ hstands ?_
        · simp only [hwaits, hudiv]
          exact hframe
        · simp only [SingledOut, hwaits, hupc]
          exact hsingle
    have hresumed := Suspended.loopIn_returned (x := x) rfl hupc.symm rfl husr
    rw [← hloop, ← dividerResumed_loop (show u.sr.ra = true by rw [husr]; exact hra)] at hresumed
    exact hresumed

end Sys2Proof.Machine
end

section
/-! SUPPORT. The frames of `REPEAT`, the system instructions and the table reads (O45; 46_repeat.md R250, R251; 47_system.md R265 to
R273), from those of the operations they are made of. -/

namespace Sys2Proof.Machine

/-- What a table word leaves: the pointer as its mode says, and the counter of free values (R271). -/
theorem tblWord_ok {b : Size} {p : PtrMode} {r : Reg} {w : ProgWord} {a : Word} {s t : State}
    (h : tblWord b p r s = .ok (w, a, t)) :
    ∃ u n, u = modifyPtr (sizeBytes b) p r (s.reg r) s ∧ t = u.touch u.pendingTraps.stackError n u.notes.psvReads := by
  obtain ⟨_, -, h⟩ := bind_ok h
  obtain ⟨base, hb, h⟩ := bind_ok h
  obtain ⟨-, rfl⟩ := ptrValue_ok hb
  obtain ⟨_, -, h⟩ := bind_ok h
  cases hbit : s.tblpag.getLsbD 7 with
  | true =>
    rw [hbit] at h
    cases h
    exact ⟨_, _, rfl, rfl⟩
  | false =>
    obtain ⟨w', n, he⟩ := progRead_eq (tblProgAddr s (trunc16 (ptrAddr (sizeBytes b) p (s.reg r))))
      (modifyPtr (sizeBytes b) p r (s.reg r) s)
    rw [hbit, if_neg Bool.false_ne_true, he] at h
    cases h
    exact ⟨_, n, rfl, rfl⟩

namespace Frame

variable {s t : State}

/-- Of the registers that an instruction changes by its own rule, those that the effect owns. -/
theorem ownRegisters {own : List Special} {rc dc : BitVec 14} {p : Power} {d : Divider} {x : StepNotes} (s : State)
    (hrc : .rcount ∉ own → rc = s.rcount) (hdc : .disicnt ∉ own → dc = s.disicnt) (hp : .power ∉ own → p = s.power)
    (hd : .divider ∉ own → d = s.divider) :
    Frame { own := own } s { s with rcount := rc, disicnt := dc, power := p, divider := d, notes := x } :=
  ⟨fun _ _ _ => ⟨rfl, rfl⟩,
    ⟨fun _ => ⟨fun _ => rfl, fun _ => rfl, fun _ => rfl, fun _ => rfl, fun _ => rfl, fun _ => rfl, fun _ => rfl⟩,
      fun _ => ⟨rfl, fun _ => rfl⟩, fun _ => ⟨rfl, rfl⟩, fun _ => rfl, fun _ => rfl, fun _ => hrc, fun _ => hdc,
      fun _ => rfl⟩,
    ⟨hp, hd, fun _ => rfl, fun _ => rfl, id, id, rfl, rfl, rfl, rfl, rfl⟩,
    fun _ _ => rfl, fun _ => rfl, rfl, rfl⟩

/-- RA, then RCOUNT and how the new loop stands with the divider (R250, R253). -/
theorem startLoop (k : BitVec 14) (s : State) :
    Frame { sr := { ra := true }, own := [.rcount, .divider] } s (Machine.startLoop k s) :=
  have hra : SrKept { ra := true } s.sr { s.sr with ra := if k = 0 then s.sr.ra else true } := by simp [SrKept]
  (setSr (n := s.free) s hra).trans (ownRegisters (own := [.rcount, .divider]) (rc := k)
    (d := { s.divider with loop := .fresh }) (x := s.notes) _ (by simp) (fun _ => rfl) (fun _ => rfl) (by simp))

theorem disi (k : BitVec 14) (s : State) : Frame { own := [.disicnt] } s { s with disicnt := k }.noteDisicnt.advance :=
  ownRegisters (x := s.noteDisicnt.notes) s (fun _ => rfl) (by simp) (fun _ => rfl) (fun _ => rfl)

theorem pwrsav (p : Power) (s : State) : Frame { own := [.power] } s { s with power := p }.advance :=
  ownRegisters (x := s.notes) s (fun _ => rfl) (fun _ => rfl) (by simp) (fun _ => rfl)

theorem tblWord {b : Size} {p : PtrMode} {r : Reg} {w : ProgWord} {a : Word}
    (h : Machine.tblWord b p r s = .ok (w, a, t)) : Frame { regs := (Operand.ptr p r).moved } s t := by
  obtain ⟨u, n, rfl, rfl⟩ := tblWord_ok h
  simpa [Effect.join, SrMask.join, stackOwn] using
    (modifyPtr (sizeBytes b) p r (s.reg r) s).trans (touch (hit := false) (n := n) _ id fun _ => rfl)

/-- A table read moves its pointer and writes its destination (R272, R273). -/
theorem tableRead {pick : Size → Word → ProgWord → Word} {b : Size} {p : PtrMode} {rs : Reg} {dst : Operand}
    (h : Machine.tableRead pick b p rs dst s = .ok t) : Frame (operandEffect b (.ptr p rs) dst {} s) s t := by
  obtain ⟨_, hc, h⟩ := bind_ok h
  obtain ⟨⟨w, a, s1⟩, h1, h⟩ := bind_ok h
  obtain ⟨s2, h2, h⟩ := bind_ok h
  cases h
  have hp := tblWord h1
  have hd := dstWrite h2
  have haddr : dst.addr (sizeBytes b) s1 = dst.addr (sizeBytes b) s :=
    Operand.addr_kept hp.1 rfl (collides_addresses (refuseIf_ok hc))
  rw [show dst.store b s1 = dst.store b s by simp only [Operand.store, haddr]] at hd
  refine ((hp.trans hd).trans (advance s2)).mono (.of_subset ?_ ?_ ?_ rfl)
  · simp [Effect.join, operandEffect]
  · simp [Effect.join, operandEffect]
  · have hown := stackOwn_append_subset (Operand.ptr p rs).usesStack dst.usesStack
    simpa [Effect.join, operandEffect] using List.Subset.trans (List.subset_append_right _ _) hown

end Frame

theorem loop_frame {i : Instr} {s t : State} (hi : familyOf i = .loop) (h : exec i s = .next t) :
    Frame (effectOf i s) s t := by
  cases i <;> cases hi
  case repeatLit | repeatWn => cases h; exact .startLoop _ s

/-- `RESET` is a device reset: it does not run (R270). -/
theorem system_frame {i : Instr} {s t : State} (hi : familyOf i = .system) (h : exec i s = .next t) (hr : Ran t) :
    Frame (effectOf i s) s t := by
  cases i <;> cases hi
  case nop => cases h; exact .advance s
  case disi k => cases h; exact .disi k s
  case pwrsav k => cases h; exact .pwrsav _ s
  case reset => cases h; cases hr

/-- The table writes are refused (R274, R275). -/
theorem table_frame {i : Instr} {s t : State} (hi : familyOf i = .table) (h : exec i s = .next t) (hr : Ran t) :
    Frame (effectOf i s) s t := by
  cases i <;> cases hi
  case tblrdl | tblrdh => exact .tableRead (finish_ran h hr)
  case tblwtl | tblwth => cases h

/-- Settles O45: each family has the frames of the operations it is made of, composed. -/
theorem systemFrame : Obligations.SystemFrame := by
  rintro i s t (hi | hi | hi) h hr
  · exact loop_frame hi h
  · exact system_frame hi h hr
  · exact table_frame hi h hr

end Sys2Proof.Machine
end

section
/-! SUPPORT. A step and its end (O6, O7; 46_repeat.md R252; 47_system.md R268; 70_reset_and_hazards.md R340, R351). -/

namespace Sys2Proof.Machine

/-! ## The instruction at the PC -/

/-- The second word says nothing of an instruction of one word (R104). -/
theorem decode_oneWord {w w2 : ProgWord} {i : Instr} (h : decode w w2 = .ok i) (h1 : isTwoWord w = false) :
    decode w 0 = .ok i := by
  have henc : Laws.Encodes w i := Laws.decodeFirst_sound (Laws.decode_eq_ok_iff.mp h).2
  exact decode_of_short 0 henc fun t ht => absurd (henc.fields_of_long ht).1 (by simp [h1])

theorem decodeRes_ok {w w2 : ProgWord} {i : Instr} (h : decode w w2 = .ok i) : decodeRes w w2 = .ok i := by
  rw [decodeRes, h]

theorem fetch_decoded {s : State} {w w2 : ProgWord} {i : Instr} (hpc : s.pcOut = false)
    (hw : s.progWord s.pc.toNat = some w)
    (h2 : isTwoWord w = true → s.sr.ra = false ∧ s.progWord (s.pc.toNat + 2) = some w2) (hd : decode w w2 = .ok i) :
    fetch s = .ok i := by
  cases htwo : isTwoWord w with
  | false => exact fetch_atInstr hpc ⟨w, hw, htwo, decode_oneWord hd htwo⟩
  | true =>
    obtain ⟨hra, hw2⟩ := h2 htwo
    simp [fetch, hpc, hw, htwo, hra, hw2, decodeRes_ok hd]

/-- Settles O6: a quiet boundary fetches the instruction, and a loop lets it run. -/
theorem stepRunsDecoded : Obligations.StepRunsDecoded := by
  intro s w w2 i hq hw h2 hd hrep
  obtain ⟨-, hpc, -, -⟩ := quiet_iff.mp hq
  have hstep : step s = runInstr i s := by rw [step_quiet hq, stepInstruction, fetch_decoded hpc hw h2 hd]
  have hrun : ¬ (s.sr.ra && !mayRepeat i) = true := by simpa using hrep
  exact hstep.trans (if_neg hrun)

/-! ## The loop mechanism and the count-down -/

/-- What the loop mechanism changes: the PC, RCOUNT and SR, as the loop stands (R252). -/
theorem loopUpdate_eq (s t : State) : ∃ pc out rc sr,
    loopUpdate s t = { t with pc := pc, pcOut := out, rcount := rc, sr := sr } ∧
    (s.sr.ra = false → pc = t.pc ∧ out = t.pcOut ∧ rc = t.rcount ∧ sr = t.sr) ∧
    (s.sr.ra = true → s.rcount = 0 → pc = t.pc ∧ out = t.pcOut ∧ rc = t.rcount ∧ sr = { t.sr with ra := false }) ∧
    (s.sr.ra = true → s.rcount ≠ 0 → pc = s.pc ∧ out = s.pcOut ∧ rc = s.rcount - 1 ∧ sr = t.sr) := by
  rcases loopUpdate_cases s t with ⟨hra, h⟩ | ⟨hra, hrc, h⟩ | ⟨hra, hrc, h⟩
  · exact ⟨_, _, _, _, h, fun _ => ⟨rfl, rfl, rfl, rfl⟩, by simp [hra], by simp [hra]⟩
  · exact ⟨_, _, _, _, h, by simp [hra], fun _ _ => ⟨rfl, rfl, rfl, rfl⟩, fun _ hne => absurd hrc hne⟩
  · exact ⟨_, _, _, _, h, by simp [hra], fun _ h0 => absurd h0 hrc, fun _ _ => ⟨rfl, rfl, rfl, rfl⟩⟩

/-- The count-down of DISICNT: by 1 to `dmax`, and not where the step loaded it (R268; log 29). -/
theorem countDown_disicnt {dmax : Nat} (hd : 0 < dmax) (t : State) : ∃ c n,
    countDown dmax t = { t with disicnt := c, free := n } ∧
    (t.notes.wroteDisicnt = true → c = t.disicnt) ∧
    (t.notes.wroteDisicnt = false → ∃ d, 1 ≤ d ∧ d ≤ dmax ∧ c.toNat = t.disicnt.toNat - d) := by
  unfold countDown
  split
  · next h =>
    refine ⟨t.disicnt, t.free, rfl, fun _ => rfl, fun hw => ⟨1, le_rfl, hd, ?_⟩⟩
    simp [h.resolve_left (by simp [hw])]
  · next h =>
    refine ⟨_, _, rfl, fun hw => absurd (.inl hw) h, fun _ =>
      ⟨1 + Config.freeCycles t.free % dmax, Nat.le_add_right 1 _, ?_, ?_⟩⟩
    · have := Nat.mod_lt (Config.freeCycles t.free) hd
      omega
    · have := t.disicnt.isLt
      rw [BitVec.toNat_ofNat]
      exact Nat.mod_eq_of_lt (by omega)

theorem stepCyclesMax_pos (i : Instr) (t : State) : 0 < stepCyclesMax i t := by
  rw [stepCyclesMax]
  omega

/-- A frame stays on the stack while W15 does not come into it (log 26). -/
theorem Suspended.offStack_eq (sp : Word) (x : Suspended) : x.offStack sp =
    { x with stacked := x.stacked && decide (sp.toNat < x.frame.toNat ∨ x.frame.toNat + 4 ≤ sp.toNat) } := by
  have : (!(decide (x.frame.toNat ≤ sp.toNat) && decide (sp.toNat < x.frame.toNat + 4))) =
      decide (sp.toNat < x.frame.toNat ∨ x.frame.toNat + 4 ≤ sp.toNat) := by
    rw [← Bool.decide_and, ← decide_not, decide_eq_decide]
    omega
  rw [offStack, this]

theorem endStep_reset {i : Instr} {s t : State} (h : t.notes.didReset = true) :
    endStep i s t = .next { t with notes := .empty } := by
  simp [endStep, h]

theorem endStep_loopWritten {i : Instr} {s t : State} (h : t.notes.didReset = false) (hra : s.sr.ra = true)
    (hl : t.notes.wroteLoop = true) : endStep i s t = .refused .repeatTargetWrites := by
  simp [endStep, h, hra, hl]

theorem endStep_ends {i : Instr} {s t : State} (h : t.notes.didReset = false)
    (hl : s.sr.ra = true → t.notes.wroteLoop = false) :
    endStep i s t = .next { countDown (stepCyclesMax i t) (loopUpdate s t) with
      splimJustWritten := t.notes.wroteSplim
      divider := t.divider.traced (byteCopies i s) s t
      notes := .empty } := by
  have hreset : ¬ t.notes.didReset = true := by simp [h]
  have hwrote : ¬ (s.sr.ra && t.notes.wroteLoop) = true := by simpa using hl
  exact (if_neg hreset).trans (if_neg hwrote)

/-! ## The largest cycle counts -/

theorem cyclesMax_eq_three_iff (i : Instr) : cyclesMax i = 3 ↔
    (∃ j f, i = .btscF j f) ∨ (∃ j p r, i = .btscWs j p r) ∨ i = .ret ∨ i = .retfie ∨ (∃ b k r, i = .retlw b k r) := by
  cases i <;> simp [cyclesMax]

theorem cyclesMax_eq_two_iff (i : Instr) : cyclesMax i = 2 ↔
    (∃ d p r, i = .movDLd d p r) ∨ (∃ q r d, i = .movDSt q r d) ∨ relativeBranch i ∨ (∃ n, i = .rcall n) ∨
      (∃ a, i = .call a) ∨ (∃ a, i = .goto a) ∨ (∃ b q d p r, i = .tblrdl b q d p r) ∨
      (∃ b q d p r, i = .tblrdh b q d p r) ∨ (∃ b q d p r, i = .tblwtl b q d p r) ∨ (∃ b q d p r, i = .tblwth b q d p r) := by
  cases i <;> simp [cyclesMax, relativeBranch]

theorem cyclesMax_range (i : Instr) : cyclesMax i = 1 ∨ cyclesMax i = 2 ∨ cyclesMax i = 3 := by
  cases i <;> simp [cyclesMax]

/-- Settles O7: the loop mechanism and the count-down each say what they change, and the divider is the traced one. -/
theorem endOfStep : Obligations.EndOfStep := by
  intro i s t
  refine ⟨endStep_reset, endStep_loopWritten, fun h hl => ?_,
    cyclesMax_eq_three_iff i, cyclesMax_eq_two_iff i, cyclesMax_range i⟩
  obtain ⟨pc, out, rc, sr, hloop, hidle, hlast, hmore⟩ := loopUpdate_eq s t
  obtain ⟨c, n, hcount, hloaded, hfall⟩ := countDown_disicnt (stepCyclesMax_pos i t) (loopUpdate s t)
  rw [hloop] at hcount hloaded hfall
  refine ⟨_, endStep_ends h hl, ?_⟩
  rw [hloop, hcount]
  exact ⟨hidle, hlast, hmore, hloaded, hfall, rfl, rfl, rfl, rfl, rfl, rfl, rfl, rfl, rfl, rfl, rfl, rfl, rfl, rfl, rfl, rfl,
    rfl, rfl, rfl, rfl, List.map_congr_left fun x _ => x.offStack_eq _, fun x => traced_originOf _ s t _ x⟩

end Sys2Proof.Machine
end

section
/-! SUPPORT. `REPEAT` and its loop around a `NOP` (O10, O34; 46_repeat.md R250 to R253). -/

namespace Sys2Proof.Machine

/-! ## The two instructions -/

theorem startLoop_spec (k : BitVec 14) (s : State) :
    (startLoop k s).rcount = k ∧ AtNext s (startLoop k s) ∧
      (startLoop k s).divider = { s.divider with loop := .fresh } ∧
      (k ≠ 0 → (startLoop k s).sr = { s.sr with ra := true }) ∧ (k = 0 → (startLoop k s).sr = s.sr) := by
  have hsr : (startLoop k s).sr = { s.sr with ra := if k = 0 then s.sr.ra else true } := rfl
  exact ⟨rfl, atNext_advance rfl, rfl, fun hk => by rw [hsr, if_neg hk], fun hk => by rw [hsr, if_pos hk]⟩

/-- Settles O34: both forms start the loop, with the count that each names. -/
theorem repeatForms : Obligations.RepeatForms := by
  rintro i k s (rfl | ⟨r, rfl, rfl⟩)
  · exact ⟨_, rfl, startLoop_spec k s⟩
  · exact ⟨_, rfl, startLoop_spec _ s⟩

/-! ## A loop around a `NOP` -/

/-- Every word 0x00xxxx is a `NOP` (47_system.md R265). -/
theorem encodes_nop (x : BitVec 16) : Laws.Encodes (0x00#8 ++ x) (.nop x) := by
  have hval : (0x00#8 ++ x).toNat = x.toNat := (BitVec.toNat_append _ _).trans (by simp)
  exact ⟨rfl, (Laws.eq_ofNat_iff (Laws.EncodingFits.nop x)).mpr hval⟩

theorem atInstr_nop {s : State} {x : BitVec 16} (h : s.progWord s.pc.toNat = some (0x00#8 ++ x)) : atInstr s (.nop x) :=
  ⟨_, h, (encodes_nop x).isTwoWord_of_short nofun, decode_of_short 0 (encodes_nop x) nofun⟩

/-- The `NOP` at the PC runs next, in a loop. -/
structure NopRepeats (x : BitVec 16) (s : State) : Prop where
  calm : calm s = true
  ra : s.sr.ra = true
  here : atInstr s (.nop x)

/-- What the steps of a `NOP` keep while its loop goes on. -/
structure NopKept (s t : State) : Prop where
  pc : t.pc = s.pc
  sr : t.sr = s.sr
  w : t.w = s.w
  ram : t.ram = s.ram

theorem NopKept.refl (s : State) : NopKept s s := ⟨rfl, rfl, rfl, rfl⟩

theorem NopKept.trans {s t u : State} (h : NopKept s t) (k : NopKept t u) : NopKept s u :=
  ⟨k.pc.trans h.pc, k.sr.trans h.sr, k.w.trans h.w, k.ram.trans h.ram⟩

/-- The state after one step more is that of a step from the last one. -/
theorem steps_succ {n : Nat} {s t : State} (h : steps n s = .next t) : steps (n + 1) s = step t := by
  induction n generalizing s with
  | zero =>
    cases h
    rw [steps]
    cases step t <;> rfl
  | succ n ih =>
    rw [steps] at h ⊢
    cases hs : step s with
    | next u => rw [hs] at h; exact ih h
    | fault f => rw [hs] at h; cases h
    | refused q => rw [hs] at h; cases h

namespace NopRepeats

variable {x : BitVec 16} {s t : State}

theorem step_ends (h : NopRepeats x s) : ∃ u, step s = .next u ∧ EndsAs (loopUpdate s s.advance) u := by
  obtain ⟨-, -, -, -, hnotes⟩ := calm_iff.mp h.calm
  rw [step_atInstr (quiet_of_calm h.calm) h.here rfl rfl]
  exact endStep_noNotes (.nop x) s hnotes

/-- An execution that is not the last one leaves the PC on the `NOP` and counts RCOUNT down (R252). -/
theorem goesOn (h : NopRepeats x s) (hrc : s.rcount ≠ 0) :
    ∃ u, step s = .next u ∧ NopRepeats x u ∧ NopKept s u ∧ u.rcount = s.rcount - 1 := by
  obtain ⟨u, hstep, hu⟩ := h.step_ends
  obtain ⟨hpow, hpc, htrap, hpend, -⟩ := calm_iff.mp h.calm
  rw [loopUpdate, if_pos h.ra, if_neg hrc] at hu
  obtain ⟨c, n, j, v, -, rfl⟩ := hu
  exact ⟨_, hstep, ⟨calm_iff.mpr ⟨hpow, hpc, htrap, hpend, rfl⟩, h.ra, atInstr_congr rfl rfl h.here⟩,
    ⟨rfl, rfl, rfl, rfl⟩, rfl⟩

/-- The last execution clears RA and advances the PC (R252). -/
theorem last (h : NopRepeats x s) (hrc : s.rcount = 0) :
    ∃ u, step s = .next u ∧ AtNext s u ∧ u.sr = { s.sr with ra := false } ∧ u.rcount = 0 ∧ u.w = s.w ∧ u.ram = s.ram := by
  obtain ⟨u, hstep, hu⟩ := h.step_ends
  rw [loopUpdate, if_pos h.ra, if_pos hrc] at hu
  obtain ⟨c, n, j, v, -, rfl⟩ := hu
  have hnext : AtNext s s.advance := atNext_advance rfl
  exact ⟨_, hstep, hnext, rfl, hrc, rfl, rfl⟩

/-- The first RCOUNT executions. -/
theorem steps_goOn (h : NopRepeats x s) {n : Nat} (hn : n ≤ s.rcount.toNat) :
    ∃ t, steps n s = .next t ∧ NopRepeats x t ∧ NopKept s t ∧ t.rcount.toNat = s.rcount.toNat - n := by
  induction n with
  | zero => exact ⟨s, rfl, h, .refl s, rfl⟩
  | succ n ih =>
    obtain ⟨t, hsteps, ht, hk, hrc⟩ := ih (by omega)
    have hne : t.rcount ≠ 0 := fun e => by
      rw [e, show (0 : BitVec 14).toNat = 0 from rfl] at hrc
      omega
    obtain ⟨u, hstep, hu, hk', hrc'⟩ := ht.goesOn hne
    refine ⟨u, (steps_succ hsteps).trans hstep, hu, hk.trans hk', ?_⟩
    rw [hrc', BitVec.toNat_sub, hrc, show (1 : BitVec 14).toNat = 1 from rfl]
    have := s.rcount.isLt
    omega

end NopRepeats

/-- Settles O10: RCOUNT executions go on with the loop, and leave RCOUNT at zero for the last one. -/
theorem loopCount : Obligations.LoopCount := by
  intro s x hcalm hra hw
  have hs : NopRepeats x s := ⟨hcalm, hra, atInstr_nop hw⟩
  constructor
  · intro n hn
    obtain ⟨t, hsteps, -, hk, hrc⟩ := hs.steps_goOn hn
    exact ⟨t, hsteps, hk.pc, hk.sr, hrc, hk.w, hk.ram⟩
  · obtain ⟨t, hsteps, ht, hk, hrc⟩ := hs.steps_goOn le_rfl
    obtain ⟨u, hstep, hnext, hsr, hrcu, hwu, hramu⟩ := ht.last (BitVec.eq_of_toNat_eq (hrc.trans (Nat.sub_self _)))
    refine ⟨u, (steps_succ hsteps).trans hstep, ?_, hk.sr ▸ hsr, hrcu, hwu.trans hk.w, hramu.trans hk.ram⟩
    rw [AtNext, ← hk.pc]
    exact hnext

end Sys2Proof.Machine
end

section
/-! SUPPORT. The words of `NOP` (O5; 47_system.md R265): the first word of the instruction, and the second of `CALL` and `GOTO`. -/

namespace Sys2Proof.Machine

theorem decode_nop (x : BitVec 16) (w2 : ProgWord) : decode (0x00#8 ++ x) w2 = .ok (.nop x) :=
  decode_of_short w2 (encodes_nop x) nofun

/-- A word whose number fits in 16 bits is a `NOP`. -/
theorem decode_nop_of_lt {n : Nat} (h : n < 2 ^ 16) (w2 : ProgWord) : ∃ x, decode (BitVec.ofNat 24 n) w2 = .ok (.nop x) := by
  have hval : (0x00#8 ++ BitVec.ofNat 16 n).toNat = (BitVec.ofNat 24 n).toNat := by
    have h24 : n % 2 ^ 24 = n := Nat.mod_eq_of_lt (by omega)
    rw [BitVec.toNat_append, BitVec.toNat_ofNat n, BitVec.toNat_ofNat n, Nat.mod_eq_of_lt h, h24]
    simp
  exact ⟨_, BitVec.eq_of_toNat_eq hval ▸ decode_nop _ w2⟩

/-- The second word of `CALL` and `GOTO` holds the high 7 bits of the target alone (R234). -/
theorem secondWord_lt (t : BitVec 22) : t.toNat / 2 ^ 15 < 2 ^ 16 := by
  have := t.isLt
  omega

/-- An advance changes the PC and nothing else (R31, R33). -/
theorem advance_eq (s : State) :
    s.advance = { s with pc := (s.pc + 2) &&& 0x7FFFFE, pcOut := decide (0x7FFFFE < s.pc.toNat + 2) } := by
  obtain ⟨hpc, hout⟩ : AtNext s s.advance := atNext_advance rfl
  rw [← hpc, ← hout]
  rfl

/-- Settles O5: the high byte of the word is 0 in each of its places, and a `NOP` is an advance. -/
theorem nopWords : Obligations.NopWords :=
  ⟨decode_nop,
    fun t w2 => ⟨decode_nop_of_lt (secondWord_lt t) w2, decode_nop_of_lt (secondWord_lt t) w2⟩,
    fun _ s => congrArg Host.Outcome.next (advance_eq s), fun _ => ⟨rfl, rfl⟩⟩

end Sys2Proof.Machine
end

section
/-! SUPPORT. `DISI`, `PWRSAV` and `RESET`, and a CPU that waits (O35; 47_system.md R268 to R270). -/

namespace Sys2Proof.Machine

theorem TrapSet.highest_eq_none_iff (t : TrapSet) : t.highest = Option.none ↔ t = .none := by
  cases t
  simp [TrapSet.highest, TrapSet.none, ite_eq_iff]

/-- A halted CPU wakes where a request or a trap is pending (R269). -/
theorem wakes_iff (s : State) : wakes s = true ↔ s.pending ≠ [] ∨ s.pendingTraps ≠ .none := by
  rw [wakes, Bool.or_eq_true, Option.isSome_iff_ne_none, ne_eq s.pendingTraps.highest, TrapSet.highest_eq_none_iff]
  simp

/-- A step of a halted CPU: a boundary where it wakes, and none where it does not (R269; log 31). -/
theorem step_halted {s : State} (h : s.power ≠ .running) :
    step s = if wakes s then step { s with power := .running } else .next s := by
  cases hp : s.power with
  | running => exact absurd hp h
  | sleep | idle => simp only [step, cpuStep, hp]

theorem step_waiting {s : State} (h : s.power ≠ .running) (hreq : s.pending = []) (htrap : s.pendingTraps = .none) :
    step s = .next s := by
  have hw : ¬ wakes s = true := by simp [wakes_iff, hreq, htrap]
  rw [step_halted h, if_neg hw]

theorem step_woken {s : State} (h : s.power ≠ .running) (hw : s.pending ≠ [] ∨ s.pendingTraps ≠ .none) :
    step s = step { s with power := .running } := by
  rw [step_halted h, if_pos ((wakes_iff s).mpr hw)]

/-- Settles O35: each instruction is one update, and a halted CPU wakes exactly where something is pending. -/
theorem systemForms : Obligations.SystemForms :=
  ⟨fun _ _ => ⟨_, rfl, rfl, rfl, atNext_advance rfl⟩, fun _ _ => ⟨_, rfl, rfl, atNext_advance rfl⟩, fun _ => rfl,
    fun _ h => ⟨step_waiting h, step_woken h⟩⟩

end Sys2Proof.Machine
end

section
/-! SUPPORT. The table instructions (O36, O37; 47_system.md R271 to R275): a table read takes its bytes of the program word, and
writes its destination as a move does. -/

namespace Sys2Proof.Machine

/-! ## The program word -/

/-- Masking an address with 0xFFFE keeps its bits 15 to 1 and clears bit 0. -/
theorem and_FFFE (a : Word) : a &&& 0xFFFE = a.extractLsb' 1 15 ++ 0#1 := by
  apply BitVec.eq_of_getLsbD_eq
  intro i hi
  simp only [BitVec.getLsbD_extractLsb', BitVec.getLsbD_and, BitVec.getLsbD_append]
  interval_cases i <;> simp

theorem toNat_and_FFFE (a : Word) : (a &&& 0xFFFE).toNat = a.toNat / 2 * 2 := by
  have := a.isLt
  rw [and_FFFE, BitVec.toNat_append, BitVec.extractLsb'_toNat, Nat.shiftRight_eq_div_pow, BitVec.toNat_zero, Nat.or_zero,
    Nat.shiftLeft_eq]
  omega

/-- The program address of a table access in numbers (R271). -/
theorem tblProgAddr_toNat {s : State} (h : s.tblpag.getLsbD 7 = false) (a : Word) :
    (tblProgAddr s a).toNat = s.tblpag.toNat * 2 ^ 16 + a.toNat / 2 * 2 := by
  have hpage : (s.tblpag.extractLsb' 0 7).toNat = s.tblpag.toNat := by
    have hlt : s.tblpag.toNat < 2 ^ 7 := BitVec.toNat_lt_of_msb_false (s.tblpag.msb_eq_getLsbD_last.trans h)
    rw [BitVec.extractLsb'_toNat, Nat.shiftRight_zero, Nat.mod_eq_of_lt hlt]
  rw [tblProgAddr, BitVec.toNat_append, ← Nat.shiftLeft_add_eq_or_of_lt (BitVec.isLt _), hpage, toNat_and_FFFE,
    Nat.shiftLeft_eq]

/-- Forming addresses and reading leaves program memory. -/
theorem ReadsTo.progWord {s u : State} (h : ReadsTo s u) (a : Nat) : u.progWord a = s.progWord a := by
  obtain ⟨w, e, n, k, rfl⟩ := h
  rfl

/-- The word that a table access gives is that of the program memory, where it holds the one addressed (R271). -/
theorem tblWord_gives {b : Size} {p : PtrMode} {r : Reg} {x : ProgWord} {a : Word} {s t : State}
    (h : tblWord b p r s = .ok (x, a, t)) :
    a = trunc16 (ptrAddr (sizeBytes b) p (s.reg r)) ∧
      ∀ w, s.tblpag.getLsbD 7 = false → s.progWord (s.tblpag.toNat * 2 ^ 16 + a.toNat / 2 * 2) = some w → x = w := by
  obtain ⟨_, -, h⟩ := bind_ok h
  obtain ⟨base, hb, h⟩ := bind_ok h
  obtain ⟨-, rfl⟩ := ptrValue_ok hb
  obtain ⟨_, -, h⟩ := bind_ok h
  cases hbit : s.tblpag.getLsbD 7 with
  | true =>
    rw [hbit] at h
    cases h
    exact ⟨rfl, nofun⟩
  | false =>
    cases hread : progRead (tblProgAddr s (trunc16 (ptrAddr (sizeBytes b) p (s.reg r))))
      (modifyPtr (sizeBytes b) p r (s.reg r) s) with
    | mk y u =>
      rw [hbit, if_neg Bool.false_ne_true, hread] at h
      cases h
      refine ⟨rfl, fun w _ hw => ?_⟩
      rw [← tblProgAddr_toNat hbit, ← ReadsTo.progWord (.modifyPtr (sizeBytes b) p r (s.reg r) s)] at hw
      exact congrArg Prod.fst (hread.symm.trans (progRead_of_progWord hw))

theorem ReadsTo.tblWord {b : Size} {p : PtrMode} {r : Reg} {w : ProgWord} {a : Word} {s t : State}
    (h : Machine.tblWord b p r s = .ok (w, a, t)) : ReadsTo s t := by
  obtain ⟨u, n, rfl, rfl⟩ := tblWord_ok h
  exact (ReadsTo.modifyPtr (sizeBytes b) p r (s.reg r) s).trans (.touch _ _ n _)

/-- A table access leaves the pointer as its mode says. -/
theorem tblWord_pointer {b : Size} {p : PtrMode} {r : Reg} {w : ProgWord} {a : Word} {s t : State} (e : Effect)
    (h : tblWord b p r s = .ok (w, a, t)) : PointerMoved (sizeBytes b) (.ptr p r) e s t := by
  obtain ⟨u, n, rfl, rfl⟩ := tblWord_ok h
  rintro _ _ ⟨⟩ hm -
  rw [State.touch_reg, modifyPtr_reg _ _ s hm]

/-- A table access raises no trap: its pointer is not W15. -/
theorem tblWord_pendingTraps {b : Size} {p : PtrMode} {r : Reg} {w : ProgWord} {a : Word} {s t : State}
    (h : tblWord b p r s = .ok (w, a, t)) : t.pendingTraps = s.pendingTraps := by
  obtain ⟨u, n, rfl, rfl⟩ := tblWord_ok h
  exact modifyPtr_pendingTraps (sizeBytes b) p r (s.reg r) s

/-! ## Table reads -/

/-- A table read whose operands are ready reads a program word, which decides what is delivered, then writes the destination
(R109, R271). -/
theorem tableRead_completes {b : Size} {p : PtrMode} {rs : Reg} {dst : Operand} {a : Word} {s : State}
    (pick : Size → Word → ProgWord → Word) (ha : a = trunc16 (ptrAddr (sizeBytes b) p (s.reg rs)))
    (hc : collides (.ptr p rs) dst = false) (hs : tableReady b p rs s = true) (hd : destReady b dst s = true) :
    ∃ t, finish s (tableRead pick b p rs dst s) = .next t ∧ AtNext s t ∧
      PointerMoved (sizeBytes b) (.ptr p rs) (operandEffect b (.ptr p rs) dst {} s) s t ∧
      PointerMoved (sizeBytes b) dst (operandEffect b (.ptr p rs) dst {} s) s t ∧
      StackMarked [] (dst.stackAddrs (sizeBytes b) s) s t ∧
      ∀ w, s.tblpag.getLsbD 7 = false → s.progWord (s.tblpag.toNat * 2 ^ 16 + a.toNat / 2 * 2) = some w →
        Delivered b dst (pick b a w) s t := by
  obtain ⟨x, _, u, hx, -⟩ := tblWord_ready hs
  obtain ⟨hxa, hword⟩ := tblWord_gives hx
  rw [hxa.trans ha.symm] at hx hword
  have hu : ReadsTo s u := .tblWord hx
  have hf := Frame.tblWord hx
  have haddr : dst.addr (sizeBytes b) u = dst.addr (sizeBytes b) s := Operand.addr_kept hf.1 rfl (collides_addresses hc)
  have hstore : dst.store b u = dst.store b s := by simp only [Operand.store, haddr]
  have hreg {r : Reg} (hr : r ∈ dst.moved ++ dst.direct) : u.reg r = s.reg r :=
    (hf.1 r (fun hm => collides_not_written hc hm hr) rfl).1
  obtain ⟨t, ht⟩ := dstWrite_ready (pick b a x) ((destReady_of_reads hu haddr).trans hd)
  refine ⟨t.advance, ?_, atNext_advance ((dstWrite_pc ht).trans hu.pc), ?_, ?_, ?_, fun w h7 hw => ?_⟩
  · simp only [tableRead, hc, refuseIf_false, ok_bind, hx, ht]
    rfl
  · have hp := (tblWord_pointer (operandEffect b (.ptr p rs) dst {} s) hx).kept (Frame.dstWrite ht) hu.sameLimit.device
      hstore fun r hr => collides_not_written hc hr
    exact hp
  · exact (dstWrite_pointer hstore.symm ht).of_reads hu fun r hr => hreg (List.mem_append_left _ hr)
  · have haddrs : dst.stackAddrs (sizeBytes b) u = dst.stackAddrs (sizeBytes b) s := by
      simp only [Operand.stackAddrs, haddr]
    have hm := StackMarked.after_kept (tblWord_pendingTraps hx) hu.sameLimit (dstWrite_marks ht)
    rwa [haddrs] at hm
  · obtain rfl := hword w h7 hw
    exact (dstWrite_delivers ht).of_reads hu haddr fun r hr => hreg (by simp [hr, Operand.direct])

theorem tblLow_byte (a : Word) (w : ProgWord) :
    tblLow .byte a w = if a.getLsbD 0 then (w.extractLsb' 8 8).setWidth 16 else (w.extractLsb' 0 8).setWidth 16 := by
  rw [tblLow, selectByte_progWord, apply_ite byteWord]
  rfl

/-- Settles O36: both are the same table read, with the bytes that each takes. -/
theorem tableReads : Obligations.TableReads := by
  intro b q rd p rs s a odd hc hr hi ha hd
  have hm : misaligned b (trunc16 (ptrAddr (sizeBytes b) p (s.reg rs))) = false := misaligned_eq_false ha
  have hs : tableReady b p rs s = true := by simp [tableReady, hr, hi, hm]
  refine ⟨?low, ?high⟩
  case low =>
    obtain ⟨t, ht, hnext, hsrc, hdst, hmark, hdel⟩ := tableRead_completes tblLow rfl hc hs hd
    refine ⟨t, ht, hnext, hsrc, hdst, hmark, fun w h7 hw => ?_⟩
    cases b with
    | word => exact hdel w h7 hw
    | byte => exact tblLow_byte a w ▸ hdel w h7 hw
  case high =>
    obtain ⟨t, ht, hnext, hsrc, hdst, hmark, hdel⟩ := tableRead_completes tblHigh rfl hc hs hd
    refine ⟨t, ht, hnext, hsrc, hdst, hmark, fun w h7 hw => ?_⟩
    cases b <;> exact hdel w h7 hw

/-- Settles O37: no form has a meaning. -/
theorem tableWritesRefused : Obligations.TableWritesRefused := fun _ _ _ _ _ _ => ⟨rfl, rfl⟩

end Sys2Proof.Machine
end

section
/-! SUPPORT. What taking an exception leaves (O46, O48; 60_exceptions.md R305, R306, R308, R309): where VECTOR comes from, the
entry as two pushes and one update of the state they leave, and what each of them keeps. -/

namespace Sys2Proof.Machine

/-! ## VECTOR -/

/-- Entries for other exceptions do not matter to the one that is looked up. -/
theorem vectorGiven_append {e : ExcSource} {l : List (ExcSource × ProgAddr)} (m : List (ExcSource × ProgAddr))
    (h : ∀ x ∈ l, x.1 ≠ e) : vectorGiven e (l ++ m) = vectorGiven e m := by
  induction l with
  | nil => rfl
  | cons x l ih =>
    obtain ⟨hx, hl⟩ := List.forall_mem_cons.mp h
    exact (if_neg hx).trans (ih hl)

theorem vectorOf_first {e : ExcSource} {s : State} {a : ProgAddr} {l m : List (ExcSource × ProgAddr)}
    (hv : s.device.vectors = l ++ (e, a) :: m) (h : ∀ x ∈ l, x.1 ≠ e) : vectorOf s e = some a := by
  have hg : vectorGiven e s.device.vectors = some a := by
    rw [hv, vectorGiven_append _ h]
    exact if_pos rfl
  rw [vectorOf, hg]

/-- Where the device gives no VECTOR, it is in the word of the family's table, if there is one (log 10). -/
theorem vectorOf_table {e : ExcSource} {s : State} (h : ∀ a, (e, a) ∉ s.device.vectors) :
    vectorOf s e = (s.progWord (vectorSlot e)).map (·.extractLsb' 0 23) := by
  have hne : ∀ x ∈ s.device.vectors, x.1 ≠ e := by
    rintro ⟨_, a⟩ hx rfl
    exact h a hx
  have hg : vectorGiven e s.device.vectors = none := by
    rw [← List.append_nil s.device.vectors, vectorGiven_append [] hne]
    rfl
  rw [vectorOf, hg]

/-! ## Pending traps -/

theorem TrapSet.has_put (t : TrapSet) (e x : Trap) (v : Bool) : (t.put e v).has x = if x = e then v else t.has x := by
  cases e <;> cases x <;> rfl

/-- A stack check changes no other trap (R296). -/
theorem StackMarked.has_other {reads writes : List Int} {s t : State} (h : StackMarked reads writes s t) {x : Trap}
    (hx : x ≠ .stackError) : t.pendingTraps.has x = s.pendingTraps.has x := by
  obtain ⟨hosc, haddr, harith, -⟩ := h
  cases x with
  | oscillatorFailure => exact hosc
  | addressError => exact haddr
  | stackError => exact absurd rfl hx
  | arithmeticError => exact harith

theorem StackMarked.of_two_writes {a b : Int} {s t : State} (h : StackMarked [] [a, b] s t) :
    t.pendingTraps.stackError = (s.pendingTraps.stackError || badStackAddr a s || badStackAddr b s) := by
  obtain ⟨-, -, -, hmark, -⟩ := h
  rw [hmark (.inr (.inr rfl))]
  simp [Bool.or_assoc]

/-! ## What a push onto RAM keeps -/

/-- `t` is `s` but for W15, a stretch of RAM, the traps, the counter of free values and the notes. -/
structure Stacked (lo hi : Nat) (s t : State) : Prop where
  rest : t = { s with w := t.w, ram := t.ram, pendingTraps := t.pendingTraps, free := t.free, notes := t.notes }
  reg : ∀ r, r ≠ 15 → t.reg r = s.reg r
  ramByte : ∀ n, (n < lo ∨ hi ≤ n) → t.ramByte n = s.ramByte n

theorem Stacked.trans {lo mid hi : Nat} {s u t : State} (h : Stacked lo mid s u) (k : Stacked mid hi u t) (hlo : lo ≤ mid)
    (hhi : mid ≤ hi) : Stacked lo hi s t where
  rest := by rw [k.rest, h.rest]
  reg r hr := (k.reg r hr).trans (h.reg r hr)
  ramByte n hn := (k.ramByte n (by omega)).trans (h.ramByte n (by omega))

theorem Stacked.initialised {lo hi : Nat} {s t : State} (h : Stacked lo hi s t) (r : Reg) :
    t.initialised r = s.initialised r := by
  rw [h.rest]
  rfl

theorem push16_stacked {v : Word} {s t : State} (h : ramWord s (s.reg 15) = true) (ht : push16 v s = .ok t) :
    Stacked (s.reg 15).toNat ((s.reg 15).toNat + 2) s t := by
  obtain ⟨e, n, hp, -⟩ := push16_ram v h
  cases ht.symm.trans hp
  refine ⟨rfl, fun r hr => s.setReg_reg_ne _ hr, fun n hn => (ramWrite_ramByte ..).trans ?_⟩
  rw [if_neg (by omega), if_neg (by omega)]
  rfl

/-- A word of RAM two bytes above an address does not wrap round the data space (R77). -/
theorem toNat_add_two_of_ramWord {s : State} {a : Word} (h : ramWord s (a + 2) = true) : (a + 2).toNat = a.toNat + 2 := by
  obtain ⟨-, hr, -⟩ := ramWord_regions h
  have hlow := (regionOf_ram hr).1
  have hsum : (a + 2).toNat = (a.toNat + 2) % 2 ^ 16 := BitVec.toNat_add a 2
  have ha := a.isLt
  omega

/-- Two pushes onto RAM change its four bytes from W15 on. -/
theorem push16_twice_stacked {v x : Word} {s u t : State} (h1 : ramWord s (s.reg 15) = true)
    (h2 : ramWord s (s.reg 15 + 2) = true) (hu : push16 v s = .ok u) (ht : push16 x u = .ok t) :
    Stacked (s.reg 15).toNat ((s.reg 15).toNat + 4) s t := by
  obtain ⟨hlim, -, -, hcor⟩ := push16_ram_kept h1 hu
  obtain ⟨u', hu', -, h15⟩ := push16_on_ram v h1
  cases hu.symm.trans hu'
  have h2u : ramWord u (u.reg 15) = true := by rwa [h15, ramWord_congr _ (by rw [hcor]) hlim.device]
  have hsecond := push16_stacked h2u ht
  rw [h15, toNat_add_two_of_ramWord h2] at hsecond
  exact (push16_stacked h1 hu).trans hsecond (by omega) (by omega)

/-! ## Entry -/

/-- `u`, which the two pushes left, at the handler of `e` (R305). -/
def entered (e : ExcSource) (p : BitVec 3) (handler : ProgAddr) (d : Divider) (u : State) : State :=
  State.setPc handler (removePending e (raiseLevel e p { u with
    sr := { u.sr with ra := false }
    splimJustWritten := false
    notes := .empty
    divider := d }))

theorem entered_rest (e : ExcSource) (p : BitVec 3) (handler : ProgAddr) (d : Divider) (u : State) :
    entered e p handler d u = { u with
      pc := handler &&& 0x7FFFFE
      pcOut := false
      sr := (entered e p handler d u).sr
      corcon := (entered e p handler d u).corcon
      pendingTraps := (entered e p handler d u).pendingTraps
      splimJustWritten := false
      notes := .empty
      divider := d } := by
  cases e <;> rfl

theorem entered_ra (e : ExcSource) (p : BitVec 3) (handler : ProgAddr) (d : Divider) (u : State) :
    (entered e p handler d u).sr.ra = false := by
  cases e <;> rfl

/-- Of the pending traps, entry takes out the one that it is for (R305). -/
theorem entered_has (e : ExcSource) (p : BitVec 3) (handler : ProgAddr) (d : Divider) (u : State) (x : Trap) :
    (entered e p handler d u).pendingTraps.has x = if e = .trap x then false else u.pendingTraps.has x := by
  cases e with
  | interrupt n => rfl
  | trap y =>
    refine (u.pendingTraps.has_put y x false).trans ?_
    simp only [ExcSource.trap.injEq, eq_comm]

/-- An interrupt leaves its priority in IPL (R305). -/
theorem entered_interrupt (n : Nat) (p : BitVec 3) (handler : ProgAddr) (d : Divider) (u : State) :
    (entered (.interrupt n) p handler d u).sr = { u.sr with ra := false, ipl := p } ∧
      (entered (.interrupt n) p handler d u).corcon = u.corcon := ⟨rfl, rfl⟩

/-- A trap leaves its level in IPL3 and IPL, 8 and above (R305, R308). -/
theorem entered_trap (x : Trap) (p : BitVec 3) (handler : ProgAddr) (d : Divider) (u : State) :
    (entered (.trap x) p handler d u).sr = { u.sr with ra := false, ipl := BitVec.ofNat 3 (trapLevel x - 8) } ∧
      (entered (.trap x) p handler d u).corcon = { u.corcon with ipl3 := true } := ⟨rfl, rfl⟩

/-- Taking an exception on a stack in RAM, said once: the frame of `s` is stacked, and the state `u` that the two pushes leave is
entered (R305). -/
theorem enter_completes {e : ExcSource} {p : BitVec 3} {handler : ProgAddr} {s : State} (hv : vectorOf s e = some handler)
    (h1 : ramWord s (s.reg 15) = true) (h2 : ramWord s (s.reg 15 + 2) = true) :
    ∃ u t, t = entered e p handler (dividerInterrupted s) u ∧ enter e p s = .ok t ∧
      ramRead t .word (s.reg 15) = pcLow s.pc ∧ ramRead t .word (s.reg 15 + 2) = frameHigh s ∧ t.reg 15 = s.reg 15 + 4 ∧
      StackMarked [] [((s.reg 15).toNat : Int), ((s.reg 15 + 2).toNat : Int)] s u ∧
      Stacked (s.reg 15).toNat ((s.reg 15).toNat + 4) s u := by
  obtain ⟨v, u, hfirst, hsecond, -, -, h15, hmark, hpc, hsr, hcor⟩ :=
    push16_twice_on_ram (pcLow s.pc) (frameHigh s) h1 h2
  have hent : enter e p s = .ok (entered e p handler (dividerInterrupted s) u) := by
    rw [enter, hv]
    simp only [hfirst, ok_bind, frameHigh_congr hsr hcor hpc, hsecond]
    rfl
  obtain ⟨hlo, hhi, -⟩ := enter_on_ram h1 h2 hent
  refine ⟨u, _, rfl, hent, hlo, hhi, ?_, hmark, push16_twice_stacked h1 h2 hfirst hsecond⟩
  rw [entered_rest]
  exact h15

/-- Bit 12 of a stacked second word is RA (R309). -/
theorem frameHigh_ra (s : State) : (frameHigh s).getLsbD 12 = s.sr.ra := by
  simp only [frameHigh, srl, BitVec.getLsbD_append]
  simp

/-- Settles O46: VECTOR is looked up in the list and then in the table, and the entry is the two pushes and one update. -/
theorem entrySaves : Obligations.EntrySaves := by
  refine ⟨fun e slot s hslot => ?vector, fun e p s hv => ?fault, fun e p handler s hv h1 h2 => ?entry⟩
  case vector =>
    have hslot : vectorSlot e = slot := by
      rcases hslot with ⟨rfl, rfl⟩ | ⟨rfl, rfl⟩ | ⟨rfl, rfl⟩ | ⟨rfl, rfl⟩ | ⟨n, rfl, rfl⟩ <;> rfl
    refine ⟨fun a l m => vectorOf_first, fun hnone => ?_⟩
    rw [vectorOf_table hnone, hslot]
    exact ⟨fun w hw => by rw [hw]; rfl, fun hw => by rw [hw]; rfl⟩
  case fault => rw [enter_noVector p hv]; rfl
  case entry =>
    obtain ⟨u, t, rfl, hent, hlo, hhi, h15, hmark, hkept⟩ := enter_completes (p := p) hv h1 h2
    have hhas := entered_has e p handler (dividerInterrupted s) u
    have hrest := entered_rest e p handler (dividerInterrupted s) u
    generalize ht : entered e p handler (dividerInterrupted s) u = t at *
    refine ⟨t, hent, hlo, hhi, h15, by rw [hrest], by rw [hrest], ?level, fun he => ?stackError,
      fun x hx hne => ?others, ?rest⟩
    case level =>
      subst ht
      cases e with
      | interrupt n =>
        obtain ⟨hsr, hcor⟩ := entered_interrupt n p handler (dividerInterrupted s) u
        exact ⟨by rw [hsr, hkept.rest], by rw [hcor, hkept.rest]⟩
      | trap x =>
        obtain ⟨hsr, hcor⟩ := entered_trap x p handler (dividerInterrupted s) u
        refine ⟨?_, by rw [hcor, hkept.rest], (hhas x).trans (if_pos rfl)⟩
        rw [hsr, hkept.rest]
        cases x <;> rfl
    case stackError => exact (hhas .stackError).trans ((if_neg he).trans hmark.of_two_writes)
    case others => exact (hhas x).trans ((if_neg hx).trans (hmark.has_other hne))
    case rest =>
      have hreg (r : Reg) (hr : r ≠ 15) : t.reg r = s.reg r ∧ t.initialised r = s.initialised r := by
        rw [← hkept.reg r hr, ← hkept.initialised r, hrest]
        exact ⟨rfl, rfl⟩
      have hram (n : Nat) (hn : n < (s.reg 15).toNat ∨ (s.reg 15).toNat + 4 ≤ n) : t.ramByte n = s.ramByte n := by
        rw [← hkept.ramByte n hn, hrest]
        rfl
      rw [hkept.rest] at hrest
      rw [hrest] at hreg hram ⊢
      exact ⟨rfl, rfl, rfl, rfl, rfl, rfl, rfl, rfl, hreg, rfl, rfl, rfl, rfl, rfl, rfl, rfl, rfl, hram⟩

/-- Settles O48: the stacked word is that of the interrupted state, and entry clears the live bit, without which the loop
mechanism does nothing. -/
theorem handlerRa : Obligations.HandlerRa := by
  intro e p s hv h1 h2
  obtain ⟨handler, hv⟩ := Option.ne_none_iff_exists'.mp hv
  obtain ⟨u, t, rfl, hent, -, hhi, -, -, hkept⟩ := enter_completes (p := p) hv h1 h2
  have hra := entered_ra e p handler (dividerInterrupted s) u
  refine ⟨_, hent, by rw [hhi, frameHigh_ra], hra, ?_, fun x => ?_⟩
  · rw [entered_rest, hkept.rest]
  · rcases loopUpdate_cases _ x with ⟨-, h⟩ | ⟨h, -⟩ | ⟨h, -⟩
    · exact h
    · exact absurd hra (by simp [h])
    · exact absurd hra (by simp [h])

end Sys2Proof.Machine
end

section
/-! SUPPORT. Which exception a boundary takes (O49; 60_exceptions.md R303, R304, R308): the order of the traps, the order of the
requests, and when the best request is accepted. -/

namespace Sys2Proof.Machine

/-! ## The order of the requests -/

/-- The request `x` comes no later than `y`: it has the higher priority, or the same one and a source number no higher
(R308; log 11). -/
def Request.Precedes (x y : Request) : Prop :=
  y.priority.toNat ≤ x.priority.toNat ∧ (y.priority = x.priority → x.source ≤ y.source)

theorem Request.Precedes.refl (x : Request) : x.Precedes x := ⟨le_rfl, fun _ => le_rfl⟩

theorem Request.Precedes.trans {x y z : Request} (h : x.Precedes y) (k : y.Precedes z) : x.Precedes z := by
  obtain ⟨hp, hs⟩ := h
  obtain ⟨kp, ks⟩ := k
  refine ⟨kp.trans hp, fun hz => ?_⟩
  have hy : y.priority = x.priority := BitVec.eq_of_toNat_eq (le_antisymm hp (hz ▸ kp))
  exact (hs hy).trans (ks (hz.trans hy.symm))

/-- The better of two requests is one of them and precedes both. -/
theorem betterRequest_spec (x y : Request) :
    (betterRequest x y = x ∨ betterRequest x y = y) ∧ (betterRequest x y).Precedes x ∧ (betterRequest x y).Precedes y := by
  unfold betterRequest
  split_ifs with hlt hgt hsource
  · exact ⟨.inr rfl, ⟨hlt.le, fun h => absurd hlt (by simp [h])⟩, .refl y⟩
  · exact ⟨.inl rfl, .refl x, ⟨hgt.le, fun h => absurd hgt (by simp [h])⟩⟩
  · exact ⟨.inr rfl, ⟨by omega, fun _ => hsource.le⟩, .refl y⟩
  · exact ⟨.inl rfl, .refl x, ⟨by omega, fun _ => by omega⟩⟩

theorem bestRequest_eq_none_iff (l : List Request) : bestRequest l = none ↔ l = [] := by
  cases l with
  | nil => simp [bestRequest]
  | cons x l => cases h : bestRequest l <;> simp [bestRequest, h]

/-- The best request is one of the pending ones and precedes them all (R303, R308). -/
theorem bestRequest_spec {l : List Request} {r : Request} (h : bestRequest l = some r) :
    r ∈ l ∧ ∀ x ∈ l, r.Precedes x := by
  induction l generalizing r with
  | nil => cases h
  | cons x l ih =>
    cases hl : bestRequest l with
    | none =>
      obtain rfl := (bestRequest_eq_none_iff l).mp hl
      cases h
      exact ⟨List.mem_cons_self, by simpa using Request.Precedes.refl _⟩
    | some y =>
      obtain ⟨hy, hall⟩ := ih hl
      obtain ⟨heq, hbx, hby⟩ := betterRequest_spec x y
      obtain rfl : betterRequest x y = r := by simpa [bestRequest, hl] using h
      refine ⟨?_, List.forall_mem_cons.mpr ⟨hbx, fun z hz => hby.trans (hall z hz)⟩⟩
      rcases heq with heq | heq
      · rw [heq]; exact List.mem_cons_self
      · rw [heq]; exact List.mem_cons_of_mem x hy

/-! ## The step at a boundary -/

theorem accepts_iff {s : State} {p : BitVec 3} :
    accepts s p = true ↔ cpuIpl s < p.toNat ∧ (s.disicnt = 0 ∨ p = 7) := by
  have hp : p.toNat ≤ 6 ↔ p ≠ 7 := by
    have := p.isLt
    rw [ne_eq, ← BitVec.toNat_inj, show (7 : BitVec 3).toNat = 7 from rfl]
    omega
  simp only [accepts, hp, Bool.and_eq_true, decide_eq_true_eq, Bool.not_eq_true', Bool.and_eq_false_iff, bne_eq_false_iff_eq,
    decide_eq_false_iff_not, not_not]

theorem step_request {s : State} {r : Request} (hpow : s.power = .running) (hpc : s.pcOut = false)
    (htrap : s.pendingTraps = .none) (hr : bestRequest s.pending = some r) :
    step s = if accepts s r.priority then finish s (enter (.interrupt r.source) r.priority s) else stepInstruction s := by
  have hhigh := s.pendingTraps.highest_eq_none_iff.mpr htrap
  simp only [step, cpuStep, hpow, boundary, hpc, hhigh, hr, Bool.false_eq_true, if_false]

theorem step_noRequest {s : State} (hpow : s.power = .running) (hpc : s.pcOut = false) (htrap : s.pendingTraps = .none)
    (h : s.pending = []) : step s = stepInstruction s :=
  step_quiet (quiet_iff.mpr ⟨hpow, hpc, s.pendingTraps.highest_eq_none_iff.mpr htrap, by rw [h]; nofun⟩)

/-- Settles O49: the highest pending trap by its place in the order, then the best request, where it is accepted. -/
theorem acceptance : Obligations.Acceptance := by
  refine ⟨fun s hpow hpc => ?_, fun l => ⟨bestRequest_eq_none_iff l, fun r => bestRequest_spec⟩⟩
  refine ⟨fun h1 => ?osc, fun h1 h2 => ?addr, fun h1 h2 h3 => ?stack, fun h1 h2 h3 h4 => ?arith,
    fun htrap => ⟨?taken, ?held, ?idle⟩⟩
  case osc => exact step_trap hpow hpc (by simp [TrapSet.highest, h1])
  case addr => exact step_trap hpow hpc (by simp [TrapSet.highest, h1, h2])
  case stack => exact step_trap hpow hpc (by simp [TrapSet.highest, h1, h2, h3])
  case arith => exact step_trap hpow hpc (by simp [TrapSet.highest, h1, h2, h3, h4])
  case taken =>
    intro r hr hlevel hdisi
    rw [step_request hpow hpc htrap hr, if_pos (accepts_iff.mpr ⟨hlevel, hdisi⟩)]
  case held =>
    intro r hr hheld
    rw [step_request hpow hpc htrap hr, if_neg]
    rw [accepts_iff]
    rintro ⟨hlevel, hdisi⟩
    rcases hheld with hlow | ⟨hcount, hlow⟩
    · exact absurd hlevel hlow.not_gt
    · rcases hdisi with hzero | hseven
      · exact hcount hzero
      · exact absurd hlow (by simp [hseven])
  case idle => exact step_noRequest hpow hpc htrap

end Sys2Proof.Machine
end

section
/-! SUPPORT. The stack check (O50; 60_exceptions.md R296, R300; 70_reset_and_hazards.md R340): what it makes of the state, and that
a push which fails it still completes. -/

namespace Sys2Proof.Machine

/-- Outside the hazard of R340 a check raises `StackError` for a failing address and does nothing else (R300). -/
theorem stackCheck_eq_raise {isRead : Bool} (a : Int) {s : State} (h : isRead = false ∨ s.splimJustWritten = false) :
    stackCheck isRead a s = if badStackAddr a s then s.raise .stackError else s := by
  have hlim : limitTest isRead a s = (overLimit a s, s) := if_neg (by rcases h with h | h <;> simp [h])
  simp only [stackCheck, hlim, badStackAddr_eq]

theorem limitTest_disabled {isRead : Bool} {a : Int} {s : State} (h : s.splimEn = false) : (limitTest isRead a s).1 = false := by
  unfold limitTest
  split
  · simp [h]
  · simp [overLimit, h]

theorem outsideStackSpace_disabled {a : Int} {s : State} (h : s.splimEn = false) :
    outsideStackSpace a s = decide (a < 0x0800) := by
  simp [outsideStackSpace, h]

/-- A push onto RAM completes with the check of its address made, failing or not (R296). -/
theorem push16_pendingTraps {v : Word} {s t : State} (h : push16 v s = .ok t) :
    t.pendingTraps =
      { s.pendingTraps with stackError := s.pendingTraps.stackError || badStackAddr (s.reg 15).toNat s } := by
  obtain ⟨hosc, haddr, harith, hstack, -⟩ := push16_marks h
  have hstack := hstack (.inr (.inr rfl))
  simp only [List.any_nil, List.any_cons, Bool.or_false] at hstack
  calc t.pendingTraps
    _ = ⟨t.pendingTraps.oscillatorFailure, t.pendingTraps.addressError, t.pendingTraps.stackError,
          t.pendingTraps.arithmeticError⟩ := rfl
    _ = _ := by rw [hosc, haddr, hstack, harith]

/-- Settles O50: the check is a case split on its tests, and a push is the check and a write that it does not stop. -/
theorem stackErrorLaw : Obligations.StackErrorLaw := by
  refine ⟨fun isRead a s => ⟨stackCheck_eq_raise a, fun ho => ?outside, fun hdis => ?disabled, ?rest⟩, fun v s h => ?push,
    fun k s => ⟨_, rfl, rfl⟩⟩
  case outside => rw [stackCheck_stackError, ho, Bool.or_true, Bool.true_or]
  case disabled =>
    rw [stackCheck_stackError, limitTest_disabled hdis, outsideStackSpace_disabled hdis, Bool.or_false]
  case rest =>
    obtain ⟨e, n, h, -⟩ := stackCheck_eq isRead a s
    exact ⟨e, n, h⟩
  case push =>
    obtain ⟨t, ht, hread, h15⟩ := push16_on_ram v h
    exact ⟨t, ht, hread, h15, push16_pendingTraps ht⟩

end Sys2Proof.Machine
end

section
/-! SUPPORT. The multiply words without a destination (O4; 30_encoding.md R103, R113; 70_reset_and_hazards.md R347). -/

namespace Sys2Proof.Laws

/-- The decoder takes the destination first, whatever the rest of a multiply word is. -/
theorem decodeMul_noPair {w : ProgWord} {reg : Reg → MulPair → Mode → Reg → Instr}
    {lit : Option (Reg → MulPair → BitVec 5 → Instr)} (h : mulPairField w = none) : decodeMul w reg lit = none := by
  rw [decodeMul, h]
  rfl

/-- An odd destination number, or 14, is none of a pair (R106, R347). -/
theorem mulPairField_eq_none {w : ProgWord} (h : field w 7 1 = 1 ∨ field w 7 4 = 14) : mulPairField w = none := by
  refine Option.eq_none_iff_forall_not_mem.mpr fun d hd => ?_
  have hd := mulPairField_eq_some_iff.mp hd
  simp only [field] at h hd
  omega

theorem isTwoWord_of_opcode {w : ProgWord} (h2 : field w 16 8 ≠ 0x02) (h4 : field w 16 8 ≠ 0x04) : isTwoWord w = false := by
  rw [Bool.eq_false_iff, ne_eq, isTwoWord_iff]
  tauto

theorem decode_unknownWord {w w2 : ProgWord} (h2 : isTwoWord w = false) (h : decodeFirst w w2 = none) :
    decode w w2 = .error (.unknownWord w) := by
  simp [decode, h2, h]

end Sys2Proof.Laws

namespace Sys2Proof.Machine

/-- A word of no instruction is refused where it is fetched (R113). -/
theorem step_unknownWord {s : State} {w : ProgWord} (hq : quiet s = true) (hw : s.progWord s.pc.toNat = some w)
    (h2 : isTwoWord w = false) (hd : decode w 0 = .error (.unknownWord w)) : step s = .refused (.unknownWord w) := by
  obtain ⟨-, hpc, -, -⟩ := quiet_iff.mp hq
  have hres : decodeRes w 0 = .error (.refuse (.unknownWord w)) := by rw [decodeRes, hd]
  have hf : fetch s = .error (.refuse (.unknownWord w)) := by
    simp only [fetch, hpc, hw, h2, hres, Bool.false_eq_true, if_false]
  rw [step_quiet hq, stepInstruction, hf]
  rfl

/-- Settles O4: all multiplies of the two opcodes need the destination's pair, which the word does not have. -/
theorem mulDestinationRefused : Obligations.MulDestinationRefused := by
  intro w w2 hop hdst
  have hpair := Laws.mulPairField_eq_none hdst
  have h2 : isTwoWord w = false := by
    refine Laws.isTwoWord_of_opcode ?_ ?_ <;> omega
  have hfirst (x : ProgWord) : decodeFirst w x = none := by
    rcases hop with hop | hop
    all_goals
      obtain ⟨h20, h16⟩ := Laws.parts_of_field_16_8 hop
      simp [decodeFirst, decodeB, h20, h16, Laws.decodeMul_noPair hpair]
  exact ⟨Laws.decode_unknownWord h2 (hfirst w2),
    fun s hq hw => step_unknownWord hq hw h2 (Laws.decode_unknownWord h2 (hfirst 0))⟩

end Sys2Proof.Machine
end

section
/-! SUPPORT. What a device reset leaves (O53; 70_reset_and_hazards.md R330; log 8, log 32). -/

namespace Sys2Proof.Machine

theorem deviceReset_reg (c : ResetCause) (s : State) (r : Reg) :
    (deviceReset c s).reg r = if r = 15 then 0x0800 else 0 := by
  by_cases h : r = 15
  · subst h
    rfl
  · have hne : 15 ≠ r.val := fun e => h (Fin.ext e.symm)
    simp [State.reg, deviceReset, h, hne]

theorem deviceReset_initialised {r : Reg} (c : ResetCause) (s : State) (h : r ≠ 15) :
    (deviceReset c s).initialised r = false := by
  have hlt : r.val < 15 := Nat.lt_of_le_of_ne (Nat.le_of_lt_succ r.isLt) fun e => h (Fin.ext e)
  simp [State.initialised, deviceReset, hlt]

theorem deviceReset_splim_even (c : ResetCause) (s : State) : (deviceReset c s).splim.getLsbD 0 = false := by
  simp [deviceReset]

/-- RAM holds through every reset but a power-on (log 32). -/
theorem deviceReset_ramByte {c : ResetCause} (s : State) (h : c ≠ .powerOn) (n : Nat) :
    (deviceReset c s).ramByte n = s.ramByte n := by
  simp [State.ramByte, deviceReset, h]

/-- After a power-on a byte of RAM is the free value of the power-on and its address (log 8). -/
theorem deviceReset_ramByte_powerOn (s : State) (n : Nat) :
    (deviceReset .powerOn s).ramByte n = Config.ramPowerOn (deviceReset .powerOn s).ramEpoch n := rfl

/-- Settles O53: each register and each memory by its own lemma, and the rest is written out in the reset. -/
theorem resetState : Obligations.ResetState := by
  intro c s
  refine ⟨fun r hr => ⟨?_, deviceReset_initialised c s hr⟩, deviceReset_reg c s 15, deviceReset_splim_even c s,
    rfl, rfl, rfl, rfl, rfl, rfl, rfl, rfl, rfl, rfl, deviceReset_ramByte s, ?_, rfl, rfl, rfl, rfl, rfl, rfl⟩
  · rw [deviceReset_reg, if_neg hr]
  · rintro rfl
    exact deviceReset_ramByte_powerOn s

end Sys2Proof.Machine
end
